-- ==== Sys2Proof/Word.lean ====
section
/-!
DEFINITION. The word types of the D48: bytes on its serial ports, 16-bit samples, 48-bit console identities, 16-bit tags, and the table type that holds numbered records.
-/
namespace Sys2Proof

/-- One byte on a serial port (SPI, console link, line bus, image memory). -/
abbrev Byte := BitVec 8

/-- One audio sample, 16-bit two's complement (0.9, R114). -/
abbrev Sample := BitVec 16

/-- A console's 48-bit identity (R141, R144). -/
abbrev Identity := BitVec 48

/-- The tag of a request record, echoed in its result (R184). -/
abbrev Tag := BitVec 16

/-- A table of numbered records: (number, record) in rising order; a number that is not listed is FREE (R1, R19, R78, R79, R102, R110). -/
abbrev Table (α : Type) := List (Nat × α)

/-- The levels of the two console link wires as the controller reads them with both released: true is high (R142, R164). -/
structure Wires where
  clk : Bool
  dat : Bool
  deriving DecidableEq, Repr

/-- The three microphone samples of one position in a frame of the position highway (5.3). -/
structure Mics where
  h1 : Sample
  h2 : Sample
  spk : Sample
  deriving DecidableEq, Repr

/-- The three samples sent to one position in a frame of the position highway (5.3). -/
structure Ears where
  h1 : Sample
  h2 : Sample
  spk : Sample
  deriving DecidableEq, Repr

end Sys2Proof
end

