-- ==== Sys2Proof/Syntax.lean ====
section
/-!
DEFINITION. The commands of the D48: one constructor per row of spec/opcode_table.json, with the operands that reach the block from outside. A request row has no operand: the executor takes the head of the request queue, whose record carries everything (R189).
-/
namespace Sys2Proof

/-- What brings a cold start (R198): power-up, or RESET_N going low while KEEP is low. -/
inductive ColdCause where
  | powerUp
  | resetLow
  deriving DecidableEq, Repr

/-- The two moments of a transaction with one console (R146): the controller sends its message, and the reply field ends. Silence is the reply without bytes. -/
inductive LinkPhase where
  | sent
  | reply (bytes : List Byte)
  deriving DecidableEq, Repr

/-- The moments of a READ_STATUS transaction (R186): one of its bytes starts; the transaction ends. -/
inductive StatusPhase where
  | byteStarts
  | ends
  deriving DecidableEq, Repr

/-- The commands, one per row of the table. -/
inductive Instr where
  /-- COLD_START (R198). Power-up, or RESET_N going low while KEEP is low, holds every block until reset is released. -/
  | coldStart (cause : ColdCause)
  /-- RESET_RELEASE (R198). RESET_N rising (or power-up completing with RESET_N high) loads every block's cold-start values and sets the part state to STARTING_IMAGE; after a warm restart it lets the supervisory port take transactions again. -/
  | resetRelease
  /-- WARM_RESTART (R192). RESET_N going low while KEEP is high empties both queues, the frame state and the attention sets, restores reset levels, clears mask and enable, and drops any held request's result. -/
  | warmRestart
  /-- IMAGE_HEADER (R199). The loader reads the four header bytes of the image memory and sets the image status to NONE, BAD_SIGNATURE or LOADED. -/
  | imageHeader (bytes : List Byte) (wires : Wires)
  /-- IMAGE_SECTION (R200). The loader reads one section whole and checks its kind and sum, then skips it or applies its items one at a time. -/
  | imageSection (bytes : List Byte) (wires : Wires)
  /-- WRITE_REQUEST (R184). A WRITE_REQUEST transaction ends: the request record joins the request queue, or is discarded with the FULL flag set. -/
  | writeRequest (bytes : List Byte)
  /-- READ_RESULT (R185). A READ_RESULT transaction returns the head result record, or the empty record, and removes the head. -/
  | readResult (clocked : Nat)
  /-- READ_STATUS (R186). A READ_STATUS transaction returns the part state, queue counts, attention pending and the FULL flag, then clears a reported FULL flag. -/
  | readStatus (phase : StatusPhase)
  /-- SPI_UNKNOWN_OPERATION (R183). A transaction whose operation byte is none of the three defined values has no effect. -/
  | spiUnknownOperation (op : Byte) (clocked : Nat)
  /-- REQUEST_SKIPPED (R191). A request taken inside a failed frame is answered SKIPPED without reaching any block. -/
  | requestSkipped
  /-- REQUEST_MALFORMED (R189). A taken request with a bad body length or an unknown request code is answered BAD_VALUE by the executor. -/
  | requestMalformed
  /-- DEFINE_LINE (R122). Defines a line and gives it its first state by the in-service test. -/
  | defineLine
  /-- CHANGE_LINE (R123). Changes the configuration fields of a line after checks of range, use and port conflict. -/
  | changeLine
  /-- RETIRE_LINE (R125). Retires a line at once when it is at rest, and otherwise makes it RETIRING and returns DEFERRED. -/
  | retireLine
  /-- READ_LINE (R127). Returns the fields of a line. -/
  | readLine
  /-- FORCE_RELEASE (R50). Takes a line that is not OUT_OF_SERVICE to IDLE, removing its parties and clearing missed. -/
  | forceRelease
  /-- CLEAR_MISSED (R51). Sets a line's missed flag false. -/
  | clearMissed
  /-- DEFINE_APPEARANCE (R128). Defines an appearance of a line on a key of a position and marks its key. -/
  | defineAppearance
  /-- CHANGE_APPEARANCE (R129). Changes the ring_mode, barge or route of an appearance. -/
  | changeAppearance
  /-- RETIRE_APPEARANCE (R130). Frees an appearance and marks its key so that it shows OFF. -/
  | retireAppearance
  /-- READ_APPEARANCE (R131). Returns an appearance's fields together with its derived lamp and audible flag. -/
  | readAppearance
  /-- LOAD_APPEARANCES (R132). Takes a run of up to 24 appearance definitions and holds the executor until the run is applied or an item fails. -/
  | loadAppearances
  /-- LOAD_APPEARANCES_ITEM (R132). Applies one item of a LOAD-APPEARANCES run, whole, against the current tables, and completes the request on the last item or a failing one. -/
  | loadAppearancesItem
  /-- DEFINE_GROUP (R134). Defines an intercom group with its settings. -/
  | defineGroup
  /-- CHANGE_GROUP (R135). Changes a group's settings, with the floor effects of R97. -/
  | changeGroup
  /-- RETIRE_GROUP (R136). Removes every member of a group, releases its bridge or wait-list place, and frees the group. -/
  | retireGroup
  /-- READ_GROUP (R137). Returns a group's settings, floor lists and bridge standing. -/
  | readGroup
  /-- ADD_MEMBER (R138). Adds a POSITION or CIRCUIT membership to a group. -/
  | addMember
  /-- REMOVE_MEMBER (R139). Removes a membership by R81 or R83. -/
  | removeMember
  /-- READ_MEMBER (R139). Returns a membership's fields. -/
  | readMember
  /-- LOCK_POSITION (R57). Sets a position's lock and ends any PTT it holds. -/
  | lockPosition
  /-- UNLOCK_POSITION (R57). Clears a position's lock. -/
  | unlockPosition
  /-- INJECT_EVENT (R69). Acts on one event for a position as under LOCAL, whatever the disposition of its kind. -/
  | injectEvent
  /-- TAKE_KEYS (R68). Returns and empties a position's pressed-key set. -/
  | takeKeys
  /-- SET_DISPOSITION (R64). Sets the disposition of one event kind. -/
  | setDisposition
  /-- ADMIT_CONSOLE (R155). Admits a console identity to a position, and wants a sequence when that identity is parked. -/
  | admitConsole
  /-- REVOKE_CONSOLE (R156). Detaches the position, parks its identity, empties the admission entry and sets park pending. -/
  | revokeConsole
  /-- READ_PARKED (R157). Returns the parked list, and empties it when the clear flag is set. -/
  | readParked
  /-- SET_JOIN_POLICY (R158). Sets the join policy to ACCEPT or IGNORE. -/
  | setJoinPolicy
  /-- ROLL_CALL (R162). Starts or queues a roll-call sequence of the given scope and holds the executor until that sequence ends. -/
  | rollCall
  /-- LINK_RESET (R165). Asks for a console link recovery attempt and holds the executor until the attempt is made. -/
  | linkReset
  /-- READ_POSITION (R76). Returns a position's attach state, console state, bindings and pending counts. -/
  | readPosition
  /-- SET_WINDOW (R169). Sets a port window, with the card and in-service effects of R170. -/
  | setWindow
  /-- READ_WINDOW (R169). Returns a port window's fields and the number of lines it maps. -/
  | readWindow
  /-- READ_CARD (R171). Returns a card's presence, miss count and line counts. -/
  | readCard
  /-- PASS (R181). Places a host command in the pass-through slot and holds the executor until its outcome is taken. -/
  | pass
  /-- SET_RESERVE (R103). Sets the line reserve, and serves the bridge wait list when the reserve is lowered. -/
  | setReserve
  /-- READ_POOL (R109). Returns the bridge pool, the wait list and the slot counts. -/
  | readPool
  /-- SET_ATTENTION (R194). Sets the reason levels, the mask and enable. -/
  | setAttention
  /-- TAKE_ATTENTION (R195). Returns and empties the highest attention entry above the mask. -/
  | takeAttention
  /-- READ_IDENTITY (R201). Returns the part identity, the image status and the image counts. -/
  | readIdentity
  /-- REQUEST_WINDOW (R150). A link-cycle request window reads the answer bit and address field and dispatches on the winning address. -/
  | requestWindow (answer : Option (BitVec 6))
  /-- EVENT_MESSAGE (R151). A console's EVENT message is judged and answered with ACK or NAK, and its events are handed to the position controller. -/
  | eventMessage (bytes : List Byte)
  /-- OUTPUT (R152). An OUTPUT of up to four items is built for the next position with output pending, sent, and its reply taken. -/
  | output (phase : LinkPhase)
  /-- POLL (R153). A POLL is sent to the position idle longest, and its reply or miss is counted. -/
  | poll (phase : LinkPhase)
  /-- PARK (R156). A PARK is sent to the lowest position with park pending, and park pending is cleared. -/
  | park (phase : LinkPhase)
  /-- POSITION_DETACH (R154). A position's miss count reaches 3 and the position is detached, with the line, group and position effects of the loss. -/
  | positionDetach (pos : Nat)
  /-- SEQUENCE_BEGIN (R159). A wanted or requested roll-call sequence begins when the cycle step in progress ends. -/
  | sequenceBegin
  /-- ROLL_CALL_ROUND (R160). One roll-call round arbitrates an identity, then assigns or parks the winner. -/
  | rollCallRound (identity : Identity) (check : Byte) (reply : List Byte)
  /-- ROLL_CALL_SILENCE (R162). No console pulls the answer bit low within 2 ms, so the sequence ends. -/
  | rollCallSilence
  /-- ROUND_CAP (R162). The round count reaches 64 and the sequence ends. -/
  | roundCap
  /-- LINK_STUCK (R163). A wire found low throughout 20 ms makes the link STUCK, abandons the transaction in progress and ends any sequence. -/
  | linkStuck (wires : Wires)
  /-- RECOVERY_ATTEMPT (R164). A recovery attempt (clock pulses, then a stop condition) reads both wires and returns the link to RUNNING or schedules the next attempt 100 ms later. -/
  | recoveryAttempt (wires : Wires)
  /-- BUS_GRANT (R173). With the bus free, the arbiter grants it to REPORT, LINE, PASS or PROBE and issues one command. -/
  | busGrant (lbReq : Bool)
  /-- SEIZE (R176). The outcome of a SEIZE command is taken against the line; an orphaned ACCEPTED seize is followed by a cleanup RELEASE. -/
  | seize (response : List Byte)
  /-- RELEASE (R176). The outcome of a RELEASE command is taken, setting or forcing acknowledged.seized false. -/
  | release (response : List Byte)
  /-- RING_ON (R176). The outcome of a RING_ON command is taken; a REJECTED outcome faults the port. -/
  | ringOn (response : List Byte)
  /-- RING_OFF (R176). The outcome of a RING_OFF command is taken. -/
  | ringOff (response : List Byte)
  /-- CONNECT (R176). The outcome of a CONNECT command is taken, and the slot may be freed. -/
  | connect (response : List Byte)
  /-- DISCONNECT (R176). The outcome of a DISCONNECT command is taken, and the slot may be freed. -/
  | disconnect (response : List Byte)
  /-- FETCH (R178). The outcome of a FETCH is taken: EMPTY, a report delivered to its line, or a CARD_RESET. -/
  | fetch (response : List Byte)
  /-- PROBE (R180). The outcome of a PROBE is taken; when ACCEPTED, CARD_CLEAR follows on the same grant. -/
  | probe (response : List Byte) (wires : Wires)
  /-- CARD_CLEAR (R180). The outcome of a CARD_CLEAR is taken, and an ACCEPTED one makes the card PRESENT and returns its lines to service. -/
  | cardClear (response : List Byte) (wires : Wires)
  /-- PASS_COMMAND (R181). The outcome of a host pass-through command is taken and completes the PASS request. -/
  | passCommand (response : List Byte)
  /-- RESPONSE_TIMEOUT (R172). The response limit runs out without a valid response, giving the command in flight the outcome NO_RESPONSE. -/
  | responseTimeout (wires : Wires)
  /-- CARD_LOSS (R177). A PRESENT card's miss count reaches 3, so the card becomes ABSENT and its lines go OUT_OF_SERVICE(NO_CARD). -/
  | cardLoss (card : Nat)
  /-- PROBE_TICK (R180). The 1 s probe timer expires and every named ABSENT card becomes probe due. -/
  | probeTick
  /-- RING_EXPIRY (R35). The RING timer expires, ending ringing in (missed set) or ringing out (NO_ANSWER refusal). -/
  | ringExpiry (line : Nat)
  /-- RECALL_WAIT_EXPIRY (R43). The RECALL_WAIT timer expires, moving a HELD line to RECALL, or to IDLE when it is RETIRING. -/
  | recallWaitExpiry (line : Nat)
  /-- RING_BURST_EXPIRY (R33). The RING_BURST timer expires and desired.ring_out becomes false. -/
  | ringBurstExpiry (line : Nat)
  /-- TALK_TIMER_EXPIRY (R93). A talker's talk timer expires, revoking its floor and running the grant pass. -/
  | talkTimerExpiry (member : Nat)
  /-- AUDIO_FRAME (R114). Each 125 µs frame computes every line, group and position destination sample from the records. -/
  | audioFrame (line : Vector Sample 128) (pos : Vector Mics 48)
  deriving DecidableEq, Repr

end Sys2Proof
end

