-- ==== Sys2Proof/Decode.lean ====
section
/-!
DEFINITION. The decoder over the table's rows that give bits (no row of spec/opcode_table.json gives any, so no word spells a command), and the reading of the bytes of an SPI transaction, whose first byte selects the operation (R183).
-/
namespace Sys2Proof

/-- The command that an nbits-bit word w spells by the table's bits: none, for no row gives bits (log 29). -/
def decodeTableWord (_nbits _w : Nat) : Option Instr := none

/-- R183: the operations of an SPI transaction. -/
inductive SpiOperation where
  | writeRequest
  | readResult
  | readStatus
  deriving DecidableEq, Repr

/-- R183: the operation that the operation byte selects; none for every other byte. -/
def spiOperation (op : Byte) : Option SpiOperation :=
  if op = 0xA1 then some .writeRequest
  else if op = 0xA2 then some .readResult
  else if op = 0xA3 then some .readStatus
  else none

/-- R183: the commands of the transaction in which the host sends these bytes on SP_DI: its first byte selects the operation for the whole of it. A READ_STATUS comes as the start of each byte after the operation byte and its end (log 13). A transaction without a whole operation byte has no effect. -/
def spiCommands : List Byte → List Instr
  | [] => []
  | op :: after => match spiOperation op with
    | some .writeRequest => [.writeRequest after]
    | some .readResult => [.readResult after.length]
    | some .readStatus => after.map (fun _ => .readStatus .byteStarts) ++ [.readStatus .ends]
    | none => [.spiUnknownOperation op after.length]

end Sys2Proof
end

