-- ==== Sys2Proof/Config.lean ====
section
/-!
DEFINITION. What the spec leaves open as a value (free values, without a body), and the fixed sizes of the part.
-/
namespace Sys2Proof

/-- Free value (log 9): the sequence flag the controller reads from the flag byte of an EVENT message when that byte is neither 0 nor 1. R147 gives the byte only the values 0 and 1, and R151 does not list another value among what makes the message not valid, so the message is taken and its flag is unknown. -/
opaque Config.strayFlag : Byte → Bool

/-- R102: the bridge pool holds 64 bridges. -/
abbrev Config.bridges : Nat := 64
/-- R110: the slot pool holds 128 slots. -/
abbrev Config.slots : Nat := 128
/-- 1.1: the line table has 384 entries. -/
abbrev Config.lines : Nat := 384
/-- R19: the appearance table has 2048 entries. -/
abbrev Config.appearances : Nat := 2048
/-- 4.1: the group table has 32 entries. -/
abbrev Config.groups : Nat := 32
/-- R79: the membership table has 512 entries. -/
abbrev Config.members : Nat := 512
/-- R188: each queue of the supervisory port holds at most 16 records. -/
abbrev Config.queue : Nat := 16
/-- R160: a roll-call sequence has at most 64 rounds. -/
abbrev Config.rounds : Nat := 64
/-- R157: the parked list holds at most 8 identities. -/
abbrev Config.parked : Nat := 8

end Sys2Proof
end

