-- ==== Sys2Proof/Machine/State.lean ====
section
/-!
DEFINITION. The state of the D48: every record, list, counter, mode and pin the spec names, as plain data, with its value after a cold start (State.reset).
-/
namespace Sys2Proof.Machine

/-! ### Lines and appearances (chapter 1) -/

/-- R2 to R5: the kind of a line. -/
inductive LineType where
  /-- RINGDOWN -/
  | ringdown
  /-- SIGNALLED -/
  | signalled
  /-- OPEN -/
  | openLine
  deriving DecidableEq, Repr

/-- R17: PRIVATE (`closed`) or SHARED. -/
inductive Privacy where
  /-- PRIVATE -/
  | closed
  /-- SHARED -/
  | shared
  deriving DecidableEq, Repr

/-- R8: why a line is OUT_OF_SERVICE. -/
inductive OosReason where
  | unmapped
  | noCard
  | portFault
  deriving DecidableEq, Repr

/-- R9: the call state of a line. The oos_reason of R8 is present exactly in OUT_OF_SERVICE, so it stands in that state. -/
inductive LineState where
  | idle
  | ringingIn
  | ringingOut
  | connected
  | held
  | recall
  | outOfService (reason : OosReason)
  deriving DecidableEq, Repr

/-- R1: the lifecycle of a line that is not FREE. -/
inductive Lifecycle where
  | defined
  | retiring
  deriving DecidableEq, Repr

/-- A handset of a position. -/
inductive Handset where
  | h1
  | h2
  deriving DecidableEq, Repr

/-- Any of the ten channels of a position: H1, H2, S0 to S7. -/
inductive Channel where
  | hand (h : Handset)
  | spk (n : Fin 8)
  deriving DecidableEq, Repr

/-- R10: one entry of a party list. -/
structure Party where
  pos : Fin 48
  ch : Channel
  deriving DecidableEq, Repr

/-- R13, R14: a port condition. -/
structure Cond where
  seized : Bool
  ringOut : Bool
  audio : Bool
  deriving DecidableEq, Repr

/-- All three fields false. -/
def Cond.off : Cond := ⟨false, false, false⟩

/-- Seized and audio: the condition of a call (R13). -/
def Cond.call : Cond := ⟨true, false, true⟩

/-- R15: the kinds of line timer. -/
inductive TimerKind where
  | ring
  | recallWait
  | ringBurst
  deriving DecidableEq, Repr

/-- R15: a running line timer; the remaining time is kept in milliseconds (log 22) and read in whole seconds, rounded up. -/
structure LineTimer where
  kind : TimerKind
  ms : Nat
  deriving DecidableEq, Repr

/-- R2: the record of a DEFINED or RETIRING line. -/
structure Line where
  lifecycle : Lifecycle
  type : LineType
  port : Nat
  privacy : Privacy
  maxParties : Nat
  ringTimeout : Nat
  holdRecall : Nat
  state : LineState
  parties : List Party
  holdOwner : Option (Fin 48)
  bridge : Option Nat
  slot : Option Nat
  desired : Cond
  acknowledged : Cond
  missed : Bool
  timer : Option LineTimer
  deriving DecidableEq, Repr

/-- R20: how an incoming or recalled call is presented. -/
inductive RingMode where
  | audible
  | visual
  | silent
  deriving DecidableEq, Repr

/-- R20: which channel a press uses. -/
inductive Route where
  | handset
  | speaker (n : Fin 8)
  deriving DecidableEq, Repr

/-- R19: the record of a DEFINED appearance. -/
structure Appearance where
  line : Nat
  pos : Fin 48
  key : Nat
  ringMode : RingMode
  barge : Bool
  route : Route
  deriving DecidableEq, Repr

/-- R21: the lamps. -/
inductive Lamp where
  | off
  | ring
  | recall
  | outgoing
  | mine
  | busy
  | joinable
  | heldMine
  | heldOther
  | heldOpen
  | missed
  | fault
  deriving DecidableEq, Repr

/-! ### Positions (chapter 3) -/

/-- R147: the key refusal reasons. -/
inductive KeyRefusal where
  | noAppearance
  | noHandset
  | privateBusy
  | full
  | noBridge
  | noPath
  | heldPrivate
  | notNow
  | outOfService
  | retiring
  | already
  | notBound
  | listenOnly
  | pttBusy
  | floorFull
  | channelBusy
  | noAnswer
  deriving DecidableEq, Repr

/-- R70: the subject of a refusal, a key code 0..130 or a channel. -/
inductive Subject where
  | key (code : Nat)
  | channel (ch : Channel)
  deriving DecidableEq, Repr

/-- R70: a refusal record. -/
structure RefusalRecord where
  reason : KeyRefusal
  subject : Subject
  deriving DecidableEq, Repr

/-- R61: what a speaker channel is bound to. -/
inductive Binding where
  | none
  | line (id : Nat)
  | member (id : Nat)
  deriving DecidableEq, Repr

/-- R56: the record of a position. hook fields: true is OFF (off-hook), false is ON. -/
structure Position where
  attached : Bool
  lock : Bool
  identity : Option Identity
  offHook1 : Bool
  offHook2 : Bool
  selected : Option Handset
  ptt : Option (Fin 8)
  volume : Vector Nat 8
  hand1 : Option Nat
  hand2 : Option Nat
  speaker : Vector Binding 8
  pressed : List Nat
  refusal : Option RefusalRecord
  channelPending : List Nat
  lampPending : List Nat
  deriving DecidableEq, Repr

/-- R57: the attach state. -/
inductive AttachState where
  | detached
  | attached
  | locked
  deriving DecidableEq, Repr

/-- R64: the dispositions. -/
inductive Disposition where
  | localAct
  | forward
  | both
  deriving DecidableEq, Repr

/-- R64: the key disposition table (FUNC_KEY is always FORWARD). -/
structure Dispositions where
  lineKey : Disposition
  release : Disposition
  hold : Disposition
  ring : Disposition
  hook : Disposition
  ptt : Disposition
  volume : Disposition
  deriving DecidableEq, Repr

/-! ### Groups (chapter 4) -/

/-- R78, R91: the order of the waiting list. -/
inductive Policy where
  | arrival
  | priority
  deriving DecidableEq, Repr

/-- R78: the record of a DEFINED group. -/
structure Group where
  talkerLimit : Nat
  talkTime : Nat
  policy : Policy
  preempt : Bool
  talkers : List Nat
  waiting : List Nat
  bridge : Option Nat
  inWaitList : Bool
  deriving DecidableEq, Repr

/-- R79: what a member is. -/
inductive MemberKind where
  | position (p : Fin 48) (n : Fin 8)
  | circuit (line : Nat)
  deriving DecidableEq, Repr

/-- R79 -/
inductive Role where
  | talk
  | listen
  deriving DecidableEq, Repr

/-- R79: a member's standing on the talk floor. -/
inductive TalkFloor where
  | idle
  | waiting
  | talking
  deriving DecidableEq, Repr

/-- R79: the record of a DEFINED membership; the talk timer is kept in milliseconds (log 22). -/
structure Member where
  group : Nat
  kind : MemberKind
  role : Role
  priority : Nat
  floor : TalkFloor
  talkTimer : Option Nat
  deriving DecidableEq, Repr

/-- R62: the states of a channel indicator. -/
inductive Indicator where
  | off
  | line
  | listen
  | waiting
  | talking
  | revoked
  deriving DecidableEq, Repr

/-! ### Pools (chapter 5) -/

/-- R102: the owner of an ALLOCATED bridge. -/
inductive Owner where
  | line (id : Nat)
  | group (id : Nat)
  deriving DecidableEq, Repr

/-! ### Attention (chapter 9) -/

/-- R193: the sources of attention entries. -/
inductive Entry where
  | part
  | link
  | pool
  | card (id : Nat)
  | position (id : Nat)
  | group (id : Nat)
  | line (id : Nat)
  deriving DecidableEq, Repr

/-- R193, R194: the 21 reason kinds, in the order of R194. -/
inductive Reason where
  | image
  | stuck
  | recovered
  | parked
  | join
  | noBridge
  | noPath
  | present
  | absent
  | reset
  | attached
  | detached
  | keys
  | console
  | floor
  | waiting
  | groupRetired
  | state
  | missed
  | fault
  | lineRetired
  deriving DecidableEq, Repr

/-! ### Line bus (chapter 8) -/

/-- R168: a port window. -/
structure Window where
  enabled : Bool
  base : Nat
  size : Nat
  card : Fin 32
  firstChannel : Nat
  limit : Nat
  deriving DecidableEq, Repr

/-- R171: a card. -/
structure Card where
  present : Bool
  miss : Nat
  probeDue : Bool
  deriving DecidableEq, Repr

/-- R175: the commands for a line's port. -/
inductive LineCmd where
  | seize
  | release
  | ringOn
  | ringOff
  | connect
  | disconnect
  deriving DecidableEq, Repr

/-- R173, R175: what the command in flight is. `cleanup` is the RELEASE of R176 after an orphaned SEIZE. -/
inductive BusJob where
  | line (id : Nat) (cmd : LineCmd)
  | cleanup
  | fetch
  | probe
  | cardClear
  | pass
  deriving DecidableEq, Repr

/-- R175: the in-flight record. `limit` is the response limit in milliseconds, `left` what remains of it. -/
structure InFlight where
  job : BusJob
  card : Fin 32
  channel : Nat
  limit : Nat
  left : Nat
  deriving DecidableEq, Repr

/-- R181: a command in the pass-through slot. -/
structure PassCmd where
  card : Fin 32
  channel : Nat
  code : Nat
  arg : Nat
  deriving DecidableEq, Repr

/-- The records that calls, floors, pools, windows, cards and the port work share: everything that a line, group, position or card event can change together in one step. -/
structure Records where
  /-- line table (R1, R2) -/
  lines : Table Line
  /-- appearance table (R19) -/
  appearances : Table Appearance
  /-- position table (R56) -/
  positions : Vector Position 48
  /-- key disposition table (R64) -/
  dispositions : Dispositions
  /-- group table (R78) -/
  groups : Table Group
  /-- membership table (R79) -/
  members : Table Member
  /-- bridge pool: the ALLOCATED bridges with their owners (R102) -/
  bridges : Table Owner
  /-- line reserve (R103) -/
  reserve : Nat
  /-- bridge wait list, oldest first (R106) -/
  waitList : List Nat
  /-- slot pool: the BOUND slots with their lines (R110) -/
  slots : Table Nat
  /-- port windows W0 to W15 (R168) -/
  windows : Vector Window 16
  /-- card table (R171) -/
  cards : Vector Card 32
  /-- port work list (R174) -/
  workList : List Nat
  /-- command in flight on the line bus (R173) -/
  inFlight : Option InFlight
  /-- line guard count (R173) -/
  lineGuard : Nat
  /-- attention table: the entries with a reason set that is not empty (R193) -/
  raised : List (Entry × List Reason)
  deriving DecidableEq, Repr

/-! ### Supervisory port (chapter 9) -/

/-- R184: a request record as it stands in the queue: `length` is the stated body length, `body` the bytes that arrived, up to it. -/
structure Request where
  tag : Tag
  code : Byte
  flags : Byte
  length : Byte
  body : List Byte
  deriving DecidableEq, Repr

/-- R185: the result codes. -/
inductive ResultCode where
  | done
  | skipped
  | deferred
  | noSuch
  | notDefined
  | alreadyDefined
  | retiring
  | inUse
  | conflict
  | badValue
  | badType
  | channelBusy
  | notAttached
  | noPath
  | noBridge
  | busFault
  | rejected
  /-- 32 plus the refusal code of a key refusal reason -/
  | key (reason : KeyRefusal)
  deriving DecidableEq, Repr

/-- R185: a result record. -/
structure Result where
  tag : Tag
  code : Byte
  result : ResultCode
  body : List Byte
  deriving DecidableEq, Repr

/-- R187: one item of LOAD-APPEARANCES as carried, before it is judged. -/
structure AppearanceItem where
  line : Nat
  pos : Nat
  key : Nat
  ringMode : Nat
  barge : Nat
  route : Nat
  deriving DecidableEq, Repr

/-- R190: the requests that take time. -/
inductive Job where
  | pass
  /-- the id of the next item, the items left, the items applied -/
  | load (next : Nat) (items : List AppearanceItem) (applied : Nat)
  | rollCall
  | linkReset
  deriving DecidableEq, Repr

/-- R188, R192: the request the executor holds. `dropped`: a warm restart came, so no result is delivered. -/
structure Held where
  tag : Tag
  code : Byte
  flags : Byte
  job : Job
  dropped : Bool
  deriving DecidableEq, Repr

/-- R188, R191: the frame state. -/
inductive FrameState where
  | notInFrame
  | inFrame (failed : Bool)
  deriving DecidableEq, Repr

/-- R188, R193: the supervisory port. -/
structure Port where
  requests : List Request
  results : List Result
  full : Bool
  executor : Option Held
  frame : FrameState
  /-- the 21 levels, in the order of R194 -/
  levels : Vector Nat 21
  mask : Nat
  enable : Bool
  /-- the bytes of the READ_STATUS in progress, each read as it started; empty when none is in progress (R186, log 13) -/
  status : List Byte
  /-- the bytes returned on SP_DO in the last transaction (log 19) -/
  spDo : List Byte
  deriving DecidableEq, Repr

/-! ### Console link (chapter 7) -/

/-- R142 -/
inductive LinkState where
  | stopped
  | running
  | stuck
  deriving DecidableEq, Repr

/-- R158 -/
inductive JoinPolicy where
  | accept
  | ignore
  deriving DecidableEq, Repr

/-- R159: the scope of a sequence. -/
inductive Scope where
  | new
  | all
  deriving DecidableEq, Repr

/-- R141, R162: a roll-call sequence in progress. `owned`: the executor's ROLL-CALL waits for its end. -/
structure Sequence where
  scope : Scope
  rounds : Nat
  owned : Bool
  attached : Nat
  parked : Nat
  deriving DecidableEq, Repr

/-- R159, R162, R141: a ROLL-CALL whose sequence has not begun. -/
structure RollCallWait where
  scope : Scope
  owned : Bool
  deriving DecidableEq, Repr

/-- R141: the presence record of a position. -/
structure Presence where
  miss : Nat
  idle : Nat
  flag : Bool
  parkPending : Bool
  deriving DecidableEq, Repr

/-- R149: the step of the link cycle that comes next. -/
inductive CycleStep where
  | window
  | output
  | parkOrPoll
  deriving DecidableEq, Repr

/-- R72: an item of an OUTPUT. -/
inductive OutItem where
  | refusal (r : RefusalRecord)
  | channel (n : Fin 8) (state : Indicator) (talkers : Nat)
  | lamp (key : Nat) (lamp : Lamp) (audible : Bool)
  deriving DecidableEq, Repr

/-- R146: the transaction in progress. -/
inductive Transaction where
  /-- a window was won by this address: its EVENT message comes -/
  | event (addr : Nat)
  | output (p : Fin 48) (items : List OutItem)
  | poll (p : Fin 48)
  | park (p : Fin 48)
  deriving DecidableEq, Repr

/-- R141: the console link controller. -/
structure Link where
  state : LinkState
  policy : JoinPolicy
  admission : Vector (Option Identity) 48
  parked : List Identity
  sequence : Option Sequence
  wanted : Bool
  waits : List RollCallWait
  outPtr : Fin 48
  presence : Vector Presence 48
  cycle : CycleStep
  txn : Option Transaction
  /-- milliseconds to the next recovery attempt (R164) -/
  recoveryWait : Nat
  /-- the messages the controller sent in the last link step (log 19) -/
  sent : List (List Byte)
  deriving DecidableEq, Repr

/-- The line bus controller's state that lines do not share. -/
structure Bus where
  passSlot : Option PassCmd
  passGuard : Nat
  fetchPtr : Fin 32
  /-- milliseconds to the next probe tick; none before the cards stage (R180, R202) -/
  probeTimer : Option Nat
  /-- cards made due at the start of the cards stage and not yet served (R202) -/
  stageCards : List Nat
  /-- the command frame last sent on LB_DO (log 19) -/
  sent : List Byte
  deriving DecidableEq, Repr

/-! ### Start-up (chapter 10) -/

/-- R198 -/
inductive PartState where
  | startingImage
  | startingCards
  | startingConsoles
  | running
  deriving DecidableEq, Repr

/-- R199 -/
inductive ImageStatus where
  | none
  | badSignature
  | loaded
  deriving DecidableEq, Repr

/-- R199, R200, R201: the image loader. -/
structure Loader where
  status : ImageStatus
  skipped : Nat
  refused : Nat
  sectionCount : Nat
  headerRead : Bool
  sectionsLeft : Nat
  address : Nat
  deriving DecidableEq, Repr

/-- R198, R203: RESET_N and what holds it low. -/
inductive ResetPin where
  | released
  | coldHeld
  | warmHeld
  deriving DecidableEq, Repr

/-- R114: the samples of the two highways. -/
structure Audio where
  /-- received in the last frame, 128 slots -/
  lineIn : Vector Sample 128
  /-- received in the last frame, 48 positions -/
  posIn : Vector Mics 48
  /-- sent in the last frame, 128 slots -/
  lineOut : Vector Sample 128
  /-- sent in the last frame, 48 positions -/
  posOut : Vector Ears 48
  deriving DecidableEq, Repr

/-- The state of the D48, with the queue of commands that wait. -/
structure State where
  resetPin : ResetPin
  part : PartState
  loader : Loader
  port : Port
  recs : Records
  link : Link
  bus : Bus
  audio : Audio
  pending : List Instr
  deriving DecidableEq, Repr

/-- The reasons the block stops: there is none. Every event of the spec leaves the D48 running, and every command's operands are values that can arrive, so no meaning faults and the type has no constructor. -/
inductive Fault where
  deriving DecidableEq, Repr

/-- The reasons a command has no meaning. -/
inductive Refusal where
  /-- Raised by exec's arm of a command not modelled yet. Safe: nothing is concluded about it. -/
  | notModelled (mnemonic : String)
  deriving DecidableEq, Repr

/-! ### Cold start values -/

/-- R56, column "Cold start". -/
def Position.cold : Position where
  attached := false
  lock := false
  identity := none
  offHook1 := false
  offHook2 := false
  selected := none
  ptt := none
  volume := Vector.replicate 8 8
  hand1 := none
  hand2 := none
  speaker := Vector.replicate 8 .none
  pressed := []
  refusal := none
  channelPending := []
  lampPending := []

/-- R64: every disposition LOCAL. -/
def Dispositions.cold : Dispositions := ⟨.localAct, .localAct, .localAct, .localAct, .localAct, .localAct, .localAct⟩

/-- R168, column "Cold start". -/
def Window.cold : Window := ⟨false, 0, 1, 0, 0, 4⟩

/-- R171, column "Cold start". -/
def Card.cold : Card := ⟨false, 0, false⟩

/-- The records after a cold start: R1, R19, R56, R64, R78, R79, R102, R103, R106, R110, R168, R171, R173, R174, R193. -/
def Records.cold : Records where
  lines := []
  appearances := []
  positions := Vector.replicate 48 Position.cold
  dispositions := Dispositions.cold
  groups := []
  members := []
  bridges := []
  reserve := 4
  waitList := []
  slots := []
  windows := Vector.replicate 16 Window.cold
  cards := Vector.replicate 32 Card.cold
  workList := []
  inFlight := none
  lineGuard := 0
  raised := []

/-- R193: the reset levels, in the order of R194. -/
def levelsReset : Vector Nat 21 :=
  #v[9, 15, 9, 7, 5, 10, 10, 6, 13, 11, 6, 12, 8, 5, 0, 7, 4, 0, 6, 12, 4]

/-- R188, R193: the port after a cold start (log 19 for spDo). -/
def Port.cold : Port where
  requests := []
  results := []
  full := false
  executor := none
  frame := .notInFrame
  levels := levelsReset
  mask := 0
  enable := false
  status := []
  spDo := []

/-- R141, column "Cold start". -/
def Presence.cold : Presence := ⟨0, 0, true, false⟩

/-- R141, column "Cold start" (log 18 for cycle, txn and recoveryWait; log 19 for sent). -/
def Link.cold : Link where
  state := .stopped
  policy := .accept
  admission := Vector.replicate 48 none
  parked := []
  sequence := none
  wanted := false
  waits := []
  outPtr := 47
  presence := Vector.replicate 48 Presence.cold
  cycle := .window
  txn := none
  recoveryWait := 0
  sent := []

/-- R173, R178, R181 (log 18 for probeTimer and stageCards; log 19 for sent). -/
def Bus.cold : Bus where
  passSlot := none
  passGuard := 0
  fetchPtr := 31
  probeTimer := none
  stageCards := []
  sent := []

/-- R199: the loader at the start of the image stage. -/
def Loader.cold : Loader := ⟨.none, 0, 0, 0, false, 0, 0⟩

/-- No sample has been received or sent (log 18). -/
def Audio.cold : Audio where
  lineIn := Vector.replicate 128 0
  posIn := Vector.replicate 48 ⟨0, 0, 0⟩
  lineOut := Vector.replicate 128 0
  posOut := Vector.replicate 48 ⟨0, 0, 0⟩

/-- The machine right after reset: R198, in the step in which RESET_N rises after a cold start every block takes its cold start values and the part state becomes STARTING_IMAGE. -/
def State.reset : State where
  resetPin := .released
  part := .startingImage
  loader := Loader.cold
  port := Port.cold
  recs := Records.cold
  link := Link.cold
  bus := Bus.cold
  audio := Audio.cold
  pending := []

end Sys2Proof.Machine
end

