-- ==== Sys2Proof/Machine/Table.lean ====
section
/-!
DEFINITION. Reading and writing the containers of State: tables of numbered records, sets of numbers in rising order, fixed vectors.
-/
namespace Sys2Proof.Machine

/-! ### Tables: a number that is not listed is FREE -/

/-- The record of number i, none when it is FREE. -/
def Table.find {α : Type} : Table α → Nat → Option α
  | [], _ => none
  | (k, v) :: t, i => if i = k then some v else Table.find t i

/-- Write the record of number i, keeping the rising order. -/
def Table.put {α : Type} (i : Nat) (v : α) : Table α → Table α
  | [] => [(i, v)]
  | (k, w) :: t => if i < k then (i, v) :: (k, w) :: t else if i = k then (i, v) :: t else (k, w) :: Table.put i v t

/-- Make number i FREE. -/
def Table.drop {α : Type} (i : Nat) (t : Table α) : Table α := t.filter (fun e => !(e.1 == i))

/-- The numbers that are not FREE, in rising order. -/
def Table.ids {α : Type} (t : Table α) : List Nat := t.map (·.1)

/-- The numbers whose record satisfies f, in rising order. -/
def Table.idsWhere {α : Type} (f : Nat → α → Bool) (t : Table α) : List Nat := Table.ids (t.filter (fun e => f e.1 e.2))

/-- The canonical form: numbers strictly rising. -/
def Table.wf {α : Type} : Table α → Bool
  | [] => true
  | [_] => true
  | a :: b :: t => a.1 < b.1 && Table.wf (b :: t)

/-- The lowest number below n that is FREE. -/
def Table.lowestFree {α : Type} (n : Nat) (t : Table α) : Option Nat :=
  (List.range n).find? (fun i => (Table.find t i).isNone)

/-! ### Sets of numbers, kept in rising order -/

/-- Add k to a set. -/
def setAdd (k : Nat) : List Nat → List Nat
  | [] => [k]
  | x :: t => if k < x then k :: x :: t else if k = x then x :: t else x :: setAdd k t

/-- Add every number of ks to a set. -/
def setAddAll (ks : List Nat) (t : List Nat) : List Nat := ks.foldl (fun acc k => setAdd k acc) t

/-! ### Fixed vectors -/

/-- Element i. -/
def vget {α : Type} {n : Nat} (v : Vector α n) (i : Fin n) : α := v[i.val]

/-- Write element i. -/
def vset {α : Type} {n : Nat} (v : Vector α n) (i : Fin n) (x : α) : Vector α n := v.set i.val x

/-- A number as an index below n, none when it is out of range. -/
def asFin (n i : Nat) : Option (Fin n) := if h : i < n then some ⟨i, h⟩ else none

/-- All indexes below n, in rising order. -/
def allFin (n : Nat) : List (Fin n) := List.finRange n

/-- The vector whose element i is f i. -/
def tabulate {α : Type} {n : Nat} (f : Fin n → α) : Vector α n := ⟨((allFin n).map f).toArray, by simp [allFin]⟩

end Sys2Proof.Machine
end

