-- ==== Sys2Proof/Machine/Ops.lean ====
section
/-!
DEFINITION. The named operations over the shared records: reading and writing a record, the port mapping, raising an attention reason, the lamp and channel marks, channel bindings, ptt_channel. A block has no exception entry: what takes its place is raising a reason (Records.raise).
-/
namespace Sys2Proof.Machine

/-! ### Reading and writing records -/

/-- The line of number id. -/
def Records.line? (r : Records) (id : Nat) : Option Line := Table.find r.lines id
/-- Write the line of number id. -/
def Records.setLine (id : Nat) (l : Line) (r : Records) : Records := { r with lines := Table.put id l r.lines }
/-- Apply f to the line of number id, when it is a line. -/
def Records.modLine (id : Nat) (f : Line → Line) (r : Records) : Records :=
  match r.line? id with
  | some l => r.setLine id (f l)
  | none => r

/-- The group of number g. -/
def Records.group? (r : Records) (g : Nat) : Option Group := Table.find r.groups g
/-- Write the group of number g. -/
def Records.setGroup (g : Nat) (x : Group) (r : Records) : Records := { r with groups := Table.put g x r.groups }
/-- Apply f to the group of number g, when it is a group. -/
def Records.modGroup (g : Nat) (f : Group → Group) (r : Records) : Records :=
  match r.group? g with
  | some x => r.setGroup g (f x)
  | none => r

/-- The membership of number m. -/
def Records.member? (r : Records) (m : Nat) : Option Member := Table.find r.members m
/-- Write the membership of number m. -/
def Records.setMember (m : Nat) (x : Member) (r : Records) : Records := { r with members := Table.put m x r.members }
/-- Apply f to the membership of number m, when it is one. -/
def Records.modMember (m : Nat) (f : Member → Member) (r : Records) : Records :=
  match r.member? m with
  | some x => r.setMember m (f x)
  | none => r

/-- The record of position p. -/
def Records.pos (r : Records) (p : Fin 48) : Position := vget r.positions p
/-- Apply f to the record of position p. -/
def Records.modPos (p : Fin 48) (f : Position → Position) (r : Records) : Records :=
  { r with positions := vset r.positions p (f (r.pos p)) }

/-- The record of card c. -/
def Records.card (r : Records) (c : Fin 32) : Card := vget r.cards c
/-- Apply f to the record of card c. -/
def Records.modCard (c : Fin 32) (f : Card → Card) (r : Records) : Records :=
  { r with cards := vset r.cards c (f (r.card c)) }

/-- R57: the attach state. -/
def Position.attachState (x : Position) : AttachState :=
  if x.attached then (if x.lock then .locked else .attached) else .detached

/-- The DEFINED appearances of line id, in rising order of number. -/
def Records.appearancesOf (r : Records) (id : Nat) : List (Nat × Appearance) :=
  r.appearances.filter (fun e => e.2.line == id)

/-- The DEFINED appearance on key k of position p (at most one, R19). -/
def Records.appearanceAt (r : Records) (p : Fin 48) (k : Nat) : Option Appearance :=
  (r.appearances.find? (fun e => e.2.pos == p && e.2.key == k)).map (·.2)

/-- The DEFINED appearance of line id at position p (at most one, R19). -/
def Records.appearanceOfLineAt (r : Records) (id : Nat) (p : Fin 48) : Option Appearance :=
  (r.appearances.find? (fun e => e.2.line == id && e.2.pos == p)).map (·.2)

/-- The memberships of group g, in rising order of number. -/
def Records.membersOf (r : Records) (g : Nat) : List (Nat × Member) :=
  r.members.filter (fun e => e.2.group == g)

/-- The CIRCUIT membership of line id, when it is a member (R5: of at most one group). -/
def Records.circuitOf (r : Records) (id : Nat) : Option Nat :=
  (r.members.find? (fun e => e.2.kind == .circuit id)).map (·.1)

/-- The lines of group g's CIRCUIT members. -/
def Records.circuitsOf (r : Records) (g : Nat) : List Nat :=
  (r.membersOf g).filterMap (fun e => match e.2.kind with
    | .circuit id => some id
    | .position _ _ => none)

/-! ### Port windows (R168) -/

/-- A window contains port p. -/
def Window.contains (w : Window) (p : Nat) : Bool := decide (w.base ≤ p) && decide (p < w.base + w.size)

/-- The lowest-numbered enabled window that contains port p. -/
def Records.windowOf (r : Records) (p : Nat) : Option Window :=
  r.windows.toList.find? (fun w => w.enabled && w.contains p)

/-- The card and channel that port p is mapped to. -/
def Records.place (r : Records) (p : Nat) : Option (Fin 32 × Nat) :=
  (r.windowOf p).map (fun w => (w.card, w.firstChannel + (p - w.base)))

/-- The lowest-numbered enabled window that names card c. -/
def Records.windowNaming (r : Records) (c : Fin 32) : Option Window :=
  r.windows.toList.find? (fun w => w.enabled && w.card == c)

/-- Card c is named by a window (R168). -/
def Records.named (r : Records) (c : Fin 32) : Bool := (r.windowNaming c).isSome

/-- The lines whose port maps to card c, in rising order. -/
def Records.linesOfCard (r : Records) (c : Fin 32) : List Nat :=
  Table.idsWhere (fun _ l => (r.place l.port).map (·.1) == some c) r.lines

/-- R178: the line of a card channel, the one of lowest number whose port maps there. -/
def Records.lineAt (r : Records) (c : Fin 32) (ch : Nat) : Option Nat :=
  (Table.idsWhere (fun _ l => r.place l.port == some (c, ch)) r.lines).head?

/-! ### Attention (R193) -/

/-- The order of the entries: by source, then by number within it (R195). -/
def Entry.rank : Entry → Nat
  | .part => 0
  | .link => 1024
  | .pool => 2048
  | .card i => 3072 + i
  | .position i => 4096 + i
  | .group i => 5120 + i
  | .line i => 6144 + i

/-- The place of a reason kind in the order of R194, counting from 0. -/
def Reason.code : Reason → Fin 21
  | .image => 0
  | .stuck => 1
  | .recovered => 2
  | .parked => 3
  | .join => 4
  | .noBridge => 5
  | .noPath => 6
  | .present => 7
  | .absent => 8
  | .reset => 9
  | .attached => 10
  | .detached => 11
  | .keys => 12
  | .console => 13
  | .floor => 14
  | .waiting => 15
  | .groupRetired => 16
  | .state => 17
  | .missed => 18
  | .fault => 19
  | .lineRetired => 20

/-- Add a reason to a set kept in the order of R194. -/
def addReason (q : Reason) : List Reason → List Reason
  | [] => [q]
  | x :: t => if q.code < x.code then q :: x :: t else if q = x then x :: t else x :: addReason q t

/-- Add a reason to the set of entry e, the entries kept in the order of their rank. -/
def raiseIn (e : Entry) (q : Reason) : List (Entry × List Reason) → List (Entry × List Reason)
  | [] => [(e, [q])]
  | (f, s) :: t =>
    if e.rank < f.rank then (e, [q]) :: (f, s) :: t
    else if e = f then (f, addReason q s) :: t
    else (f, s) :: raiseIn e q t

/-- R193: a block raises a reason by naming the entry and the reason kind. -/
def Records.raise (e : Entry) (q : Reason) (r : Records) : Records := { r with raised := raiseIn e q r.raised }

/-- The reason set of an entry. -/
def Records.reasons (r : Records) (e : Entry) : List Reason :=
  match r.raised.find? (fun x => x.1 == e) with
  | some x => x.2
  | none => []

/-! ### Marks (R23, R62, R71) -/

/-- R71: a lamp mark for key k at position p: kept while attached, else discarded. -/
def Records.markLamp (p : Fin 48) (k : Nat) (r : Records) : Records :=
  if (r.pos p).attached then r.modPos p (fun x => { x with lampPending := setAdd k x.lampPending }) else r

/-- R71: a channel mark for Sn at position p: kept while attached, else discarded. -/
def Records.markChannel (p : Fin 48) (n : Fin 8) (r : Records) : Records :=
  if (r.pos p).attached then r.modPos p (fun x => { x with channelPending := setAdd n.val x.channelPending }) else r

/-- R23: the key of every DEFINED appearance of line id is marked. -/
def Records.markLine (id : Nat) (r : Records) : Records :=
  (r.appearancesOf id).foldl (fun r e => r.markLamp e.2.pos e.2.key) r

/-- The channel mark of a POSITION member; none for a CIRCUIT member. -/
def Records.markMember (k : MemberKind) (r : Records) : Records :=
  match k with
  | .position p n => r.markChannel p n
  | .circuit _ => r

/-- R62, R95: the channel of every POSITION member of group g is marked. -/
def Records.markGroup (g : Nat) (r : Records) : Records :=
  (r.membersOf g).foldl (fun r e => r.markMember e.2.kind) r

/-! ### Channel bindings (R61) -/

/-- What channel ch of position p is bound to. -/
def Records.bound (r : Records) (p : Fin 48) (ch : Channel) : Binding :=
  match ch with
  | .hand .h1 => match (r.pos p).hand1 with
    | some id => .line id
    | none => .none
  | .hand .h2 => match (r.pos p).hand2 with
    | some id => .line id
    | none => .none
  | .spk n => vget (r.pos p).speaker n

/-- Write a binding; a handset holds a line or nothing. A change of a speaker channel's binding marks it (R62). -/
def Records.setBound (p : Fin 48) (ch : Channel) (b : Binding) (r : Records) : Records :=
  match ch with
  | .hand h =>
    let v := match b with
      | .line id => some id
      | .member _ => none
      | .none => none
    match h with
    | .h1 => r.modPos p (fun x => { x with hand1 := v })
    | .h2 => r.modPos p (fun x => { x with hand2 := v })
  | .spk n => (r.modPos p (fun x => { x with speaker := vset x.speaker n b })).markChannel p n

/-- R61, claim: a channel that is none becomes bound; a channel that is bound stays as it is. -/
def Records.claim (p : Fin 48) (ch : Channel) (b : Binding) (r : Records) : Records :=
  if r.bound p ch = .none then r.setBound p ch b else r

/-- R61, free: the binding becomes none; a free that names another holder is ignored. -/
def Records.free (p : Fin 48) (ch : Channel) (b : Binding) (r : Records) : Records :=
  if r.bound p ch = b ∧ b ≠ .none then r.setBound p ch .none else r

/-- The line that handset h of position p is bound to. -/
def Records.handLine (r : Records) (p : Fin 48) (h : Handset) : Option Nat :=
  match h with
  | .h1 => (r.pos p).hand1
  | .h2 => (r.pos p).hand2

/-- The line on the selected handset of position p, none when no handset is selected or it is bound to none (R33, R38, R40). -/
def Records.selectedLine (r : Records) (p : Fin 48) : Option Nat :=
  match (r.pos p).selected with
  | some h => r.handLine p h
  | none => none

/-! ### ptt_channel, refusals, timers -/

/-- Write ptt_channel; a change from Sn or to Sn marks Sn (R62). -/
def Records.setPtt (p : Fin 48) (v : Option (Fin 8)) (r : Records) : Records :=
  let old := (r.pos p).ptt
  if old = v then r else
    let r := r.modPos p (fun x => { x with ptt := v })
    let r := match old with
      | some n => r.markChannel p n
      | none => r
    match v with
    | some n => r.markChannel p n
    | none => r

/-- R70: record a refusal; one made for a DETACHED position is discarded. -/
def Records.refuse (p : Fin 48) (q : KeyRefusal) (s : Subject) (r : Records) : Records :=
  if (r.pos p).attached then r.modPos p (fun x => { x with refusal := some ⟨q, s⟩ }) else r

/-- Whole seconds as milliseconds; 0 starts no timer (R15, R93). -/
def secondsTimer (sec : Nat) : Option Nat := if sec = 0 then none else some (sec * 1000)

/-- Remaining whole seconds, rounded up (R15, R93). -/
def secondsLeft (ms : Nat) : Nat := (ms + 999) / 1000

/-- The free count of the bridge pool (R102). -/
def Records.freeBridges (r : Records) : Nat := Config.bridges - r.bridges.length

/-- The number of FREE slots (R110). -/
def Records.freeSlots (r : Records) : Nat := Config.slots - r.slots.length

/-- The lowest-numbered FREE bridge (R104, R105). -/
def Records.lowestBridge (r : Records) : Option Nat := Table.lowestFree Config.bridges r.bridges

/-- The lowest-numbered FREE slot (R111). -/
def Records.lowestSlot (r : Records) : Option Nat := Table.lowestFree Config.slots r.slots

end Sys2Proof.Machine
end

