-- ==== Sys2Proof/Machine/Flags.lean ====
section
/-!
DEFINITION. What is derived from the records and never stored: the joinability test (R18), the lamp and the audible flag (R21, R22), the channel indicator (R62), an attention entry's level, the attention pending byte and the ATTN pin (R193, R186, R196).
-/
namespace Sys2Proof.Machine

/-- R10: position p is a party of l. -/
def Line.hasParty (l : Line) (p : Fin 48) : Bool := l.parties.any (fun x => x.pos == p)

/-- The channel of p's party entry. -/
def Line.partyChannel (l : Line) (p : Fin 48) : Option Channel :=
  (l.parties.find? (fun x => x.pos == p)).map (·.ch)

/-- R18, clauses 3 and 4, for a CONNECTED line and a position that is no party: the refusal of the first that fails. -/
def joinRefusal (l : Line) (barge : Bool) : Option KeyRefusal :=
  if l.privacy = .closed ∧ barge = false then some .privateBusy
  else if l.maxParties ≤ l.parties.length then some .full
  else none

/-- R21: the lamp of appearance a, of line l. -/
def lampOf (l : Line) (a : Appearance) : Lamp :=
  match l.state with
  | .outOfService _ => .fault
  | .idle => if l.missed then .missed else .off
  | .ringingIn => match a.ringMode with
    | .silent => if l.missed then .missed else .off
    | .audible => .ring
    | .visual => .ring
  | .ringingOut => if l.hasParty a.pos then .outgoing else .busy
  | .connected =>
    if l.hasParty a.pos then .mine
    else if (joinRefusal l a.barge).isNone then .joinable else .busy
  | .held => match l.holdOwner with
    | some q => if q = a.pos then .heldMine else .heldOther
    | none => .heldOpen
  | .recall => match a.ringMode with
    | .silent => .heldOpen
    | .audible => .recall
    | .visual => .recall

/-- R22: the audible flag. -/
def audibleOf (lamp : Lamp) (m : RingMode) : Bool :=
  (lamp == .ring || lamp == .recall) && m == .audible

/-- The lamp and audible flag of an appearance; an appearance always has its line (R19), and without one it would show OFF. -/
def Records.lampAudible (r : Records) (a : Appearance) : Lamp × Bool :=
  match r.line? a.line with
  | some l => (lampOf l a, audibleOf (lampOf l a) a.ringMode)
  | none => (.off, false)

/-- R21, R72: the lamp and audible flag of a key; a key without a DEFINED appearance shows OFF. -/
def Records.lampAt (r : Records) (p : Fin 48) (k : Nat) : Lamp × Bool :=
  match r.appearanceAt p k with
  | some a => r.lampAudible a
  | none => (.off, false)

/-- R62: the indicator of Sn at p with its talkers value. -/
def Records.indicator (r : Records) (p : Fin 48) (n : Fin 8) : Indicator × Nat :=
  match vget (r.pos p).speaker n with
  | .none => (.off, 0)
  | .line _ => (.line, 0)
  | .member m => match r.member? m with
    | none => (.off, 0)
    | some x =>
      let talkers := match r.group? x.group with
        | some g => g.talkers.length
        | none => 0
      match x.floor with
      | .talking => (.talking, talkers)
      | .waiting => (.waiting, talkers)
      | .idle => if (r.pos p).ptt = some n then (.revoked, talkers) else (.listen, talkers)

/-- R193: the level of a reason kind. -/
def Port.level (x : Port) (q : Reason) : Nat := vget x.levels q.code

/-- R193: the level of a reason set, none for an empty one. -/
def Port.entryLevel (x : Port) (s : List Reason) : Option Nat := (s.map x.level).max?

/-- R186: some entry's level exceeds the mask. -/
def attentionPending (x : Port) (raised : List (Entry × List Reason)) : Bool :=
  raised.any (fun e => match x.entryLevel e.2 with
    | some v => decide (x.mask < v)
    | none => false)

/-- R196: the ATTN pin; it is deasserted while a cold start holds every block (R198). -/
def State.attn (s : State) : Bool :=
  s.resetPin != .coldHeld && s.port.enable && attentionPending s.port s.recs.raised

/-- R195: the entry to take: the highest level above the mask, the first in rank order among equals. -/
def chooseEntry (x : Port) (raised : List (Entry × List Reason)) : Option (Entry × List Reason × Nat) :=
  raised.foldl (fun best e => match x.entryLevel e.2 with
    | none => best
    | some v => if x.mask < v then
        (match best with
          | some (_, _, u) => if u < v then some (e.1, e.2, v) else best
          | none => some (e.1, e.2, v))
      else best) none

end Sys2Proof.Machine
end

