-- ==== Sys2Proof/Machine/Coding.lean ====
section
/-!
DEFINITION. The byte layouts: body coding (R187), result codes (R185), console link messages and their check byte (R145, R147), line bus frames (R172), the codes of the named sets.
-/
namespace Sys2Proof.Machine

/-! ### Numbers -/

/-- One byte of a number. -/
def byte1 (n : Nat) : Byte := BitVec.ofNat 8 n

/-- Two bytes, high byte first (R187). -/
def byte2 (n : Nat) : List Byte := [byte1 (n / 256), byte1 n]

/-- The number of two bytes, high byte first (R187). -/
def num2 (hi lo : Byte) : Nat := hi.toNat * 256 + lo.toNat

/-- The six bytes of an identity, high byte first (R187). -/
def identityBytes (x : Identity) : List Byte :=
  [x.extractLsb' 40 8, x.extractLsb' 32 8, x.extractLsb' 24 8, x.extractLsb' 16 8, x.extractLsb' 8 8, x.extractLsb' 0 8]

/-- The identity of six bytes, high byte first (R187). -/
def identityOf (a b c d e f : Byte) : Identity := a ++ b ++ c ++ d ++ e ++ f

/-- A value that is absent, or that holds none: every byte 0xFF (R187). -/
def absentBytes (n : Nat) : List Byte := List.replicate n 0xFF#8

/-- An optional number in one byte. -/
def opt1 (x : Option Nat) : List Byte :=
  match x with
  | some n => [byte1 n]
  | none => absentBytes 1

/-- An optional number in two bytes. -/
def opt2 (x : Option Nat) : List Byte :=
  match x with
  | some n => byte2 n
  | none => absentBytes 2

/-- A boolean is 0 false and 1 true. -/
def boolByte (b : Bool) : Byte := if b then 1#8 else 0#8

/-- A list of ids of two bytes: a count byte, then the entries (R187). -/
def idList (xs : List Nat) : List Byte := byte1 xs.length :: xs.flatMap byte2

/-! ### Check byte (R145) -/

/-- One shift step of the CRC-8 with polynomial x^8 + x^2 + x + 1. -/
def crcShift (c : Byte) : Byte := if c.msb then (c <<< 1) ^^^ 0x07#8 else c <<< 1

/-- The remainder after one more byte. -/
def crcByte (c b : Byte) : Byte :=
  crcShift (crcShift (crcShift (crcShift (crcShift (crcShift (crcShift (crcShift (c ^^^ b))))))))

/-- R145: the check byte of a message, initial value 0, no final inversion. -/
def crc8 (bs : List Byte) : Byte := bs.foldl crcByte 0#8

/-- A message with its check byte. -/
def checked (bs : List Byte) : List Byte := bs ++ [crc8 bs]

/-! ### Codes of the named sets: the place in the list of values of the record table, counting from 0 (R187) -/

def LineType.byte : LineType → Byte
  | .ringdown => 0
  | .signalled => 1
  | .openLine => 2

def LineType.ofNat? : Nat → Option LineType
  | 0 => some .ringdown
  | 1 => some .signalled
  | 2 => some .openLine
  | _ => none

def Privacy.byte : Privacy → Byte
  | .closed => 0
  | .shared => 1

def Privacy.ofNat? : Nat → Option Privacy
  | 0 => some .closed
  | 1 => some .shared
  | _ => none

def Lifecycle.byte : Lifecycle → Byte
  | .defined => 1
  | .retiring => 2

def LineState.byte : LineState → Byte
  | .idle => 0
  | .ringingIn => 1
  | .ringingOut => 2
  | .connected => 3
  | .held => 4
  | .recall => 5
  | .outOfService _ => 6

def LineState.reasonBytes : LineState → List Byte
  | .outOfService .unmapped => [0]
  | .outOfService .noCard => [1]
  | .outOfService .portFault => [2]
  | .idle => absentBytes 1
  | .ringingIn => absentBytes 1
  | .ringingOut => absentBytes 1
  | .connected => absentBytes 1
  | .held => absentBytes 1
  | .recall => absentBytes 1

def TimerKind.byte : TimerKind → Byte
  | .ring => 0
  | .recallWait => 1
  | .ringBurst => 2

def RingMode.byte : RingMode → Byte
  | .audible => 0
  | .visual => 1
  | .silent => 2

def RingMode.ofNat? : Nat → Option RingMode
  | 0 => some .audible
  | 1 => some .visual
  | 2 => some .silent
  | _ => none

/-- A boolean of a body or an item: 0 or 1. -/
def boolOf? : Nat → Option Bool
  | 0 => some false
  | 1 => some true
  | _ => none

/-- A route is 0 for HANDSET and 1 + n for SPEAKER n. -/
def Route.byte : Route → Byte
  | .handset => 0
  | .speaker n => byte1 (1 + n.val)

def Route.ofNat? : Nat → Option Route
  | 0 => some .handset
  | k + 1 => (asFin 8 k).map .speaker

def Policy.byte : Policy → Byte
  | .arrival => 0
  | .priority => 1

def Policy.ofNat? : Nat → Option Policy
  | 0 => some .arrival
  | 1 => some .priority
  | _ => none

def Role.byte : Role → Byte
  | .talk => 0
  | .listen => 1

def Role.ofNat? : Nat → Option Role
  | 0 => some .talk
  | 1 => some .listen
  | _ => none

def TalkFloor.byte : TalkFloor → Byte
  | .idle => 0
  | .waiting => 1
  | .talking => 2

def Disposition.ofNat? : Nat → Option Disposition
  | 0 => some .localAct
  | 1 => some .forward
  | 2 => some .both
  | _ => none

def JoinPolicy.ofNat? : Nat → Option JoinPolicy
  | 0 => some .accept
  | 1 => some .ignore
  | _ => none

/-- R147: scope 0 NEW, 1 ALL. -/
def Scope.byte : Scope → Byte
  | .new => 0
  | .all => 1

def Scope.ofNat? : Nat → Option Scope
  | 0 => some .new
  | 1 => some .all
  | _ => none

def LinkState.byte : LinkState → Byte
  | .stopped => 0
  | .running => 1
  | .stuck => 2

def AttachState.byte : AttachState → Byte
  | .detached => 0
  | .attached => 1
  | .locked => 2

def PartState.byte : PartState → Byte
  | .startingImage => 0
  | .startingCards => 1
  | .startingConsoles => 2
  | .running => 3

def ImageStatus.byte : ImageStatus → Byte
  | .none => 0
  | .badSignature => 1
  | .loaded => 2

/-- A field that may hold any of the ten channels is 0 for H1, 1 for H2 and 2 + n for Sn (R187). -/
def Channel.byte : Channel → Byte
  | .hand .h1 => 0
  | .hand .h2 => 1
  | .spk n => byte1 (2 + n.val)

def Handset.byte : Handset → Byte
  | .h1 => 0
  | .h2 => 1

def Handset.ofNat? : Nat → Option Handset
  | 0 => some .h1
  | 1 => some .h2
  | _ => none

/-- R147, column "Lamp". -/
def Lamp.byte : Lamp → Byte
  | .off => 0
  | .ring => 1
  | .recall => 2
  | .outgoing => 3
  | .mine => 4
  | .busy => 5
  | .joinable => 6
  | .heldMine => 7
  | .heldOther => 8
  | .heldOpen => 9
  | .missed => 10
  | .fault => 11

/-- R147, column "Indicator". -/
def Indicator.byte : Indicator → Byte
  | .off => 0
  | .line => 1
  | .listen => 2
  | .waiting => 3
  | .talking => 4
  | .revoked => 5

/-- R147, column "Refusal reason". -/
def KeyRefusal.code : KeyRefusal → Nat
  | .noAppearance => 1
  | .noHandset => 2
  | .privateBusy => 3
  | .full => 4
  | .noBridge => 5
  | .noPath => 6
  | .heldPrivate => 7
  | .notNow => 8
  | .outOfService => 9
  | .retiring => 10
  | .already => 11
  | .notBound => 12
  | .listenOnly => 13
  | .pttBusy => 14
  | .floorFull => 15
  | .channelBusy => 16
  | .noAnswer => 17

/-- R147: the subject of a refusal: a key code, 198 for H1, 199 for H2, 200 + n for Sn. -/
def Subject.byte : Subject → Byte
  | .key k => byte1 k
  | .channel (.hand .h1) => 198
  | .channel (.hand .h2) => 199
  | .channel (.spk n) => byte1 (200 + n.val)

/-- R185: the result code byte; a key refusal reason is 32 plus its refusal code. -/
def ResultCode.byte : ResultCode → Byte
  | .done => 1
  | .skipped => 2
  | .deferred => 3
  | .noSuch => 4
  | .notDefined => 5
  | .alreadyDefined => 6
  | .retiring => 7
  | .inUse => 8
  | .conflict => 9
  | .badValue => 10
  | .badType => 11
  | .channelBusy => 12
  | .notAttached => 13
  | .noPath => 14
  | .noBridge => 15
  | .busFault => 16
  | .rejected => 17
  | .key q => byte1 (32 + q.code)

/-- A condition is three bytes: seized, ring_out, audio (R187). -/
def Cond.bytes (c : Cond) : List Byte := [boolByte c.seized, boolByte c.ringOut, boolByte c.audio]

/-- A running line timer is its kind byte followed by its remaining whole seconds (R187). -/
def timerBytes : Option LineTimer → List Byte
  | some t => [t.kind.byte, byte1 (secondsLeft t.ms)]
  | none => absentBytes 2

/-- A binding: a kind byte (0 line, 1 membership) and the id in two bytes; none is absent (R187). -/
def Binding.bytes : Binding → List Byte
  | .none => absentBytes 3
  | .line id => 0 :: byte2 id
  | .member id => 1 :: byte2 id

/-- A membership's kind with its arguments, as in a MEMBERS item: kind, position or line (2), channel; the channel of a CIRCUIT is absent (R187). -/
def MemberKind.bytes : MemberKind → List Byte
  | .position p n => 0 :: (byte2 p.val ++ [byte1 n.val])
  | .circuit id => 1 :: (byte2 id ++ absentBytes 1)

/-! ### Result and status records (R185) -/

/-- R185: the bytes of a result record. -/
def Result.bytes (x : Result) : List Byte :=
  [x.tag.extractLsb' 8 8, x.tag.extractLsb' 0 8, x.code, x.result.byte, byte1 x.body.length] ++ x.body

/-- R185: the empty record. -/
def emptyRecord : List Byte := [0, 0, 0, 0, 0]

/-- What SP_DO carries when k bytes are clocked after the operation byte: 0 during the operation byte, the record, then zeros (R183, R185). -/
def clockedOut (k : Nat) (bs : List Byte) : List Byte := 0 :: (bs ++ List.replicate k 0).take k

/-! ### Console link messages (R147) -/

/-- ROLL_CALL to address 0. -/
def msgRollCall (sc : Scope) : List Byte := checked [1, 0, sc.byte]
/-- ASSIGN of a new address. -/
def msgAssign (addr new : Nat) : List Byte := checked [2, byte1 addr, byte1 new]
/-- PARK. -/
def msgPark (addr : Nat) : List Byte := checked [3, byte1 addr]
/-- POLL. -/
def msgPoll (addr : Nat) : List Byte := checked [5, byte1 addr]
/-- ACK. -/
def msgAck (addr : Nat) : List Byte := checked [7, byte1 addr]
/-- NAK with its reason: 1 CHECK, 2 LOCKED. -/
def msgNak (addr reason : Nat) : List Byte := checked [8, byte1 addr, byte1 reason]

/-- An OUTPUT item: a type byte and three bytes. -/
def OutItem.bytes : OutItem → List Byte
  | .refusal x => [1, byte1 x.reason.code, x.subject.byte, 0]
  | .channel n st k => [2, byte1 n.val, st.byte, byte1 k]
  | .lamp k l a => [3, byte1 k, l.byte, boolByte a]

/-- OUTPUT with its items. -/
def msgOutput (addr : Nat) (items : List OutItem) : List Byte :=
  checked ([4, byte1 addr, byte1 items.length] ++ items.flatMap OutItem.bytes)

/-- 7.2: position p has link address p + 1. -/
def addressOf (p : Fin 48) : Nat := p.val + 1

/-! ### Line bus frames (R172) -/

/-- A command frame. -/
def busFrame (card : Fin 32) (channel code arg : Nat) : List Byte :=
  checked [byte1 card.val, byte1 channel, byte1 code, byte1 arg]

def LineCmd.code : LineCmd → Nat
  | .seize => 1
  | .release => 2
  | .ringOn => 3
  | .ringOff => 4
  | .connect => 5
  | .disconnect => 6

end Sys2Proof.Machine
end

