-- ==== Sys2Proof/Machine/Groups.lean ====
section
/-!
DEFINITION. The bridge pool and the talk floor (chapters 4 and 5.1): the grant pass, claims, releases and the wait list, the bridge need, the PTT press judged by a group, and the ways a floor ends.
-/
namespace Sys2Proof.Machine

/-- R95: the marks and, when the talkers list changed, the reason FLOOR. -/
def Records.reportFloor (g : Nat) (talkersChanged : Bool) (r : Records) : Records :=
  let r := if talkersChanged then r.raise (.group g) .floor else r
  r.markGroup g

/-- R93: member m takes the floor, its timer started with the group's talk_time. -/
def Records.startTalk (m : Nat) (talkTime : Nat) (r : Records) : Records :=
  r.modMember m (fun x => { x with floor := .talking, talkTimer := secondsTimer talkTime })

/-- R94: the grant pass. While the group holds a bridge, its talkers are fewer than the limit and a member waits, the head of the waiting list takes the floor; so the pass takes as many from the head as there are free places. -/
def Records.grantPass (g : Nat) (r : Records) : Records :=
  match r.group? g with
  | none => r
  | some x =>
    let won := if x.bridge.isSome then x.waiting.take (x.talkerLimit - x.talkers.length) else []
    match won with
    | [] => r
    | _ :: _ =>
      let r := r.setGroup g { x with talkers := x.talkers ++ won, waiting := x.waiting.drop won.length }
      let r := won.foldl (fun r m => r.startTalk m x.talkTime) r
      r.reportFloor g true

/-- A bridge becomes ALLOCATED with group g as owner, the group's fields follow, and its grant pass runs (R86, R105). -/
def Records.allocateToGroup (g b : Nat) (r : Records) : Records :=
  let r := { r with bridges := Table.put b (.group g) r.bridges }
  let r := r.modGroup g (fun x => { x with bridge := some b, inWaitList := false })
  r.grantPass g

/-- R87: the mixing fabric grants bridge b to the waiting group g; the channel of every POSITION member is marked. -/
def Records.grantWaiting (g b : Nat) (r : Records) : Records :=
  (r.allocateToGroup g b).markGroup g

/-- R107: a bridge is released; the head of the wait list is granted it when the free count now exceeds the line reserve. The owner's field is cleared by the caller in the same step. -/
def Records.releaseBridge (b : Nat) (r : Records) : Records :=
  let r := { r with bridges := Table.drop b r.bridges }
  match r.waitList with
  | [] => r
  | g :: rest =>
    if r.reserve < r.freeBridges then { r with waitList := rest }.grantWaiting g b else r

/-- R108: the wait list is served from its head while the free count exceeds the reserve. -/
def serveWaitList : List Nat → Records → Records
  | [], r => r
  | g :: rest, r =>
    if r.reserve < r.freeBridges then
      match r.lowestBridge with
      | some b => serveWaitList rest ({ r with waitList := rest }.grantWaiting g b)
      | none => r
    else r

/-- R86: the group needs a bridge. -/
def Records.needsBridge (r : Records) (g : Nat) : Bool :=
  match r.group? g with
  | none => false
  | some x => !(x.talkers.isEmpty && x.waiting.isEmpty && (r.circuitsOf g).isEmpty)

/-- R105: a group claim. -/
def Records.groupClaim (g : Nat) (r : Records) : Records :=
  match (if r.reserve < r.freeBridges then r.lowestBridge else none) with
  | some b => r.allocateToGroup g b
  | none =>
    let r := { r with waitList := r.waitList ++ [g] }
    let r := r.modGroup g (fun x => { x with inWaitList := true })
    r.raise (.group g) .waiting

/-- R106: a group whose need ended leaves the wait list from wherever it stands. -/
def Records.leaveWaitList (g : Nat) (r : Records) : Records :=
  { r with waitList := r.waitList.filter (fun x => !(x == g)) }.modGroup g (fun x => { x with inWaitList := false })

/-- R86: the bridge need is tested and acted on. -/
def Records.testNeed (g : Nat) (r : Records) : Records :=
  match r.group? g with
  | none => r
  | some x =>
    if r.needsBridge g then
      (if x.bridge.isNone ∧ x.inWaitList = false then r.groupClaim g else r)
    else match x.bridge with
      | some b => (r.setGroup g { x with bridge := none }).releaseBridge b
      | none => if x.inWaitList then r.leaveWaitList g else r

/-- A member's floor ends: a TALKING member leaves the talkers with its timer stopped, a WAITING one leaves the waiting list; marks and attention by R95. -/
def Records.dropFloor (m : Nat) (r : Records) : Records :=
  match r.member? m with
  | none => r
  | some x => match x.floor with
    | .idle => r
    | .talking =>
      let r := r.modGroup x.group (fun g => { g with talkers := g.talkers.filter (fun i => !(i == m)) })
      let r := r.setMember m { x with floor := .idle, talkTimer := none }
      r.reportFloor x.group true
    | .waiting =>
      let r := r.modGroup x.group (fun g => { g with waiting := g.waiting.filter (fun i => !(i == m)) })
      let r := r.setMember m { x with floor := .idle, talkTimer := none }
      r.reportFloor x.group false

/-- What follows a member's leaving the floor in its group: the grant pass when it was TALKING, then the bridge need (R92, R93, R81). -/
def Records.afterLeave (g : Nat) (was : TalkFloor) (r : Records) : Records :=
  match was with
  | .idle => r
  | .talking => (r.grantPass g).testNeed g
  | .waiting => r.testNeed g

/-- R92, R93: the floor of member m ends, with what follows in its group. -/
def Records.releaseFloor (m : Nat) (r : Records) : Records :=
  match r.member? m with
  | none => r
  | some x => (r.dropFloor m).afterLeave x.group x.floor

/-- R59: when Sn of p is bound to a membership, that membership. -/
def Records.memberOn (r : Records) (p : Fin 48) (n : Fin 8) : Option Nat :=
  match vget (r.pos p).speaker n with
  | .member m => some m
  | .line _ => none
  | .none => none

/-- R59: ptt_channel changes from Sn to none for whatever cause, and the floor of the membership on Sn ends. -/
def Records.dropPtt (p : Fin 48) (r : Records) : Records :=
  match (r.pos p).ptt with
  | none => r
  | some n =>
    let r := r.setPtt p none
    match r.memberOn p n with
    | some m => r.releaseFloor m
    | none => r

/-- R91: the place of m in the waiting list: under ARRIVAL the tail; under PRIORITY before every member of lower priority and after the others. -/
def waitingInsert (policy : Policy) (prio : Nat → Nat) (m : Nat) (waiting : List Nat) : List Nat :=
  match policy with
  | .arrival => waiting ++ [m]
  | .priority =>
    waiting.filter (fun i => decide (prio m ≤ prio i)) ++ [m] ++ waiting.filter (fun i => decide (prio i < prio m))

/-- The priority of membership m. -/
def Records.priorityOf (r : Records) (m : Nat) : Nat :=
  match r.member? m with
  | some x => x.priority
  | none => 0

/-- R90: the victim: the lowest priority among the talkers, and among several the one granted last. -/
def victimOf (prio : Nat → Nat) : List Nat → Option Nat
  | [] => none
  | t :: rest => match victimOf prio rest with
    | none => some t
    | some v => if prio t < prio v then some t else some v

/-- R89: m takes a free place. -/
def Records.talk (m g : Nat) (x : Group) (r : Records) : Records :=
  let r := r.setGroup g { x with talkers := x.talkers ++ [m] }
  (r.startTalk m x.talkTime).reportFloor g true

/-- R90: m takes the floor from the victim. -/
def Records.preempt (m g v : Nat) (x : Group) (r : Records) : Records :=
  let r := r.setGroup g { x with talkers := x.talkers.filter (fun i => !(i == v)) ++ [m] }
  let r := r.modMember v (fun y => { y with floor := .idle, talkTimer := none })
  (r.startTalk m x.talkTime).reportFloor g true

/-- R91: m waits; the group's bridge need is tested. -/
def Records.wait (m g : Nat) (x : Group) (r : Records) : Records :=
  let r := r.setGroup g { x with waiting := waitingInsert x.policy r.priorityOf m x.waiting }
  let r := r.modMember m (fun y => { y with floor := .waiting })
  (r.reportFloor g false).testNeed g

/-- The talker that a press of m would preempt (R88 step 3, R90). -/
def Records.preemptible (m : Nat) (x : Group) (r : Records) : Option Nat :=
  if x.policy = .priority ∧ x.preempt = true ∧ x.bridge.isSome then
    match victimOf r.priorityOf x.talkers with
    | some v => if r.priorityOf v < r.priorityOf m then some v else none
    | none => none
  else none

/-- R88: a PTT press handed to the group controller for membership m. ptt_channel is set by the caller when the press is taken. -/
def Records.pressFloor (m : Nat) (r : Records) : Records × Option KeyRefusal :=
  match r.member? m with
  | none => (r, some .notBound)
  | some y => match r.group? y.group with
    | none => (r, some .notBound)
    | some x =>
      if y.role = .listen then (r, some .listenOnly)
      else if x.bridge.isSome ∧ x.talkers.length < x.talkerLimit then (r.talk m y.group x, none)
      else match r.preemptible m x with
        | some v => (r.preempt m y.group v x, none)
        | none => if x.waiting.length < 8 then (r.wait m y.group x, none) else (r, some .floorFull)

/-- R66: a PTT press on Sn at p under LOCAL or BOTH, or injected. ptt_channel becomes Sn in the same step as the floor change. -/
def Records.pressPtt (p : Fin 48) (n : Fin 8) (r : Records) : Records × Option KeyRefusal :=
  if (r.pos p).ptt.isSome then (r, some .pttBusy)
  else match vget (r.pos p).speaker n with
    | .none => (r, some .notBound)
    | .line _ => (r.setPtt p (some n), none)
    | .member m => match (r.setPtt p (some n)).pressFloor m with
      | (r', none) => (r', none)
      | (_, some q) => (r, some q)

end Sys2Proof.Machine
end

