-- ==== Sys2Proof/Machine/Lines.lean ====
section
/-!
DEFINITION. The line controller (chapters 1 and 2): moves between states, parties, slots and offers, the in-service test, return to service, leaves, presses on line keys, card reports, retirement, and what every step settles at its end (freed slots, completed retirements, the port work list).
-/
namespace Sys2Proof.Machine

/-! ### Moves (R24) -/

/-- R13: the desired condition of a state. ring_out is true only while a RING_BURST runs, which a move always ends. -/
def desiredFor (st : LineState) : Cond :=
  match st with
  | .idle => Cond.off
  | .ringingIn => Cond.off
  | .outOfService _ => Cond.off
  | .ringingOut => Cond.call
  | .connected => Cond.call
  | .held => Cond.call
  | .recall => Cond.call

/-- R15: the timer that belongs to a state, with the line's configured value. -/
def timerFor (l : Line) (st : LineState) : Option LineTimer :=
  match st with
  | .ringingIn => (secondsTimer l.ringTimeout).map (fun ms => ⟨.ring, ms⟩)
  | .ringingOut => (secondsTimer l.ringTimeout).map (fun ms => ⟨.ring, ms⟩)
  | .held => (secondsTimer l.holdRecall).map (fun ms => ⟨.recallWait, ms⟩)
  | .idle => none
  | .connected => none
  | .recall => none
  | .outOfService _ => none

/-- The line is OUT_OF_SERVICE. -/
def LineState.isOos : LineState → Bool
  | .outOfService _ => true
  | .idle => false
  | .ringingIn => false
  | .ringingOut => false
  | .connected => false
  | .held => false
  | .recall => false

/-- R24: the line in its new state, with the desired condition, the timer and an absent hold owner. -/
def Line.enter (l : Line) (st : LineState) : Line :=
  { l with state := st, desired := desiredFor st, timer := timerFor l st, holdOwner := none }

/-- R24, R8, R9: line id moves to a state. A change of state raises STATE and marks the line's keys; an entry into OUT_OF_SERVICE and a new oos_reason raise FAULT; a change of oos_reason alone makes no mark and raises no STATE (R23). -/
def Records.moveLine (id : Nat) (st : LineState) (r : Records) : Records :=
  match r.line? id with
  | none => r
  | some l =>
    let r := r.setLine id (l.enter st)
    let r := if st.isOos ∧ l.state ≠ st then r.raise (.line id) .fault else r
    if l.state = st ∨ (l.state.isOos ∧ st.isOos) then r
    else (r.raise (.line id) .state).markLine id

/-! ### Parties and bridges (R25) -/

/-- R25: a party is added at the tail and its channel bound. -/
def Records.addParty (p : Fin 48) (ch : Channel) (id : Nat) (r : Records) : Records :=
  (r.modLine id (fun l => { l with parties := l.parties ++ [⟨p, ch⟩] })).claim p ch (.line id)

/-- R25, R107: the bridge is handed back when the party count is below 2. -/
def Records.handBack (id : Nat) (r : Records) : Records :=
  match r.line? id with
  | none => r
  | some l => match l.bridge with
    | none => r
    | some b => if l.parties.length < 2 then (r.setLine id { l with bridge := none }).releaseBridge b else r

/-- R25: party p is removed, its binding freed, the bridge handed back as the count falls; the line's keys are marked. -/
def Records.removeParty (p : Fin 48) (id : Nat) (r : Records) : Records :=
  match r.line? id with
  | none => r
  | some l => match l.partyChannel p with
    | none => r
    | some ch =>
      let r := r.setLine id { l with parties := l.parties.filter (fun x => !(x.pos == p)) }
      let r := r.free p ch (.line id)
      (r.handBack id).markLine id

/-- R24, R25: every party is removed, each binding freed, the bridge handed back. -/
def Records.removeAllParties (id : Nat) (r : Records) : Records :=
  match r.line? id with
  | none => r
  | some l =>
    let r := r.setLine id { l with parties := [] }
    let r := l.parties.foldl (fun r x => r.free x.pos x.ch (.line id)) r
    r.handBack id

/-- A move into IDLE: every party leaves (R24). -/
def Records.toIdle (id : Nat) (r : Records) : Records := (r.removeAllParties id).moveLine id .idle

/-- A move into OUT_OF_SERVICE: every party leaves (R24, R7). -/
def Records.toOos (id : Nat) (q : OosReason) (r : Records) : Records :=
  (r.removeAllParties id).moveLine id (.outOfService q)

/-! ### Slots (R111, R112, R85) -/

/-- A slot becomes BOUND to line id. -/
def Records.bindSlot (id k : Nat) (r : Records) : Records :=
  ({ r with slots := Table.put k id r.slots }).modLine id (fun l => { l with slot := some k })

/-- R111: the lowest-numbered FREE slot is bound to a line that holds none. -/
def Records.needSlot (id : Nat) (r : Records) : Records :=
  match r.line? id with
  | none => r
  | some l => match l.slot, r.lowestSlot with
    | none, some k => r.bindSlot id k
    | none, none => r
    | some _, _ => r

/-- R84: line id is a member without a path: an OPEN CIRCUIT member, IDLE, without a slot. -/
def Records.withoutPath (r : Records) (id : Nat) (l : Line) : Bool :=
  l.type == .openLine && l.state == .idle && l.slot.isNone && (r.circuitOf id).isSome

/-- R84: number id is that of a member without a path. -/
def Records.pathless (r : Records) (id : Nat) : Bool := (r.line? id).any (r.withoutPath id)

/-- R85: slot k, just freed, is offered to the members without a path; the lowest-numbered takes it. -/
def Records.offerSlot (k : Nat) (r : Records) : Records :=
  match (Table.ids r.lines).find? r.pathless with
  | none => r
  | some id => (r.bindSlot id k).moveLine id .connected

/-- R112: the slot of line id is freed and offered. -/
def Records.freeSlot (id : Nat) (r : Records) : Records :=
  match r.line? id with
  | none => r
  | some l => match l.slot with
    | none => r
    | some k =>
      let r := { r with slots := Table.drop k r.slots }
      (r.setLine id { l with slot := none }).offerSlot k

/-- R112: a CONNECT for line id is outstanding on the line bus. -/
def Records.connectOutstanding (r : Records) (id : Nat) : Bool :=
  match r.inFlight with
  | none => false
  | some f => f.job == .line id .connect

/-- R112: the three conditions. -/
def Records.slotDue (r : Records) (id : Nat) : Bool :=
  match r.line? id with
  | none => false
  | some l => l.slot.isSome && !l.desired.audio && !l.acknowledged.audio && !r.connectOutstanding id

/-- R112: every slot whose three conditions hold is freed and offered, in rising order of the line that held it. -/
def Records.settleSlots (r : Records) : Records :=
  (Table.ids r.lines).foldl (fun r id => if r.slotDue id then r.freeSlot id else r) r

/-! ### Retirement (R126) -/

/-- R124, R126: the line is at rest. -/
def Line.atRest (l : Line) : Bool :=
  (l.state == .idle || l.state.isOos) && l.slot.isNone && l.acknowledged == Cond.off

/-- R125, R126: every DEFINED appearance of the line becomes FREE, its key marked, and the line becomes FREE. -/
def Records.freeLine (id : Nat) (r : Records) : Records :=
  let r := r.markLine id
  { r with
    appearances := r.appearances.filter (fun e => !(e.2.line == id))
    lines := Table.drop id r.lines }

/-- R126: a RETIRING line found at rest completes its retirement. -/
def Records.settleRetired (r : Records) : Records :=
  (Table.idsWhere (fun _ l => l.lifecycle == .retiring && l.atRest) r.lines).foldl
    (fun r id => (r.freeLine id).raise (.line id) .lineRetired) r

/-! ### The port work list (R174) -/

/-- R174: line id belongs on the port work list: its conditions differ and its card is PRESENT. -/
def Records.differs (r : Records) (l : Line) : Bool :=
  l.desired != l.acknowledged && (match r.place l.port with
    | some (c, _) => (r.card c).present
    | none => false)

/-- R174: the lines that belong on the list, in rising order. -/
def Records.workers (r : Records) : List Nat := Table.idsWhere (fun _ l => r.differs l) r.lines

/-- R174: a line that no longer belongs leaves from wherever it stands; a line that newly belongs enters at the tail, several in rising order. R173: the line guard's count is 0 when the list becomes empty. -/
def Records.syncWork (r : Records) : Records :=
  let ws := r.workers
  let list := r.workList.filter (fun i => ws.contains i) ++ ws.filter (fun i => !r.workList.contains i)
  { r with workList := list, lineGuard := if list.isEmpty then 0 else r.lineGuard }

/-- What every event settles in its own step: R112, R126, R174. -/
def Records.settle (r : Records) : Records := r.settleSlots.settleRetired.syncWork

/-! ### Service (R7, R45, R46, R84) -/

/-- R46, R84: line id returns to service: a RINGDOWN or SIGNALLED line, or an OPEN line that is no member, to IDLE; a CIRCUIT member to CONNECTED with a slot, or to IDLE as a member without a path. -/
def Records.returnToService (id : Nat) (r : Records) : Records :=
  match r.line? id with
  | none => r
  | some l =>
    if l.type = .openLine ∧ (r.circuitOf id).isSome then
      (if l.slot.isSome ∨ r.lowestSlot.isSome then (r.needSlot id).moveLine id .connected
       else (r.moveLine id .idle).raise .pool .noPath)
    else r.moveLine id .idle

/-- R7: the outcome of the in-service test for a port: none when in service. -/
def Records.serviceOf (r : Records) (port : Nat) : Option OosReason :=
  match r.place port with
  | none => some .unmapped
  | some (c, _) => if (r.card c).present then none else some .noCard

/-- R7: the in-service test applied to line id. `forget`: a PORT_FAULT is treated as NO_CARD, since it belonged to the old port or channel (R124, R170). -/
def Records.serviceTest (id : Nat) (forget : Bool) (r : Records) : Records :=
  match r.line? id with
  | none => r
  | some l => match r.serviceOf l.port with
    | some q => r.toOos id q
    | none => match l.state with
      | .outOfService .unmapped => r.returnToService id
      | .outOfService .noCard => r.returnToService id
      | .outOfService .portFault => if forget then r.returnToService id else r
      | .idle => r
      | .ringingIn => r
      | .ringingOut => r
      | .connected => r
      | .held => r
      | .recall => r

/-- R45: the PORT_FAULT handling, in any state; FAULT is raised again on a line already OUT_OF_SERVICE (log 20). -/
def Records.portFault (id : Nat) (r : Records) : Records :=
  match r.line? id with
  | none => r
  | some _ => (r.toOos id .portFault).raise (.line id) .fault

/-! ### Leaves (R39, R41) -/

/-- R41: a RELEASE-LEAVE by p. -/
def Records.releaseLeave (p : Fin 48) (id : Nat) (r : Records) : Records :=
  match r.line? id with
  | none => r
  | some l => if l.parties.length ≤ 1 then r.toIdle id else r.removeParty p id

/-- R39: a HOLD-LEAVE by p; the sole party of a PRIVATE line becomes the hold owner. -/
def Records.holdLeave (p : Fin 48) (id : Nat) (r : Records) : Records :=
  match r.line? id with
  | none => r
  | some l =>
    if l.parties.length ≤ 1 then
      let r := (r.removeAllParties id).moveLine id .held
      if l.privacy = .closed then r.modLine id (fun x => { x with holdOwner := some p }) else r
    else r.removeParty p id

/-! ### Line key presses (R26 to R31, R36, R37, R42) -/

/-- What a press that passes every check does; `hold` is the line that first takes a HOLD-LEAVE. -/
inductive PressPlan where
  | leave (id : Nat)
  | move (id : Nat) (dest : Handset) (hold : Option Nat)
  | act (id : Nat) (ch : Channel) (hold : Option Nat)
  deriving DecidableEq, Repr

/-- R28: the auto-hold test for a press of line id on a channel: the other line on that handset, which must be able to take a HOLD-LEAVE. -/
def Records.autoHold (r : Records) (p : Fin 48) (ch : Channel) (id : Nat) : Except KeyRefusal (Option Nat) :=
  match ch with
  | .spk _ => .ok none
  | .hand h => match r.handLine p h with
    | none => .ok none
    | some id0 =>
      if id0 = id then .ok none
      else match r.line? id0 with
        | none => .ok none
        | some l0 => if l0.state = .ringingOut then .error .notNow else .ok (some id0)

/-- R27: the channel of a press that would make p a party of line id. -/
def Records.pressChannel (r : Records) (p : Fin 48) (route : Route) (id : Nat) : Except KeyRefusal Channel :=
  match route with
  | .handset => match (r.pos p).selected with
    | some h => .ok (.hand h)
    | none => .error .noHandset
  | .speaker n => match vget (r.pos p).speaker n with
    | .none => .ok (.spk n)
    | .line j => if j = id then .ok (.spk n) else .error .channelBusy
    | .member _ => .error .channelBusy

/-- R28: the resource test. -/
def Records.resourceRefusal (r : Records) (l : Line) : Option KeyRefusal :=
  if (l.state = .idle ∨ l.state = .ringingIn) ∧ l.slot.isNone ∧ r.lowestSlot.isNone then some .noPath
  else if l.state = .connected ∧ l.parties.length = 1 ∧ r.freeBridges = 0 then some .noBridge
  else none

/-- R29: an own-line press of p, a party of line id on channel ch. -/
def Records.judgeOwn (r : Records) (p : Fin 48) (id : Nat) (ch : Channel) : Except KeyRefusal PressPlan :=
  match ch with
  | .spk _ => .ok (.leave id)
  | .hand h => match (r.pos p).selected with
    | none => .error .already
    | some sel =>
      if sel = h then .error .already
      else match r.autoHold p (.hand sel) id with
        | .error q => .error q
        | .ok hold => .ok (.move id sel hold)

/-- R26, checks 4 to 7: the refusal by the line's state. -/
def stateRefusal (l : Line) (a : Appearance) : Option KeyRefusal :=
  match l.state with
  | .idle => if l.lifecycle = .retiring then some .retiring else none
  | .ringingOut => some .notNow
  | .connected => joinRefusal l a.barge
  | .held => match l.holdOwner with
    | some q => if q = a.pos then none else some .heldPrivate
    | none => none
  | .outOfService _ => some .outOfService
  | .ringingIn => none
  | .recall => none

/-- R26: a line key press at p on key k is judged; the first check that decides it decides it. -/
def Records.judgePress (r : Records) (p : Fin 48) (k : Nat) : Except KeyRefusal PressPlan :=
  match r.appearanceAt p k with
  | none => .error .noAppearance
  | some a => match r.line? a.line with
    | none => .error .noAppearance
    | some l =>
      if l.state.isOos then .error .outOfService
      else match l.partyChannel p with
        | some ch => r.judgeOwn p a.line ch
        | none => match stateRefusal l a with
          | some q => .error q
          | none => match r.pressChannel p a.route a.line with
            | .error q => .error q
            | .ok ch => match r.autoHold p ch a.line with
              | .error q => .error q
              | .ok hold => match r.resourceRefusal l with
                | some q => .error q
                | none => .ok (.act a.line ch hold)

/-- R30, R31: the line is seized by p on ch. -/
def Records.seizeLine (p : Fin 48) (ch : Channel) (id : Nat) (l : Line) (r : Records) : Records :=
  let r := (r.needSlot id).addParty p ch id
  let r := r.modLine id (fun x => { x with missed := false })
  r.moveLine id (if l.type = .ringdown then .ringingOut else .connected)

/-- R36: the line is answered by p on ch. -/
def Records.answerLine (p : Fin 48) (ch : Channel) (id : Nat) (r : Records) : Records :=
  let r := (r.needSlot id).addParty p ch id
  let r := r.modLine id (fun x => { x with missed := false })
  r.moveLine id .connected

/-- R104: a line claim takes the lowest-numbered FREE bridge, the line reserve included. -/
def Records.lineClaim (id : Nat) (r : Records) : Records :=
  match r.lowestBridge with
  | none => r
  | some b => ({ r with bridges := Table.put b (.line id) r.bridges }).modLine id (fun x => { x with bridge := some b })

/-- R37: p joins the line on ch; the count's rise from 1 to 2 claims a bridge. -/
def Records.joinLine (p : Fin 48) (ch : Channel) (id : Nat) (l : Line) (r : Records) : Records :=
  let r := r.addParty p ch id
  let r := if l.parties.length = 1 then r.lineClaim id else r
  r.markLine id

/-- R42: p retrieves the HELD line on ch. -/
def Records.retrieveLine (p : Fin 48) (ch : Channel) (id : Nat) (r : Records) : Records :=
  (r.addParty p ch id).moveLine id .connected

/-- R26: the action that the line's state calls for. -/
def Records.actOnLine (p : Fin 48) (ch : Channel) (id : Nat) (r : Records) : Records :=
  match r.line? id with
  | none => r
  | some l => match l.state with
    | .idle => r.seizeLine p ch id l
    | .ringingIn => r.answerLine p ch id
    | .recall => r.answerLine p ch id
    | .connected => r.joinLine p ch id l
    | .held => r.retrieveLine p ch id
    | .ringingOut => r
    | .outOfService _ => r

/-- R28: the other line on the selected handset takes its HOLD-LEAVE first. -/
def Records.autoHeld (p : Fin 48) (hold : Option Nat) (r : Records) : Records :=
  match hold with
  | none => r
  | some id0 => r.holdLeave p id0

/-- R29, R61: the handset move: p's party entry and binding go to the other handset; its place in the list stays. -/
def Records.moveHandset (p : Fin 48) (id : Nat) (dest : Handset) (r : Records) : Records :=
  match r.line? id with
  | none => r
  | some l => match l.partyChannel p with
    | none => r
    | some ch =>
      let r := r.setLine id { l with parties := l.parties.map (fun x => if x.pos = p then { x with ch := .hand dest } else x) }
      let r := (r.free p ch (.line id)).claim p (.hand dest) (.line id)
      r.markLine id

/-- A press that passed every check is taken. -/
def Records.applyPress (p : Fin 48) (plan : PressPlan) (r : Records) : Records :=
  match plan with
  | .leave id => r.releaseLeave p id
  | .move id dest hold => (r.autoHeld p hold).moveHandset p id dest
  | .act id ch hold => (r.autoHeld p hold).actOnLine p ch id

/-- R104, R111: a press refused for want of a bridge or a slot raises the POOL reason in the same step. -/
def Records.raiseShortage (q : KeyRefusal) (r : Records) : Records :=
  if q = .noBridge then r.raise .pool .noBridge
  else if q = .noPath then r.raise .pool .noPath
  else r

/-- R26: a line key press. -/
def Records.pressLine (p : Fin 48) (k : Nat) (r : Records) : Records × Option KeyRefusal :=
  match r.judgePress p k with
  | .error q => (r.raiseShortage q, some q)
  | .ok plan => (r.applyPress p plan, none)

/-! ### The RELEASE, HOLD and RING keys (R40, R38, R33) -/

/-- R40: the RELEASE key. -/
def Records.releaseKey (p : Fin 48) (r : Records) : Records × Option KeyRefusal :=
  match r.selectedLine p with
  | none => (r, some .notNow)
  | some id => (r.releaseLeave p id, none)

/-- R38: the HOLD key. -/
def Records.holdKey (p : Fin 48) (r : Records) : Records × Option KeyRefusal :=
  match r.selectedLine p with
  | none => (r, some .notNow)
  | some id => match r.line? id with
    | none => (r, some .notNow)
    | some l => if l.state = .ringingOut then (r, some .notNow) else (r.holdLeave p id, none)

/-- R33, R15: the RING key starts a ring burst of 2 s, or starts it again. -/
def Records.ringKey (p : Fin 48) (r : Records) : Records × Option KeyRefusal :=
  match r.selectedLine p with
  | none => (r, some .notNow)
  | some id => match r.line? id with
    | none => (r, some .notNow)
    | some l =>
      if l.type = .signalled ∧ l.state = .connected then
        (r.setLine id { l with desired := { l.desired with ringOut := true }, timer := some ⟨.ringBurst, 2000⟩ }, none)
      else (r, some .notNow)

/-! ### Card reports (R32, R34, R35, R44, R45, R46) -/

/-- The reports of kind 1 to 6 (R172). -/
inductive Report where
  | ringInStart
  | ringInStop
  | farAnswer
  | farClear
  | portFault
  | portRestored
  deriving DecidableEq, Repr

/-- R35: ringing in ends unanswered. -/
def Records.missCall (id : Nat) (r : Records) : Records :=
  let r := r.modLine id (fun x => { x with missed := true })
  (r.raise (.line id) .missed).toIdle id

/-- A report delivered to line id. -/
def Records.report (k : Report) (id : Nat) (r : Records) : Records :=
  match r.line? id with
  | none => r
  | some l => match k with
    | .ringInStart =>
      if l.type ≠ .openLine ∧ l.state = .idle ∧ l.lifecycle = .defined then r.moveLine id .ringingIn else r
    | .ringInStop => if l.type = .ringdown ∧ l.state = .ringingIn then r.missCall id else r
    | .farAnswer => if l.type = .ringdown ∧ l.state = .ringingOut then r.moveLine id .connected else r
    | .farClear =>
      if l.type = .ringdown ∧ (l.state = .ringingOut ∨ l.state = .connected ∨ l.state = .held ∨ l.state = .recall)
      then r.toIdle id else r
    | .portFault => r.portFault id
    | .portRestored => if l.state = .outOfService .portFault then r.returnToService id else r

/-! ### Card loss, card reset, card return (R47, R48, R177, R179, R180) -/

/-- R177: card c is lost: ABSENT, its lines OUT_OF_SERVICE with acknowledged all false. The slots are freed as the step settles, every condition of R112 then holding. -/
def Records.loseCard (c : Fin 32) (r : Records) : Records :=
  let ids := r.linesOfCard c
  let r := r.modCard c (fun x => { x with present := false, miss := 0 })
  let r := r.raise (.card c.val) .absent
  ids.foldl (fun r id => (r.toOos id .noCard).modLine id (fun l => { l with acknowledged := Cond.off })) r

/-- R48: the move of one line at a CARD_RESET. -/
def Records.resetLine (id : Nat) (r : Records) : Records :=
  match r.line? id with
  | none => r
  | some l =>
    if l.type = .openLine ∧ (r.circuitOf id).isSome then
      (if l.slot.isSome then r.moveLine id .connected else r)
    else if l.state = .idle then r else r.toIdle id

/-- R179: a CIRCUIT member that holds no slot after the offers has one bound, or is a member without a path. -/
def Records.rebindLine (id : Nat) (r : Records) : Records :=
  match r.line? id with
  | none => r
  | some l =>
    if l.type = .openLine ∧ (r.circuitOf id).isSome ∧ l.slot.isNone then r.returnToService id else r

/-- R179: a CARD_RESET fetched from card c. -/
def Records.resetCard (c : Fin 32) (r : Records) : Records :=
  let ids := r.linesOfCard c
  let r := r.raise (.card c.val) .reset
  let r := ids.foldl (fun r id => (r.resetLine id).modLine id (fun l => { l with acknowledged := Cond.off })) r
  let r := r.settleSlots
  ids.foldl (fun r id => r.rebindLine id) r

/-- R180: a line of a card that returns is tested for service again when it is OUT_OF_SERVICE for want of its card. -/
def Records.returnLine (id : Nat) (r : Records) : Records :=
  match r.line? id with
  | none => r
  | some l => if l.state = .outOfService .noCard then r.serviceTest id false else r

/-- R180: card c returns: PRESENT, its NO_CARD lines back in service, in rising order. -/
def Records.returnCard (c : Fin 32) (r : Records) : Records :=
  let r := r.modCard c (fun x => { x with present := true, miss := 0 })
  let r := r.raise (.card c.val) .present
  (r.linesOfCard c).foldl (fun r id => r.returnLine id) r

/-! ### Timer expiries of a line (R32, R35, R43, R33) -/

/-- R32: the subject of NO_ANSWER: the caller's key for the line, or the caller's channel. -/
def Records.noAnswerSubject (r : Records) (id : Nat) (x : Party) : Subject :=
  match r.appearanceOfLineAt id x.pos with
  | some a => .key a.key
  | none => .channel x.ch

/-- R35, R32: the RING timer of line id expires. -/
def Records.ringExpired (id : Nat) (r : Records) : Records :=
  match r.line? id with
  | none => r
  | some l =>
    if l.state = .ringingIn then r.missCall id
    else if l.state = .ringingOut then
      let r := l.parties.foldl (fun r x => r.refuse x.pos .noAnswer (r.noAnswerSubject id x)) r
      r.toIdle id
    else r

/-- R43: the RECALL_WAIT timer of line id expires. -/
def Records.recallExpired (id : Nat) (r : Records) : Records :=
  match r.line? id with
  | none => r
  | some l =>
    if l.state = .held then (if l.lifecycle = .retiring then r.toIdle id else r.moveLine id .recall) else r

/-- R33: the RING_BURST timer of line id expires; no mark is made. -/
def Records.burstExpired (id : Nat) (r : Records) : Records :=
  r.modLine id (fun l => { l with desired := { l.desired with ringOut := false }, timer := none })

/-! ### Position loss, line side (R49) -/

/-- R49: line id at the loss of its party p. -/
def Records.lineLosesPosition (p : Fin 48) (id : Nat) (r : Records) : Records :=
  match r.line? id with
  | none => r
  | some l =>
    if l.hasParty p then
      (if l.state = .ringingOut then r.toIdle id
       else if l.parties.length ≤ 1 then (r.removeAllParties id).moveLine id .held
       else r.removeParty p id)
    else r

end Sys2Proof.Machine
end

