-- ==== Sys2Proof/Machine/Operands.lean ====
section
/-!
DEFINITION. The forms in which operands reach the block: events (R63, R147), EVENT messages (R151), replies (R148), bus responses (R172), and the fields of request bodies and image items before they are judged (R187, 10.2.1).
-/
namespace Sys2Proof.Machine

/-! ### Key events -/

/-- R63: an event with its arguments in range. -/
inductive KeyEvent where
  | lineKey (k : Nat)
  | funcKey (k : Nat)
  | release
  | hold
  | ring
  | hook (h : Handset) (off : Bool)
  | ptt (n : Fin 8) (press : Bool)
  | volume (n : Fin 8) (v : Nat)
  deriving DecidableEq, Repr

/-- R147, R63: an event's three bytes; none when the kind is not one of the table or an argument lies outside its range. Bytes that the kind does not use are not looked at (log 10). -/
def KeyEvent.ofBytes (kind a b : Byte) : Option KeyEvent :=
  match kind.toNat with
  | 1 => if a.toNat < 96 then some (.lineKey a.toNat) else none
  | 2 => if a.toNat < 32 then some (.funcKey a.toNat) else none
  | 3 => some .release
  | 4 => some .hold
  | 5 => some .ring
  | 6 => match Handset.ofNat? a.toNat, boolOf? b.toNat with
    | some h, some off => some (.hook h off)
    | _, _ => none
  | 7 => match asFin 8 a.toNat, boolOf? b.toNat with
    | some n, some press => some (.ptt n press)
    | _, _ => none
  | 8 => (asFin 8 a.toNat).map (fun n => .volume n b.toNat)
  | _ => none

/-- The events of a message, three bytes each. -/
def eventTriples : List Byte → List (Byte × Byte × Byte)
  | k :: a :: b :: t => (k, a, b) :: eventTriples t
  | _ => []

/-- R151: an EVENT message as read: its flag byte and its events. -/
structure EventMsg where
  flag : Byte
  events : List (Byte × Byte × Byte)
  deriving DecidableEq, Repr

/-- R151, check 1: the message is valid: the right address, a count of 1..4, the length of that count, a right check byte. -/
def EventMsg.parse (addr : Nat) (bytes : List Byte) : Option EventMsg :=
  match bytes with
  | a :: flag :: count :: t =>
    let n := count.toNat
    if a.toNat = addr ∧ 1 ≤ n ∧ n ≤ 4 ∧ t.length = 3 * n + 1 ∧ checked (bytes.take (3 * n + 3)) = bytes
    then some ⟨flag, eventTriples (t.take (3 * n))⟩ else none
  | _ => none

/-- R147: the sequence flag, 0 or 1; for another byte a free value (log 9). -/
def flagOf (b : Byte) : Bool := if b = 0 then false else if b = 1 then true else Config.strayFlag b

/-! ### Bus responses (R172) -/

/-- A valid response: its status and its two values. -/
structure Response where
  status : Nat
  v1 : Byte
  v2 : Byte
  deriving DecidableEq, Repr

/-- R172: the response from a card; none when it is not five bytes, its check byte is wrong, it names another card, or its status is not one of `allowed`. -/
def Response.parse (card : Fin 32) (allowed : List Nat) (bytes : List Byte) : Option Response :=
  match bytes with
  | [c, st, v1, v2, _] =>
    if c.toNat = card.val ∧ allowed.contains st.toNat ∧ checked [c, st, v1, v2] = bytes
    then some ⟨st.toNat, v1, v2⟩ else none
  | _ => none

/-- R172: the report kinds 1 to 6. -/
def Report.ofNat? : Nat → Option Report
  | 1 => some .ringInStart
  | 2 => some .ringInStop
  | 3 => some .farAnswer
  | 4 => some .farClear
  | 5 => some .portFault
  | 6 => some .portRestored
  | _ => none

/-! ### Fields as carried -/

/-- The six configuration fields of a line as carried by DEFINE-LINE or a LINES item. -/
structure LineFields where
  type : Nat
  port : Nat
  privacy : Nat
  maxParties : Nat
  ringTimeout : Nat
  holdRecall : Nat
  deriving DecidableEq, Repr

/-- The fields of a membership as carried by ADD-MEMBER or a MEMBERS item: `who` is the position or the line. -/
structure MemberFields where
  group : Nat
  kind : Nat
  who : Nat
  channel : Nat
  role : Nat
  priority : Nat
  deriving DecidableEq, Repr

/-- The four settings of a group as carried. -/
structure GroupFields where
  talkerLimit : Nat
  talkTime : Nat
  policy : Nat
  preempt : Nat
  deriving DecidableEq, Repr

/-- The six fields of a window as carried. -/
structure WindowFields where
  enabled : Nat
  base : Nat
  size : Nat
  card : Nat
  firstChannel : Nat
  limit : Nat
  deriving DecidableEq, Repr

/-- R187: field i of a change request: its value when bit i of the mask is set, else the present one. -/
def carried (mask : Byte) (i : Nat) (new old : Nat) : Nat := if mask.getLsbD i then new else old

/-- The items of LOAD-APPEARANCES, seven bytes each. -/
def appearanceItems : List Byte → Option (List AppearanceItem)
  | [] => some []
  | a :: b :: p :: k :: m :: g :: o :: t =>
    (appearanceItems t).map (fun rest => ⟨num2 a b, p.toNat, k.toNat, m.toNat, g.toNat, o.toNat⟩ :: rest)
  | _ => none

end Sys2Proof.Machine
end

