-- ==== Sys2Proof/Machine/Keeping.lean ====
section
/-!
DEFINITION. Keeping the records (chapter 6) and the call-control requests R50 and R51, over the shared records: the checks in order, the change, the result. The same functions apply the items of the configuration image (R200).
-/
namespace Sys2Proof.Machine

/-! ### Lines (R122 to R127, R50, R51) -/

/-- R6: the port is held by another DEFINED or RETIRING line. -/
def Records.portHeld (r : Records) (id port : Nat) : Bool :=
  r.lines.any (fun e => e.1 != id && e.2.port == port)

/-- R2: type and privacy when every field lies within its values. -/
def LineFields.judge (f : LineFields) : Option (LineType × Privacy) :=
  match LineType.ofNat? f.type, Privacy.ofNat? f.privacy with
  | some t, some p =>
    if f.port ≤ 1023 ∧ 1 ≤ f.maxParties ∧ f.maxParties ≤ 5 ∧ f.ringTimeout ≤ 255 ∧ f.holdRecall ≤ 255 then some (t, p) else none
  | _, _ => none

/-- R122: the line as DEFINE-LINE gives it, its first state from the in-service test. -/
def LineFields.define (f : LineFields) (t : LineType) (p : Privacy) (service : Option OosReason) : Line where
  lifecycle := .defined
  type := t
  port := f.port
  privacy := p
  maxParties := f.maxParties
  ringTimeout := f.ringTimeout
  holdRecall := f.holdRecall
  state := match service with
    | none => .idle
    | some q => .outOfService q
  parties := []
  holdOwner := none
  bridge := none
  slot := none
  desired := Cond.off
  acknowledged := Cond.off
  missed := false
  timer := none

/-- R122: DEFINE-LINE. -/
def Records.defineLine (id : Nat) (f : LineFields) (r : Records) : ResultCode × Records :=
  if 383 < id then (.noSuch, r)
  else match r.line? id with
    | some l => (if l.lifecycle = .retiring then .retiring else .alreadyDefined, r)
    | none => match f.judge with
      | none => (.badValue, r)
      | some (t, p) =>
        if r.portHeld id f.port then (.conflict, r)
        else
          let service := r.serviceOf f.port
          let r := r.setLine id (f.define t p service)
          (.done, if service.isSome then r.raise (.line id) .fault else r)

/-- The configuration fields of a line as a request would carry them. -/
def Line.fields (l : Line) : LineFields :=
  ⟨l.type.byte.toNat, l.port, l.privacy.byte.toNat, l.maxParties, l.ringTimeout, l.holdRecall⟩

/-- R123, R124: the changes of a CHANGE-LINE that passed its checks. -/
def Records.applyChangeLine (id : Nat) (l : Line) (f : LineFields) (t : LineType) (p : Privacy) (r : Records) : Records :=
  let r := r.setLine id { l with
    type := t, port := f.port, privacy := p, maxParties := f.maxParties
    ringTimeout := f.ringTimeout, holdRecall := f.holdRecall
    missed := if t ≠ l.type ∧ t = .openLine then false else l.missed }
  let r := if p ≠ l.privacy ∨ f.maxParties ≠ l.maxParties then r.markLine id else r
  if f.port ≠ l.port then r.serviceTest id true else r

/-- R123: CHANGE-LINE; f holds for every field the value carried, or the present one where it is unchanged. -/
def Records.changeLine (id : Nat) (f : Line → LineFields) (r : Records) : ResultCode × Records :=
  if 383 < id then (.noSuch, r)
  else match r.line? id with
    | none => (.notDefined, r)
    | some l =>
      if l.lifecycle = .retiring then (.retiring, r)
      else match (f l).judge with
        | none => (.badValue, r)
        | some (t, p) =>
          if (f l).maxParties < l.parties.length then (.inUse, r)
          else if ((f l).port ≠ l.port ∨ t ≠ l.type) ∧ l.atRest = false then (.inUse, r)
          else if t ≠ l.type ∧ (r.circuitOf id).isSome then (.inUse, r)
          else if t ≠ l.type ∧ t = .openLine ∧ r.appearancesOf id ≠ [] then (.badType, r)
          else if (f l).port ≠ l.port ∧ r.portHeld id (f l).port then (.conflict, r)
          else (.done, r.applyChangeLine id l (f l) t p)

/-- R83: a CIRCUIT membership is removed; a CONNECTED line goes to IDLE; the bridge need is tested. -/
def Records.removeCircuit (m g line : Nat) (r : Records) : Records :=
  let r : Records := { r with members := Table.drop m r.members }
  let r : Records := match r.line? line with
    | none => r
    | some l => if l.state = .connected then r.moveLine line .idle else r
  r.testNeed g

/-- R81: a POSITION membership is removed: its floor, its channel, its record, then what follows in the group. -/
def Records.removeTalker (m g : Nat) (p : Fin 48) (n : Fin 8) (floor : TalkFloor) (r : Records) : Records :=
  let r := (r.dropFloor m).free p (.spk n) (.member m)
  ({ r with members := Table.drop m r.members }).afterLeave g floor

/-- R81, R83: membership m is removed. -/
def Records.removeMember (m : Nat) (r : Records) : Records :=
  match r.member? m with
  | none => r
  | some x => match x.kind with
    | .position p n => r.removeTalker m x.group p n x.floor
    | .circuit line => r.removeCircuit m x.group line

/-- R125: RETIRE-LINE: first the membership, with the slot that this frees, then the test. -/
def Records.retireLine (id : Nat) (r : Records) : ResultCode × Records :=
  if 383 < id then (.noSuch, r)
  else match r.line? id with
    | none => (.notDefined, r)
    | some l =>
      if l.lifecycle = .retiring then (.retiring, r)
      else
        let r := match r.circuitOf id with
          | some m => (r.removeMember m).settleSlots
          | none => r
        match r.line? id with
        | none => (.done, r)
        | some l =>
          if l.atRest then (.done, r.freeLine id)
          else (.deferred, r.setLine id { l with lifecycle := .retiring })

/-- R127: the body of READ-LINE. -/
def Records.lineBody (r : Records) (id : Nat) (l : Line) : List Byte :=
  [l.lifecycle.byte, l.type.byte] ++ byte2 l.port ++ [l.privacy.byte, byte1 l.maxParties, byte1 l.ringTimeout, byte1 l.holdRecall] ++
  [l.state.byte] ++ l.state.reasonBytes ++
  (byte1 l.parties.length :: l.parties.flatMap (fun x => [byte1 x.pos.val, x.ch.byte])) ++
  opt1 (l.holdOwner.map (·.val)) ++ opt1 l.bridge ++ opt1 l.slot ++
  l.desired.bytes ++ l.acknowledged.bytes ++ [boolByte l.missed] ++ timerBytes l.timer ++
  [byte1 (r.appearancesOf id).length] ++ opt2 (r.circuitOf id)

/-- R127: READ-LINE. -/
def Records.readLine (id : Nat) (r : Records) : ResultCode × List Byte :=
  if 383 < id then (.noSuch, [])
  else match r.line? id with
    | none => (.notDefined, [])
    | some l => (.done, r.lineBody id l)

/-- R50: FORCE-RELEASE. -/
def Records.forceRelease (id : Nat) (r : Records) : ResultCode × Records :=
  if 383 < id then (.noSuch, r)
  else match r.line? id with
    | none => (.notDefined, r)
    | some l =>
      if l.type = .openLine then (.badType, r)
      else if l.state.isOos then (.done, r)
      else
        let r := if l.missed then (r.modLine id (fun x => { x with missed := false })).markLine id else r
        (.done, if l.state = .idle then r else r.toIdle id)

/-- R51: CLEAR-MISSED. -/
def Records.clearMissed (id : Nat) (r : Records) : ResultCode × Records :=
  if 383 < id then (.noSuch, r)
  else match r.line? id with
    | none => (.notDefined, r)
    | some l =>
      (.done, if l.missed then (r.setLine id { l with missed := false }).markLine id else r)

/-! ### Appearances (R128 to R132) -/

/-- The appearance an item describes, when every field lies within its values (check 3 of R128). -/
def AppearanceItem.judge (x : AppearanceItem) : Option Appearance :=
  match asFin 48 x.pos, RingMode.ofNat? x.ringMode, boolOf? x.barge, Route.ofNat? x.route with
  | some p, some m, some b, some o =>
    if x.line ≤ 383 ∧ x.key ≤ 95 then some ⟨x.line, p, x.key, m, b, o⟩ else none
  | _, _, _, _ => none

/-- R128 check 8, R129 check 4: a route SPEAKER n whose Sn is bound to a membership. -/
def Records.routeBusy (r : Records) (p : Fin 48) (o : Route) : Bool :=
  match o with
  | .handset => false
  | .speaker n => (r.memberOn p n).isSome

/-- R128: DEFINE-APPEARANCE, and an item of LOAD-APPEARANCES or of an APPEARANCES section. -/
def Records.defineAppearance (id : Nat) (x : AppearanceItem) (r : Records) : ResultCode × Records :=
  if 2047 < id then (.noSuch, r)
  else if (Table.find r.appearances id).isSome then (.alreadyDefined, r)
  else match x.judge with
    | none => (.badValue, r)
    | some a => match r.line? a.line with
      | none => (.notDefined, r)
      | some l =>
        if l.lifecycle = .retiring then (.retiring, r)
        else if l.type = .openLine then (.badType, r)
        else if (r.appearanceAt a.pos a.key).isSome ∨ (r.appearanceOfLineAt a.line a.pos).isSome then (.conflict, r)
        else if r.routeBusy a.pos a.route then (.channelBusy, r)
        else (.done, ({ r with appearances := Table.put id a r.appearances }).markLamp a.pos a.key)

/-- R129: CHANGE-APPEARANCE. The mask's bits 0, 1, 2 say that ring_mode, barge, route carry a new value. -/
def Records.changeAppearance (id : Nat) (mask : Byte) (mode barge route : Nat) (r : Records) : ResultCode × Records :=
  if 2047 < id then (.noSuch, r)
  else match Table.find r.appearances id with
    | none => (.notDefined, r)
    | some a =>
      match RingMode.ofNat? (carried mask 0 mode a.ringMode.byte.toNat),
          boolOf? (carried mask 1 barge (boolByte a.barge).toNat),
          Route.ofNat? (carried mask 2 route a.route.byte.toNat) with
      | some m, some b, some o =>
        if o ≠ a.route ∧ r.routeBusy a.pos o then (.channelBusy, r)
        else
          let r := { r with appearances := Table.put id { a with ringMode := m, barge := b, route := o } r.appearances }
          (.done, if m ≠ a.ringMode ∨ b ≠ a.barge then r.markLamp a.pos a.key else r)
      | _, _, _ => (.badValue, r)

/-- R130: RETIRE-APPEARANCE. -/
def Records.retireAppearance (id : Nat) (r : Records) : ResultCode × Records :=
  if 2047 < id then (.noSuch, r)
  else match Table.find r.appearances id with
    | none => (.notDefined, r)
    | some a => (.done, ({ r with appearances := Table.drop id r.appearances }).markLamp a.pos a.key)

/-- R131: READ-APPEARANCE. -/
def Records.readAppearance (id : Nat) (r : Records) : ResultCode × List Byte :=
  if 2047 < id then (.noSuch, [])
  else match Table.find r.appearances id with
    | none => (.notDefined, [])
    | some a =>
      let la := r.lampAudible a
      (.done, byte2 a.line ++ [byte1 a.pos.val, byte1 a.key, a.ringMode.byte, boolByte a.barge, a.route.byte, la.1.byte, boolByte la.2])

/-! ### Groups (R134 to R137) -/

/-- Check 3 of R134. -/
def GroupFields.judge (f : GroupFields) : Option (Policy × Bool) :=
  match Policy.ofNat? f.policy, boolOf? f.preempt with
  | some p, some b => if 1 ≤ f.talkerLimit ∧ f.talkerLimit ≤ 4 ∧ f.talkTime ≤ 120 then some (p, b) else none
  | _, _ => none

/-- R134: DEFINE-GROUP. -/
def Records.defineGroup (g : Nat) (f : GroupFields) (r : Records) : ResultCode × Records :=
  if 31 < g then (.noSuch, r)
  else match r.group? g with
    | some _ => (.alreadyDefined, r)
    | none => match f.judge with
      | none => (.badValue, r)
      | some (p, b) => (.done, r.setGroup g ⟨f.talkerLimit, f.talkTime, p, b, [], [], none, false⟩)

/-- The settings of a group as a request would carry them. -/
def Group.fields (x : Group) : GroupFields := ⟨x.talkerLimit, x.talkTime, x.policy.byte.toNat, (boolByte x.preempt).toNat⟩

/-- R135, R97: CHANGE-GROUP; f holds for every setting the value carried, or the present one where it is unchanged. -/
def Records.changeGroup (g : Nat) (f : Group → GroupFields) (r : Records) : ResultCode × Records :=
  if 31 < g then (.noSuch, r)
  else match r.group? g with
    | none => (.notDefined, r)
    | some x => match (f x).judge with
      | none => (.badValue, r)
      | some (p, b) =>
        if (f x).talkerLimit < x.talkers.length then (.inUse, r)
        else if (p ≠ x.policy ∨ b ≠ x.preempt) ∧ x.waiting ≠ [] then (.inUse, r)
        else
          let r := r.setGroup g { x with talkerLimit := (f x).talkerLimit, talkTime := (f x).talkTime, policy := p, preempt := b }
          (.done, if x.talkerLimit < (f x).talkerLimit then r.grantPass g else r)

/-- R136, steps 1 to 4. -/
def Records.dissolveGroup (g : Nat) (x : Group) (r : Records) : Records :=
  let r := x.waiting.foldl (fun r m => r.dropFloor m) r
  let r := (r.membersOf g).foldl (fun r e => r.removeMember e.1) r
  let r := r.testNeed g
  ({ r with groups := Table.drop g r.groups }).raise (.group g) .groupRetired

/-- R136: RETIRE-GROUP. -/
def Records.retireGroup (g : Nat) (r : Records) : ResultCode × Records :=
  if 31 < g then (.noSuch, r)
  else match r.group? g with
    | none => (.notDefined, r)
    | some x => (.done, r.dissolveGroup g x)

/-- R137: READ-GROUP. -/
def Records.readGroup (g : Nat) (r : Records) : ResultCode × List Byte :=
  if 31 < g then (.noSuch, [])
  else match r.group? g with
    | none => (.notDefined, [])
    | some x =>
      let circuits := (r.circuitsOf g).length
      (.done, [byte1 x.talkerLimit, byte1 x.talkTime, x.policy.byte, boolByte x.preempt] ++ idList x.talkers ++ idList x.waiting ++
        opt1 x.bridge ++ [boolByte x.inWaitList, byte1 ((r.membersOf g).length - circuits), byte1 circuits])

/-! ### Memberships (R138, R139) -/

/-- Check 3 of R138: the kind with its arguments and the role, when every value lies within its values. The channel of a CIRCUIT member is ignored (10.2.1). -/
def MemberFields.judge (f : MemberFields) : Option (MemberKind × Role) :=
  match Role.ofNat? f.role with
  | none => none
  | some role =>
    if 31 < f.group ∨ 3 < f.priority then none
    else match f.kind with
      | 0 => match asFin 48 f.who, asFin 8 f.channel with
        | some p, some n => some (.position p n, role)
        | _, _ => none
      | 1 => if f.who ≤ 383 then some (.circuit f.who, role) else none
      | _ => none

/-- R80: a POSITION member is made and binds its channel. -/
def Records.addTalker (m : Nat) (x : Member) (p : Fin 48) (n : Fin 8) (r : Records) : Records :=
  (r.setMember m x).claim p (.spk n) (.member m)

/-- R82: a CIRCUIT member is made, acts on its line, and raises the bridge need. -/
def Records.addCircuit (m : Nat) (x : Member) (line : Nat) (l : Line) (r : Records) : Records :=
  let r := r.setMember m x
  let r := if l.state = .idle then (r.needSlot line).moveLine line .connected else r
  r.testNeed x.group

/-- R138: ADD-MEMBER. -/
def Records.addMember (m : Nat) (f : MemberFields) (r : Records) : ResultCode × Records :=
  if 511 < m then (.noSuch, r)
  else match r.member? m with
    | some _ => (.alreadyDefined, r)
    | none => match f.judge with
      | none => (.badValue, r)
      | some (kind, role) => match r.group? f.group with
        | none => (.notDefined, r)
        | some _ =>
          let x : Member := ⟨f.group, kind, role, f.priority, .idle, none⟩
          match kind with
          | .position p n =>
            if (r.membersOf f.group).any (fun e => match e.2.kind with
                | .position q _ => q == p
                | .circuit _ => false) then (.conflict, r)
            else if vget (r.pos p).speaker n ≠ .none then (.channelBusy, r)
            else (.done, r.addTalker m x p n)
          | .circuit line => match r.line? line with
            | none => (.notDefined, r)
            | some l =>
              if l.lifecycle = .retiring then (.retiring, r)
              else if l.type ≠ .openLine then (.badType, r)
              else if (r.circuitOf line).isSome then (.conflict, r)
              else if 2 ≤ (r.circuitsOf f.group).length then (.conflict, r)
              else if l.state = .idle ∧ l.slot.isNone ∧ r.lowestSlot.isNone then (.noPath, r.raise .pool .noPath)
              else (.done, r.addCircuit m x line l)

/-- R139: REMOVE-MEMBER. -/
def Records.dropMember (m : Nat) (r : Records) : ResultCode × Records :=
  if 511 < m then (.noSuch, r)
  else match r.member? m with
    | none => (.notDefined, r)
    | some _ => (.done, r.removeMember m)

/-- R139: READ-MEMBER. -/
def Records.readMember (m : Nat) (r : Records) : ResultCode × List Byte :=
  if 511 < m then (.noSuch, [])
  else match r.member? m with
    | none => (.notDefined, [])
    | some x => (.done, [byte1 x.group] ++ x.kind.bytes ++ [x.role.byte, byte1 x.priority, x.floor.byte] ++ opt1 (x.talkTimer.map secondsLeft))

end Sys2Proof.Machine
end

