-- ==== Sys2Proof/Machine/Positions.lean ====
section
/-!
DEFINITION. The position controller (chapter 3): console state, local actions, forwarding, events from the link and injected ones, lock, TAKE-KEYS, OUTPUT items and their return, position loss and attachment.
-/
namespace Sys2Proof.Machine

/-! ### Console state (R58, R59, R60) -/

/-- The other handset. -/
def Handset.other : Handset → Handset
  | .h1 => .h2
  | .h2 => .h1

/-- The hook field of a handset: true is OFF. -/
def Position.offHook (x : Position) (h : Handset) : Bool :=
  match h with
  | .h1 => x.offHook1
  | .h2 => x.offHook2

/-- Write the hook field of a handset. -/
def Position.setHook (x : Position) (h : Handset) (off : Bool) : Position :=
  match h with
  | .h1 => { x with offHook1 := off }
  | .h2 => { x with offHook2 := off }

/-- R58: the hook field and the selected handset after a HOOK event. -/
def Position.hook (x : Position) (h : Handset) (off : Bool) : Position :=
  let y := x.setHook h off
  if off then { y with selected := some h }
  else if x.selected = some h then { y with selected := if x.offHook h.other then some h.other else none }
  else y

/-- R60: a VOLUME event; a value above 16 is taken as 16. -/
def Position.setVolume (x : Position) (n : Fin 8) (v : Nat) : Position :=
  { x with volume := vset x.volume n (min v 16) }

/-! ### Local action (R65, R63) -/

/-- R63 part 1: HOOK and VOLUME track under every disposition; a PTT press tracks here only under FORWARD, and a PTT release is R59. -/
def Records.trackEvent (p : Fin 48) (e : KeyEvent) (localToo : Bool) (r : Records) : Records :=
  match e with
  | .hook h off => r.modPos p (fun x => x.hook h off)
  | .volume n v => r.modPos p (fun x => x.setVolume n v)
  | .ptt n true => if localToo ∨ (r.pos p).ptt.isSome then r else r.setPtt p (some n)
  | .ptt n false => if (r.pos p).ptt = some n then r.dropPtt p else r
  | .lineKey _ => r
  | .funcKey _ => r
  | .release => r
  | .hold => r
  | .ring => r

/-- R40: the line side of a HOOK event that puts handset h of p on-hook. -/
def Records.hangUp (p : Fin 48) (h : Handset) (r : Records) : Records :=
  match r.handLine p h with
  | none => r
  | some id => r.releaseLeave p id

/-- R65: the local action of an event, and its refusal. -/
def Records.localAction (p : Fin 48) (e : KeyEvent) (r : Records) : Records × Option KeyRefusal :=
  match e with
  | .lineKey k => r.pressLine p k
  | .release => r.releaseKey p
  | .hold => r.holdKey p
  | .ring => r.ringKey p
  | .hook h off => (if off then r else r.hangUp p h, none)
  | .ptt n press => if press then r.pressPtt p n else (r, none)
  | .volume _ _ => (r, none)
  | .funcKey _ => (r, none)

/-- R70: the subject of a refused local action. -/
def KeyEvent.subject : KeyEvent → Subject
  | .lineKey k => .key k
  | .funcKey k => .key (96 + k)
  | .release => .key 128
  | .hold => .key 129
  | .ring => .key 130
  | .hook h _ => .channel (.hand h)
  | .ptt n _ => .channel (.spk n)
  | .volume n _ => .channel (.spk n)

/-- R65, R70: the local action with its refusal recorded. -/
def Records.actLocally (p : Fin 48) (e : KeyEvent) (r : Records) : Records × Option KeyRefusal :=
  match r.localAction p e with
  | (r, none) => (r, none)
  | (r, some q) => (r.refuse p q e.subject, some q)

/-- R67: the event is forwarded to the host. -/
def Records.forward (p : Fin 48) (e : KeyEvent) (r : Records) : Records :=
  let key (c : Nat) : Records :=
    (r.modPos p (fun x => { x with pressed := setAdd c x.pressed })).raise (.position p.val) .keys
  match e with
  | .lineKey k => key k
  | .funcKey k => key (96 + k)
  | .release => key 128
  | .hold => key 129
  | .ring => key 130
  | .hook _ _ => r.raise (.position p.val) .console
  | .ptt _ _ => r.raise (.position p.val) .console
  | .volume _ _ => r.raise (.position p.val) .console

/-- R64: the disposition of an event's kind; FUNC_KEY is FORWARD. -/
def Dispositions.of (d : Dispositions) : KeyEvent → Disposition
  | .lineKey _ => d.lineKey
  | .funcKey _ => .forward
  | .release => d.release
  | .hold => d.hold
  | .ring => d.ring
  | .hook _ _ => d.hook
  | .ptt _ _ => d.ptt
  | .volume _ _ => d.volume

/-- R63: an event from the link, in its three parts; one for a DETACHED position is ignored. -/
def Records.takeEvent (p : Fin 48) (e : KeyEvent) (r : Records) : Records :=
  if (r.pos p).attached then
    match r.dispositions.of e with
    | .localAct => ((r.trackEvent p e true).actLocally p e).1
    | .forward => (r.trackEvent p e false).forward p e
    | .both => ((r.trackEvent p e true).actLocally p e).1.forward p e
  else r

/-- R63: the events of a message, each taken whole before the next; one that R63 does not know is ignored. -/
def Records.takeEvents (p : Fin 48) (es : List (Byte × Byte × Byte)) (r : Records) : Records :=
  es.foldl (fun r e => match KeyEvent.ofBytes e.1 e.2.1 e.2.2 with
    | none => r
    | some k => (r.takeEvent p k).settle) r

/-- R69: INJECT-EVENT. -/
def Records.injectEvent (pos : Nat) (kind a b : Byte) (r : Records) : ResultCode × Records :=
  match asFin 48 pos with
  | none => (.noSuch, r)
  | some p => match KeyEvent.ofBytes kind a b with
    | none => (.badValue, r)
    | some (.funcKey _) => (.badValue, r)
    | some e =>
      if (r.pos p).attached then
        match (r.trackEvent p e true).actLocally p e with
        | (r, none) => (.done, r)
        | (r, some q) => (.key q, r)
      else (.notAttached, r)

/-- R57: LOCK-POSITION; a PTT held is ended with its floor. -/
def Records.lockPosition (pos : Nat) (r : Records) : ResultCode × Records :=
  match asFin 48 pos with
  | none => (.noSuch, r)
  | some p => (.done, (r.modPos p (fun x => { x with lock := true })).dropPtt p)

/-- R57: UNLOCK-POSITION. -/
def Records.unlockPosition (pos : Nat) (r : Records) : ResultCode × Records :=
  match asFin 48 pos with
  | none => (.noSuch, r)
  | some p => (.done, r.modPos p (fun x => { x with lock := false }))

/-- R68: TAKE-KEYS. -/
def Records.takeKeys (pos : Nat) (r : Records) : ResultCode × List Byte × Records :=
  match asFin 48 pos with
  | none => (.noSuch, [], r)
  | some p =>
    let codes := (r.pos p).pressed
    (.done, byte1 codes.length :: codes.map byte1, r.modPos p (fun x => { x with pressed := [] }))

/-- R64: the disposition table with one kind's disposition written (kinds by their code in R147). -/
def Dispositions.set (d : Dispositions) (kind : Nat) (v : Disposition) : Option Dispositions :=
  match kind with
  | 1 => some { d with lineKey := v }
  | 2 => if v = .forward then some d else none
  | 3 => some { d with release := v }
  | 4 => some { d with hold := v }
  | 5 => some { d with ring := v }
  | 6 => some { d with hook := v }
  | 7 => some { d with ptt := v }
  | 8 => some { d with volume := v }
  | _ => none

/-- R64: SET-DISPOSITION. -/
def Records.setDisposition (kind v : Nat) (r : Records) : ResultCode × Records :=
  match Disposition.ofNat? v with
  | none => (.badValue, r)
  | some v => match r.dispositions.set kind v with
    | none => (.badValue, r)
    | some d => (.done, { r with dispositions := d })

/-- R76: the body of READ-POSITION; of the two pending counts the channels' stands first (log 17). -/
def Records.positionBody (r : Records) (p : Fin 48) : List Byte :=
  let x := r.pos p
  [x.attachState.byte] ++ (match x.identity with
    | some i => identityBytes i
    | none => absentBytes 6) ++
  [boolByte x.offHook1, boolByte x.offHook2] ++
  (match x.selected with
    | some h => [h.byte]
    | none => absentBytes 1) ++
  opt1 (x.ptt.map (·.val)) ++ x.volume.toList.map byte1 ++
  (r.bound p (.hand .h1)).bytes ++ (r.bound p (.hand .h2)).bytes ++ x.speaker.toList.flatMap Binding.bytes ++
  [byte1 x.pressed.length] ++
  (match x.refusal with
    | some q => [byte1 q.reason.code, q.subject.byte]
    | none => absentBytes 2) ++
  [byte1 x.channelPending.length, byte1 x.lampPending.length]

/-- R76: READ-POSITION. -/
def Records.readPosition (pos : Nat) (r : Records) : ResultCode × List Byte :=
  match asFin 48 pos with
  | none => (.noSuch, [])
  | some p => (.done, r.positionBody p)

/-! ### Outputs (R72, R73) -/

/-- R152: output pending at p. -/
def Records.outputPending (r : Records) (p : Fin 48) : Bool :=
  (r.pos p).refusal.isSome || !(r.pos p).channelPending.isEmpty || !(r.pos p).lampPending.isEmpty

/-- R72: the items of the next OUTPUT, in their order, and the values they carry now. -/
def Records.buildItems (r : Records) (p : Fin 48) : List OutItem :=
  let x := r.pos p
  let ref : List OutItem := match x.refusal with
    | some q => [.refusal q]
    | none => []
  let chans := x.channelPending.filterMap (fun n => (asFin 8 n).map (fun n =>
    OutItem.channel n (r.indicator p n).1 (r.indicator p n).2))
  let lamps := x.lampPending.map (fun k => OutItem.lamp k (r.lampAt p k).1 (r.lampAt p k).2)
  (ref ++ chans ++ lamps).take 4

/-- R72: an item is taken out of the output pending state. -/
def Position.takeItem (x : Position) : OutItem → Position
  | .refusal _ => { x with refusal := none }
  | .channel n _ _ => { x with channelPending := x.channelPending.filter (fun i => !(i == n.val)) }
  | .lamp k _ _ => { x with lampPending := x.lampPending.filter (fun i => !(i == k)) }

/-- R73: an item handed back; a refusal is restored only when none has been recorded since. -/
def Position.returnItem (x : Position) : OutItem → Position
  | .refusal q => { x with refusal := match x.refusal with
      | some y => some y
      | none => some q }
  | .channel n _ _ => { x with channelPending := setAdd n.val x.channelPending }
  | .lamp k _ _ => { x with lampPending := setAdd k x.lampPending }

/-- R72: the items leave the pending state as they are built. -/
def Records.takeItems (p : Fin 48) (items : List OutItem) (r : Records) : Records :=
  r.modPos p (fun x => items.foldl Position.takeItem x)

/-- R73, R71: the items of a failed OUTPUT come back; at a DETACHED position they are discarded. -/
def Records.returnItems (p : Fin 48) (items : List OutItem) (r : Records) : Records :=
  if (r.pos p).attached then r.modPos p (fun x => items.foldl Position.returnItem x) else r

/-! ### Position loss and attachment (R74, R49, R96, R75) -/

/-- R74: the position record at its loss. -/
def Position.lose (x : Position) : Position :=
  { x with attached := false, identity := none, ptt := none, offHook1 := false, offHook2 := false
           selected := none, refusal := none, channelPending := [], lampPending := [] }

/-- The membership whose channel p's ptt_channel names (R96). -/
def Records.talkingAt (r : Records) (p : Fin 48) : Option Nat :=
  match (r.pos p).ptt with
  | none => none
  | some n => r.memberOn p n

/-- A group whose need ended leaves the wait list; a bridge it still holds is released later in the step (log 8). -/
def Records.leaveIfUnneeded (g : Nat) (r : Records) : Records :=
  match r.group? g with
  | none => r
  | some x => if !r.needsBridge g && x.inWaitList then r.leaveWaitList g else r

/-- R49, R74, R96, R107: position p is lost. Its floor ends; then the lines of which it is a party are treated in rising order, handing back their bridges; then its group's grant pass and bridge need follow (log 8). -/
def Records.losePosition (p : Fin 48) (r : Records) : Records :=
  let talk := (r.talkingAt p).bind (fun m => (r.member? m).map (fun x => (m, x)))
  let r := r.modPos p Position.lose
  let r : Records := match talk with
    | none => r
    | some (m, x) => (r.dropFloor m).leaveIfUnneeded x.group
  let r := (Table.ids r.lines).foldl (fun r id => r.lineLosesPosition p id) r
  match talk with
  | none => r
  | some (_, x) => r.afterLeave x.group x.floor

/-- R75: position p is attached by the console of this identity: its whole face is marked. -/
def Records.attachPosition (p : Fin 48) (i : Identity) (r : Records) : Records :=
  r.modPos p (fun x => { x with
    attached := true, identity := some i
    lampPending := List.range 96, channelPending := List.range 8 })

end Sys2Proof.Machine
end

