-- ==== Sys2Proof/Machine/Port.lean ====
section
/-!
DEFINITION. What every command shares (the end of a step), the supervisory port's queues, executor and frames (chapter 9), and the meanings of the SPI transactions and of the requests that no block is asked about.
-/
namespace Sys2Proof.Machine

/-! ### The end of a step -/

/-- The next step of the link cycle (R149). -/
def CycleStep.succ : CycleStep → CycleStep
  | .window => .output
  | .output => .parkOrPoll
  | .parkOrPoll => .window

/-- The presence record of position p (R141). -/
def Link.pres (l : Link) (p : Fin 48) : Presence := vget l.presence p

/-- Apply f to the presence record of position p. -/
def Link.modPres (p : Fin 48) (f : Presence → Presence) (l : Link) : Link :=
  { l with presence := vset l.presence p (f (l.pres p)) }

/-- R152: the first position after the output pointer, counting upward and wrapping, that has output pending; the pointer's own position comes last. -/
def State.outputTarget (s : State) : Option (Fin 48) :=
  (allFin 48).findSome? (fun k =>
    let p : Fin 48 := s.link.outPtr + k + 1
    if (s.recs.pos p).attached && s.recs.outputPending p then some p else none)

/-- R149: the lowest position with park pending. -/
def Link.parkTarget (l : Link) : Option (Fin 48) := (allFin 48).find? (fun p => (l.pres p).parkPending)

/-- R149: the position to poll: attached, idle for 500 ms or more, the longest idle, a tie to the lowest. -/
def State.pollTarget (s : State) : Option (Fin 48) :=
  (allFin 48).foldl (fun best p =>
    if (s.recs.pos p).attached && decide (500 ≤ (s.link.pres p).idle) then
      match best with
      | none => some p
      | some q => if (s.link.pres q).idle < (s.link.pres p).idle then some p else some q
    else best) none

/-- R149: the third step of the cycle has something to do. -/
def State.parkOrPollDue (s : State) : Bool := s.link.parkTarget.isSome || s.pollTarget.isSome

/-- R149: a step with nothing to do is passed at once. -/
def State.passedStep (s : State) : CycleStep :=
  match s.link.cycle with
  | .window => .window
  | .output => if s.outputTarget.isSome then .output else if s.parkOrPollDue then .parkOrPoll else .window
  | .parkOrPoll => if s.parkOrPollDue then .parkOrPoll else .window

/-- The link cycle at the end of a step: it stays where it is while a transaction is in progress. -/
def State.settleCycle (s : State) : State :=
  if s.link.txn.isSome then s else { s with link := { s.link with cycle := s.passedStep } }

/-- What every event settles in its own step: freed slots, completed retirements, the port work list (Records.settle), and the passing of idle steps of the link cycle. -/
def State.finish (s : State) : State := { s with recs := s.recs.settle }.settleCycle

/-- R198: while a cold start holds every block, an event has no effect. -/
def State.whenUp (s : State) (t : Host.Outcome State Fault Refusal) : Host.Outcome State Fault Refusal :=
  if s.resetPin = .coldHeld then .next s else t

/-! ### Requests and results (R189, R191) -/

/-- R184: bit 0 of the flags, end-of-frame. -/
def endOfFrame (flags : Byte) : Bool := flags.getLsbD 0

/-- R189 case 2, the other way: the stated length is at most 200 and the body has that many bytes. -/
def Request.wellSized (q : Request) : Bool := decide (q.length.toNat ≤ 200) && decide (q.length.toNat ≤ q.body.length)

/-- 9.4: the request codes of the catalogue. -/
def catalogue : List Nat :=
  [1, 2, 3, 4, 5, 6, 8, 9, 10, 11, 12, 16, 17, 18, 19, 20, 21, 22, 24, 25, 26, 27, 28, 29, 30, 31, 32, 33, 34, 35] ++
  [40, 41, 42, 43, 44, 45, 48, 49, 50]

/-- R189: the executor takes the head of the request queue. R203: it takes nothing while RESET_N is low. -/
def State.ready (s : State) : Option (Request × Port) :=
  if s.part = .running ∧ s.resetPin = .released ∧ s.port.executor = none ∧ s.port.results.length < Config.queue then
    match s.port.requests with
    | q :: rest => some (q, { s.port with requests := rest })
    | [] => none
  else none

/-- R189 case 4: the head request is taken and goes to its owning block, the one whose request has this code. -/
def State.takes (s : State) (code : Nat) : Option (Request × Port) :=
  match s.ready with
  | none => none
  | some (q, p) =>
    if p.frame ≠ .inFrame true ∧ q.wellSized = true ∧ q.code.toNat = code then some (q, p) else none

/-- R191: the frame state after an answer: closed by end-of-frame; else open, failed unless the result is DONE. -/
def frameAfter (flags : Byte) (c : ResultCode) : FrameState :=
  if endOfFrame flags then .notInFrame else .inFrame (c != .done)

/-- R189: the result joins the tail of the result queue, the executor becomes free, the frame state follows. -/
def Port.reply (tag : Tag) (code flags : Byte) (c : ResultCode) (body : List Byte) (p : Port) : Port :=
  { p with
    results := p.results ++ [⟨tag, code, c, body⟩]
    executor := none
    frame := frameAfter flags c }

/-- The answer to a request in the step in which it is taken. -/
def Port.answer (q : Request) (c : ResultCode) (body : List Byte) (p : Port) : Port :=
  p.reply q.tag q.code q.flags c body

/-- R190: a request that takes time holds the executor. -/
def Port.hold (q : Request) (j : Job) (p : Port) : Port :=
  { p with executor := some ⟨q.tag, q.code, q.flags, j, false⟩ }

/-- R190, R192: a held request completes; one whose result a warm restart dropped only frees the executor. -/
def Port.complete (c : ResultCode) (body : List Byte) (p : Port) : Port :=
  match p.executor with
  | none => p
  | some h => if h.dropped then { p with executor := none } else p.reply h.tag h.code h.flags c body

/-- The executor holds this job. -/
def Port.holds (p : Port) (j : Job) : Bool :=
  match p.executor with
  | none => false
  | some h => h.job == j

/-- A request that is answered at once and may change any record: f gives the result, the body and the new state, from the body bytes. -/
def State.request (s : State) (code : Nat) (f : List Byte → State → ResultCode × List Byte × State) : Host.Outcome State Fault Refusal :=
  match s.takes code with
  | none => .next s
  | some (q, p) =>
    let x := f q.body { s with port := p }
    .next ({ x.2.2 with port := x.2.2.port.answer q x.1 x.2.1 }.finish)

/-- A request answered at once with an empty body, over the shared records. -/
def State.recordRequest (s : State) (code : Nat) (f : List Byte → Records → ResultCode × Records) : Host.Outcome State Fault Refusal :=
  match s.takes code with
  | none => .next s
  | some (q, p) =>
    let x := f q.body s.recs
    .next ({ s with port := p.answer q x.1 [], recs := x.2 }.finish)

/-- A request that only reads: nothing but the port changes. -/
def State.readRequest (s : State) (code : Nat) (f : List Byte → ResultCode × List Byte) : Host.Outcome State Fault Refusal :=
  match s.takes code with
  | none => .next s
  | some (q, p) => .next { s with port := p.answer q (f q.body).1 (f q.body).2 }

/-! ### SPI transactions (R183 to R186) -/

/-- R183, R203: the port takes SPI transactions as long as RESET_N is high. -/
def State.spi (s : State) (f : Port → Port) : Host.Outcome State Fault Refusal :=
  if s.resetPin = .released then .next { s with port := f s.port } else .next s

/-- R184: a WRITE_REQUEST ends. -/
def Port.write (bytes : List Byte) (p : Port) : Port :=
  let p := { p with spDo := clockedOut bytes.length [], status := [] }
  match bytes with
  | t1 :: t0 :: code :: flags :: len :: body =>
    if p.requests.length < Config.queue then
      { p with requests := p.requests ++ [⟨t1 ++ t0, code, flags, len, body.take len.toNat⟩] }
    else { p with full := true }
  | _ => p

/-- R185: a READ_RESULT ends. -/
def Port.readResult (clocked : Nat) (p : Port) : Port :=
  match p.results with
  | [] => { p with spDo := clockedOut clocked emptyRecord, status := [] }
  | x :: rest => { p with results := rest, spDo := clockedOut clocked x.bytes, status := [] }

/-- R186: the value now of the status byte with this place, counting from 0. R186 says nothing of bytes after the fifth: zeros there are the model's choice (log 42). -/
def State.statusByte (s : State) (place : Nat) : Byte :=
  match place with
  | 0 => s.part.byte
  | 1 => byte1 (Config.queue - s.port.requests.length)
  | 2 => byte1 s.port.results.length
  | 3 => boolByte (attentionPending s.port s.recs.raised)
  | 4 => boolByte s.port.full
  | _ => 0

/-- R186: a byte of the READ_STATUS in progress starts, and carries the value v read now. -/
def Port.startStatusByte (v : Byte) (p : Port) : Port := { p with status := p.status ++ [v] }

/-- R186: a READ_STATUS ends; FULL becomes false when its byte, the fifth, reported it as 1. -/
def Port.endStatus (p : Port) : Port :=
  { p with full := p.full && !(p.status[4]? == some 1), spDo := 0 :: p.status, status := [] }

/-! ### Meanings -/

/-- WRITE_REQUEST (R184). -/
def execWriteRequest (bytes : List Byte) (s : State) : Host.Outcome State Fault Refusal := s.spi (Port.write bytes)

/-- READ_RESULT (R185). -/
def execReadResult (clocked : Nat) (s : State) : Host.Outcome State Fault Refusal := s.spi (Port.readResult clocked)

/-- READ_STATUS (R186, log 13). -/
def execReadStatus (phase : StatusPhase) (s : State) : Host.Outcome State Fault Refusal :=
  match phase with
  | .byteStarts => s.spi (Port.startStatusByte (s.statusByte s.port.status.length))
  | .ends => s.spi Port.endStatus

/-- SPI_UNKNOWN_OPERATION (R183): no effect, zeros returned; an operation byte that selects an operation spells no such transaction. -/
def execSpiUnknownOperation (op : Byte) (clocked : Nat) (s : State) : Host.Outcome State Fault Refusal :=
  match spiOperation op with
  | some _ => .next s
  | none => s.spi (fun p => { p with spDo := clockedOut clocked [], status := [] })

/-- REQUEST_SKIPPED (R189 case 1, R191). -/
def execRequestSkipped (s : State) : Host.Outcome State Fault Refusal :=
  match s.ready with
  | none => .next s
  | some (q, p) => if p.frame = .inFrame true then .next { s with port := p.answer q .skipped [] } else .next s

/-- REQUEST_MALFORMED (R189 cases 2 and 3). -/
def execRequestMalformed (s : State) : Host.Outcome State Fault Refusal :=
  match s.ready with
  | none => .next s
  | some (q, p) =>
    if p.frame ≠ .inFrame true ∧ (q.wellSized = false ∨ q.code.toNat ∉ catalogue)
    then .next { s with port := p.answer q .badValue [] } else .next s

end Sys2Proof.Machine
end

