-- ==== Sys2Proof/Machine/Time.lean ====
section
/-!
DEFINITION. The passing of time (log 2, log 3, log 22), and the meanings of the timer expiries.
-/
namespace Sys2Proof.Machine

/-- A line's timer after ms milliseconds. -/
def Line.elapse (ms : Nat) (l : Line) : Line :=
  { l with timer := l.timer.map (fun t => { t with ms := t.ms - ms }) }

/-- A member's talk timer after ms milliseconds. -/
def Member.elapse (ms : Nat) (x : Member) : Member := { x with talkTimer := x.talkTimer.map (fun t => t - ms) }

/-- The response limit of the command in flight after ms milliseconds (R172). -/
def InFlight.elapse (ms : Nat) (f : InFlight) : InFlight := { f with left := f.left - ms }

/-- The timers of the shared records after ms milliseconds. -/
def Records.elapse (ms : Nat) (r : Records) : Records :=
  { r with
    lines := r.lines.map (fun e => (e.1, e.2.elapse ms))
    members := r.members.map (fun e => (e.1, e.2.elapse ms))
    inFlight := r.inFlight.map (InFlight.elapse ms) }

/-- R149: the idle time of a position counts while it is ATTACHED or LOCKED. -/
def Link.elapseAt (ms : Nat) (r : Records) (l : Link) (p : Fin 48) : Link :=
  if (r.pos p).attached then l.modPres p (fun x => { x with idle := x.idle + ms }) else l

/-- The idle times and the recovery interval after ms milliseconds. -/
def Link.elapse (ms : Nat) (r : Records) (l : Link) : Link :=
  (allFin 48).foldl (Link.elapseAt ms r) { l with recoveryWait := l.recoveryWait - ms }

/-- ms milliseconds pass. -/
def State.advance (ms : Nat) (s : State) : State :=
  if ms = 0 then s else
  { s with
    recs := s.recs.elapse ms
    link := s.link.elapse ms s.recs
    bus := { s.bus with probeTimer := s.bus.probeTimer.map (fun t => t - ms) } }

/-- The step on an empty queue: one millisecond passes (log 2). -/
def State.tick (s : State) : State := if s.resetPin = .coldHeld then s else (s.advance 1).settleCycle

/-- The remaining time of line id's timer of this kind, when it runs. -/
def Records.timerLeft (r : Records) (id : Nat) (k : TimerKind) : Option Nat :=
  match r.line? id with
  | none => none
  | some l => match l.timer with
    | none => none
    | some t => if t.kind = k then some t.ms else none

/-- The expiry of line id's timer of this kind: the time that remained passes, then f acts. -/
def State.lineExpiry (s : State) (id : Nat) (k : TimerKind) (f : Records → Records) : Host.Outcome State Fault Refusal :=
  s.whenUp (match s.recs.timerLeft id k with
    | none => .next s
    | some ms =>
      let t := s.advance ms
      .next ({ t with recs := f t.recs }.finish))

/-- RING_EXPIRY (R35, R32). -/
def execRingExpiry (line : Nat) (s : State) : Host.Outcome State Fault Refusal := s.lineExpiry line .ring (Records.ringExpired line)

/-- RECALL_WAIT_EXPIRY (R43). -/
def execRecallWaitExpiry (line : Nat) (s : State) : Host.Outcome State Fault Refusal :=
  s.lineExpiry line .recallWait (Records.recallExpired line)

/-- RING_BURST_EXPIRY (R33). -/
def execRingBurstExpiry (line : Nat) (s : State) : Host.Outcome State Fault Refusal :=
  s.lineExpiry line .ringBurst (Records.burstExpired line)

/-- The remaining time of member m's talk timer, when it runs. -/
def Records.talkLeft (r : Records) (m : Nat) : Option Nat :=
  match r.member? m with
  | none => none
  | some x => x.talkTimer

/-- TALK_TIMER_EXPIRY (R93): the floor is revoked; ptt_channel stays as it is. -/
def execTalkTimerExpiry (member : Nat) (s : State) : Host.Outcome State Fault Refusal :=
  s.whenUp (match s.recs.talkLeft member with
    | none => .next s
    | some ms =>
      let t := s.advance ms
      .next ({ t with recs := t.recs.releaseFloor member }.finish))

end Sys2Proof.Machine
end

