-- ==== Sys2Proof/Machine/Link.lean ====
section
/-!
DEFINITION. The console link controller (chapter 7): presence, admission and parking, roll-call sequences, the stuck link, and the meanings of the link's steps.
-/
namespace Sys2Proof.Machine

/-! ### Admission, parking, attachment -/

/-- The admission entry of position p (R155). -/
def Link.entry (l : Link) (p : Fin 48) : Option Identity := vget l.admission p

/-- Write the admission entry of position p. -/
def Link.setEntry (p : Fin 48) (v : Option Identity) (l : Link) : Link := { l with admission := vset l.admission p v }

/-- R155: the position whose entry holds the identity; entries hold distinct identities. -/
def Link.admittedTo (l : Link) (i : Identity) : Option (Fin 48) := (allFin 48).find? (fun p => l.entry p == some i)

/-- R157: an identity joins the tail of the parked list, unless it stands there or the list holds 8. -/
def Link.addParked (i : Identity) (l : Link) : Link :=
  if l.parked.contains i || decide (Config.parked ≤ l.parked.length) then l else { l with parked := l.parked ++ [i] }

/-- R157, R161: an identity leaves the parked list. -/
def Link.dropParked (i : Identity) (l : Link) : Link := { l with parked := l.parked.filter (fun x => !(x == i)) }

/-- R154: position p is detached. -/
def State.detach (p : Fin 48) (s : State) : State :=
  { s with
    recs := (s.recs.losePosition p).raise (.position p.val) .detached
    link := s.link.modPres p (fun x => { x with miss := 0 }) }

/-- R154, R161, R156: position p is detached when it is ATTACHED or LOCKED. -/
def State.detachIfAttached (p : Fin 48) (s : State) : State := if (s.recs.pos p).attached then s.detach p else s

/-- R154: a transaction with position p drew no valid reply: a miss is counted while p is attached, and the third detaches it. -/
def State.miss (p : Fin 48) (s : State) : State :=
  if (s.recs.pos p).attached then
    (if (s.link.pres p).miss < 2 then { s with link := s.link.modPres p (fun x => { x with miss := x.miss + 1 }) }
     else s.detach p)
  else s

/-- R154: a valid reply from position p. -/
def State.present (p : Fin 48) (s : State) : State :=
  { s with link := s.link.modPres p (fun x => { x with miss := 0 }) }

/-- R161: the attachment of position p by the console of this identity. -/
def State.attach (p : Fin 48) (i : Identity) (s : State) : State :=
  { s with
    recs := (s.recs.attachPosition p i).raise (.position p.val) .attached
    link := (s.link.modPres p (fun x => { x with miss := 0, idle := 0, flag := true })).dropParked i }

/-- R155: ADMIT-CONSOLE, and an item of an ADMISSION section. -/
def Link.admitConsole (pos : Nat) (i : Identity) (l : Link) : ResultCode × Link :=
  match asFin 48 pos with
  | none => (.noSuch, l)
  | some p =>
    if (l.entry p).isSome then (.conflict, l)
    else if (l.admittedTo i).isSome then (.conflict, l)
    else if (l.pres p).parkPending then (.inUse, l)
    else (.done, { l.setEntry p (some i) with wanted := l.wanted || l.parked.contains i })

/-- R156: REVOKE-CONSOLE. -/
def State.revoke (pos : Nat) (s : State) : ResultCode × State :=
  match asFin 48 pos with
  | none => (.noSuch, s)
  | some p => match s.link.entry p with
    | none => (.notDefined, s)
    | some i =>
      let s := s.detachIfAttached p
      (.done, { s with link := ((s.link.addParked i).setEntry p none).modPres p (fun x => { x with parkPending := true }) })

/-! ### Transactions -/

/-- R165: the executor holds a LINK-RESET whose attempt has not been made. -/
def State.resetWaits (s : State) : Bool := s.port.holds .linkReset

/-- R146, R149, R165: a transaction of the link cycle may begin: the link RUNNING, no transaction or sequence in progress, none wanted or waiting, no LINK-RESET waiting. -/
def State.cycleOpen (s : State) : Bool :=
  s.link.state == .running && s.link.txn.isNone && s.link.sequence.isNone && !s.link.wanted && s.link.waits.isEmpty && !s.resetWaits

/-- The cycle step in progress ends (R149). -/
def Link.endStep (l : Link) : Link := { l with txn := none, cycle := l.cycle.succ }

/-- R149: the idle time of position p restarts. -/
def Link.rest (p : Fin 48) (l : Link) : Link := l.modPres p (fun x => { x with idle := 0 })

/-- The transaction with position p ends: its idle time restarts and the cycle step ends (R149). -/
def State.endTxn (p : Fin 48) (s : State) : State := { s with link := (s.link.rest p).endStep }

/-- REQUEST_WINDOW (R150). -/
def State.window (answer : Option (BitVec 6)) (s : State) : State :=
  let s := { s with link := { s.link with sent := [] } }
  match answer with
  | none => { s with link := s.link.endStep }
  | some a =>
    if 1 ≤ a.toNat ∧ a.toNat ≤ 48 then { s with link := { s.link with txn := some (.event a.toNat) } }
    else if a.toNat = 63 then
      match s.link.policy with
      | .accept => { s with link := { s.link.endStep with wanted := true } }
      | .ignore => { s with link := s.link.endStep, recs := s.recs.raise .link .join }
    else { s with link := s.link.endStep }

/-- REQUEST_WINDOW (R150, R158). -/
def execRequestWindow (answer : Option (BitVec 6)) (s : State) : Host.Outcome State Fault Refusal :=
  s.whenUp (if s.cycleOpen ∧ s.link.cycle = .window then .next (s.window answer).finish else .next s)

/-- R151: the EVENT message of position p, ATTACHED or LOCKED: the answer sent and the state after. -/
def State.judgeEvent (p : Fin 48) (bytes : List Byte) (s : State) : List Byte × State :=
  match EventMsg.parse (addressOf p) bytes with
  | none => (msgNak (addressOf p) 1, s)
  | some m =>
    let s := s.present p
    let flagged : State := { s with link := s.link.modPres p (fun x => { x with flag := flagOf m.flag }) }
    if (s.recs.pos p).lock then (msgNak (addressOf p) 2, flagged)
    else if flagOf m.flag = (s.link.pres p).flag then (msgAck (addressOf p), s)
    else (msgAck (addressOf p), { flagged with recs := s.recs.takeEvents p m.events })

/-- R150, R151: the EVENT of the window's winner, position p: of a DETACHED position its events are discarded and ASSIGN 0 answers it. -/
def State.takeMessage (p : Fin 48) (bytes : List Byte) (s : State) : State :=
  let x := if (s.recs.pos p).attached then s.judgeEvent p bytes else (msgAssign (addressOf p) 0, s)
  ({ x.2 with link := { x.2.link with sent := [x.1] } }).endTxn p

/-- EVENT_MESSAGE (R150, R151). -/
def execEventMessage (bytes : List Byte) (s : State) : Host.Outcome State Fault Refusal :=
  s.whenUp (match s.link.txn with
    | some (.event a) => match asFin 48 (a - 1) with
      | some p => .next (s.takeMessage p bytes).finish
      | none => .next s
    | some (.output _ _) => .next s
    | some (.poll _) => .next s
    | some (.park _) => .next s
    | none => .next s)

/-- R152, R72: an OUTPUT is built for position p and sent. -/
def State.sendOutput (p : Fin 48) (s : State) : State :=
  let items := s.recs.buildItems p
  { s with
    recs := s.recs.takeItems p items
    link := { s.link with outPtr := p, txn := some (.output p items), sent := [msgOutput (addressOf p) items] } }

/-- R152, R148: the reply to an OUTPUT: ACK, NAK(CHECK), or no valid reply. -/
def State.outputReply (p : Fin 48) (items : List OutItem) (bytes : List Byte) (s : State) : State :=
  if bytes = msgAck (addressOf p) then (s.present p).endTxn p
  else
    let s := { s with recs := s.recs.returnItems p items }
    if bytes = msgNak (addressOf p) 1 then (s.present p).endTxn p else (s.miss p).endTxn p

/-- OUTPUT (R152). -/
def execOutput (phase : LinkPhase) (s : State) : Host.Outcome State Fault Refusal :=
  s.whenUp (match phase with
    | .sent =>
      if s.cycleOpen ∧ s.link.cycle = .output then
        match s.outputTarget with
        | some p => .next (s.sendOutput p).finish
        | none => .next s
      else .next s
    | .reply bytes => match s.link.txn with
      | some (.output p items) => .next (s.outputReply p items bytes).finish
      | some (.event _) => .next s
      | some (.poll _) => .next s
      | some (.park _) => .next s
      | none => .next s)

/-- R153: a POLL is sent to position p. -/
def State.sendPoll (p : Fin 48) (s : State) : State :=
  { s with link := { s.link with txn := some (.poll p), sent := [msgPoll (addressOf p)] } }

/-- R153, R148: the reply to a POLL: ACK, or no valid reply. -/
def State.pollReply (p : Fin 48) (bytes : List Byte) (s : State) : State :=
  if bytes = msgAck (addressOf p) then (s.present p).endTxn p else (s.miss p).endTxn p

/-- POLL (R153). -/
def execPoll (phase : LinkPhase) (s : State) : Host.Outcome State Fault Refusal :=
  s.whenUp (match phase with
    | .sent =>
      if s.cycleOpen ∧ s.link.cycle = .parkOrPoll ∧ s.link.parkTarget = none then
        match s.pollTarget with
        | some p => .next (s.sendPoll p).finish
        | none => .next s
      else .next s
    | .reply bytes => match s.link.txn with
      | some (.poll p) => .next (s.pollReply p bytes).finish
      | some (.event _) => .next s
      | some (.output _ _) => .next s
      | some (.park _) => .next s
      | none => .next s)

/-- R149, R156: a PARK is sent to position p and park pending becomes false. -/
def State.sendPark (p : Fin 48) (s : State) : State :=
  { s with link := { s.link.modPres p (fun x => { x with parkPending := false }) with
    txn := some (.park p), sent := [msgPark (addressOf p)] } }

/-- PARK (R156, R149); whatever the reply, nothing follows from it (R148). -/
def execPark (phase : LinkPhase) (s : State) : Host.Outcome State Fault Refusal :=
  s.whenUp (match phase with
    | .sent =>
      if s.cycleOpen ∧ s.link.cycle = .parkOrPoll then
        match s.link.parkTarget with
        | some p => .next (s.sendPark p).finish
        | none => .next s
      else .next s
    | .reply _ => match s.link.txn with
      | some (.park _) => .next { s with link := s.link.endStep }.finish
      | some (.event _) => .next s
      | some (.output _ _) => .next s
      | some (.poll _) => .next s
      | none => .next s)

/-- POSITION_DETACH (R154): the third miss of position pos is counted and detaches it: the reply field of the OUTPUT or POLL in progress ends without a valid reply (log 6). -/
def execPositionDetach (pos : Nat) (s : State) : Host.Outcome State Fault Refusal :=
  s.whenUp (match asFin 48 pos with
    | none => .next s
    | some p =>
      if (s.recs.pos p).attached ∧ 2 ≤ (s.link.pres p).miss then
        match s.link.txn with
        | some (.output q items) => if q = p then .next (s.outputReply p items []).finish else .next s
        | some (.poll q) => if q = p then .next (s.pollReply p []).finish else .next s
        | some (.event _) => .next s
        | some (.park _) => .next s
        | none => .next s
      else .next s)

/-! ### Roll-call sequences (R159 to R162) -/

/-- R159: a sequence begins. -/
def Link.begin (sc : Scope) (owned : Bool) (l : Link) : Link :=
  { l with sequence := some ⟨sc, 0, owned, 0, 0⟩, wanted := false, cycle := .window }

/-- R159, R162: the next sequence begins: that of the ROLL-CALL that waits, else the wanted one, of scope NEW; else the cycle resumes at step 1. -/
def Link.beginNext (l : Link) : Link :=
  match l.waits with
  | w :: rest => { l with waits := rest }.begin w.scope w.owned
  | [] => if l.wanted then l.begin .new false else { l with cycle := .window }

/-- SEQUENCE_BEGIN (R159). -/
def execSequenceBegin (s : State) : Host.Outcome State Fault Refusal :=
  s.whenUp (if s.link.state = .running ∧ s.link.txn = none ∧ s.link.sequence = none ∧ (s.link.wanted = true ∨ s.link.waits ≠ [])
    then .next { s with link := s.link.beginNext }.finish else .next s)

/-- R162: the body of a ROLL-CALL's result: consoles attached, consoles parked, rounds. -/
def Sequence.body (q : Sequence) : List Byte := [byte1 q.attached, byte1 q.parked, byte1 q.rounds]

/-- R162, R202: a sequence is over: the ROLL-CALL that owns it completes, and the consoles stage ends with the first sequence. -/
def State.closeSequence (q : Sequence) (c : ResultCode) (s : State) : State :=
  { s with
    link := { s.link with sequence := none, cycle := .window }
    port := if q.owned && s.port.holds .rollCall then s.port.complete c q.body else s.port
    part := if s.part = .startingConsoles then .running else s.part }

/-- R162: a sequence ends by silence or by its 64 rounds; the next one begins first, when there is one. -/
def State.endSequence (q : Sequence) (s : State) : State :=
  let s := s.closeSequence q .done
  { s with link := s.link.beginNext }

/-- R160, R162: a round may be made: the link RUNNING, no transaction in progress, fewer than 64 rounds, no LINK-RESET waiting. -/
def State.roundOpen (s : State) (q : Sequence) : Bool :=
  s.link.state == .running && s.link.txn.isNone && decide (q.rounds < Config.rounds) && !s.resetWaits

/-- R159: the scope that the next round sends. -/
def Sequence.roundScope (q : Sequence) : Scope := if q.rounds = 0 then q.scope else .new

/-- R160, R161: the winner, admitted to position p, is sent ASSIGN; a valid ACK carries the new address. -/
def State.assignWinner (q : Sequence) (p : Fin 48) (i : Identity) (reply : List Byte) (s : State) : State :=
  let s := s.detachIfAttached p
  let s := { s with link := { s.link with
    sent := [msgRollCall q.roundScope, msgAssign 63 (addressOf p)], sequence := some { q with rounds := q.rounds + 1 } } }
  if reply = msgAck (addressOf p) then
    let s := s.attach p i
    { s with link := { s.link with sequence := some { q with rounds := q.rounds + 1, attached := q.attached + 1 } } }
  else s

/-- R160, R157: the winner, without an admission entry, is parked. -/
def State.parkWinner (q : Sequence) (i : Identity) (s : State) : State :=
  { s with
    recs := s.recs.raise .link .parked
    link := { s.link.addParked i with
      sent := [msgRollCall q.roundScope, msgPark 63], sequence := some { q with rounds := q.rounds + 1, parked := q.parked + 1 } } }

/-- R160: a round that some console answered. -/
def State.round (q : Sequence) (i : Identity) (check : Byte) (reply : List Byte) (s : State) : State :=
  if check = crc8 (identityBytes i) then
    match s.link.admittedTo i with
    | some p => s.assignWinner q p i reply
    | none => s.parkWinner q i
  else { s with link := { s.link with sent := [msgRollCall q.roundScope], sequence := some { q with rounds := q.rounds + 1 } } }

/-- ROLL_CALL_ROUND (R160, R161). -/
def execRollCallRound (identity : Identity) (check : Byte) (reply : List Byte) (s : State) : Host.Outcome State Fault Refusal :=
  s.whenUp (match s.link.sequence with
    | none => .next s
    | some q => if s.roundOpen q then .next (s.round q identity check reply).finish else .next s)

/-- ROLL_CALL_SILENCE (R160 step 2, R162): the silent round counts among the rounds. -/
def execRollCallSilence (s : State) : Host.Outcome State Fault Refusal :=
  s.whenUp (match s.link.sequence with
    | none => .next s
    | some q =>
      if s.roundOpen q then
        .next ({ s with link := { s.link with sent := [msgRollCall q.roundScope] } }.endSequence { q with rounds := q.rounds + 1 }).finish
      else .next s)

/-- ROUND_CAP (R160 step 5, R162). -/
def execRoundCap (s : State) : Host.Outcome State Fault Refusal :=
  s.whenUp (match s.link.sequence with
    | none => .next s
    | some q =>
      if s.link.state = .running ∧ q.rounds = Config.rounds then .next (s.endSequence q).finish else .next s)

/-! ### The stuck link (R163 to R165) -/

/-- R149, R164: the idle times of every position restart. -/
def Link.restAll (l : Link) : Link := (allFin 48).foldl (fun l p => l.rest p) l

/-- R164: a recovery attempt on a STUCK link reads the wires. -/
def State.attempt (w : Wires) (s : State) : State :=
  if w.clk && w.dat then
    { s with
      recs := s.recs.raise .link .recovered
      link := { s.link.restAll with state := .running, recoveryWait := 0 }.beginNext }
  else { s with link := { s.link with recoveryWait := 100 } }

/-- R163: the transaction in progress is abandoned; the items of an OUTPUT are handed back, and no miss is counted. -/
def State.abandon (s : State) : State :=
  match s.link.txn with
  | some (.output p items) => { s with recs := s.recs.returnItems p items, link := { s.link with txn := none } }
  | some (.event _) => { s with link := { s.link with txn := none } }
  | some (.poll _) => { s with link := { s.link with txn := none } }
  | some (.park _) => { s with link := { s.link with txn := none } }
  | none => s

/-- R162, R163: what waits for a sequence of its own completes with BUS_FAULT, its sequence never begun. That holds of a ROLL-CALL that waits for another sequence. One that waits for a transaction (log 24) is treated in the same way, sequence wanted left as it was: the model's choice (log 43), for the spec has no such wait. A wait without its request, left by a warm restart, is dropped too (log 16); the body of zeros is log 14. -/
def State.dropWaits (s : State) : State :=
  { s with
    link := { s.link with waits := [] }
    port := if s.link.waits.any (fun w => w.owned) && s.port.holds .rollCall then s.port.complete .busFault [0, 0, 0] else s.port }

/-- R163: the sequence in progress ends and leaves sequence wanted true. -/
def State.breakSequence (s : State) : State :=
  match s.link.sequence with
  | none => s
  | some q =>
    let s := s.closeSequence q .busFault
    { s with link := { s.link with wanted := true } }

/-- R163: the link goes STUCK; the first recovery attempt is made in the same step. -/
def State.goStuck (w : Wires) (s : State) : State :=
  let s := s.abandon.breakSequence.dropWaits
  let s := { s with
    recs := s.recs.raise .link .stuck
    link := { s.link with state := .stuck, cycle := .window, sent := [] } }
  s.attempt w

/-- LINK_STUCK (R163). -/
def execLinkStuck (wires : Wires) (s : State) : Host.Outcome State Fault Refusal :=
  s.whenUp (if s.link.state = .running then .next (s.goStuck wires).finish else .next s)

/-- R165: a waiting LINK-RESET completes with the link state after the attempt. -/
def State.completeReset (s : State) : State :=
  if s.resetWaits then { s with port := s.port.complete .done [s.link.state.byte] } else s

/-- RECOVERY_ATTEMPT (R164, R165): on a STUCK link, at once for a LINK-RESET, else when the interval has passed; on a RUNNING link only for a LINK-RESET, between transactions. -/
def execRecoveryAttempt (wires : Wires) (s : State) : Host.Outcome State Fault Refusal :=
  s.whenUp (
    if s.link.state = .stuck then
      let t := if s.resetWaits then s else s.advance s.link.recoveryWait
      .next ((t.attempt wires).completeReset.finish)
    else if s.link.state = .running ∧ s.resetWaits = true ∧ s.link.txn = none then .next s.completeReset.finish
    else .next s)

end Sys2Proof.Machine
end

