-- ==== Sys2Proof/Machine/Windows.lean ====
section
/-!
DEFINITION. Port windows, cards and pools as the host sees them: SET-WINDOW, READ-WINDOW, READ-CARD (chapter 8), SET-RESERVE and READ-POOL (chapter 5).
-/
namespace Sys2Proof.Machine

/-- R168: the window that the fields describe, when they lie within their values and agree. -/
def WindowFields.judge (f : WindowFields) : Option Window :=
  match boolOf? f.enabled, asFin 32 f.card with
  | some en, some c =>
    if f.size ∈ [1, 2, 4, 8, 16, 32] ∧ f.base % f.size = 0 ∧ f.base + f.size ≤ 1024 ∧ f.firstChannel + f.size ≤ 32 ∧ 1 ≤ f.limit ∧ f.limit ≤ 15
    then some ⟨en, f.base, f.size, c, f.firstChannel, f.limit⟩ else none
  | _, _ => none

/-- R169: port p lies in the old range of an enabled window, or in the new range of one to be enabled. -/
def inRanges (old new : Window) (p : Nat) : Bool := (old.enabled && old.contains p) || (new.enabled && new.contains p)

/-- R170 steps 1 and 2 for one card: no longer named it is ABSENT with no miss and no probe due; newly named it is ABSENT and due. -/
def Card.renamed (before after : Bool) (x : Card) : Card :=
  if before && !after then ⟨false, 0, false⟩
  else if !before && after then ⟨false, 0, true⟩
  else x

/-- R170 step 3 for one line: the in-service test; a PORT_FAULT is forgotten when the card or channel has changed, and stays otherwise. -/
def Records.rewindow (before : Records) (id : Nat) (r : Records) : Records :=
  match r.line? id with
  | none => r
  | some l =>
    if before.place l.port = r.place l.port then
      (if l.state = .outOfService .portFault then r else r.serviceTest id false)
    else r.serviceTest id true

/-- R170: the window takes its new fields, with the effects on cards and lines. -/
def Records.applyWindow (w : Fin 16) (new : Window) (r : Records) : Records :=
  let old := vget r.windows w
  let t : Records := { r with windows := vset r.windows w new }
  let t := (allFin 32).foldl (fun t c => t.modCard c (Card.renamed (r.named c) (t.named c))) t
  (Table.idsWhere (fun _ l => inRanges old new l.port) r.lines).foldl (fun t id => Records.rewindow r id t) t

/-- R169: SET-WINDOW, and an item of a WINDOWS section. Check 3 is of a change: a window left as it was answers DONE whatever its lines do. -/
def Records.setWindow (index : Nat) (f : WindowFields) (r : Records) : ResultCode × Records :=
  match asFin 16 index with
  | none => (.noSuch, r)
  | some w => match f.judge with
    | none => (.badValue, r)
    | some new =>
      if new = vget r.windows w then (.done, r)
      else if r.lines.any (fun e => inRanges (vget r.windows w) new e.2.port && !e.2.atRest) then (.inUse, r)
      else (.done, r.applyWindow w new)

/-- R168: the index of the lowest-numbered enabled window that contains port p. -/
def Records.windowIndex (r : Records) (p : Nat) : Option (Fin 16) :=
  (allFin 16).find? (fun w => (vget r.windows w).enabled && (vget r.windows w).contains p)

/-- R169: READ-WINDOW: the six fields and the number of lines whose port the window maps. -/
def Records.readWindow (index : Nat) (r : Records) : ResultCode × List Byte :=
  match asFin 16 index with
  | none => (.noSuch, [])
  | some w =>
    let x := vget r.windows w
    (.done, [boolByte x.enabled] ++ byte2 x.base ++ byte2 x.size ++ [byte1 x.card.val, byte1 x.firstChannel, byte1 x.limit] ++
      [byte1 (Table.idsWhere (fun _ l => r.windowIndex l.port == some w) r.lines).length])

/-- R171: READ-CARD: presence, miss count, probe due, windows that name the card, its lines, and those of them on the port work list. -/
def Records.readCard (card : Nat) (r : Records) : ResultCode × List Byte :=
  match asFin 32 card with
  | none => (.noSuch, [])
  | some c =>
    let x := r.card c
    let ids := r.linesOfCard c
    (.done, [boolByte x.present, byte1 x.miss, boolByte x.probeDue,
        byte1 (r.windows.toList.filter (fun w => w.enabled && w.card == c)).length] ++
      byte2 ids.length ++ byte2 (ids.filter (fun i => r.workList.contains i)).length)

/-- R103, R108: SET-RESERVE: a lowered reserve serves the wait list. -/
def Records.setReserve (v : Nat) (r : Records) : ResultCode × Records :=
  if 16 < v then (.badValue, r)
  else
    let t : Records := { r with reserve := v }
    (.done, if v < r.reserve then serveWaitList t.waitList t else t)

/-- R109: the owner of bridge b: FFFF when FREE, the line, or 8000 hexadecimal plus the group. -/
def Records.ownerBytes (r : Records) (b : Nat) : List Byte :=
  match Table.find r.bridges b with
  | none => absentBytes 2
  | some (.line id) => byte2 id
  | some (.group g) => byte2 (0x8000 + g)

/-- R109: the bridges held by groups. -/
def Records.groupBridges (r : Records) : Nat :=
  (r.bridges.filter (fun e => match e.2 with
    | .group _ => true
    | .line _ => false)).length

/-- R109: READ-POOL. -/
def Records.readPool (r : Records) : List Byte :=
  [byte1 r.reserve, byte1 r.freeBridges, byte1 (r.bridges.length - r.groupBridges), byte1 r.groupBridges] ++
  (List.range Config.bridges).flatMap r.ownerBytes ++
  (byte1 r.waitList.length :: r.waitList.map byte1) ++
  [byte1 r.freeSlots, byte1 (Table.idsWhere (fun id l => r.withoutPath id l) r.lines).length]

end Sys2Proof.Machine
end

