-- ==== Sys2Proof/Machine/Bus.lean ====
section
/-!
DEFINITION. The line bus controller (chapter 8): the arbiter, the choice of command, the outcomes, probes and their place in the cards stage (R202), pass-through, and the meanings of the bus steps.
-/
namespace Sys2Proof.Machine

/-! ### The arbiter (R173) -/

/-- R173: the clients. -/
inductive Client where
  | report
  | line
  | pass
  | probe
  deriving DecidableEq, Repr

/-- R173: some card is PRESENT. -/
def Records.anyPresent (r : Records) : Bool := r.cards.toList.any (fun c => c.present)

/-- R180: the lowest-numbered card that is probe due. -/
def Records.dueCard (r : Records) : Option (Fin 32) := (allFin 32).find? (fun c => (r.card c).probeDue)

/-- R173: the client wants the bus. -/
def State.wants (s : State) (lbReq : Bool) : Client → Bool
  | .report => lbReq && s.recs.anyPresent
  | .line => !s.recs.workList.isEmpty
  | .pass => s.bus.passSlot.isSome
  | .probe => s.recs.dueCard.isSome

/-- R173: the client that is granted: the guards first, then the order REPORT, LINE, PASS, PROBE. -/
def State.grantee (s : State) (lbReq : Bool) : Option Client :=
  if s.wants lbReq .pass ∧ 8 ≤ s.bus.passGuard then some .pass
  else if s.wants lbReq .line ∧ 4 ≤ s.recs.lineGuard then some .line
  else [Client.report, .line, .pass, .probe].find? (s.wants lbReq)

/-- R173: the guard counts after a grant: the pass guard counts grants to others while PASS waits, the line guard REPORT grants while LINE waits; a LINE grant sets it to 0. -/
def State.countGrant (lbReq : Bool) (c : Client) (s : State) : State :=
  { s with
    bus := { s.bus with passGuard := if s.wants lbReq .pass ∧ c ≠ .pass then s.bus.passGuard + 1 else s.bus.passGuard }
    recs := { s.recs with lineGuard := match c with
      | .line => 0
      | .report => if s.wants lbReq .line then s.recs.lineGuard + 1 else s.recs.lineGuard
      | .pass => s.recs.lineGuard
      | .probe => s.recs.lineGuard } }

/-! ### Issuing a command (R172, R175) -/

/-- R172: the limit of the lowest-numbered enabled window that names the card; 15 ms when none does. For a PASS to a card that some window names the spec states no limit, and the model takes this one (log 41). -/
def Records.cardLimit (r : Records) (c : Fin 32) : Nat :=
  match r.windowNaming c with
  | some w => w.limit
  | none => 15

/-- R172: the limit of the window that maps the port. -/
def Records.portLimit (r : Records) (port : Nat) : Nat :=
  match r.windowOf port with
  | some w => w.limit
  | none => 15

/-- A command frame goes out, and the command is in flight. -/
def State.issue (job : BusJob) (c : Fin 32) (ch code arg limit : Nat) (s : State) : State :=
  { s with
    recs := { s.recs with inFlight := some ⟨job, c, ch, limit, limit⟩ }
    bus := { s.bus with sent := busFrame c ch code arg } }

/-- R175: the command by the first step that matches. -/
def chooseCommand (desired ack : Cond) : Option LineCmd :=
  if ack.ringOut && !desired.ringOut then some .ringOff
  else if ack.audio && !desired.audio then some .disconnect
  else if ack.seized && !desired.seized then some .release
  else if !ack.seized && desired.seized then some .seize
  else if !ack.audio && desired.audio then some .connect
  else if !ack.ringOut && desired.ringOut then some .ringOn
  else none

/-- R172: CONNECT carries the line's slot as its argument, every other command 0. -/
def LineCmd.arg (c : LineCmd) (l : Line) : Nat :=
  match c, l.slot with
  | .connect, some k => k
  | .connect, none => 0
  | .seize, _ => 0
  | .release, _ => 0
  | .ringOn, _ => 0
  | .ringOff, _ => 0
  | .disconnect, _ => 0

/-- R175: a LINE grant serves line id, the head of the port work list. -/
def State.grantLine (id : Nat) (s : State) : State :=
  match s.recs.line? id with
  | none => s
  | some l => match s.recs.place l.port, chooseCommand l.desired l.acknowledged with
    | some (c, ch), some cmd => s.issue (.line id cmd) c ch cmd.code (cmd.arg l) (s.recs.portLimit l.port)
    | _, _ => s

/-- R178: the first PRESENT card after the fetch pointer, counting upward and wrapping. -/
def State.fetchTarget (s : State) : Option (Fin 32) :=
  (allFin 32).findSome? (fun k =>
    let c : Fin 32 := s.bus.fetchPtr + k + 1
    if (s.recs.card c).present then some c else none)

/-- R173, R175, R178, R180, R181: the granted client's command is issued. -/
def State.grant (c : Client) (s : State) : State :=
  match c with
  | .report => match s.fetchTarget with
    | none => s
    | some k => { s with bus := { s.bus with fetchPtr := k } }.issue .fetch k 0 9 0 (s.recs.cardLimit k)
  | .line => match s.recs.workList with
    | [] => s
    | id :: _ => s.grantLine id
  | .pass => match s.bus.passSlot with
    | none => s
    | some x => s.issue .pass x.card x.channel x.code x.arg (s.recs.cardLimit x.card)
  | .probe => match s.recs.dueCard with
    | none => s
    | some k =>
      ({ s with recs := s.recs.modCard k (fun x => { x with probeDue := false }) }).issue .probe k 0 7 0 (s.recs.cardLimit k)

/-- BUS_GRANT (R173): nothing is issued before the cards stage, nor while a command is in flight. -/
def execBusGrant (lbReq : Bool) (s : State) : Host.Outcome State Fault Refusal :=
  s.whenUp (
    if s.part ≠ .startingImage ∧ s.recs.inFlight = none then
      match s.grantee lbReq with
      | none => .next s
      | some c => .next ((s.countGrant lbReq c).grant c).finish
    else .next s)

/-! ### Outcomes -/

/-- R171: a valid response from a PRESENT card sets its miss count to 0; the command is no longer in flight. -/
def Records.responded (c : Fin 32) (r : Records) : Records :=
  { r.modCard c (fun x => if x.present then { x with miss := 0 } else x) with inFlight := none }

/-- The command in flight, when it is this job and the bytes are a valid response to it (R172). -/
def State.response (s : State) (isJob : BusJob → Bool) (allowed : List Nat) (bytes : List Byte) : Option (InFlight × Response) :=
  match s.recs.inFlight with
  | none => none
  | some f =>
    if isJob f.job then (Response.parse f.card allowed bytes).map (fun x => (f, x)) else none

/-- R176: line id is still a line of that card channel, its card PRESENT. -/
def Records.lineOfChannel (r : Records) (id : Nat) (c : Fin 32) (ch : Nat) : Bool :=
  match r.line? id with
  | none => false
  | some l => r.place l.port == some (c, ch) && (r.card c).present

/-- R176: the acknowledged field that a command concerns takes its value. -/
def Cond.acknowledge (cmd : LineCmd) (a : Cond) : Cond :=
  match cmd with
  | .seize => { a with seized := true }
  | .release => { a with seized := false }
  | .ringOn => { a with ringOut := true }
  | .ringOff => { a with ringOut := false }
  | .connect => { a with audio := true }
  | .disconnect => { a with audio := false }

/-- R175: steps 4 to 6 are setup steps. -/
def LineCmd.isSetup : LineCmd → Bool
  | .seize => true
  | .connect => true
  | .ringOn => true
  | .release => false
  | .disconnect => false
  | .ringOff => false

/-- R176: after an ACCEPTED or REJECTED outcome the line leaves its place; the end of the step puts it at the tail when it still differs (log 21). -/
def Records.requeue (id : Nat) (r : Records) : Records := { r with workList := r.workList.filter (fun i => !(i == id)) }

/-- R176: the outcome of a command for line id, still a line of the card channel. -/
def Records.lineOutcome (id : Nat) (cmd : LineCmd) (accepted : Bool) (r : Records) : Records :=
  let r := r.requeue id
  if accepted || !cmd.isSetup then r.modLine id (fun l => { l with acknowledged := l.acknowledged.acknowledge cmd })
  else r.portFault id

/-- R176: the outcome of the line command in flight; a SEIZE accepted for a line that has left the card channel is followed by the cleanup RELEASE with the same limit. -/
def State.takeLineOutcome (f : InFlight) (id : Nat) (cmd : LineCmd) (accepted : Bool) (s : State) : State :=
  let s := { s with recs := s.recs.responded f.card }
  if s.recs.lineOfChannel id f.card f.channel then { s with recs := s.recs.lineOutcome id cmd accepted }
  else if cmd = .seize ∧ accepted = true then s.issue .cleanup f.card f.channel 2 0 f.limit
  else s

/-- The command in flight is this one for some line. -/
def BusJob.isLine (cmd : LineCmd) : BusJob → Bool
  | .line _ c => c == cmd
  | .cleanup => false
  | .fetch => false
  | .probe => false
  | .cardClear => false
  | .pass => false

/-- The outcome of a line command, or of the cleanup RELEASE, which changes nothing but the card's miss count. -/
def State.lineResponse (s : State) (isJob : BusJob → Bool) (bytes : List Byte) : Host.Outcome State Fault Refusal :=
  s.whenUp (match s.response isJob [1, 2] bytes with
    | none => .next s
    | some (f, x) => match f.job with
      | .line id cmd => .next (s.takeLineOutcome f id cmd (x.status == 1)).finish
      | .cleanup => .next { s with recs := s.recs.responded f.card }.finish
      | .fetch => .next s
      | .probe => .next s
      | .cardClear => .next s
      | .pass => .next s)

/-- SEIZE (R176). -/
def execSeize (response : List Byte) (s : State) : Host.Outcome State Fault Refusal := s.lineResponse (BusJob.isLine .seize) response
/-- RELEASE (R176), the cleanup RELEASE included. -/
def execRelease (response : List Byte) (s : State) : Host.Outcome State Fault Refusal :=
  s.lineResponse (fun j => j == .cleanup || j.isLine .release) response
/-- RING_ON (R176). -/
def execRingOn (response : List Byte) (s : State) : Host.Outcome State Fault Refusal := s.lineResponse (BusJob.isLine .ringOn) response
/-- RING_OFF (R176). -/
def execRingOff (response : List Byte) (s : State) : Host.Outcome State Fault Refusal := s.lineResponse (BusJob.isLine .ringOff) response
/-- CONNECT (R176). -/
def execConnect (response : List Byte) (s : State) : Host.Outcome State Fault Refusal := s.lineResponse (BusJob.isLine .connect) response
/-- DISCONNECT (R176). -/
def execDisconnect (response : List Byte) (s : State) : Host.Outcome State Fault Refusal := s.lineResponse (BusJob.isLine .disconnect) response

/-- R178, R179: what a FETCH gave up; a CARD_RESET counts only from a PRESENT card (R48). -/
def Records.takeReport (c : Fin 32) (kind channel : Nat) (r : Records) : Records :=
  if kind = 7 then (if (r.card c).present then r.resetCard c else r)
  else if 31 < channel then r
  else match Report.ofNat? kind, r.lineAt c channel with
    | some k, some id => r.report k id
    | _, _ => r

/-- FETCH (R178, R179). -/
def execFetch (response : List Byte) (s : State) : Host.Outcome State Fault Refusal :=
  s.whenUp (match s.response (fun j => j == .fetch) [3, 4] response with
    | none => .next s
    | some (f, x) =>
      let r := s.recs.responded f.card
      .next { s with recs := if x.status = 3 then r.takeReport f.card x.v1.toNat x.v2.toNat else r }.finish)

/-! ### Probes and the cards stage (R180, R202) -/

/-- R142, R202: the consoles stage begins with the first recovery attempt; a STUCK link ends it in the same step. -/
def State.startConsoles (w : Wires) (s : State) : State :=
  if w.clk && w.dat then
    { s with part := .startingConsoles, link := { s.link with state := .running }.begin .all false }
  else
    { s with
      part := .running
      recs := s.recs.raise .link .stuck
      link := { s.link with state := .stuck, wanted := true, recoveryWait := 100 } }

/-- R202: card c has had its probe served; the cards stage ends with the last card of its start. -/
def State.served (c : Fin 32) (w : Wires) (s : State) : State :=
  let left := s.bus.stageCards.filter (fun i => !(i == c.val))
  let s := { s with bus := { s.bus with stageCards := left } }
  if s.part = .startingCards ∧ left = [] then s.startConsoles w else s

/-- PROBE (R180): ACCEPTED keeps the bus for CARD_CLEAR, its limit read from the windows as they stand now (R172); a card no longer named is left alone. -/
def execProbe (response : List Byte) (wires : Wires) (s : State) : Host.Outcome State Fault Refusal :=
  s.whenUp (match s.response (fun j => j == .probe) [1, 2] response with
    | none => .next s
    | some (f, x) =>
      let t : State := { s with recs := s.recs.responded f.card }
      if x.status = 1 ∧ s.recs.named f.card = true then .next (t.issue .cardClear f.card 0 8 0 (s.recs.cardLimit f.card)).finish
      else .next (t.served f.card wires).finish)

/-- CARD_CLEAR (R180): ACCEPTED, the card returns, unless it is no longer named. -/
def execCardClear (response : List Byte) (wires : Wires) (s : State) : Host.Outcome State Fault Refusal :=
  s.whenUp (match s.response (fun j => j == .cardClear) [1, 2] response with
    | none => .next s
    | some (f, x) =>
      let r := s.recs.responded f.card
      let t : State := { s with recs := if x.status = 1 ∧ r.named f.card = true then r.returnCard f.card else r }
      .next (t.served f.card wires).finish)

/-- R181: the outcome of a PASS command is taken: the slot is empty and the request completes. -/
def State.completePass (c : ResultCode) (body : List Byte) (s : State) : State :=
  { s with
    bus := { s.bus with passSlot := none }
    port := if s.port.holds .pass then s.port.complete c body else s.port }

/-- PASS_COMMAND (R181). -/
def execPassCommand (response : List Byte) (s : State) : Host.Outcome State Fault Refusal :=
  s.whenUp (match s.response (fun j => j == .pass) [1, 2] response with
    | none => .next s
    | some (f, x) =>
      let t : State := { s with recs := s.recs.responded f.card }
      .next (if x.status = 1 then t.completePass .done [x.v1, x.v2] else t.completePass .rejected []).finish)

/-! ### No response (R171, R172, R177) -/

/-- R171, R177: a command to card c drew no valid response: a PRESENT card counts a miss, and the third loses it. -/
def Records.cardMiss (c : Fin 32) (r : Records) : Records :=
  if (r.card c).present then
    (if (r.card c).miss < 2 then r.modCard c (fun x => { x with miss := x.miss + 1 }) else r.loseCard c)
  else r

/-- R172, R176, R177, R178, R180, R181: the command in flight ends with NO_RESPONSE. -/
def State.noResponse (f : InFlight) (w : Wires) (s : State) : State :=
  let s := { s with recs := { s.recs with inFlight := none }.cardMiss f.card }
  match f.job with
  | .line _ _ => s
  | .cleanup => s
  | .fetch => s
  | .probe => s.served f.card w
  | .cardClear => s.served f.card w
  | .pass => s.completePass .busFault []

/-- RESPONSE_TIMEOUT (R172): what remained of the limit passes, and the outcome is NO_RESPONSE. -/
def execResponseTimeout (wires : Wires) (s : State) : Host.Outcome State Fault Refusal :=
  s.whenUp (match s.recs.inFlight with
    | none => .next s
    | some f => .next ((s.advance f.left).noResponse f wires).finish)

/-- CARD_LOSS (R177): the third miss of the card: the response limit of the command in flight to it runs out (log 6). The cards stage has no part in it, since a probe goes to an ABSENT card. -/
def execCardLoss (card : Nat) (s : State) : Host.Outcome State Fault Refusal :=
  s.whenUp (match asFin 32 card, s.recs.inFlight with
    | some c, some f =>
      if f.card = c ∧ (s.recs.card c).present = true ∧ 2 ≤ (s.recs.card c).miss then
        .next ((s.advance f.left).noResponse f ⟨true, true⟩).finish
      else .next s
    | _, _ => .next s)

/-- R180: every ABSENT card that a window names becomes probe due. -/
def Records.makeDue (r : Records) : Records :=
  (allFin 32).foldl (fun t c =>
    if t.named c && !(t.card c).present then t.modCard c (fun x => { x with probeDue := true }) else t) r

/-- PROBE_TICK (R180): the rest of the second passes, and the timer starts again. -/
def execProbeTick (s : State) : Host.Outcome State Fault Refusal :=
  s.whenUp (match s.bus.probeTimer with
    | none => .next s
    | some ms =>
      let t := s.advance ms
      .next { t with recs := t.recs.makeDue, bus := { t.bus with probeTimer := some 1000 } }.finish)

end Sys2Proof.Machine
end

