-- ==== Sys2Proof/Machine/Startup.lean ====
section
/-!
DEFINITION. Start-up, the configuration image, cold start and warm restart (chapter 10, R192), and their meanings.
-/
namespace Sys2Proof.Machine

/-! ### Resets -/

/-- COLD_START (R198): every block is held until reset is released. RESET_N can go low only when it is high; power-up comes at any time. -/
def execColdStart (cause : ColdCause) (s : State) : Host.Outcome State Fault Refusal :=
  match cause with
  | .powerUp => .next { s with resetPin := .coldHeld }
  | .resetLow => if s.resetPin = .released then .next { s with resetPin := .coldHeld } else .next s

/-- RESET_RELEASE (R198, R203): after a cold start every block takes its cold start values; after a warm restart the port takes transactions again. The queue of commands stands outside the block. -/
def execResetRelease (s : State) : Host.Outcome State Fault Refusal :=
  match s.resetPin with
  | .released => .next s
  | .warmHeld => .next { s with resetPin := .released }
  | .coldHeld => .next { State.reset with pending := s.pending }

/-- R181: the PASS command still waits in the slot. -/
def State.passWaits (s : State) : Bool :=
  match s.recs.inFlight with
  | none => true
  | some f => !(f.job == .pass)

/-- R192, R181, R133, R141, R165: what becomes of the request the executor holds. A PASS on the bus and a LINK-RESET keep the executor with their result dropped; a PASS that waits, the rest of a LOAD-APPEARANCES and a ROLL-CALL free it. -/
def State.heldAfterRestart (s : State) : Option Held :=
  match s.port.executor with
  | none => none
  | some h => match h.job with
    | .pass => if s.passWaits then none else some { h with dropped := true }
    | .linkReset => some { h with dropped := true }
    | .load _ _ _ => none
    | .rollCall => none

/-- R192: the port after a warm restart. -/
def Port.restart (h : Option Held) (p : Port) : Port := { Port.cold with executor := h, spDo := p.spDo }

/-- R141, R192: a sequence in progress or waiting runs on without a request. -/
def Link.disown (l : Link) : Link :=
  { l with
    sequence := l.sequence.map (fun q => { q with owned := false })
    waits := l.waits.map (fun w => { w with owned := false }) }

/-- WARM_RESTART (R192, R203). -/
def execWarmRestart (s : State) : Host.Outcome State Fault Refusal :=
  if s.resetPin = .released then
    .next { s with
      resetPin := .warmHeld
      port := s.port.restart s.heldAfterRestart
      recs := { s.recs with raised := [] }
      link := s.link.disown
      bus := if s.passWaits then { s.bus with passSlot := none } else s.bus }
  else .next s

/-! ### The end of the image stage (R201, R202) -/

/-- R201, R202: the image stage ends and the cards stage begins; a stage whose windows name no card ends in the same step. -/
def State.endImage (w : Wires) (s : State) : State :=
  let due := ((allFin 32).filter (fun c => s.recs.named c)).map (fun c => c.val)
  let s := { s with
    part := .startingCards
    recs := (s.recs.raise .part .image).makeDue
    bus := { s.bus with probeTimer := some 1000, stageCards := due } }
  if due = [] then s.startConsoles w else s

/-- IMAGE_HEADER (R199): `bytes` are those the memory gave before it stopped acknowledging. -/
def execImageHeader (bytes : List Byte) (wires : Wires) (s : State) : Host.Outcome State Fault Refusal :=
  s.whenUp (
    if s.part = .startingImage ∧ s.loader.headerRead = false then
      match bytes with
      | s1 :: s0 :: version :: count :: _ =>
        if s1 = 0x4C ∧ s0 = 0x44 ∧ version = 1 then
          let t : State := { s with loader := ⟨.loaded, 0, 0, count.toNat, true, count.toNat, 4⟩ }
          .next (if count = 0 then t.endImage wires else t).finish
        else .next ({ s with loader := ⟨.badSignature, 0, 0, 0, true, 0, 4⟩ }.endImage wires).finish
      | _ => .next ({ s with loader := ⟨.none, 0, 0, 0, true, 0, 0⟩ }.endImage wires).finish
    else .next s)

/-! ### Sections (R200) -/

/-- 10.2.1: the item length of a section kind; an unknown kind is read with items of length 0. -/
def itemLength : Nat → Nat
  | 1 => 9
  | 2 => 7
  | 3 => 9
  | 4 => 9
  | 5 => 5
  | 6 => 9
  | 7 => 9
  | _ => 0

/-- The first n items of k bytes each. -/
def itemsOf (k : Nat) : Nat → List Byte → List (List Byte)
  | 0, _ => []
  | n + 1, bs => bs.take k :: itemsOf k n (bs.drop k)

/-- 10.2.1: the 16-bit sum of the item bytes, modulo 65536. -/
def itemSum (bs : List Byte) : Nat := bs.foldl (fun acc b => (acc + b.toNat) % 65536) 0

/-- R200: a SETTINGS item: the seven dispositions, the join policy, the line reserve; applied only when all nine values lie in range. -/
def State.applySettings (d1 d3 d4 d5 d6 d7 d8 policy reserve : Byte) (s : State) : ResultCode × State :=
  match Disposition.ofNat? d1.toNat, Disposition.ofNat? d3.toNat, Disposition.ofNat? d4.toNat, Disposition.ofNat? d5.toNat,
      Disposition.ofNat? d6.toNat, Disposition.ofNat? d7.toNat, Disposition.ofNat? d8.toNat, JoinPolicy.ofNat? policy.toNat with
  | some a, some b, some c, some d, some e, some f, some g, some j =>
    if reserve.toNat ≤ 16 then
      let r := ({ s.recs with dispositions := ⟨a, b, c, d, e, f, g⟩ } : Records).setReserve reserve.toNat
      (r.1, { s with recs := r.2, link := { s.link with policy := j } })
    else (.badValue, s)
  | _, _, _, _, _, _, _, _ => (.badValue, s)

/-- The result of a request over the shared records, as one over the state. -/
def State.onRecords (s : State) (f : Records → ResultCode × Records) : ResultCode × State :=
  ((f s.recs).1, { s with recs := (f s.recs).2 })

/-- R200: an item is applied by the rule of the request it stands for. -/
def State.applyItem (kind : Nat) (item : List Byte) (s : State) : ResultCode × State :=
  match kind, item with
  | 1, [w, en, b1, b0, z1, z0, c, f, m] =>
    s.onRecords (Records.setWindow w.toNat ⟨en.toNat, num2 b1 b0, num2 z1 z0, c.toNat, f.toNat, m.toNat⟩)
  | 2, [p, a, b, c, d, e, f] =>
    let x := s.link.admitConsole p.toNat (identityOf a b c d e f)
    (x.1, { s with link := x.2 })
  | 3, [i1, i0, t, p1, p0, v, m, g, h] =>
    s.onRecords (Records.defineLine (num2 i1 i0) ⟨t.toNat, num2 p1 p0, v.toNat, m.toNat, g.toNat, h.toNat⟩)
  | 4, [i1, i0, l1, l0, p, k, m, b, o] =>
    s.onRecords (Records.defineAppearance (num2 i1 i0) ⟨num2 l1 l0, p.toNat, k.toNat, m.toNat, b.toNat, o.toNat⟩)
  | 5, [g, l, t, p, b] => s.onRecords (Records.defineGroup g.toNat ⟨l.toNat, t.toNat, p.toNat, b.toNat⟩)
  | 6, [i1, i0, g, k, w1, w0, c, o, p] =>
    s.onRecords (Records.addMember (num2 i1 i0) ⟨g.toNat, k.toNat, num2 w1 w0, c.toNat, o.toNat, p.toNat⟩)
  | 7, [d1, d3, d4, d5, d6, d7, d8, j, v] => s.applySettings d1 d3 d4 d5 d6 d7 d8 j v
  | _, _ => (.badValue, s)

/-- R200: one item; a refused one adds 1 to the items refused. -/
def State.takeItem (kind : Nat) (s : State) (item : List Byte) : State :=
  let x := s.applyItem kind item
  if x.1 = .done then x.2 else { s with loader := { s.loader with refused := s.loader.refused + 1 } }

/-- R200: a section that is not applied adds 1 to the sections skipped. -/
def State.skipSection (s : State) : State := { s with loader := { s.loader with skipped := s.loader.skipped + 1 } }

/-- R200: a section read whole: its kind, its items' bytes, its stored sum. -/
def State.takeSection (kind count : Nat) (items : List Byte) (sum : Nat) (s : State) : State :=
  if kind < 1 ∨ 7 < kind then s.skipSection
  else if itemSum items ≠ sum then s.skipSection
  else (itemsOf (itemLength kind) count items).foldl (State.takeItem kind) s

/-- The kind, count, item bytes and stored sum of a section, when the memory gave all its bytes. -/
def sectionOf (bytes : List Byte) : Option (Nat × Nat × List Byte × Nat) :=
  match bytes with
  | k :: c1 :: c0 :: rest =>
    let n := num2 c1 c0 * itemLength k.toNat
    match rest.drop n with
    | s1 :: s0 :: _ => some (k.toNat, num2 c1 c0, rest.take n, num2 s1 s0)
    | _ => none
  | _ => none

/-- R200: the image is abandoned: this section and every later one count as skipped. -/
def State.abandonImage (s : State) : State :=
  { s with loader := { s.loader with skipped := s.loader.skipped + s.loader.sectionsLeft, sectionsLeft := 0 } }

/-- R200: the section is dealt with, unless its bytes run past address 65535. -/
def State.dealSection (kind count : Nat) (items : List Byte) (sum : Nat) (s : State) : State :=
  let stop := s.loader.address + 5 + items.length
  if 65536 < stop then s.abandonImage
  else
    let t := s.takeSection kind count items sum
    { t with loader := { t.loader with sectionsLeft := s.loader.sectionsLeft - 1, address := stop } }

/-- IMAGE_SECTION (R200): `bytes` are those the memory gave before it stopped acknowledging. -/
def execImageSection (bytes : List Byte) (wires : Wires) (s : State) : Host.Outcome State Fault Refusal :=
  s.whenUp (
    if s.part = .startingImage ∧ s.loader.headerRead = true ∧ 0 < s.loader.sectionsLeft then
      let t := match sectionOf bytes with
        | some (kind, count, items, sum) => s.dealSection kind count items sum
        | none => s.abandonImage
      .next (if t.loader.sectionsLeft = 0 then t.endImage wires else t).finish
    else .next s)

end Sys2Proof.Machine
end

