-- ==== Sys2Proof/Machine/Requests.lean ====
section
/-!
DEFINITION. The meanings of the 39 requests of the catalogue (9.4) and of LOAD_APPEARANCES_ITEM: the body of each, coded by R187, and the rule it is answered by. A body of another length than its coding gives is refused with BAD_VALUE (R187).
-/
namespace Sys2Proof.Machine

/-! ### Lines -/

/-- DEFINE_LINE (R122). -/
def execDefineLine (s : State) : Host.Outcome State Fault Refusal :=
  s.recordRequest 1 (fun body r => match body with
    | [i1, i0, t, p1, p0, v, m, g, h] =>
      r.defineLine (num2 i1 i0) ⟨t.toNat, num2 p1 p0, v.toNat, m.toNat, g.toNat, h.toNat⟩
    | _ => (.badValue, r))

/-- R187, R123: the six configuration fields that a CHANGE-LINE leaves, by its mask. -/
def LineFields.merge (mask : Byte) (new old : LineFields) : LineFields :=
  ⟨carried mask 0 new.type old.type, carried mask 1 new.port old.port, carried mask 2 new.privacy old.privacy,
   carried mask 3 new.maxParties old.maxParties, carried mask 4 new.ringTimeout old.ringTimeout, carried mask 5 new.holdRecall old.holdRecall⟩

/-- CHANGE_LINE (R123). -/
def execChangeLine (s : State) : Host.Outcome State Fault Refusal :=
  s.recordRequest 2 (fun body r => match body with
    | [i1, i0, mask, t, p1, p0, v, m, g, h] =>
      r.changeLine (num2 i1 i0) (fun l =>
        LineFields.merge mask ⟨t.toNat, num2 p1 p0, v.toNat, m.toNat, g.toNat, h.toNat⟩ l.fields)
    | _ => (.badValue, r))

/-- A body of one line, appearance or membership id. -/
def idBody (f : Nat → Records → ResultCode × Records) (body : List Byte) (r : Records) : ResultCode × Records :=
  match body with
  | [i1, i0] => f (num2 i1 i0) r
  | _ => (.badValue, r)

/-- A body of one group or position number. -/
def numberBody (f : Nat → Records → ResultCode × Records) (body : List Byte) (r : Records) : ResultCode × Records :=
  match body with
  | [n] => f n.toNat r
  | _ => (.badValue, r)

/-- A read of one line, appearance or membership id. -/
def idRead (f : Nat → Records → ResultCode × List Byte) (r : Records) (body : List Byte) : ResultCode × List Byte :=
  match body with
  | [i1, i0] => f (num2 i1 i0) r
  | _ => (.badValue, [])

/-- A read of one group, position, window or card number. -/
def numberRead (f : Nat → Records → ResultCode × List Byte) (r : Records) (body : List Byte) : ResultCode × List Byte :=
  match body with
  | [n] => f n.toNat r
  | _ => (.badValue, [])

/-- A read without a request body. -/
def bareRead (answer : List Byte) (body : List Byte) : ResultCode × List Byte :=
  match body with
  | [] => (.done, answer)
  | _ :: _ => (.badValue, [])

/-- RETIRE_LINE (R125). -/
def execRetireLine (s : State) : Host.Outcome State Fault Refusal := s.recordRequest 3 (idBody Records.retireLine)
/-- READ_LINE (R127). -/
def execReadLine (s : State) : Host.Outcome State Fault Refusal := s.readRequest 4 (idRead Records.readLine s.recs)
/-- FORCE_RELEASE (R50). -/
def execForceRelease (s : State) : Host.Outcome State Fault Refusal := s.recordRequest 5 (idBody Records.forceRelease)
/-- CLEAR_MISSED (R51). -/
def execClearMissed (s : State) : Host.Outcome State Fault Refusal := s.recordRequest 6 (idBody Records.clearMissed)

/-! ### Appearances -/

/-- DEFINE_APPEARANCE (R128). -/
def execDefineAppearance (s : State) : Host.Outcome State Fault Refusal :=
  s.recordRequest 8 (fun body r => match body with
    | [i1, i0, l1, l0, p, k, m, b, o] =>
      r.defineAppearance (num2 i1 i0) ⟨num2 l1 l0, p.toNat, k.toNat, m.toNat, b.toNat, o.toNat⟩
    | _ => (.badValue, r))

/-- CHANGE_APPEARANCE (R129). -/
def execChangeAppearance (s : State) : Host.Outcome State Fault Refusal :=
  s.recordRequest 9 (fun body r => match body with
    | [i1, i0, mask, m, b, o] => r.changeAppearance (num2 i1 i0) mask m.toNat b.toNat o.toNat
    | _ => (.badValue, r))

/-- RETIRE_APPEARANCE (R130). -/
def execRetireAppearance (s : State) : Host.Outcome State Fault Refusal := s.recordRequest 10 (idBody Records.retireAppearance)
/-- READ_APPEARANCE (R131). -/
def execReadAppearance (s : State) : Host.Outcome State Fault Refusal := s.readRequest 11 (idRead Records.readAppearance s.recs)

/-- R132: the start id and the items of a LOAD-APPEARANCES whose length and count agree. -/
def loadBody (body : List Byte) : Option (Nat × List AppearanceItem) :=
  match body with
  | i1 :: i0 :: n :: t =>
    if 1 ≤ n.toNat ∧ n.toNat ≤ 24 ∧ t.length = 7 * n.toNat then (appearanceItems t).map (fun xs => (num2 i1 i0, xs)) else none
  | _ => none

/-- LOAD_APPEARANCES (R132): the run is taken and holds the executor, or is refused before any item. -/
def execLoadAppearances (s : State) : Host.Outcome State Fault Refusal :=
  match s.takes 12 with
  | none => .next s
  | some (q, p) => match loadBody q.body with
    | some (start, items) => .next { s with port := p.hold q (.load start items 0) }
    | none => .next { s with port := p.answer q .badValue [0] }

/-- R132, R133: the item in hand is applied, or fails and ends the run. -/
def State.loadItem (id : Nat) (x : AppearanceItem) (rest : List AppearanceItem) (applied : Nat) (h : Held) (s : State) : State :=
  let y := s.recs.defineAppearance id x
  let s := { s with recs := y.2 }
  if y.1 = .done then
    match rest with
    | [] => { s with port := s.port.complete .done [byte1 (applied + 1)] }
    | _ :: _ => { s with port := { s.port with executor := some { h with job := .load (id + 1) rest (applied + 1) } } }
  else { s with port := s.port.complete y.1 [byte1 applied, byte1 applied] }

/-- LOAD_APPEARANCES_ITEM (R132, R133). -/
def execLoadAppearancesItem (s : State) : Host.Outcome State Fault Refusal :=
  s.whenUp (match s.port.executor with
    | none => .next s
    | some h => match h.job with
      | .load id (x :: rest) applied => .next (s.loadItem id x rest applied h).finish
      | .load _ [] _ => .next s
      | .pass => .next s
      | .rollCall => .next s
      | .linkReset => .next s)

/-! ### Groups and memberships -/

/-- DEFINE_GROUP (R134). -/
def execDefineGroup (s : State) : Host.Outcome State Fault Refusal :=
  s.recordRequest 16 (fun body r => match body with
    | [g, l, t, p, b] => r.defineGroup g.toNat ⟨l.toNat, t.toNat, p.toNat, b.toNat⟩
    | _ => (.badValue, r))

/-- R187, R135: the four settings that a CHANGE-GROUP leaves, by its mask. -/
def GroupFields.merge (mask : Byte) (new old : GroupFields) : GroupFields :=
  ⟨carried mask 0 new.talkerLimit old.talkerLimit, carried mask 1 new.talkTime old.talkTime,
   carried mask 2 new.policy old.policy, carried mask 3 new.preempt old.preempt⟩

/-- CHANGE_GROUP (R135, R97). -/
def execChangeGroup (s : State) : Host.Outcome State Fault Refusal :=
  s.recordRequest 17 (fun body r => match body with
    | [g, mask, l, t, p, b] =>
      r.changeGroup g.toNat (fun x => GroupFields.merge mask ⟨l.toNat, t.toNat, p.toNat, b.toNat⟩ x.fields)
    | _ => (.badValue, r))

/-- RETIRE_GROUP (R136). -/
def execRetireGroup (s : State) : Host.Outcome State Fault Refusal := s.recordRequest 18 (numberBody Records.retireGroup)
/-- READ_GROUP (R137). -/
def execReadGroup (s : State) : Host.Outcome State Fault Refusal := s.readRequest 19 (numberRead Records.readGroup s.recs)

/-- ADD_MEMBER (R138). -/
def execAddMember (s : State) : Host.Outcome State Fault Refusal :=
  s.recordRequest 20 (fun body r => match body with
    | [i1, i0, g, k, w1, w0, c, o, p] =>
      r.addMember (num2 i1 i0) ⟨g.toNat, k.toNat, num2 w1 w0, c.toNat, o.toNat, p.toNat⟩
    | _ => (.badValue, r))

/-- REMOVE_MEMBER (R139). -/
def execRemoveMember (s : State) : Host.Outcome State Fault Refusal := s.recordRequest 21 (idBody Records.dropMember)
/-- READ_MEMBER (R139). -/
def execReadMember (s : State) : Host.Outcome State Fault Refusal := s.readRequest 22 (idRead Records.readMember s.recs)

/-! ### Positions -/

/-- LOCK_POSITION (R57). -/
def execLockPosition (s : State) : Host.Outcome State Fault Refusal := s.recordRequest 24 (numberBody Records.lockPosition)
/-- UNLOCK_POSITION (R57). -/
def execUnlockPosition (s : State) : Host.Outcome State Fault Refusal := s.recordRequest 25 (numberBody Records.unlockPosition)

/-- INJECT_EVENT (R69). -/
def execInjectEvent (s : State) : Host.Outcome State Fault Refusal :=
  s.recordRequest 26 (fun body r => match body with
    | [p, k, a, b] => r.injectEvent p.toNat k a b
    | _ => (.badValue, r))

/-- TAKE_KEYS (R68). -/
def execTakeKeys (s : State) : Host.Outcome State Fault Refusal :=
  s.request 27 (fun body s => match body with
    | [p] =>
      let x := s.recs.takeKeys p.toNat
      (x.1, x.2.1, { s with recs := x.2.2 })
    | _ => (.badValue, [], s))

/-- SET_DISPOSITION (R64). -/
def execSetDisposition (s : State) : Host.Outcome State Fault Refusal :=
  s.recordRequest 28 (fun body r => match body with
    | [k, v] => r.setDisposition k.toNat v.toNat
    | _ => (.badValue, r))

/-- READ_POSITION (R76). -/
def execReadPosition (s : State) : Host.Outcome State Fault Refusal := s.readRequest 35 (numberRead Records.readPosition s.recs)

/-! ### Console link -/

/-- ADMIT_CONSOLE (R155). -/
def execAdmitConsole (s : State) : Host.Outcome State Fault Refusal :=
  s.request 29 (fun body s => match body with
    | [p, a, b, c, d, e, f] =>
      let x := s.link.admitConsole p.toNat (identityOf a b c d e f)
      (x.1, [], { s with link := x.2 })
    | _ => (.badValue, [], s))

/-- REVOKE_CONSOLE (R156). -/
def execRevokeConsole (s : State) : Host.Outcome State Fault Refusal :=
  s.request 30 (fun body s => match body with
    | [p] =>
      let x := s.revoke p.toNat
      (x.1, [], x.2)
    | _ => (.badValue, [], s))

/-- READ_PARKED (R157); a clear flag that is no boolean is refused (log 12). -/
def execReadParked (s : State) : Host.Outcome State Fault Refusal :=
  s.request 31 (fun body s => match body with
    | [c] => match boolOf? c.toNat with
      | none => (.badValue, [], s)
      | some clear =>
        (.done, byte1 s.link.parked.length :: s.link.parked.flatMap identityBytes,
          if clear then { s with link := { s.link with parked := [] } } else s)
    | _ => (.badValue, [], s))

/-- SET_JOIN_POLICY (R158). -/
def execSetJoinPolicy (s : State) : Host.Outcome State Fault Refusal :=
  s.request 32 (fun body s => match body with
    | [v] => match JoinPolicy.ofNat? v.toNat with
      | none => (.badValue, [], s)
      | some j => (.done, [], { s with link := { s.link with policy := j } })
    | _ => (.badValue, [], s))

/-- R159, R162: a ROLL-CALL's sequence begins at once when none is in progress or waits and no transaction is in progress; else it waits. -/
def Link.callRoll (sc : Scope) (l : Link) : Link :=
  if l.sequence = none ∧ l.txn = none ∧ l.waits = [] then l.begin sc true else { l with waits := l.waits ++ [⟨sc, true⟩] }

/-- ROLL_CALL (R162). -/
def execRollCall (s : State) : Host.Outcome State Fault Refusal :=
  match s.takes 33 with
  | none => .next s
  | some (q, p) => match q.body with
    | [v] => match Scope.ofNat? v.toNat with
      | none => .next { s with port := p.answer q .badValue [] }
      | some sc =>
        if s.link.state = .stuck then .next { s with port := p.answer q .busFault [0, 0, 0] }
        else .next { s with port := p.hold q .rollCall, link := s.link.callRoll sc }.finish
    | _ => .next { s with port := p.answer q .badValue [] }

/-- LINK_RESET (R165): the executor is held until the attempt is made, by RECOVERY_ATTEMPT. -/
def execLinkReset (s : State) : Host.Outcome State Fault Refusal :=
  match s.takes 34 with
  | none => .next s
  | some (q, p) => match q.body with
    | [] => .next { s with port := p.hold q .linkReset }
    | _ :: _ => .next { s with port := p.answer q .badValue [] }

/-! ### Windows, cards, pass-through, pools -/

/-- SET_WINDOW (R169, R170). -/
def execSetWindow (s : State) : Host.Outcome State Fault Refusal :=
  s.recordRequest 40 (fun body r => match body with
    | [w, en, b1, b0, z1, z0, c, f, m] =>
      r.setWindow w.toNat ⟨en.toNat, num2 b1 b0, num2 z1 z0, c.toNat, f.toNat, m.toNat⟩
    | _ => (.badValue, r))

/-- READ_WINDOW (R169). -/
def execReadWindow (s : State) : Host.Outcome State Fault Refusal := s.readRequest 41 (numberRead Records.readWindow s.recs)
/-- READ_CARD (R171). -/
def execReadCard (s : State) : Host.Outcome State Fault Refusal := s.readRequest 42 (numberRead Records.readCard s.recs)

/-- R181: a PASS that passes its checks: the card and channel at most 31, the code PROBE or one of card maintenance. -/
def passCommand (card channel code arg : Byte) : Option PassCmd :=
  match asFin 32 card.toNat with
  | none => none
  | some c =>
    if channel.toNat ≤ 31 ∧ (code.toNat = 7 ∨ 16 ≤ code.toNat) then some ⟨c, channel.toNat, code.toNat, arg.toNat⟩ else none

/-- PASS (R181): the command is placed in the pass-through slot, and the pass guard counts from 0 (R173). -/
def execPass (s : State) : Host.Outcome State Fault Refusal :=
  match s.takes 43 with
  | none => .next s
  | some (q, p) => match q.body with
    | [c, ch, code, arg] => match passCommand c ch code arg with
      | none => .next { s with port := p.answer q .badValue [] }
      | some x => .next { s with port := p.hold q .pass, bus := { s.bus with passSlot := some x, passGuard := 0 } }
    | _ => .next { s with port := p.answer q .badValue [] }

/-- SET_RESERVE (R103, R108). -/
def execSetReserve (s : State) : Host.Outcome State Fault Refusal := s.recordRequest 44 (numberBody Records.setReserve)
/-- READ_POOL (R109). -/
def execReadPool (s : State) : Host.Outcome State Fault Refusal := s.readRequest 45 (bareRead s.recs.readPool)

/-! ### Attention and identity -/

/-- R194: a level or mask byte: 255 leaves the present value, 0..15 is a new one. -/
def nibbleOf? (b : Byte) (old : Nat) : Option Nat :=
  if b = 0xFF then some old else if b.toNat ≤ 15 then some b.toNat else none

/-- R194: the enable byte. -/
def enableOf? (b : Byte) (old : Bool) : Option Bool := if b = 0xFF then some old else boolOf? b.toNat

/-- R194: the levels that the bytes give over the present ones. -/
def newLevels : List Byte → List Nat → Option (List Nat)
  | [], [] => some []
  | b :: bs, v :: vs => match nibbleOf? b v, newLevels bs vs with
    | some x, some xs => some (x :: xs)
    | _, _ => none
  | _, _ => none

/-- The levels as a vector. -/
def levelsOf? (xs : List Nat) : Option (Vector Nat 21) := if h : xs.length = 21 then some ⟨xs.toArray, by simpa using h⟩ else none

/-- R194: SET-ATTENTION on its 23 bytes: the levels, the mask, enable. -/
def Port.setAttention (body : List Byte) (p : Port) : ResultCode × Port :=
  match (newLevels (body.take 21) p.levels.toList).bind levelsOf?, body.drop 21 with
  | some levels, [m, e] => match nibbleOf? m p.mask, enableOf? e p.enable with
    | some mask, some enable => (.done, { p with levels := levels, mask := mask, enable := enable })
    | _, _ => (.badValue, p)
  | _, _ => (.badValue, p)

/-- SET_ATTENTION (R194). -/
def execSetAttention (s : State) : Host.Outcome State Fault Refusal :=
  match s.takes 48 with
  | none => .next s
  | some (q, p) =>
    let x := p.setAttention q.body
    .next { s with port := x.2.answer q x.1 [] }

/-- R195: the source byte and the entry id. -/
def Entry.bytes : Entry → List Byte
  | .part => 0 :: byte2 0
  | .link => 1 :: byte2 0
  | .pool => 2 :: byte2 0
  | .card i => 3 :: byte2 i
  | .position i => 4 :: byte2 i
  | .group i => 5 :: byte2 i
  | .line i => 6 :: byte2 i

/-- R195: the body for the entry chosen. -/
def attentionBody (e : Entry) (reasons : List Reason) (level : Nat) : List Byte :=
  e.bytes ++ [byte1 level, byte1 reasons.length] ++ reasons.map (fun q => byte1 q.code.val)

/-- R195: no entry exceeds the mask. -/
def noAttentionBody : List Byte := [0xFF, 0, 0, 0, 0]

/-- R195: the chosen entry's reason set is emptied. -/
def Records.takeEntry (e : Entry) (r : Records) : Records := { r with raised := r.raised.filter (fun x => !(x.1 == e)) }

/-- TAKE_ATTENTION (R195). -/
def execTakeAttention (s : State) : Host.Outcome State Fault Refusal :=
  match s.takes 49 with
  | none => .next s
  | some (q, p) => match q.body with
    | [] => match chooseEntry p s.recs.raised with
      | none => .next { s with port := p.answer q .done noAttentionBody }
      | some (e, reasons, level) => .next { s with port := p.answer q .done (attentionBody e reasons level), recs := s.recs.takeEntry e }
    | _ :: _ => .next { s with port := p.answer q .badValue [] }

/-- R201: the body of READ-IDENTITY. -/
def Loader.identity (l : Loader) : List Byte :=
  [0x4C, 48, 1, l.status.byte, byte1 (if l.status = .loaded then l.sectionCount else 0), byte1 l.skipped] ++ byte2 l.refused

/-- READ_IDENTITY (R201). -/
def execReadIdentity (s : State) : Host.Outcome State Fault Refusal := s.readRequest 50 (bareRead s.loader.identity)

end Sys2Proof.Machine
end

