-- ==== Sys2Proof/Machine/Audio.lean ====
section
/-!
DEFINITION. The audio frame (R114 to R120): port inputs, talk sources, direct paths, bridges, channel samples, speaker outputs, and the meaning of AUDIO_FRAME.
-/
namespace Sys2Proof.Machine

/-- R114: saturation to -32768..32767. -/
def saturate (x : Int) : Sample := BitVec.ofInt 16 (max (-32768) (min 32767 x))

/-- R115: the port input of a line: the sample received in its slot while acknowledged.audio holds; 0 for a line OUT_OF_SERVICE. -/
def Audio.portInput (a : Audio) (l : Line) : Sample :=
  match l.slot.bind (asFin 128) with
  | some k => if l.acknowledged.audio && !l.state.isOos then vget a.lineIn k else 0
  | none => 0

/-- R116: the microphones of a position, 0 while it is DETACHED. -/
def micsOf (r : Records) (a : Audio) (p : Fin 48) : Mics := if (r.pos p).attached then vget a.posIn p else ⟨0, 0, 0⟩

/-- R116: the talk source of a line party. -/
def talkSource (r : Records) (a : Audio) (x : Party) : Sample :=
  match x.ch with
  | .hand .h1 => (micsOf r a x.pos).h1
  | .hand .h2 => (micsOf r a x.pos).h2
  | .spk n => if (r.pos x.pos).ptt = some n then (micsOf r a x.pos).spk else 0

/-- R117: the line uses the direct path, with this one party. -/
def Line.direct (l : Line) : Option Party :=
  if l.type ≠ .openLine ∧ (l.state = .ringingOut ∨ l.state = .connected) ∧ l.bridge = none then
    match l.parties with
    | [x] => some x
    | _ => none
  else none

/-- R118: the sum of a line bridge: the port input and the talk source of each party, formed wide. -/
def lineSum (r : Records) (a : Audio) (l : Line) : Int :=
  (a.portInput l).toInt + (l.parties.map (fun x => (talkSource r a x).toInt)).sum

/-- R118: the input of a member to its group's bridge: a CIRCUIT's port input, a talker's speaker microphone, 0 for any other. -/
def memberInput (r : Records) (a : Audio) (g : Group) (m : Nat) (x : Member) : Int :=
  match x.kind with
  | .circuit id => match r.line? id with
    | some l => (a.portInput l).toInt
    | none => 0
  | .position p _ => if g.talkers.contains m then (micsOf r a p).spk.toInt else 0

/-- R118: the sum of a group bridge, formed wide. -/
def groupSum (r : Records) (a : Audio) (id : Nat) (g : Group) : Int :=
  ((r.membersOf id).map (fun e => memberInput r a g e.1 e.2)).sum

/-- R118: the value that a group's bridge gives member m: the sum less its own input; 0 when the group holds no bridge. -/
def memberSample (r : Records) (a : Audio) (m : Nat) : Sample :=
  match r.member? m with
  | none => 0
  | some x => match r.group? x.group with
    | none => 0
    | some g => if g.bridge.isSome then saturate (groupSum r a x.group g - memberInput r a g m x) else 0

/-- R115, R117, R118: the port destination value of line id. -/
def portOutput (r : Records) (a : Audio) (id : Nat) : Sample :=
  match r.line? id with
  | none => 0
  | some l =>
    if l.state.isOos then 0
    else if l.bridge.isSome then saturate (lineSum r a l - (a.portInput l).toInt)
    else match l.direct with
      | some x => talkSource r a x
      | none => if l.type = .openLine then
          (match r.circuitOf id with
            | some m => memberSample r a m
            | none => 0)
        else 0

/-- R117, R118: what line id gives the channel of its party at p. -/
def partySample (r : Records) (a : Audio) (id : Nat) (p : Fin 48) : Sample :=
  match r.line? id with
  | none => 0
  | some l => match l.parties.find? (fun x => x.pos == p) with
    | none => 0
    | some x =>
      if l.bridge.isSome then saturate (lineSum r a l - (talkSource r a x).toInt)
      else if l.direct.isSome then a.portInput l
      else 0

/-- R119: the channel sample of a channel of position p. -/
def channelSample (r : Records) (a : Audio) (p : Fin 48) (ch : Channel) : Sample :=
  match r.bound p ch with
  | .none => 0
  | .line id => partySample r a id p
  | .member m => memberSample r a m

/-- R120: the wide sum of the eight speaker channels, each multiplied by its volume. -/
def speakerSum (r : Records) (a : Audio) (p : Fin 48) : Int :=
  ((allFin 8).map (fun n => (channelSample r a p (.spk n)).toInt * ((vget (r.pos p).volume n : Nat) : Int))).sum

/-- R120: the speaker output: the sum shifted right by 4 places arithmetically, saturated. -/
def speakerOutput (r : Records) (a : Audio) (p : Fin 48) : Sample := saturate ((speakerSum r a p).fdiv 16)

/-- R119, R120: the three samples sent to position p. -/
def earsOf (r : Records) (a : Audio) (p : Fin 48) : Ears :=
  ⟨channelSample r a p (.hand .h1), channelSample r a p (.hand .h2), speakerOutput r a p⟩

/-- R115: the sample sent in slot k: the port destination value of its line, 0 in a FREE slot. -/
def slotOutput (r : Records) (a : Audio) (k : Fin 128) : Sample :=
  match Table.find r.slots k.val with
  | some id => portOutput r a id
  | none => 0

/-- R114: one frame: what is sent is computed from the samples received in the previous frame and the records as they stand; the samples received now serve the next frame. -/
def Audio.frame (r : Records) (line : Vector Sample 128) (pos : Vector Mics 48) (a : Audio) : Audio where
  lineIn := line
  posIn := pos
  lineOut := tabulate (slotOutput r a)
  posOut := tabulate (earsOf r a)

/-- AUDIO_FRAME (R114); no frame is computed before the end of the image stage, nor while a cold start holds every block (R198). -/
def execAudioFrame (line : Vector Sample 128) (pos : Vector Mics 48) (s : State) : Host.Outcome State Fault Refusal :=
  s.whenUp (if s.part = .startingImage then .next s else .next { s with audio := s.audio.frame s.recs line pos })

end Sys2Proof.Machine
end

