-- ==== Sys2Proof/Machine/Dispatch.lean ====
section
/-!
DEFINITION. One arm per command: the meaning it has.
-/
namespace Sys2Proof.Machine

def exec (i : Instr) (s : State) : Host.Outcome State Fault Refusal :=
  match i with
  | .coldStart cause => Sys2Proof.Machine.execColdStart cause s
  | .resetRelease => Sys2Proof.Machine.execResetRelease s
  | .warmRestart => Sys2Proof.Machine.execWarmRestart s
  | .imageHeader bytes wires => Sys2Proof.Machine.execImageHeader bytes wires s
  | .imageSection bytes wires => Sys2Proof.Machine.execImageSection bytes wires s
  | .writeRequest bytes => Sys2Proof.Machine.execWriteRequest bytes s
  | .readResult clocked => Sys2Proof.Machine.execReadResult clocked s
  | .readStatus phase => Sys2Proof.Machine.execReadStatus phase s
  | .spiUnknownOperation op clocked => Sys2Proof.Machine.execSpiUnknownOperation op clocked s
  | .requestSkipped => Sys2Proof.Machine.execRequestSkipped s
  | .requestMalformed => Sys2Proof.Machine.execRequestMalformed s
  | .defineLine => Sys2Proof.Machine.execDefineLine s
  | .changeLine => Sys2Proof.Machine.execChangeLine s
  | .retireLine => Sys2Proof.Machine.execRetireLine s
  | .readLine => Sys2Proof.Machine.execReadLine s
  | .forceRelease => Sys2Proof.Machine.execForceRelease s
  | .clearMissed => Sys2Proof.Machine.execClearMissed s
  | .defineAppearance => Sys2Proof.Machine.execDefineAppearance s
  | .changeAppearance => Sys2Proof.Machine.execChangeAppearance s
  | .retireAppearance => Sys2Proof.Machine.execRetireAppearance s
  | .readAppearance => Sys2Proof.Machine.execReadAppearance s
  | .loadAppearances => Sys2Proof.Machine.execLoadAppearances s
  | .loadAppearancesItem => Sys2Proof.Machine.execLoadAppearancesItem s
  | .defineGroup => Sys2Proof.Machine.execDefineGroup s
  | .changeGroup => Sys2Proof.Machine.execChangeGroup s
  | .retireGroup => Sys2Proof.Machine.execRetireGroup s
  | .readGroup => Sys2Proof.Machine.execReadGroup s
  | .addMember => Sys2Proof.Machine.execAddMember s
  | .removeMember => Sys2Proof.Machine.execRemoveMember s
  | .readMember => Sys2Proof.Machine.execReadMember s
  | .lockPosition => Sys2Proof.Machine.execLockPosition s
  | .unlockPosition => Sys2Proof.Machine.execUnlockPosition s
  | .injectEvent => Sys2Proof.Machine.execInjectEvent s
  | .takeKeys => Sys2Proof.Machine.execTakeKeys s
  | .setDisposition => Sys2Proof.Machine.execSetDisposition s
  | .admitConsole => Sys2Proof.Machine.execAdmitConsole s
  | .revokeConsole => Sys2Proof.Machine.execRevokeConsole s
  | .readParked => Sys2Proof.Machine.execReadParked s
  | .setJoinPolicy => Sys2Proof.Machine.execSetJoinPolicy s
  | .rollCall => Sys2Proof.Machine.execRollCall s
  | .linkReset => Sys2Proof.Machine.execLinkReset s
  | .readPosition => Sys2Proof.Machine.execReadPosition s
  | .setWindow => Sys2Proof.Machine.execSetWindow s
  | .readWindow => Sys2Proof.Machine.execReadWindow s
  | .readCard => Sys2Proof.Machine.execReadCard s
  | .pass => Sys2Proof.Machine.execPass s
  | .setReserve => Sys2Proof.Machine.execSetReserve s
  | .readPool => Sys2Proof.Machine.execReadPool s
  | .setAttention => Sys2Proof.Machine.execSetAttention s
  | .takeAttention => Sys2Proof.Machine.execTakeAttention s
  | .readIdentity => Sys2Proof.Machine.execReadIdentity s
  | .requestWindow answer => Sys2Proof.Machine.execRequestWindow answer s
  | .eventMessage bytes => Sys2Proof.Machine.execEventMessage bytes s
  | .output phase => Sys2Proof.Machine.execOutput phase s
  | .poll phase => Sys2Proof.Machine.execPoll phase s
  | .park phase => Sys2Proof.Machine.execPark phase s
  | .positionDetach pos => Sys2Proof.Machine.execPositionDetach pos s
  | .sequenceBegin => Sys2Proof.Machine.execSequenceBegin s
  | .rollCallRound identity check reply => Sys2Proof.Machine.execRollCallRound identity check reply s
  | .rollCallSilence => Sys2Proof.Machine.execRollCallSilence s
  | .roundCap => Sys2Proof.Machine.execRoundCap s
  | .linkStuck wires => Sys2Proof.Machine.execLinkStuck wires s
  | .recoveryAttempt wires => Sys2Proof.Machine.execRecoveryAttempt wires s
  | .busGrant lbReq => Sys2Proof.Machine.execBusGrant lbReq s
  | .seize response => Sys2Proof.Machine.execSeize response s
  | .release response => Sys2Proof.Machine.execRelease response s
  | .ringOn response => Sys2Proof.Machine.execRingOn response s
  | .ringOff response => Sys2Proof.Machine.execRingOff response s
  | .connect response => Sys2Proof.Machine.execConnect response s
  | .disconnect response => Sys2Proof.Machine.execDisconnect response s
  | .fetch response => Sys2Proof.Machine.execFetch response s
  | .probe response wires => Sys2Proof.Machine.execProbe response wires s
  | .cardClear response wires => Sys2Proof.Machine.execCardClear response wires s
  | .passCommand response => Sys2Proof.Machine.execPassCommand response s
  | .responseTimeout wires => Sys2Proof.Machine.execResponseTimeout wires s
  | .cardLoss card => Sys2Proof.Machine.execCardLoss card s
  | .probeTick => Sys2Proof.Machine.execProbeTick s
  | .ringExpiry line => Sys2Proof.Machine.execRingExpiry line s
  | .recallWaitExpiry line => Sys2Proof.Machine.execRecallWaitExpiry line s
  | .ringBurstExpiry line => Sys2Proof.Machine.execRingBurstExpiry line s
  | .talkTimerExpiry member => Sys2Proof.Machine.execTalkTimerExpiry member s
  | .audioFrame line pos => Sys2Proof.Machine.execAudioFrame line pos s

end Sys2Proof.Machine
end

