-- ==== Sys2Proof/WellFormed.lean ====
section
/-!
DEFINITION. Which commands can arrive: operands that name something of the block name something it has, and an SPI transaction of an undefined operation carries no defined operation byte. Bytes from outside may be any bytes.
-/
namespace Sys2Proof

/-- The line a timer expiry names. -/
def Instr.lineOperand : Instr → Option Nat
  | .ringExpiry line => some line
  | .recallWaitExpiry line => some line
  | .ringBurstExpiry line => some line
  | _ => none

/-- The membership a talk timer expiry names. -/
def Instr.memberOperand : Instr → Option Nat
  | .talkTimerExpiry member => some member
  | _ => none

/-- The position a detachment names. -/
def Instr.positionOperand : Instr → Option Nat
  | .positionDetach pos => some pos
  | _ => none

/-- The card a loss names. -/
def Instr.cardOperand : Instr → Option Nat
  | .cardLoss card => some card
  | _ => none

/-- The operation byte of an undefined SPI operation (R183). -/
def Instr.operationByte : Instr → Option Byte
  | .spiUnknownOperation op _ => some op
  | _ => none

/-- How many bytes of the four-byte header the loader read (R199). -/
def Instr.headerBytes : Instr → Option Nat
  | .imageHeader bytes _ => some bytes.length
  | _ => none

/-- The check of a number operand against the size of its table. -/
def below (n : Nat) (x : Option Nat) : Bool :=
  match x with
  | some k => decide (k < n)
  | none => true

/-- The check of an undefined operation byte (R183). -/
def undefinedOperation (x : Option Byte) : Bool :=
  match x with
  | some op => (spiOperation op).isNone
  | none => true

/-- A command that can arrive. -/
def Instr.wf (i : Instr) : Bool :=
  below Config.lines i.lineOperand && below Config.members i.memberOperand && below 48 i.positionOperand &&
  below 32 i.cardOperand && undefinedOperation i.operationByte && below 5 i.headerBytes

end Sys2Proof
end

