-- ==== Sys2Proof/Safety.lean ====
section
/-!
DEFINITION. What this model calls a safe state: the bounds and agreements the spec states over all time (R106, R141, R157, R160, R171, R174, R188, R193).
-/
namespace Sys2Proof.Machine

/-- R188, R190: each queue holds at most 16 records, and while the executor holds a request there is room for its result. -/
def QueuesFit (s : State) : Prop :=
  s.port.requests.length ≤ Config.queue ∧ s.port.results.length ≤ Config.queue ∧
  (s.port.executor ≠ none → s.port.results.length < Config.queue)

/-- R174: the port work list holds exactly the lines whose desired condition differs from their acknowledged condition and whose card is PRESENT. -/
def WorkListExact (s : State) : Prop :=
  ∀ id, id ∈ s.recs.workList ↔ ∃ l, (id, l) ∈ s.recs.lines ∧ s.recs.differs l = true

/-- R193: every level, and the mask, is at most 15. -/
def LevelsFit (s : State) : Prop := (∀ q, s.port.level q ≤ 15) ∧ s.port.mask ≤ 15

/-- R157, R160: the parked list holds at most 8 identities without duplicates, a sequence has had at most 64 rounds. -/
def ListsFit (s : State) : Prop :=
  s.link.parked.length ≤ Config.parked ∧ s.link.parked.Nodup ∧ ∀ q, s.link.sequence = some q → q.rounds ≤ Config.rounds

/-- R112: no line holds a slot whose three conditions hold. -/
def NoSlotDue (s : State) : Prop := ∀ id, s.recs.slotDue id = false

/-- R126: no RETIRING line is at rest. -/
def NoRetirementDue (s : State) : Prop := ∀ id l, (id, l) ∈ s.recs.lines → l.lifecycle = .retiring → l.atRest = false

/-- Nothing is due: what every event settles in its own step is settled. -/
def Quiet (s : State) : Prop := s.finish = s

/-- R189: the executor takes the head record q and hands it to the block whose request has this code. -/
def Takes (s : State) (code : Nat) (q : Request) (rest : List Request) : Prop :=
  s.part = .running ∧ s.resetPin = .released ∧ s.port.executor = none ∧ s.port.results.length < Config.queue ∧
  s.port.requests = q :: rest ∧ s.port.frame ≠ .inFrame true ∧ q.length.toNat ≤ 200 ∧ q.length.toNat ≤ q.body.length ∧
  q.code.toNat = code

/-- R189, R191: s after the head record q has been taken and answered: the record gone from the request queue, its result at the tail of the result queue, the frame state brought up to date. -/
def State.answered (s : State) (q : Request) (rest : List Request) (c : ResultCode) (body : List Byte) : State :=
  { s with port := { s.port with
      requests := rest
      results := s.port.results ++ [⟨q.tag, q.code, c, body⟩]
      frame := frameAfter q.flags c } }

/-- R190: s after the head record q has been taken and holds the executor. -/
def State.holding (s : State) (q : Request) (rest : List Request) (j : Job) : State :=
  { s with port := { s.port with requests := rest, executor := some ⟨q.tag, q.code, q.flags, j, false⟩ } }

/-- R190, R191: s after the request the executor holds has completed. -/
def State.completed (s : State) (h : Held) (c : ResultCode) (body : List Byte) : State :=
  { s with port := { s.port with
      results := s.port.results ++ [⟨h.tag, h.code, c, body⟩]
      executor := none
      frame := frameAfter h.flags c } }

/-- s with other records. -/
def State.withRecs (s : State) (r : Records) : State := { s with recs := r }

/-- s with another console link. -/
def State.withLink (s : State) (l : Link) : State := { s with link := l }

end Sys2Proof.Machine
end

