-- ==== Sys2Proof/Certificates/Slice0/Obligations.lean ====
section
/-!
DEFINITION. The statements for the provers. A statement's result state is written out from the rules; `finish` is what every event settles at the end of its own step (R112, R126, R174, R149), and Obligations.SettlingTouchesOnlyLines says what it leaves alone.
-/
open Sys2Proof Sys2Proof.Machine

/-! ### Steps and resets -/

/-- A step takes the command at the front of the queue and runs it on the state with the queue's rest. -/
def Obligations.StepRunsFrontCommand : Prop :=
  ∀ (c : Instr) (rest : List Instr) (s : State), s.pending = c :: rest → step s = exec c { s with pending := rest }

/-- The model's choice (log 2): on an empty queue one millisecond passes, every line timer and talk timer loses it, and the port, the part state, the loader, the audio samples and every record but the timers stay. -/
def Obligations.EmptyQueuePassesOneMillisecond : Prop :=
  ∀ s : State, s.pending = [] → s.resetPin ≠ .coldHeld → ∃ t, step s = .next t ∧
    t.port = s.port ∧ t.part = s.part ∧ t.loader = s.loader ∧ t.audio = s.audio ∧ t.resetPin = s.resetPin ∧ t.pending = [] ∧
    (∀ id, t.recs.line? id = (s.recs.line? id).map (Line.elapse 1)) ∧
    (∀ m, t.recs.member? m = (s.recs.member? m).map (Member.elapse 1)) ∧
    t.recs = { s.recs with lines := t.recs.lines, members := t.recs.members, inFlight := t.recs.inFlight }

/-- R198: power-up, or RESET_N going low with KEEP low, holds the block; while it is held ATTN is deasserted and no command but a reset has an effect. -/
def Obligations.ColdStartHolds : Prop :=
  (∀ s : State, exec (.coldStart .powerUp) s = .next { s with resetPin := .coldHeld }) ∧
  (∀ s : State, s.resetPin = .released → exec (.coldStart .resetLow) s = .next { s with resetPin := .coldHeld }) ∧
  (∀ s : State, s.resetPin = .coldHeld → s.attn = false) ∧
  (∀ (c : Instr) (s : State), s.resetPin = .coldHeld → (∀ cause, c ≠ .coldStart cause) → c ≠ .resetRelease → exec c s = .next s)

/-- R198, R203: RESET_N rising after a cold start loads the cold start values; after a warm restart it only lets the port take transactions again. -/
def Obligations.ResetReleaseLoadsColdValues : Prop :=
  (∀ s : State, s.resetPin = .coldHeld → exec .resetRelease s = .next { State.reset with pending := s.pending }) ∧
  (∀ s : State, s.resetPin = .warmHeld → exec .resetRelease s = .next { s with resetPin := .released }) ∧
  State.reset.part = .startingImage ∧ State.reset.resetPin = .released ∧ State.reset.pending = [] ∧
  (State.reset.recs.lines = [] ∧ State.reset.recs.appearances = [] ∧ State.reset.recs.groups = [] ∧ State.reset.recs.members = [] ∧
    State.reset.recs.bridges = [] ∧ State.reset.recs.slots = [] ∧ State.reset.recs.waitList = [] ∧ State.reset.recs.workList = [] ∧
    State.reset.recs.reserve = 4 ∧ State.reset.recs.inFlight = none ∧ State.reset.recs.lineGuard = 0 ∧ State.reset.recs.raised = [] ∧
    State.reset.recs.dispositions = ⟨.localAct, .localAct, .localAct, .localAct, .localAct, .localAct, .localAct⟩) ∧
  (∀ p : Fin 48, (State.reset.recs.pos p).attached = false ∧ (State.reset.recs.pos p).lock = false ∧ (State.reset.recs.pos p).identity = none ∧
    (State.reset.recs.pos p).offHook1 = false ∧ (State.reset.recs.pos p).offHook2 = false ∧ (State.reset.recs.pos p).selected = none ∧
    (State.reset.recs.pos p).ptt = none ∧ (State.reset.recs.pos p).hand1 = none ∧ (State.reset.recs.pos p).hand2 = none ∧
    (State.reset.recs.pos p).pressed = [] ∧ (State.reset.recs.pos p).refusal = none ∧
    (State.reset.recs.pos p).channelPending = [] ∧ (State.reset.recs.pos p).lampPending = [] ∧
    (∀ n : Fin 8, vget (State.reset.recs.pos p).volume n = 8 ∧ vget (State.reset.recs.pos p).speaker n = .none)) ∧
  (∀ c : Fin 32, (State.reset.recs.card c).present = false ∧ (State.reset.recs.card c).miss = 0 ∧ (State.reset.recs.card c).probeDue = false) ∧
  (∀ w : Fin 16, vget State.reset.recs.windows w = ⟨false, 0, 1, 0, 0, 4⟩) ∧
  (State.reset.link.state = .stopped ∧ State.reset.link.policy = .accept ∧ State.reset.link.parked = [] ∧ State.reset.link.sequence = none ∧
    State.reset.link.wanted = false ∧ State.reset.link.outPtr = 47) ∧
  (∀ p : Fin 48, State.reset.link.entry p = none ∧ State.reset.link.pres p = ⟨0, 0, true, false⟩) ∧
  (State.reset.bus.fetchPtr = 31 ∧ State.reset.bus.passSlot = none ∧ State.reset.bus.passGuard = 0) ∧
  (State.reset.port.requests = [] ∧ State.reset.port.results = [] ∧ State.reset.port.full = false ∧ State.reset.port.executor = none ∧
    State.reset.port.frame = .notInFrame ∧ State.reset.port.mask = 0 ∧ State.reset.port.enable = false ∧
    State.reset.port.levels = #v[9, 15, 9, 7, 5, 10, 10, 6, 13, 11, 6, 12, 8, 5, 0, 7, 4, 0, 6, 12, 4])

/-- R192, R203: a warm restart resets the supervisory port and leaves the floor. A PASS on the bus and a LINK-RESET keep the executor held with their result dropped, every other held request frees it; a PASS still waiting leaves its slot; roll-call sequences, in progress or waiting, run on without a request; everything else carries on. -/
def Obligations.WarmRestartResetsPort : Prop :=
  ∀ s : State, s.resetPin = .released → ∃ t, exec .warmRestart s = .next t ∧
    t.resetPin = .warmHeld ∧ t.port.requests = [] ∧ t.port.results = [] ∧ t.port.full = false ∧ t.port.frame = .notInFrame ∧
    t.port.levels = levelsReset ∧ t.port.mask = 0 ∧ t.port.enable = false ∧ t.attn = false ∧
    (∀ h, t.port.executor = some h → h.dropped = true ∧ (h.job = .pass ∨ h.job = .linkReset)) ∧
    (∀ h, s.port.executor = some h → h.job = .linkReset ∨ (h.job = .pass ∧ ∃ f, s.recs.inFlight = some f ∧ f.job = .pass) →
      t.port.executor = some { h with dropped := true }) ∧
    (∀ h, s.port.executor = some h → (h.job = .pass ∧ ∀ f, s.recs.inFlight = some f → f.job ≠ .pass) ∨ h.job = .rollCall ∨
      (∃ next items applied, h.job = .load next items applied) → t.port.executor = none) ∧
    (s.port.executor = none → t.port.executor = none) ∧
    t.recs = { s.recs with raised := [] } ∧ t.part = s.part ∧ t.loader = s.loader ∧ t.audio = s.audio ∧
    t.link = { s.link with
      sequence := s.link.sequence.map (fun q => { q with owned := false })
      waits := s.link.waits.map (fun w => { w with owned := false }) } ∧
    t.bus = { s.bus with passSlot := t.bus.passSlot } ∧
    ((∃ f, s.recs.inFlight = some f ∧ f.job = .pass) → t.bus.passSlot = s.bus.passSlot) ∧
    ((∀ f, s.recs.inFlight = some f → f.job ≠ .pass) → t.bus.passSlot = none)

/-! ### The configuration image -/

/-- R199: the header decides the course of the image stage. -/
def Obligations.ImageHeaderDecides : Prop :=
  ∀ (s : State) (w : Wires), s.resetPin ≠ .coldHeld → s.part = .startingImage → s.loader.headerRead = false →
    (∀ bytes : List Byte, bytes.length < 4 →
      exec (.imageHeader bytes w) s = .next ({ s with loader := ⟨.none, 0, 0, 0, true, 0, 0⟩ }.endImage w).finish) ∧
    (∀ s1 s0 v n : Byte, ¬ (s1 = 0x4C ∧ s0 = 0x44 ∧ v = 1) →
      exec (.imageHeader [s1, s0, v, n] w) s = .next ({ s with loader := ⟨.badSignature, 0, 0, 0, true, 0, 4⟩ }.endImage w).finish) ∧
    (∀ n : Byte, n ≠ 0 →
      exec (.imageHeader [0x4C, 0x44, 1, n] w) s = .next ({ s with loader := ⟨.loaded, 0, 0, n.toNat, true, n.toNat, 4⟩ }).finish) ∧
    exec (.imageHeader [0x4C, 0x44, 1, 0] w) s = .next ({ s with loader := ⟨.loaded, 0, 0, 0, true, 0, 4⟩ }.endImage w).finish

/-- R201, R202, R142: at the end of the image stage PART IMAGE is raised, the probe timer starts and every named card is due; with no card named the consoles stage begins in the same step with its recovery attempt. -/
def Obligations.ImageStageEnds : Prop :=
  ∀ (s : State) (w : Wires),
    Reason.image ∈ (s.endImage w).recs.reasons .part ∧ (s.endImage w).bus.probeTimer = some 1000 ∧
    (∀ c : Fin 32, s.recs.named c = true → (s.recs.card c).present = false → ((s.endImage w).recs.card c).probeDue = true) ∧
    ((∃ c, s.recs.named c = true) → (s.endImage w).part = .startingCards ∧ (s.endImage w).link = s.link) ∧
    ((∀ c, s.recs.named c = false) → w.clk = true ∧ w.dat = true →
      (s.endImage w).part = .startingConsoles ∧ (s.endImage w).link.state = .running ∧
      (s.endImage w).link.sequence = some ⟨.all, 0, false, 0, 0⟩ ∧ (s.endImage w).link.wanted = false) ∧
    ((∀ c, s.recs.named c = false) → w.clk = false ∨ w.dat = false →
      (s.endImage w).part = .running ∧ (s.endImage w).link.state = .stuck ∧ (s.endImage w).link.wanted = true ∧
      Reason.stuck ∈ (s.endImage w).recs.reasons .link)

/-- R200: a section read whole is skipped when its kind is unknown or its sum differs, and applied item by item otherwise, the last one ending the stage; one that the memory cuts short, or whose bytes would run past address 65535, abandons the image. An item has the effect and the result of the request it stands for, one refused adds 1 to the items refused and changes nothing else; a SETTINGS item is applied when all nine values lie in range. -/
def Obligations.ImageSectionDealt : Prop :=
  (∀ (s : State) (w : Wires), s.resetPin ≠ .coldHeld → s.part = .startingImage → s.loader.headerRead = true → 0 < s.loader.sectionsLeft →
    let dealt (t : State) : State := if s.loader.sectionsLeft = 1 then t.endImage w else t
    let abandoned : State := { s with loader := { s.loader with skipped := s.loader.skipped + s.loader.sectionsLeft, sectionsLeft := 0 } }.endImage w
    (∀ (k c1 c0 s1 s0 : Byte) (items more : List Byte), items.length = num2 c1 c0 * itemLength k.toNat →
      s.loader.address + 5 + items.length ≤ 65536 →
      let skipped : State := { s with loader := { s.loader with
        skipped := s.loader.skipped + 1, sectionsLeft := s.loader.sectionsLeft - 1, address := s.loader.address + 5 + items.length } }
      let taken : State := (itemsOf (itemLength k.toNat) (num2 c1 c0) items).foldl (State.takeItem k.toNat) s
      let applied : State := { taken with loader := { taken.loader with
        sectionsLeft := s.loader.sectionsLeft - 1, address := s.loader.address + 5 + items.length } }
      ((k.toNat < 1 ∨ 7 < k.toNat) → exec (.imageSection (k :: c1 :: c0 :: (items ++ s1 :: s0 :: more)) w) s = .next (dealt skipped).finish) ∧
      (itemSum items ≠ num2 s1 s0 → exec (.imageSection (k :: c1 :: c0 :: (items ++ s1 :: s0 :: more)) w) s = .next (dealt skipped).finish) ∧
      (1 ≤ k.toNat → k.toNat ≤ 7 → itemSum items = num2 s1 s0 →
        exec (.imageSection (k :: c1 :: c0 :: (items ++ s1 :: s0 :: more)) w) s = .next (dealt applied).finish)) ∧
    (∀ (k c1 c0 s1 s0 : Byte) (items more : List Byte), items.length = num2 c1 c0 * itemLength k.toNat →
      65536 < s.loader.address + 5 + items.length →
      exec (.imageSection (k :: c1 :: c0 :: (items ++ s1 :: s0 :: more)) w) s = .next abandoned.finish) ∧
    (∀ (k c1 c0 : Byte) (rest : List Byte), rest.length < num2 c1 c0 * itemLength k.toNat + 2 →
      exec (.imageSection (k :: c1 :: c0 :: rest) w) s = .next abandoned.finish) ∧
    (∀ bytes : List Byte, bytes.length < 5 → exec (.imageSection bytes w) s = .next abandoned.finish)) ∧
  (∀ (s t : State) (kind : Nat) (item : List Byte) (c : ResultCode), s.applyItem kind item = (c, t) →
    (c = .done → s.takeItem kind item = t) ∧
    (c ≠ .done → s.takeItem kind item = { s with loader := { s.loader with refused := s.loader.refused + 1 } }) ∧
    (∀ (x : State) (q : Request) (rest : List Request), x.recs = s.recs → x.link = s.link → q.body = item →
      let answered : State := (((x.answered q rest c []).withRecs t.recs).withLink t.link).finish
      (kind = 1 → Takes x 40 q rest → exec .setWindow x = .next answered) ∧
      (kind = 2 → Takes x 29 q rest → exec .admitConsole x = .next answered) ∧
      (kind = 3 → Takes x 1 q rest → exec .defineLine x = .next answered) ∧
      (kind = 4 → Takes x 8 q rest → exec .defineAppearance x = .next answered) ∧
      (kind = 5 → Takes x 16 q rest → exec .defineGroup x = .next answered) ∧
      (kind = 6 → Takes x 20 q rest → exec .addMember x = .next answered))) ∧
  (∀ (s : State) (d1 d3 d4 d5 d6 d7 d8 j v : Byte),
    (∀ (a b c d e f g : Disposition) (policy : JoinPolicy), Disposition.ofNat? d1.toNat = some a → Disposition.ofNat? d3.toNat = some b →
      Disposition.ofNat? d4.toNat = some c → Disposition.ofNat? d5.toNat = some d → Disposition.ofNat? d6.toNat = some e →
      Disposition.ofNat? d7.toNat = some f → Disposition.ofNat? d8.toNat = some g → JoinPolicy.ofNat? j.toNat = some policy → v.toNat ≤ 16 →
      let set : Records := { s.recs with dispositions := ⟨a, b, c, d, e, f, g⟩, reserve := v.toNat }
      s.applyItem 7 [d1, d3, d4, d5, d6, d7, d8, j, v] = (.done, (s.withRecs
        (if v.toNat < s.recs.reserve then serveWaitList s.recs.waitList set else set)).withLink { s.link with policy := policy })) ∧
    ((∃ d ∈ [d1, d3, d4, d5, d6, d7, d8], Disposition.ofNat? d.toNat = none) ∨ JoinPolicy.ofNat? j.toNat = none ∨ 16 < v.toNat →
      s.applyItem 7 [d1, d3, d4, d5, d6, d7, d8, j, v] = (.badValue, s)))

/-! ### SPI -/

/-- R184: the end of a WRITE_REQUEST, in its three cases. The bytes of a READ_STATUS that never ended are dropped (log 13). -/
def Obligations.WriteRequestJoinsQueue : Prop :=
  ∀ s : State, s.resetPin = .released →
    (∀ (t1 t0 code flags len : Byte) (body : List Byte), s.port.requests.length < 16 →
      exec (.writeRequest (t1 :: t0 :: code :: flags :: len :: body)) s = .next { s with port := { s.port with
        requests := s.port.requests ++ [⟨t1 ++ t0, code, flags, len, body.take len.toNat⟩]
        status := [], spDo := 0 :: List.replicate (body.length + 5) 0 } }) ∧
    (∀ (t1 t0 code flags len : Byte) (body : List Byte), 16 ≤ s.port.requests.length →
      exec (.writeRequest (t1 :: t0 :: code :: flags :: len :: body)) s = .next { s with port := { s.port with
        full := true, status := [], spDo := 0 :: List.replicate (body.length + 5) 0 } }) ∧
    (∀ bytes : List Byte, bytes.length < 5 →
      exec (.writeRequest bytes) s = .next { s with port := { s.port with status := [], spDo := 0 :: List.replicate bytes.length 0 } })

/-- R183, R185, R186: READ_RESULT returns the head result and removes it, or the empty record; each of the five bytes of a READ_STATUS carries its value as it stands when the byte starts, and the transaction's end clears a FULL that the fifth reported as 1; an undefined operation returns zeros and has no effect. 0xA1, 0xA2 and 0xA3 select the three operations. That a READ_STATUS reaches the block as the start of each byte and its end, so that other events may stand between its bytes, is the reading of log 13; the zeros that a READ_STATUS carries from its sixth byte on are the model's choice (log 42). -/
def Obligations.ReadTransactionsReturnRecords : Prop :=
  (∀ (s : State) (k : Nat), s.resetPin = .released →
    (∀ x rest, s.port.results = x :: rest →
      let record := [x.tag.extractLsb' 8 8, x.tag.extractLsb' 0 8, x.code, x.result.byte, byte1 x.body.length] ++ x.body
      exec (.readResult k) s = .next { s with port := { s.port with results := rest, status := [], spDo := clockedOut k record } }) ∧
    (s.port.results = [] →
      exec (.readResult k) s = .next { s with port := { s.port with status := [], spDo := clockedOut k [0, 0, 0, 0, 0] } }) ∧
    (∀ v : Byte, [s.part.byte, byte1 (16 - s.port.requests.length), byte1 s.port.results.length,
        boolByte (attentionPending s.port s.recs.raised), boolByte s.port.full][s.port.status.length]? = some v →
      exec (.readStatus .byteStarts) s = .next { s with port := { s.port with status := s.port.status ++ [v] } }) ∧
    (5 ≤ s.port.status.length →
      exec (.readStatus .byteStarts) s = .next { s with port := { s.port with status := s.port.status ++ [0] } }) ∧
    exec (.readStatus .ends) s = .next { s with port := { s.port with
      full := if s.port.status[4]? = some 1 then false else s.port.full, status := [], spDo := 0 :: s.port.status } } ∧
    (∀ op : Byte, op ≠ 0xA1 → op ≠ 0xA2 → op ≠ 0xA3 →
      exec (.spiUnknownOperation op k) s = .next { s with port := { s.port with status := [], spDo := clockedOut k [] } })) ∧
  (∀ after : List Byte, spiCommands (0xA1 :: after) = [.writeRequest after] ∧ spiCommands (0xA2 :: after) = [.readResult after.length] ∧
    spiCommands (0xA3 :: after) = List.replicate after.length (.readStatus .byteStarts) ++ [.readStatus .ends] ∧
    ∀ op : Byte, op ≠ 0xA1 → op ≠ 0xA2 → op ≠ 0xA3 → spiCommands (op :: after) = [.spiUnknownOperation op after.length])

/-- R189, R191: inside a failed frame a taken request is SKIPPED; outside one, a bad length or an unknown code is answered BAD_VALUE; the frame state after an answer. -/
def Obligations.SkippedAndMalformedAnswered : Prop :=
  (∀ (s : State) (q : Request) (rest : List Request), s.part = .running → s.resetPin = .released → s.port.executor = none →
    s.port.results.length < 16 → s.port.requests = q :: rest →
    (s.port.frame = .inFrame true → exec .requestSkipped s = .next (s.answered q rest .skipped [])) ∧
    (s.port.frame ≠ .inFrame true → 200 < q.length.toNat ∨ q.body.length < q.length.toNat ∨ q.code.toNat ∉ catalogue →
      exec .requestMalformed s = .next (s.answered q rest .badValue []))) ∧
  (∀ (flags : Byte) (c : ResultCode), endOfFrame flags = true → frameAfter flags c = .notInFrame) ∧
  (∀ flags : Byte, endOfFrame flags = false → frameAfter flags .done = .inFrame false) ∧
  (∀ (flags : Byte) (c : ResultCode), endOfFrame flags = false → c ≠ .done → frameAfter flags c = .inFrame true)

/-! ### Lines -/

/-- R122: DEFINE-LINE makes the line with the supplied fields and the definition values, its first state by the in-service test. -/
def Obligations.DefineLineMakesLine : Prop :=
  ∀ (s : State) (q : Request) (rest : List Request) (i1 i0 t p1 p0 v m g h : Byte) (type : LineType) (privacy : Privacy),
    Takes s 1 q rest → q.body = [i1, i0, t, p1, p0, v, m, g, h] → num2 i1 i0 ≤ 383 → s.recs.line? (num2 i1 i0) = none →
    LineType.ofNat? t.toNat = some type → Privacy.ofNat? v.toNat = some privacy → num2 p1 p0 ≤ 1023 → 1 ≤ m.toNat → m.toNat ≤ 5 →
    (∀ e ∈ s.recs.lines, e.2.port ≠ num2 p1 p0) →
    let line (st : LineState) : Line := ⟨.defined, type, num2 p1 p0, privacy, m.toNat, g.toNat, h.toNat, st, [], none, none, none,
      Cond.off, Cond.off, false, none⟩
    (s.recs.serviceOf (num2 p1 p0) = none → exec .defineLine s =
      .next ((s.answered q rest .done []).withRecs (s.recs.setLine (num2 i1 i0) (line .idle))).finish) ∧
    (∀ why, s.recs.serviceOf (num2 p1 p0) = some why → exec .defineLine s =
      .next ((s.answered q rest .done []).withRecs
        ((s.recs.setLine (num2 i1 i0) (line (.outOfService why))).raise (.line (num2 i1 i0)) .fault)).finish)

/-- R123, R124: a CHANGE-LINE that passes its checks gives the line its new fields, marks its keys when privacy or max_parties changed, and applies the in-service test when the port changed. Bits of the mask above the last field are ignored (log 11). -/
def Obligations.ChangeLineTakesFields : Prop :=
  ∀ (s : State) (q : Request) (rest : List Request) (i1 i0 mask t p1 p0 v m g h : Byte) (l : Line) (type : LineType) (privacy : Privacy),
    Takes s 2 q rest → q.body = [i1, i0, mask, t, p1, p0, v, m, g, h] → num2 i1 i0 ≤ 383 → s.recs.line? (num2 i1 i0) = some l →
    l.lifecycle = .defined →
    let id := num2 i1 i0
    let f := LineFields.merge mask ⟨t.toNat, num2 p1 p0, v.toNat, m.toNat, g.toNat, h.toNat⟩ l.fields
    f.judge = some (type, privacy) → l.parties.length ≤ f.maxParties →
    (f.port ≠ l.port ∨ type ≠ l.type → l.atRest = true) → (type ≠ l.type → s.recs.circuitOf id = none) →
    (type ≠ l.type → type = .openLine → s.recs.appearancesOf id = []) → (f.port ≠ l.port → s.recs.portHeld id f.port = false) →
    let r1 := s.recs.setLine id { l with
      type := type, port := f.port, privacy := privacy, maxParties := f.maxParties, ringTimeout := f.ringTimeout, holdRecall := f.holdRecall
      missed := if type ≠ l.type ∧ type = .openLine then false else l.missed }
    let r2 := if privacy ≠ l.privacy ∨ f.maxParties ≠ l.maxParties then r1.markLine id else r1
    let r3 := if f.port ≠ l.port then r2.serviceTest id true else r2
    exec .changeLine s = .next ((s.answered q rest .done []).withRecs r3).finish

/-- R125: RETIRE-LINE removes a CIRCUIT membership first, frees a line at rest at once and makes any other RETIRING. -/
def Obligations.RetireLineFreesOrDefers : Prop :=
  ∀ (s : State) (q : Request) (rest : List Request) (i1 i0 : Byte) (l l' : Line) (r : Records),
    Takes s 3 q rest → q.body = [i1, i0] → num2 i1 i0 ≤ 383 → s.recs.line? (num2 i1 i0) = some l → l.lifecycle = .defined →
    (s.recs.circuitOf (num2 i1 i0) = none → r = s.recs) →
    (∀ m, s.recs.circuitOf (num2 i1 i0) = some m → r = (s.recs.removeMember m).settleSlots) →
    r.line? (num2 i1 i0) = some l' →
    (l'.atRest = true → exec .retireLine s = .next ((s.answered q rest .done []).withRecs (r.freeLine (num2 i1 i0))).finish) ∧
    (l'.atRest = false → exec .retireLine s =
      .next ((s.answered q rest .deferred []).withRecs (r.setLine (num2 i1 i0) { l' with lifecycle := .retiring })).finish)

/-- R50: FORCE-RELEASE clears missed, removes the parties and takes the line to IDLE; an OPEN line is refused and one OUT_OF_SERVICE left alone. -/
def Obligations.ForceReleaseTakesLineToIdle : Prop :=
  ∀ (s : State) (q : Request) (rest : List Request) (i1 i0 : Byte) (l : Line),
    Takes s 5 q rest → q.body = [i1, i0] → num2 i1 i0 ≤ 383 → s.recs.line? (num2 i1 i0) = some l →
    let r := if l.missed then (s.recs.setLine (num2 i1 i0) { l with missed := false }).markLine (num2 i1 i0) else s.recs
    (l.type = .openLine → exec .forceRelease s = .next (s.answered q rest .badType []).finish) ∧
    (l.type ≠ .openLine → l.state.isOos = true → exec .forceRelease s = .next (s.answered q rest .done []).finish) ∧
    (l.type ≠ .openLine → l.state = .idle → exec .forceRelease s = .next ((s.answered q rest .done []).withRecs r).finish) ∧
    (l.type ≠ .openLine → l.state.isOos = false → l.state ≠ .idle → exec .forceRelease s =
      .next ((s.answered q rest .done []).withRecs (r.toIdle (num2 i1 i0))).finish)

/-- R51: CLEAR-MISSED sets the missed flag false and marks the line's keys when it was true; NO_SUCH above 383, NOT_DEFINED for a FREE line. -/
def Obligations.ClearMissedSetsFlagFalse : Prop :=
  ∀ (s : State) (q : Request) (rest : List Request) (i1 i0 : Byte), Takes s 6 q rest → q.body = [i1, i0] →
    (383 < num2 i1 i0 → exec .clearMissed s = .next (s.answered q rest .noSuch []).finish) ∧
    (num2 i1 i0 ≤ 383 → s.recs.line? (num2 i1 i0) = none → exec .clearMissed s = .next (s.answered q rest .notDefined []).finish) ∧
    (∀ l, num2 i1 i0 ≤ 383 → s.recs.line? (num2 i1 i0) = some l →
      (l.missed = true → exec .clearMissed s = .next ((s.answered q rest .done []).withRecs
        ((s.recs.setLine (num2 i1 i0) { l with missed := false }).markLine (num2 i1 i0))).finish) ∧
      (l.missed = false → exec .clearMissed s = .next (s.answered q rest .done []).finish))

/-- R127, R131, R137, R139, R76, R169, R171, R109, R201: the nine read requests answer DONE at once with their body, and nothing but the port changes. Where the layout of a body is not stated byte by byte it is the reading of log 17 (absent fields keep their place, the widths of the counts, the kind bytes, 0xFF for the channel of a CIRCUIT, READ-POSITION's channel count before its lamp count). -/
def Obligations.ReadRequestsChangeNothing : Prop :=
  ∀ (s : State) (q : Request) (rest : List Request),
    (∀ i1 i0 l, Takes s 4 q rest → q.body = [i1, i0] → num2 i1 i0 ≤ 383 → s.recs.line? (num2 i1 i0) = some l →
      exec .readLine s = .next (s.answered q rest .done (s.recs.lineBody (num2 i1 i0) l))) ∧
    (∀ i1 i0 a, Takes s 11 q rest → q.body = [i1, i0] → num2 i1 i0 ≤ 2047 → Table.find s.recs.appearances (num2 i1 i0) = some a →
      exec .readAppearance s = .next (s.answered q rest .done (byte2 a.line ++ [byte1 a.pos.val, byte1 a.key, a.ringMode.byte,
        boolByte a.barge, a.route.byte, (s.recs.lampAudible a).1.byte, boolByte (s.recs.lampAudible a).2]))) ∧
    (∀ g x, Takes s 19 q rest → q.body = [g] → g.toNat ≤ 31 → s.recs.group? g.toNat = some x →
      exec .readGroup s = .next (s.answered q rest .done ([byte1 x.talkerLimit, byte1 x.talkTime, x.policy.byte, boolByte x.preempt] ++
        idList x.talkers ++ idList x.waiting ++ opt1 x.bridge ++ [boolByte x.inWaitList,
          byte1 ((s.recs.membersOf g.toNat).length - (s.recs.circuitsOf g.toNat).length), byte1 (s.recs.circuitsOf g.toNat).length]))) ∧
    (∀ i1 i0 x, Takes s 22 q rest → q.body = [i1, i0] → num2 i1 i0 ≤ 511 → s.recs.member? (num2 i1 i0) = some x →
      exec .readMember s = .next (s.answered q rest .done ([byte1 x.group] ++ x.kind.bytes ++
        [x.role.byte, byte1 x.priority, x.floor.byte] ++ opt1 (x.talkTimer.map secondsLeft)))) ∧
    (∀ (p : Fin 48) (b : Byte), Takes s 35 q rest → q.body = [b] → b.toNat = p.val →
      exec .readPosition s = .next (s.answered q rest .done (s.recs.positionBody p))) ∧
    (∀ (w : Fin 16) (b : Byte), Takes s 41 q rest → q.body = [b] → b.toNat = w.val →
      exec .readWindow s = .next (s.answered q rest .done
        ([boolByte (vget s.recs.windows w).enabled] ++ byte2 (vget s.recs.windows w).base ++ byte2 (vget s.recs.windows w).size ++
          [byte1 (vget s.recs.windows w).card.val, byte1 (vget s.recs.windows w).firstChannel, byte1 (vget s.recs.windows w).limit] ++
          [byte1 (Table.idsWhere (fun _ l => s.recs.windowIndex l.port == some w) s.recs.lines).length]))) ∧
    (∀ (c : Fin 32) (b : Byte), Takes s 42 q rest → q.body = [b] → b.toNat = c.val →
      exec .readCard s = .next (s.answered q rest .done
        ([boolByte (s.recs.card c).present, byte1 (s.recs.card c).miss, boolByte (s.recs.card c).probeDue,
          byte1 (s.recs.windows.toList.filter (fun w => w.enabled && w.card == c)).length] ++
          byte2 (s.recs.linesOfCard c).length ++ byte2 ((s.recs.linesOfCard c).filter (fun i => s.recs.workList.contains i)).length))) ∧
    (Takes s 45 q rest → q.body = [] → exec .readPool s = .next (s.answered q rest .done
      ([byte1 s.recs.reserve, byte1 (64 - s.recs.bridges.length), byte1 (s.recs.bridges.length - s.recs.groupBridges), byte1 s.recs.groupBridges] ++
        (List.range 64).flatMap s.recs.ownerBytes ++ (byte1 s.recs.waitList.length :: s.recs.waitList.map byte1) ++
        [byte1 (128 - s.recs.slots.length), byte1 (Table.idsWhere (fun id l => s.recs.withoutPath id l) s.recs.lines).length]))) ∧
    (Takes s 50 q rest → q.body = [] → exec .readIdentity s = .next (s.answered q rest .done
      ([0x4C, 48, 1, s.loader.status.byte, byte1 (if s.loader.status = .loaded then s.loader.sectionCount else 0), byte1 s.loader.skipped] ++
        byte2 s.loader.refused)))

/-! ### Appearances, groups, memberships -/

/-- R128, R129, R130: DEFINE-, CHANGE- and RETIRE-APPEARANCE on a request that passes its checks. Bits of CHANGE-APPEARANCE's mask above the last field are ignored (log 11). -/
def Obligations.AppearanceRequestsAct : Prop :=
  (∀ (s : State) (q : Request) (rest : List Request) (i1 i0 l1 l0 p k m b o : Byte) (a : Appearance) (l : Line),
    Takes s 8 q rest → q.body = [i1, i0, l1, l0, p, k, m, b, o] → num2 i1 i0 ≤ 2047 → Table.find s.recs.appearances (num2 i1 i0) = none →
    AppearanceItem.judge ⟨num2 l1 l0, p.toNat, k.toNat, m.toNat, b.toNat, o.toNat⟩ = some a → s.recs.line? a.line = some l →
    l.lifecycle = .defined → l.type ≠ .openLine → s.recs.appearanceAt a.pos a.key = none → s.recs.appearanceOfLineAt a.line a.pos = none →
    s.recs.routeBusy a.pos a.route = false →
    exec .defineAppearance s = .next ((s.answered q rest .done []).withRecs
      (({ s.recs with appearances := Table.put (num2 i1 i0) a s.recs.appearances }).markLamp a.pos a.key)).finish) ∧
  (∀ (s : State) (q : Request) (rest : List Request) (i1 i0 mask m b o : Byte) (a : Appearance) (mode : RingMode) (barge : Bool) (route : Route),
    Takes s 9 q rest → q.body = [i1, i0, mask, m, b, o] → num2 i1 i0 ≤ 2047 → Table.find s.recs.appearances (num2 i1 i0) = some a →
    RingMode.ofNat? (carried mask 0 m.toNat a.ringMode.byte.toNat) = some mode →
    boolOf? (carried mask 1 b.toNat (boolByte a.barge).toNat) = some barge →
    Route.ofNat? (carried mask 2 o.toNat a.route.byte.toNat) = some route → (route ≠ a.route → s.recs.routeBusy a.pos route = false) →
    let r := { s.recs with appearances := Table.put (num2 i1 i0) { a with ringMode := mode, barge := barge, route := route } s.recs.appearances }
    exec .changeAppearance s = .next ((s.answered q rest .done []).withRecs
      (if mode ≠ a.ringMode ∨ barge ≠ a.barge then r.markLamp a.pos a.key else r)).finish) ∧
  (∀ (s : State) (q : Request) (rest : List Request) (i1 i0 : Byte) (a : Appearance),
    Takes s 10 q rest → q.body = [i1, i0] → num2 i1 i0 ≤ 2047 → Table.find s.recs.appearances (num2 i1 i0) = some a →
    exec .retireAppearance s = .next ((s.answered q rest .done []).withRecs
      (({ s.recs with appearances := Table.drop (num2 i1 i0) s.recs.appearances }).markLamp a.pos a.key)).finish)

/-- R132, R133: LOAD-APPEARANCES holds the executor, or is refused before any item; an item that passes goes on to the next, the last one completes the request with DONE, and a failing one completes it with its code. -/
def Obligations.LoadAppearancesItemByItem : Prop :=
  (∀ (s : State) (q : Request) (rest : List Request) (i1 i0 n : Byte) (t : List Byte) (items : List AppearanceItem),
    Takes s 12 q rest → q.body = i1 :: i0 :: n :: t → appearanceItems t = some items → 1 ≤ n.toNat → n.toNat ≤ 24 → t.length = 7 * n.toNat →
    exec .loadAppearances s = .next (s.holding q rest (.load (num2 i1 i0) items 0))) ∧
  (∀ (s : State) (q : Request) (rest : List Request) (i1 i0 n : Byte) (t : List Byte),
    Takes s 12 q rest → q.body = i1 :: i0 :: n :: t → n.toNat = 0 ∨ 24 < n.toNat ∨ t.length ≠ 7 * n.toNat →
    exec .loadAppearances s = .next (s.answered q rest .badValue [0])) ∧
  (∀ (s : State) (h : Held) (id : Nat) (x : AppearanceItem) (items : List AppearanceItem) (applied : Nat) (c : ResultCode) (r : Records),
    s.resetPin ≠ .coldHeld → s.port.executor = some h → h.job = .load id (x :: items) applied → h.dropped = false →
    s.recs.defineAppearance id x = (c, r) →
    (c = .done → items ≠ [] → exec .loadAppearancesItem s = .next ({ s with recs := r, port := { s.port with
      executor := some { h with job := .load (id + 1) items (applied + 1) } } }).finish) ∧
    (c = .done → items = [] → exec .loadAppearancesItem s = .next ((s.completed h .done [byte1 (applied + 1)]).withRecs r).finish) ∧
    (c ≠ .done → exec .loadAppearancesItem s = .next ((s.completed h c [byte1 applied, byte1 applied]).withRecs r).finish))

/-- R134, R135, R136: DEFINE-, CHANGE- and RETIRE-GROUP on a request that passes its checks. Bits of CHANGE-GROUP's mask above the last field are ignored (log 11). -/
def Obligations.GroupRequestsAct : Prop :=
  (∀ (s : State) (q : Request) (rest : List Request) (g l t p b : Byte) (policy : Policy) (preempt : Bool),
    Takes s 16 q rest → q.body = [g, l, t, p, b] → g.toNat ≤ 31 → s.recs.group? g.toNat = none → 1 ≤ l.toNat → l.toNat ≤ 4 → t.toNat ≤ 120 →
    Policy.ofNat? p.toNat = some policy → boolOf? b.toNat = some preempt →
    exec .defineGroup s = .next ((s.answered q rest .done []).withRecs
      (s.recs.setGroup g.toNat ⟨l.toNat, t.toNat, policy, preempt, [], [], none, false⟩)).finish) ∧
  (∀ (s : State) (q : Request) (rest : List Request) (g mask l t p b : Byte) (x : Group) (policy : Policy) (preempt : Bool),
    Takes s 17 q rest → q.body = [g, mask, l, t, p, b] → g.toNat ≤ 31 → s.recs.group? g.toNat = some x →
    let f := GroupFields.merge mask ⟨l.toNat, t.toNat, p.toNat, b.toNat⟩ x.fields
    f.judge = some (policy, preempt) → x.talkers.length ≤ f.talkerLimit → (policy ≠ x.policy ∨ preempt ≠ x.preempt → x.waiting = []) →
    let r := s.recs.setGroup g.toNat { x with talkerLimit := f.talkerLimit, talkTime := f.talkTime, policy := policy, preempt := preempt }
    exec .changeGroup s = .next ((s.answered q rest .done []).withRecs
      (if x.talkerLimit < f.talkerLimit then r.grantPass g.toNat else r)).finish) ∧
  (∀ (s : State) (q : Request) (rest : List Request) (g : Byte) (x : Group),
    Takes s 18 q rest → q.body = [g] → g.toNat ≤ 31 → s.recs.group? g.toNat = some x →
    let r1 := x.waiting.foldl (fun r m => r.dropFloor m) s.recs
    let r2 := (r1.membersOf g.toNat).foldl (fun r e => r.removeMember e.1) r1
    let r3 := r2.testNeed g.toNat
    exec .retireGroup s = .next ((s.answered q rest .done []).withRecs
      (({ r3 with groups := Table.drop g.toNat r3.groups }).raise (.group g.toNat) .groupRetired)).finish)

/-- R138, R139, R80, R82: ADD-MEMBER of a position binds its channel, of a circuit connects its line and raises the bridge need; REMOVE-MEMBER removes the membership. The channel byte of a CIRCUIT is ignored whatever it holds (log 33). -/
def Obligations.MemberRequestsAct : Prop :=
  (∀ (s : State) (q : Request) (rest : List Request) (i1 i0 g w1 w0 c o y : Byte) (x : Group) (p : Fin 48) (n : Fin 8) (role : Role),
    Takes s 20 q rest → q.body = [i1, i0, g, 0, w1, w0, c, o, y] → num2 i1 i0 ≤ 511 → s.recs.member? (num2 i1 i0) = none →
    g.toNat ≤ 31 → num2 w1 w0 = p.val → c.toNat = n.val → Role.ofNat? o.toNat = some role → y.toNat ≤ 3 → s.recs.group? g.toNat = some x →
    (∀ e ∈ s.recs.membersOf g.toNat, ∀ k, e.2.kind ≠ .position p k) → vget (s.recs.pos p).speaker n = .none →
    exec .addMember s = .next ((s.answered q rest .done []).withRecs
      ((s.recs.setMember (num2 i1 i0) ⟨g.toNat, .position p n, role, y.toNat, .idle, none⟩).setBound p (.spk n) (.member (num2 i1 i0)))).finish) ∧
  (∀ (s : State) (q : Request) (rest : List Request) (i1 i0 g w1 w0 c o y : Byte) (x : Group) (l : Line) (role : Role),
    Takes s 20 q rest → q.body = [i1, i0, g, 1, w1, w0, c, o, y] → num2 i1 i0 ≤ 511 → s.recs.member? (num2 i1 i0) = none →
    g.toNat ≤ 31 → num2 w1 w0 ≤ 383 → Role.ofNat? o.toNat = some role → y.toNat ≤ 3 → s.recs.group? g.toNat = some x →
    s.recs.line? (num2 w1 w0) = some l → l.lifecycle = .defined → l.type = .openLine → s.recs.circuitOf (num2 w1 w0) = none →
    (s.recs.circuitsOf g.toNat).length < 2 → (l.state = .idle → l.slot = none → s.recs.lowestSlot ≠ none) →
    let r1 := s.recs.setMember (num2 i1 i0) ⟨g.toNat, .circuit (num2 w1 w0), role, y.toNat, .idle, none⟩
    let r2 := if l.state = .idle then (r1.needSlot (num2 w1 w0)).moveLine (num2 w1 w0) .connected else r1
    exec .addMember s = .next ((s.answered q rest .done []).withRecs (r2.testNeed g.toNat)).finish) ∧
  (∀ (s : State) (q : Request) (rest : List Request) (i1 i0 : Byte) (x : Member),
    Takes s 21 q rest → q.body = [i1, i0] → num2 i1 i0 ≤ 511 → s.recs.member? (num2 i1 i0) = some x →
    (∀ p n, x.kind = .position p n → exec .removeMember s =
      .next ((s.answered q rest .done []).withRecs (s.recs.removeTalker (num2 i1 i0) x.group p n x.floor)).finish) ∧
    (∀ line, x.kind = .circuit line → exec .removeMember s =
      .next ((s.answered q rest .done []).withRecs (s.recs.removeCircuit (num2 i1 i0) x.group line)).finish))

/-! ### Positions and keys -/

/-- R57, R64, R68: LOCK- and UNLOCK-POSITION, TAKE-KEYS, SET-DISPOSITION. -/
def Obligations.PositionRequestsAct : Prop :=
  ∀ (s : State) (q : Request) (rest : List Request) (p : Fin 48) (b : Byte), b.toNat = p.val →
    (Takes s 24 q rest → q.body = [b] → exec .lockPosition s = .next ((s.answered q rest .done []).withRecs
      ((s.recs.modPos p (fun x => { x with lock := true })).dropPtt p)).finish) ∧
    (Takes s 25 q rest → q.body = [b] → exec .unlockPosition s = .next ((s.answered q rest .done []).withRecs
      (s.recs.modPos p (fun x => { x with lock := false }))).finish) ∧
    (Takes s 27 q rest → q.body = [b] → exec .takeKeys s = .next ((s.answered q rest .done
        (byte1 (s.recs.pos p).pressed.length :: (s.recs.pos p).pressed.map byte1)).withRecs
      (s.recs.modPos p (fun x => { x with pressed := [] }))).finish) ∧
    (∀ (k v : Byte) (d : Dispositions) (x : Disposition), Takes s 28 q rest → q.body = [k, v] → Disposition.ofNat? v.toNat = some x →
      s.recs.dispositions.set k.toNat x = some d →
      exec .setDisposition s = .next ((s.answered q rest .done []).withRecs { s.recs with dispositions := d }).finish)

/-- R69, R65, R63: an injected event acts as under LOCAL, and its refusal is the result; at a DETACHED position it is refused. What the local actions do: RELEASE (R40, R41), HOLD (R38, R39), RING (R33), HOOK (R58, R40), VOLUME (R60) and the release of PTT (R59, R92, R94). What each disposition makes of an event from the link (R63, R64, R67, R70). An event whose unused argument bytes are not 0 is taken as the event its kind and used bytes give: the model's choice (log 10). -/
def Obligations.InjectedEventActsLocally : Prop :=
  (∀ (s : State) (q : Request) (rest : List Request) (b k a1 a2 : Byte) (p : Fin 48) (e : KeyEvent) (r : Records) (refusal : Option KeyRefusal),
    Takes s 26 q rest → q.body = [b, k, a1, a2] → b.toNat = p.val → KeyEvent.ofBytes k a1 a2 = some e → (∀ f, e ≠ .funcKey f) →
    (s.recs.trackEvent p e true).localAction p e = (r, refusal) →
    ((s.recs.pos p).attached = true → refusal = none →
      exec .injectEvent s = .next ((s.answered q rest .done []).withRecs r).finish) ∧
    (∀ why, (s.recs.pos p).attached = true → refusal = some why →
      exec .injectEvent s = .next ((s.answered q rest (.key why) []).withRecs (r.refuse p why e.subject)).finish) ∧
    ((s.recs.pos p).attached = false → exec .injectEvent s = .next (s.answered q rest .notAttached []).finish)) ∧
  (∀ (r : Records) (p : Fin 48),
    let act (e : KeyEvent) : Records × Option KeyRefusal := (r.trackEvent p e true).localAction p e
    let idle (l : Line) : Line :=
      { l with state := .idle, parties := [], holdOwner := none, bridge := none, desired := Cond.off, timer := none }
    let held (l : Line) : Line := { l with
      state := .held, parties := [], bridge := none, desired := Cond.call, holdOwner := if l.privacy = .closed then some p else none
      timer := if l.holdRecall = 0 then none else some ⟨.recallWait, l.holdRecall * 1000⟩ }
    let fewer (l : Line) : Line :=
      { l with
        parties := l.parties.filter (fun x => !(x.pos == p))
        bridge := if (l.parties.filter (fun x => !(x.pos == p))).length < 2 then none else l.bridge }
    let only (x : Records × Option KeyRefusal) (id : Nat) (l : Line) (h : Handset) : Prop :=
      x.2 = none ∧ x.1.line? id = some l ∧ x.1.bound p (.hand h) = .none ∧ ∀ j, j ≠ id → x.1.line? j = r.line? j
    let hooked (h : Handset) (off : Bool) (x : Position) : Position := match h with
      | .h1 => { x with offHook1 := off, selected := if off then some .h1 else if x.selected = some .h1 then (if x.offHook2 then some .h2 else none) else x.selected }
      | .h2 => { x with offHook2 := off, selected := if off then some .h2 else if x.selected = some .h2 then (if x.offHook1 then some .h1 else none) else x.selected }
    let key (c : Nat) : Records := (r.modPos p (fun x => { x with pressed := setAdd c x.pressed })).raise (.position p.val) .keys
    ((r.pos p).selected = none ∨ (∃ h, (r.pos p).selected = some h ∧ r.bound p (.hand h) = .none) →
      act .release = (r, some .notNow) ∧ act .hold = (r, some .notNow) ∧ act .ring = (r, some .notNow)) ∧
    (∀ h id l, r.bound p (.hand h) = .line id → r.line? id = some l →
      ((r.pos p).selected = some h →
        (l.parties = [⟨p, .hand h⟩] → only (act .release) id (idle l) h) ∧
        (l.partyChannel p = some (.hand h) → 1 < l.parties.length → only (act .release) id (fewer l) h) ∧
        (l.state = .ringingOut → act .hold = (r, some .notNow)) ∧
        (l.state ≠ .ringingOut → l.parties = [⟨p, .hand h⟩] → only (act .hold) id (held l) h) ∧
        (l.state ≠ .ringingOut → l.partyChannel p = some (.hand h) → 1 < l.parties.length → only (act .hold) id (fewer l) h) ∧
        (l.type = .signalled → l.state = .connected → act .ring = (r.setLine id
          { l with desired := { l.desired with ringOut := true }, timer := some ⟨.ringBurst, 2000⟩ }, none)) ∧
        (l.type ≠ .signalled ∨ l.state ≠ .connected → act .ring = (r, some .notNow))) ∧
      (l.parties = [⟨p, .hand h⟩] → only (act (.hook h false)) id (idle l) h ∧
        ((act (.hook h false)).1.pos p).selected = (hooked h false (r.pos p)).selected) ∧
      (l.partyChannel p = some (.hand h) → 1 < l.parties.length → only (act (.hook h false)) id (fewer l) h ∧
        ((act (.hook h false)).1.pos p).selected = (hooked h false (r.pos p)).selected)) ∧
    (∀ h, act (.hook h true) = (r.modPos p (hooked h true), none) ∧
      (r.bound p (.hand h) = .none → act (.hook h false) = (r.modPos p (hooked h false), none))) ∧
    (∀ n v, act (.volume n v) = (r.modPos p (fun x => { x with volume := vset x.volume n (min v 16) }), none)) ∧
    (∀ n, (r.pos p).ptt ≠ some n → act (.ptt n false) = (r, none)) ∧
    (∀ n, (r.pos p).ptt = some n → (act (.ptt n false)).2 = none ∧ ((act (.ptt n false)).1.pos p).ptt = none ∧ (act (.ptt n false)).1.lines = r.lines ∧
      ∀ m x g, vget (r.pos p).speaker n = .member m → r.member? m = some x → r.group? x.group = some g →
        (x.floor = .idle → (act (.ptt n false)).1.members = r.members ∧ (act (.ptt n false)).1.groups = r.groups) ∧
        (x.floor = .talking → g.bridge ≠ none → (∀ k y, r.group? k = some y → m ∉ y.waiting) → ∃ g',
          (act (.ptt n false)).1.member? m = some { x with floor := .idle, talkTimer := none } ∧ (act (.ptt n false)).1.group? x.group = some g' ∧
          g'.talkers = g.talkers.filter (fun i => !(i == m)) ++ g.waiting.take (g.talkerLimit - (g.talkers.filter (fun i => !(i == m))).length) ∧
          g'.waiting = g.waiting.drop (g.talkerLimit - (g.talkers.filter (fun i => !(i == m))).length)) ∧
        (x.floor = .waiting → g.bridge ≠ none ∨ g.inWaitList = true → (∀ k y, k ≠ x.group → r.group? k = some y → m ∉ y.waiting) → ∃ g',
          (act (.ptt n false)).1.member? m = some { x with floor := .idle, talkTimer := none } ∧ (act (.ptt n false)).1.group? x.group = some g' ∧
          g'.talkers = g.talkers ∧ g'.waiting = g.waiting.filter (fun i => !(i == m)))) ∧
    (∀ e, (r.pos p).attached = false → r.takeEvent p e = r) ∧
    (∀ e r' refusal, (r.pos p).attached = true → act e = (r', refusal) →
      let acted : Records := match refusal with
        | none => r'
        | some q => r'.refuse p q e.subject
      (r.dispositions.of e = .localAct → r.takeEvent p e = acted) ∧ (r.dispositions.of e = .both → r.takeEvent p e = acted.forward p e)) ∧
    (∀ e, (r.pos p).attached = true → r.dispositions.of e = .forward → r.takeEvent p e = (r.trackEvent p e false).forward p e) ∧
    (∀ n, ((r.pos p).ptt = none → r.trackEvent p (.ptt n true) false = r.setPtt p (some n) ∧ ((r.setPtt p (some n)).pos p).ptt = some n) ∧
      ((r.pos p).ptt ≠ none → r.trackEvent p (.ptt n true) false = r)) ∧
    (∀ k, r.dispositions.of (.funcKey k) = .forward ∧ r.trackEvent p (.funcKey k) false = r ∧ r.forward p (.funcKey k) = key (96 + k)) ∧
    (∀ k, r.forward p (.lineKey k) = key k) ∧ r.forward p .release = key 128 ∧ r.forward p .hold = key 129 ∧ r.forward p .ring = key 130 ∧
    (∀ h off, r.forward p (.hook h off) = r.raise (.position p.val) .console) ∧
    (∀ n on, r.forward p (.ptt n on) = r.raise (.position p.val) .console) ∧
    (∀ n v, r.forward p (.volume n v) = r.raise (.position p.val) .console))

/-- R26, R36, R30, R31, R42, R27: a press answers a RINGING_IN or RECALL line, seizes an IDLE one (a RINGDOWN line then rings out with its RING timer) and retrieves a HELD one, on the selected handset or on the speaker channel of its route: the position becomes its sole party there, with a slot, missed cleared by an answer or a seizure and the port desired seized with audio; no other line changes. The refusals of such a press. -/
def Obligations.PressAnswersOrSeizesLine : Prop :=
  (∀ (r : Records) (p : Fin 48) (k id : Nat) (a : Appearance) (l : Line) (ch : Channel),
    r.appearanceAt p k = some a → a.pos = p → a.line = id → r.line? id = some l → l.parties = [] →
    (∃ h, a.route = .handset ∧ (r.pos p).selected = some h ∧ ch = .hand h) ∨ (∃ n, a.route = .speaker n ∧ ch = .spk n) → r.bound p ch = .none →
    (∀ slot, l.slot = some slot ∨ (l.slot = none ∧ r.lowestSlot = some slot) → l.state = .ringingIn ∨ l.state = .recall →
      (r.pressLine p k).2 = none ∧
      (r.pressLine p k).1.line? id = some { l with
        state := .connected, parties := [⟨p, ch⟩], holdOwner := none, slot := some slot, desired := Cond.call, missed := false, timer := none } ∧
      (r.pressLine p k).1.bound p ch = .line id ∧ (∀ j, j ≠ id → (r.pressLine p k).1.line? j = r.line? j)) ∧
    (∀ slot, l.slot = some slot ∨ (l.slot = none ∧ r.lowestSlot = some slot) → l.state = .idle → l.lifecycle = .defined →
      (r.pressLine p k).2 = none ∧
      (r.pressLine p k).1.line? id = some { l with
        state := if l.type = .ringdown then .ringingOut else .connected
        parties := [⟨p, ch⟩], holdOwner := none, slot := some slot, desired := Cond.call, missed := false
        timer := if l.type = .ringdown then (if l.ringTimeout = 0 then none else some ⟨.ring, l.ringTimeout * 1000⟩) else none } ∧
      (r.pressLine p k).1.bound p ch = .line id ∧ (∀ j, j ≠ id → (r.pressLine p k).1.line? j = r.line? j)) ∧
    (l.state = .held → l.holdOwner = none ∨ l.holdOwner = some p → (r.pressLine p k).2 = none ∧
      (r.pressLine p k).1.line? id = some { l with
        state := .connected, parties := [⟨p, ch⟩], holdOwner := none, desired := Cond.call, timer := none } ∧
      (r.pressLine p k).1.bound p ch = .line id ∧ (∀ j, j ≠ id → (r.pressLine p k).1.line? j = r.line? j)) ∧
    (l.state = .idle → l.lifecycle = .defined → l.slot = none → r.lowestSlot = none →
      r.pressLine p k = (r.raise .pool .noPath, some .noPath)) ∧
    (l.state = .ringingIn → l.slot = none → r.lowestSlot = none → r.pressLine p k = (r.raise .pool .noPath, some .noPath))) ∧
  (∀ (r : Records) (p : Fin 48) (k : Nat), r.appearanceAt p k = none → r.pressLine p k = (r, some .noAppearance)) ∧
  (∀ (r : Records) (p : Fin 48) (k : Nat) (a : Appearance) (l : Line),
    r.appearanceAt p k = some a → a.pos = p → r.line? a.line = some l → l.hasParty p = false →
    (l.state.isOos = true → r.pressLine p k = (r, some .outOfService)) ∧
    (l.state = .idle → l.lifecycle = .retiring → r.pressLine p k = (r, some .retiring)) ∧
    (l.state = .ringingOut → r.pressLine p k = (r, some .notNow)) ∧
    (∀ owner, l.state = .held → l.holdOwner = some owner → owner ≠ p → r.pressLine p k = (r, some .heldPrivate)) ∧
    ((l.state = .idle ∧ l.lifecycle = .defined) ∨ l.state = .ringingIn ∨ l.state = .recall ∨ (l.state = .held ∧ l.holdOwner = none) →
      (a.route = .handset → (r.pos p).selected = none → r.pressLine p k = (r, some .noHandset)) ∧
      (∀ n b, a.route = .speaker n → r.bound p (.spk n) = b → b ≠ .none → b ≠ .line a.line → r.pressLine p k = (r, some .channelBusy))))

/-- R18, R26, R37, R104: a press on a CONNECTED line of which the position is no party is refused PRIVATE_BUSY, FULL or NO_BRIDGE, or joins it at the tail of the party list, on the selected handset or on the speaker channel of its route; the rise from one party to two takes the lowest-numbered FREE bridge. R29: an own-line press leaves from a speaker channel (R41), is ALREADY on the selected handset, and moves the call to the other one. R28, R29: a press or a handset move that takes the selected handset while another line is on it is NOT_NOW when that line is RINGING_OUT, and NO_PATH or NO_BRIDGE by the pools as they stand before it, with neither line changed; otherwise the other line first takes the HOLD-LEAVE of its sole party or of one of several (R39), and then the press answers, seizes, retrieves or joins its line, or the call moves to the selected handset. -/
def Obligations.PressJoinsLine : Prop :=
  (∀ (r : Records) (p : Fin 48) (k id : Nat) (a : Appearance) (l : Line) (ch : Channel),
    r.appearanceAt p k = some a → a.pos = p → a.line = id → r.line? id = some l → l.state = .connected → l.hasParty p = false →
    (∃ h, a.route = .handset ∧ (r.pos p).selected = some h ∧ ch = .hand h) ∨ (∃ n, a.route = .speaker n ∧ ch = .spk n) → r.bound p ch = .none →
    (l.privacy = .closed → a.barge = false → (r.pressLine p k).2 = some .privateBusy) ∧
    (l.privacy = .shared ∨ a.barge = true → l.maxParties ≤ l.parties.length → (r.pressLine p k).2 = some .full) ∧
    (l.privacy = .shared ∨ a.barge = true → l.parties.length < l.maxParties → l.parties.length = 1 → r.freeBridges = 0 →
      r.pressLine p k = (r.raise .pool .noBridge, some .noBridge)) ∧
    (∀ b, l.privacy = .shared ∨ a.barge = true → l.parties.length < l.maxParties → l.parties.length = 1 → r.freeBridges ≠ 0 →
      r.lowestBridge = some b → (r.pressLine p k).2 = none ∧
      (r.pressLine p k).1.line? id = some { l with parties := l.parties ++ [⟨p, ch⟩], bridge := some b } ∧
      Table.find (r.pressLine p k).1.bridges b = some (.line id) ∧ (r.pressLine p k).1.bound p ch = .line id) ∧
    (l.privacy = .shared ∨ a.barge = true → l.parties.length < l.maxParties → 1 < l.parties.length →
      (r.pressLine p k).2 = none ∧ (r.pressLine p k).1.line? id = some { l with parties := l.parties ++ [⟨p, ch⟩] } ∧
      (r.pressLine p k).1.bound p ch = .line id)) ∧
  (∀ (r : Records) (p : Fin 48) (k id : Nat) (a : Appearance) (l : Line),
    r.appearanceAt p k = some a → a.line = id → r.line? id = some l → l.state.isOos = false →
    (∀ n, l.parties = [⟨p, .spk n⟩] → (r.pressLine p k).2 = none ∧
      (r.pressLine p k).1.line? id = some
        { l with state := .idle, parties := [], holdOwner := none, bridge := none, desired := Cond.off, timer := none } ∧
      (r.bound p (.spk n) = .line id → (r.pressLine p k).1.bound p (.spk n) = .none) ∧
      (∀ j, j ≠ id → (r.pressLine p k).1.line? j = r.line? j)) ∧
    (∀ n, l.partyChannel p = some (.spk n) → 1 < l.parties.length → (r.pressLine p k).2 = none ∧
      (r.pressLine p k).1.line? id = some { l with
        parties := l.parties.filter (fun x => !(x.pos == p))
        bridge := if (l.parties.filter (fun x => !(x.pos == p))).length < 2 then none else l.bridge } ∧
      (r.bound p (.spk n) = .line id → (r.pressLine p k).1.bound p (.spk n) = .none) ∧
      (∀ j, j ≠ id → (r.pressLine p k).1.line? j = r.line? j)) ∧
    (∀ h, l.partyChannel p = some (.hand h) → (r.pos p).selected = none ∨ (r.pos p).selected = some h →
      r.pressLine p k = (r, some .already)) ∧
    (∀ h dest, l.partyChannel p = some (.hand h) → (r.pos p).selected = some dest → dest ≠ h → r.bound p (.hand dest) = .none →
      r.bound p (.hand h) = .line id → (r.pressLine p k).2 = none ∧
      (r.pressLine p k).1.line? id = some { l with parties := l.parties.map (fun x => if x.pos = p then ⟨p, .hand dest⟩ else x) } ∧
      (r.pressLine p k).1.bound p (.hand h) = .none ∧ (r.pressLine p k).1.bound p (.hand dest) = .line id ∧
      (∀ j, j ≠ id → (r.pressLine p k).1.line? j = r.line? j))) ∧
  (∀ (r : Records) (p : Fin 48) (k id id0 : Nat) (a : Appearance) (l l0 : Line) (h : Handset),
    r.appearanceAt p k = some a → a.pos = p → a.line = id → r.line? id = some l →
    (r.pos p).selected = some h → r.bound p (.hand h) = .line id0 → id0 ≠ id → r.line? id0 = some l0 →
    let r' := (r.pressLine p k).1
    let leaves (x : Line) : Prop :=
      (l0.parties = [⟨p, .hand h⟩] ∧ x = { l0 with
        state := .held, parties := [], bridge := none, desired := Cond.call, holdOwner := if l0.privacy = .closed then some p else none
        timer := if l0.holdRecall = 0 then none else some ⟨.recallWait, l0.holdRecall * 1000⟩ }) ∨
      (l0.partyChannel p = some (.hand h) ∧ 1 < l0.parties.length ∧ x = { l0 with
        parties := l0.parties.filter (fun y => !(y.pos == p))
        bridge := if (l0.parties.filter (fun y => !(y.pos == p))).length < 2 then none else l0.bridge })
    let taken (x y : Line) : Prop := (r.pressLine p k).2 = none ∧ r'.line? id0 = some x ∧ r'.line? id = some y ∧
      r'.bound p (.hand h) = .line id ∧ ∀ j, j ≠ id → j ≠ id0 → r'.line? j = r.line? j
    (a.route = .handset → l.hasParty p = false →
      let joinable := l.state = .connected ∧ (l.privacy = .shared ∨ a.barge = true) ∧ l.parties.length < l.maxParties
      let seizable := l.state = .idle ∧ l.lifecycle = .defined
      let answerable := l.state = .ringingIn ∨ l.state = .recall
      let retrievable := l.state = .held ∧ (l.holdOwner = none ∨ l.holdOwner = some p)
      (l0.state = .ringingOut → joinable ∨ seizable ∨ answerable ∨ retrievable → r.pressLine p k = (r, some .notNow)) ∧
      (l0.state ≠ .ringingOut →
        (seizable ∨ l.state = .ringingIn → l.slot = none → r.lowestSlot = none →
          r.pressLine p k = (r.raise .pool .noPath, some .noPath)) ∧
        (joinable → l.parties.length = 1 → r.freeBridges = 0 → r.pressLine p k = (r.raise .pool .noBridge, some .noBridge)) ∧
        (∀ x, leaves x →
          (∀ slot, l.slot = some slot ∨ (l.slot = none ∧ r.lowestSlot = some slot) →
            (answerable → taken x { l with
              state := .connected, parties := l.parties ++ [⟨p, .hand h⟩], holdOwner := none, slot := some slot, desired := Cond.call
              missed := false, timer := none }) ∧
            (seizable → taken x { l with
              state := if l.type = .ringdown then .ringingOut else .connected
              parties := l.parties ++ [⟨p, .hand h⟩], holdOwner := none, slot := some slot, desired := Cond.call, missed := false
              timer := if l.type = .ringdown then (if l.ringTimeout = 0 then none else some ⟨.ring, l.ringTimeout * 1000⟩) else none })) ∧
          (retrievable → taken x { l with
            state := .connected, parties := l.parties ++ [⟨p, .hand h⟩], holdOwner := none, desired := Cond.call, timer := none }) ∧
          (joinable → 1 < l.parties.length → taken x { l with parties := l.parties ++ [⟨p, .hand h⟩] }) ∧
          (joinable → l.parties.length = 1 → r.freeBridges ≠ 0 → (∀ b, l0.bridge = some b → Table.find r.bridges b = some (.line id0)) →
            ∃ b, (Table.find r.bridges b = none ∨ l0.bridge = some b) ∧ (l0.bridge = none → r.lowestBridge = some b) ∧
              taken x { l with parties := l.parties ++ [⟨p, .hand h⟩], bridge := some b } ∧ Table.find r'.bridges b = some (.line id))))) ∧
    (∀ other, l.state.isOos = false → l.partyChannel p = some (.hand other) → h ≠ other →
      (l0.state = .ringingOut → r.pressLine p k = (r, some .notNow)) ∧
      (∀ x, l0.state ≠ .ringingOut → leaves x → r.bound p (.hand other) = .line id →
        taken x { l with parties := l.parties.map (fun y => if y.pos = p then ⟨p, .hand h⟩ else y) } ∧
        r'.bound p (.hand other) = .none)))

/-- R66, R88 to R91, R86: a PTT press on a membership's channel: LISTEN_ONLY; the floor at once when the group holds a bridge and has room; the floor of the lowest talker when PREEMPT lets a higher priority take it, the latest granted of several; a place in the waiting list otherwise, at the tail under ARRIVAL and before the lower priorities under PRIORITY; FLOOR_FULL when eight wait. The first to wait gives the group its bridge need: a bridge when more are FREE than the reserve, and then the floor at once, else a place in the wait list. On a line's channel the press only takes ptt_channel; PTT_BUSY and NOT_BOUND. -/
def Obligations.PttPressTalksOrWaits : Prop :=
  (∀ (r : Records) (p : Fin 48) (n : Fin 8) (m : Nat) (x : Member) (g : Group),
    (r.pos p).ptt = none → vget (r.pos p).speaker n = .member m → r.member? m = some x → r.group? x.group = some g →
    let timer : Option Nat := if g.talkTime = 0 then none else some (g.talkTime * 1000)
    let waits (place : List Nat) : Prop := (r.pressPtt p n).2 = none ∧ ((r.pressPtt p n).1.pos p).ptt = some n ∧
      (r.pressPtt p n).1.group? x.group = some { g with waiting := place } ∧
      (r.pressPtt p n).1.member? m = some { x with floor := .waiting }
    let place : List Nat := if g.policy = .arrival then g.waiting ++ [m] else
      g.waiting.filter (fun i => decide (x.priority ≤ r.priorityOf i)) ++ [m] ++ g.waiting.filter (fun i => decide (r.priorityOf i < x.priority))
    (x.role = .listen → r.pressPtt p n = (r, some .listenOnly)) ∧
    (x.role = .talk → g.bridge ≠ none → g.talkers.length < g.talkerLimit →
      (r.pressPtt p n).2 = none ∧ ((r.pressPtt p n).1.pos p).ptt = some n ∧
      (r.pressPtt p n).1.group? x.group = some { g with talkers := g.talkers ++ [m] } ∧
      (r.pressPtt p n).1.member? m = some { x with floor := .talking, talkTimer := timer }) ∧
    (x.role = .talk → g.bridge = none → 8 ≤ g.waiting.length → r.pressPtt p n = (r, some .floorFull)) ∧
    (x.role = .talk → g.bridge = none → g.waiting.length < 8 → g.inWaitList = true → waits place) ∧
    (x.role = .talk → g.bridge ≠ none → g.talkerLimit ≤ g.talkers.length →
      (g.policy = .arrival ∨ g.preempt = false ∨ (∀ u ∈ g.talkers, x.priority ≤ r.priorityOf u) →
        (g.waiting.length < 8 → waits place) ∧ (8 ≤ g.waiting.length → r.pressPtt p n = (r, some .floorFull))) ∧
      (∀ earlier v later y, g.policy = .priority → g.preempt = true → g.talkers = earlier ++ v :: later →
        (∀ u ∈ earlier, r.priorityOf v ≤ r.priorityOf u) → (∀ u ∈ later, r.priorityOf v < r.priorityOf u) → r.priorityOf v < x.priority →
        r.member? v = some y →
        (r.pressPtt p n).2 = none ∧ ((r.pressPtt p n).1.pos p).ptt = some n ∧ (∀ k, k ≠ p → ((r.pressPtt p n).1.pos k).ptt = (r.pos k).ptt) ∧
        (r.pressPtt p n).1.group? x.group = some { g with talkers := g.talkers.filter (fun i => !(i == v)) ++ [m] } ∧
        (r.pressPtt p n).1.member? v = some { y with floor := .idle, talkTimer := none } ∧
        (r.pressPtt p n).1.member? m = some { x with floor := .talking, talkTimer := timer })) ∧
    (x.role = .talk → g.bridge = none → g.inWaitList = false → g.talkers = [] → g.waiting = [] → 1 ≤ g.talkerLimit →
      (∀ b, r.reserve < r.freeBridges → r.lowestBridge = some b →
        (r.pressPtt p n).2 = none ∧ ((r.pressPtt p n).1.pos p).ptt = some n ∧ Table.find (r.pressPtt p n).1.bridges b = some (.group x.group) ∧
        (r.pressPtt p n).1.group? x.group = some { g with bridge := some b, talkers := [m] } ∧
        (r.pressPtt p n).1.member? m = some { x with floor := .talking, talkTimer := timer }) ∧
      (r.freeBridges ≤ r.reserve →
        (r.pressPtt p n).2 = none ∧ ((r.pressPtt p n).1.pos p).ptt = some n ∧ (r.pressPtt p n).1.waitList = r.waitList ++ [x.group] ∧
        Reason.waiting ∈ (r.pressPtt p n).1.reasons (.group x.group) ∧
        (r.pressPtt p n).1.group? x.group = some { g with waiting := [m], inWaitList := true } ∧
        (r.pressPtt p n).1.member? m = some { x with floor := .waiting }))) ∧
  (∀ (r : Records) (p : Fin 48) (n : Fin 8),
    ((r.pos p).ptt ≠ none → r.pressPtt p n = (r, some .pttBusy)) ∧
    ((r.pos p).ptt = none → vget (r.pos p).speaker n = .none → r.pressPtt p n = (r, some .notBound)) ∧
    (∀ id, (r.pos p).ptt = none → vget (r.pos p).speaker n = .line id → (r.pressPtt p n).2 = none ∧
      ((r.pressPtt p n).1.pos p).ptt = some n ∧ (r.pressPtt p n).1.lines = r.lines ∧
      (r.pressPtt p n).1.groups = r.groups ∧ (r.pressPtt p n).1.members = r.members))

/-! ### Console link -/

/-- R155: ADMIT-CONSOLE fills the empty entry and wants a sequence when the identity is parked; a filled entry, an identity admitted elsewhere and a pending park refuse it. -/
def Obligations.AdmitConsoleFillsEntry : Prop :=
  ∀ (s : State) (q : Request) (rest : List Request) (b a1 a2 a3 a4 a5 a6 : Byte) (p : Fin 48),
    Takes s 29 q rest → q.body = [b, a1, a2, a3, a4, a5, a6] → b.toNat = p.val →
    let i := identityOf a1 a2 a3 a4 a5 a6
    (s.link.entry p = none → (∀ k, s.link.entry k ≠ some i) → (s.link.pres p).parkPending = false →
      exec .admitConsole s = .next ((s.answered q rest .done []).withLink { s.link with
        admission := vset s.link.admission p (some i), wanted := s.link.wanted || s.link.parked.contains i }).finish) ∧
    (s.link.entry p ≠ none → exec .admitConsole s = .next (s.answered q rest .conflict []).finish) ∧
    ((∃ k, s.link.entry k = some i) → exec .admitConsole s = .next (s.answered q rest .conflict []).finish) ∧
    (s.link.entry p = none → (∀ k, s.link.entry k ≠ some i) → (s.link.pres p).parkPending = true →
      exec .admitConsole s = .next (s.answered q rest .inUse []).finish)

/-- R156, R154: REVOKE-CONSOLE detaches an attached position, parks its identity when there is room and it is not parked yet, empties the entry and sets park pending. -/
def Obligations.RevokeConsoleDetachesAndParks : Prop :=
  ∀ (s : State) (q : Request) (rest : List Request) (b : Byte) (p : Fin 48) (i : Identity),
    Takes s 30 q rest → q.body = [b] → b.toNat = p.val → s.link.entry p = some i →
    let revoked (pr : Presence) : Link := { s.link with
      admission := vset s.link.admission p none
      parked := if i ∈ s.link.parked ∨ 8 ≤ s.link.parked.length then s.link.parked else s.link.parked ++ [i]
      presence := vset s.link.presence p { pr with parkPending := true } }
    ((s.recs.pos p).attached = true → exec .revokeConsole s = .next (((s.answered q rest .done []).withRecs
      ((s.recs.losePosition p).raise (.position p.val) .detached)).withLink (revoked { s.link.pres p with miss := 0 })).finish) ∧
    ((s.recs.pos p).attached = false → exec .revokeConsole s =
      .next ((s.answered q rest .done []).withLink (revoked (s.link.pres p))).finish)

/-- R157, R158: READ-PARKED returns the parked list and empties it when the clear flag is set; SET-JOIN-POLICY sets the policy. -/
def Obligations.ParkedListAndJoinPolicy : Prop :=
  ∀ (s : State) (q : Request) (rest : List Request),
    (Takes s 31 q rest → q.body = [0] → exec .readParked s =
      .next (s.answered q rest .done (byte1 s.link.parked.length :: s.link.parked.flatMap identityBytes)).finish) ∧
    (Takes s 31 q rest → q.body = [1] → exec .readParked s =
      .next ((s.answered q rest .done (byte1 s.link.parked.length :: s.link.parked.flatMap identityBytes)).withLink
        { s.link with parked := [] }).finish) ∧
    (Takes s 32 q rest → q.body = [0] → exec .setJoinPolicy s =
      .next ((s.answered q rest .done []).withLink { s.link with policy := .accept }).finish) ∧
    (Takes s 32 q rest → q.body = [1] → exec .setJoinPolicy s =
      .next ((s.answered q rest .done []).withLink { s.link with policy := .ignore }).finish)

/-- R162, R159: ROLL-CALL holds the executor and begins its sequence at once when no sequence is in progress or waits and no transaction is in progress, and waits behind them otherwise (that it lets a transaction in progress end first is log 24); on a STUCK link it is refused with BUS_FAULT, its three counts 0 (log 14). -/
def Obligations.RollCallBeginsOrWaits : Prop :=
  ∀ (s : State) (q : Request) (rest : List Request) (b : Byte) (sc : Scope),
    Takes s 33 q rest → q.body = [b] → Scope.ofNat? b.toNat = some sc →
    (s.link.state ≠ .stuck → s.link.sequence = none → s.link.txn = none → s.link.waits = [] →
      exec .rollCall s = .next ((s.holding q rest .rollCall).withLink { s.link with
        sequence := some ⟨sc, 0, true, 0, 0⟩, wanted := false, cycle := .window }).finish) ∧
    (s.link.state ≠ .stuck → s.link.sequence ≠ none ∨ s.link.txn ≠ none ∨ s.link.waits ≠ [] → exec .rollCall s =
      .next ((s.holding q rest .rollCall).withLink { s.link with waits := s.link.waits ++ [⟨sc, true⟩] }).finish) ∧
    (s.link.state = .stuck → exec .rollCall s = .next (s.answered q rest .busFault [0, 0, 0]))

/-- R164, R165: LINK-RESET holds the executor until its attempt is made; on a RUNNING link the attempt changes nothing; on a STUCK link it succeeds when both wires read high, and the next attempt is 100 ms later otherwise. A recovered link begins the sequence of a ROLL-CALL that waits, or the wanted one. That the request's attempt is the RECOVERY_ATTEMPT that comes next, at once on a STUCK link, is the reading of log 37. -/
def Obligations.LinkResetAndRecovery : Prop :=
  (∀ (s : State) (q : Request) (rest : List Request), Takes s 34 q rest → q.body = [] →
    exec .linkReset s = .next (s.holding q rest .linkReset)) ∧
  (∀ (s : State) (h : Held) (w : Wires), s.resetPin ≠ .coldHeld → s.port.executor = some h → h.job = .linkReset → h.dropped = false →
    s.link.txn = none → s.link.state = .running → exec (.recoveryAttempt w) s = .next (s.completed h .done [1]).finish) ∧
  (∀ (s : State) (h : Held) (w : Wires), s.resetPin ≠ .coldHeld → s.port.executor = some h → h.job = .linkReset → h.dropped = false →
    s.link.state = .stuck → w.clk = false ∨ w.dat = false →
    exec (.recoveryAttempt w) s = .next ((s.completed h .done [2]).withLink { s.link with recoveryWait := 100 }).finish) ∧
  (∀ (s : State) (w : Wires), s.resetPin ≠ .coldHeld → s.port.holds .linkReset = false → s.link.state = .stuck →
    w.clk = false ∨ w.dat = false → ∃ t, exec (.recoveryAttempt w) s = .next t ∧ t.link.state = .stuck ∧ t.link.recoveryWait = 100 ∧ t.port = s.port) ∧
  (∀ (s : State) (w : Wires), s.resetPin ≠ .coldHeld → s.link.state = .stuck → w.clk = true → w.dat = true →
    ∃ t, exec (.recoveryAttempt w) s = .next t ∧ t.link.state = .running ∧
      Reason.recovered ∈ t.recs.reasons .link ∧ (∀ p, (t.link.pres p).idle = 0 ∧ (t.link.pres p).miss = (s.link.pres p).miss) ∧
      (s.link.waits = [] → t.link.waits = [] ∧ t.link.sequence = if s.link.wanted then some ⟨.new, 0, false, 0, 0⟩ else s.link.sequence) ∧
      (∀ x rest, s.link.waits = x :: rest →
        t.link.waits = rest ∧ t.link.sequence = some ⟨x.scope, 0, x.owned, 0, 0⟩ ∧ t.link.wanted = false) ∧
      (s.port.holds .linkReset = false → t.port = s.port) ∧
      (∀ h, s.port.executor = some h → h.job = .linkReset → h.dropped = false → t.port = (s.completed h .done [1]).port)) ∧
  (∀ (s : State) (h : Held) (w : Wires), s.resetPin ≠ .coldHeld → s.port.executor = some h → h.job = .linkReset → h.dropped = true →
    s.link.state = .stuck ∨ (s.link.state = .running ∧ s.link.txn = none) →
    ∃ t, exec (.recoveryAttempt w) s = .next t ∧ t.port = { s.port with executor := none })

/-- R150, R158: the request window dispatches on the winning address. -/
def Obligations.RequestWindowDispatches : Prop :=
  ∀ s : State, s.resetPin ≠ .coldHeld → s.cycleOpen = true → s.link.cycle = .window →
    let ended : Link := { s.link with sent := [], txn := none, cycle := .output }
    exec (.requestWindow none) s = .next (s.withLink ended).finish ∧
    (∀ a : BitVec 6, 1 ≤ a.toNat → a.toNat ≤ 48 →
      exec (.requestWindow (some a)) s = .next (s.withLink { s.link with sent := [], txn := some (.event a.toNat) }).finish) ∧
    (∀ a : BitVec 6, a.toNat = 0 ∨ (49 ≤ a.toNat ∧ a.toNat ≤ 62) → exec (.requestWindow (some a)) s = .next (s.withLink ended).finish) ∧
    (s.link.policy = .accept → exec (.requestWindow (some 63#6)) s = .next (s.withLink { ended with wanted := true }).finish) ∧
    (s.link.policy = .ignore → exec (.requestWindow (some 63#6)) s =
      .next ((s.withLink ended).withRecs (s.recs.raise .link .join)).finish)

/-- R150, R151: an EVENT is answered ASSIGN 0 at a DETACHED position, NAK(CHECK) when it is not valid, NAK(LOCKED) at a LOCKED one, ACK without effect on a repeat, and ACK with its events taken otherwise; the transaction ends and the idle time restarts. A flag byte that is neither 0 nor 1 is read as the free value of flagOf (log 9). -/
def Obligations.EventMessageJudged : Prop :=
  ∀ (s : State) (p : Fin 48) (bytes : List Byte), s.resetPin ≠ .coldHeld → s.link.txn = some (.event (p.val + 1)) → s.link.cycle = .window →
    let ended (pr : Presence) (answer : List Byte) : Link := { s.link with
      sent := [answer], txn := none, cycle := .output, presence := vset s.link.presence p { pr with idle := 0 } }
    ((s.recs.pos p).attached = false →
      exec (.eventMessage bytes) s = .next (s.withLink (ended (s.link.pres p) (checked [2, byte1 (p.val + 1), 0]))).finish) ∧
    ((s.recs.pos p).attached = true → EventMsg.parse (p.val + 1) bytes = none →
      exec (.eventMessage bytes) s = .next (s.withLink (ended (s.link.pres p) (checked [8, byte1 (p.val + 1), 1]))).finish) ∧
    (∀ m, (s.recs.pos p).attached = true → EventMsg.parse (p.val + 1) bytes = some m →
      ((s.recs.pos p).lock = true → exec (.eventMessage bytes) s = .next (s.withLink
        (ended { s.link.pres p with miss := 0, flag := flagOf m.flag } (checked [8, byte1 (p.val + 1), 2]))).finish) ∧
      ((s.recs.pos p).lock = false → flagOf m.flag = (s.link.pres p).flag → exec (.eventMessage bytes) s = .next (s.withLink
        (ended { s.link.pres p with miss := 0 } (checked [7, byte1 (p.val + 1)]))).finish) ∧
      ((s.recs.pos p).lock = false → flagOf m.flag ≠ (s.link.pres p).flag → exec (.eventMessage bytes) s = .next ((s.withLink
        (ended { s.link.pres p with miss := 0, flag := flagOf m.flag } (checked [7, byte1 (p.val + 1)]))).withRecs
          (s.recs.takeEvents p m.events)).finish))

/-- R152, R148, R72, R73: an OUTPUT goes to the first position after the output pointer, wrapping from 47 to 0, that is attached and has a refusal record or a pending channel or lamp; there is none when no such position stands. It takes the items it sends out of the pending state and moves the output pointer; ACK keeps them taken, NAK(CHECK) hands them back without a miss, any other reply, none of them valid (log 39), hands them back and counts a miss. -/
def Obligations.OutputSentAndAnswered : Prop :=
  (∀ (s : State) (p : Fin 48), s.resetPin ≠ .coldHeld → s.cycleOpen = true → s.link.cycle = .output → s.outputTarget = some p →
    exec (.output .sent) s = .next ((s.withLink { s.link with
      outPtr := p, txn := some (.output p (s.recs.buildItems p)), sent := [msgOutput (p.val + 1) (s.recs.buildItems p)] }).withRecs
        (s.recs.takeItems p (s.recs.buildItems p))).finish) ∧
  (∀ (s : State) (p : Fin 48) (items : List OutItem) (bytes : List Byte),
    s.resetPin ≠ .coldHeld → s.link.txn = some (.output p items) → s.link.cycle = .output → (s.recs.pos p).attached = true →
    let ended (miss : Nat) : Link := { s.link with
      txn := none, cycle := .parkOrPoll, presence := vset s.link.presence p { s.link.pres p with miss := miss, idle := 0 } }
    (bytes = checked [7, byte1 (p.val + 1)] → exec (.output (.reply bytes)) s = .next (s.withLink (ended 0)).finish) ∧
    (bytes = checked [8, byte1 (p.val + 1), 1] → exec (.output (.reply bytes)) s =
      .next ((s.withLink (ended 0)).withRecs (s.recs.returnItems p items)).finish) ∧
    (bytes ≠ checked [7, byte1 (p.val + 1)] → bytes ≠ checked [8, byte1 (p.val + 1), 1] → (s.link.pres p).miss < 2 →
      exec (.output (.reply bytes)) s =
        .next ((s.withLink (ended ((s.link.pres p).miss + 1))).withRecs (s.recs.returnItems p items)).finish)) ∧
  (∀ s : State,
    let pending (p : Fin 48) : Prop := (s.recs.pos p).attached = true ∧
      ((s.recs.pos p).refusal ≠ none ∨ (s.recs.pos p).channelPending ≠ [] ∨ (s.recs.pos p).lampPending ≠ [])
    let stepsFromPointer (p : Fin 48) : Nat := (p.val + 47 - s.link.outPtr.val) % 48
    (∀ p, s.outputTarget = some p → pending p ∧ ∀ q, pending q → stepsFromPointer p ≤ stepsFromPointer q) ∧
    (s.outputTarget = none ↔ ∀ p, ¬ pending p))

/-- R149, R153, R156, R148: a PARK goes to the lowest position with park pending and clears it, whatever the reply; a POLL goes to the attached position idle for 500 ms or more and idle longest, a tie to the lowest, and ACK clears the miss count while any other reply, none of them valid (log 39), counts a miss. -/
def Obligations.ParkAndPoll : Prop :=
  (∀ (s : State) (p : Fin 48), s.resetPin ≠ .coldHeld → s.cycleOpen = true → s.link.cycle = .parkOrPoll → s.link.parkTarget = some p →
    exec (.park .sent) s = .next (s.withLink { s.link with
      presence := vset s.link.presence p { s.link.pres p with parkPending := false }
      txn := some (.park p), sent := [checked [3, byte1 (p.val + 1)]] }).finish) ∧
  (∀ (s : State) (p : Fin 48) (bytes : List Byte), s.resetPin ≠ .coldHeld → s.link.txn = some (.park p) → s.link.cycle = .parkOrPoll →
    exec (.park (.reply bytes)) s = .next (s.withLink { s.link with txn := none, cycle := .window }).finish) ∧
  (∀ (s : State) (p : Fin 48), s.resetPin ≠ .coldHeld → s.cycleOpen = true → s.link.cycle = .parkOrPoll → s.link.parkTarget = none →
    s.pollTarget = some p →
    exec (.poll .sent) s = .next (s.withLink { s.link with txn := some (.poll p), sent := [checked [5, byte1 (p.val + 1)]] }).finish) ∧
  (∀ (s : State) (p : Fin 48) (bytes : List Byte), s.resetPin ≠ .coldHeld → s.link.txn = some (.poll p) → s.link.cycle = .parkOrPoll →
    (s.recs.pos p).attached = true →
    let ended (miss : Nat) : Link := { s.link with
      txn := none, cycle := .window, presence := vset s.link.presence p { s.link.pres p with miss := miss, idle := 0 } }
    (bytes = checked [7, byte1 (p.val + 1)] → exec (.poll (.reply bytes)) s = .next (s.withLink (ended 0)).finish) ∧
    (bytes ≠ checked [7, byte1 (p.val + 1)] → (s.link.pres p).miss < 2 →
      exec (.poll (.reply bytes)) s = .next (s.withLink (ended ((s.link.pres p).miss + 1))).finish)) ∧
  (∀ l : Link,
    (∀ p, l.parkTarget = some p → (l.pres p).parkPending = true ∧ ∀ q, q < p → (l.pres q).parkPending = false) ∧
    (l.parkTarget = none ↔ ∀ p, (l.pres p).parkPending = false)) ∧
  (∀ s : State,
    (∀ p q : Fin 48, s.pollTarget = some p →
      (s.recs.pos p).attached = true ∧ 500 ≤ (s.link.pres p).idle ∧ ((s.recs.pos q).attached = true →
        (s.link.pres q).idle ≤ (s.link.pres p).idle ∧ ((s.link.pres q).idle = (s.link.pres p).idle → p ≤ q))) ∧
    (s.pollTarget = none ↔ ∀ p, (s.recs.pos p).attached = true → (s.link.pres p).idle < 500))

/-- R154, R73, R74: the third miss in a row, by a POLL or an OUTPUT that draws no valid reply (log 39) or by its end (log 6), detaches the position, its miss count is 0 and DETACHED is raised; a lost position keeps its lock, volumes and pressed keys, has no other console state and nothing pending. R49: a line RINGING_OUT of which it is a party goes to IDLE, one with no other party to HELD with no hold owner, its recall timer started, desired seized and audio; one with other parties keeps them; the bridge it gives up is no line's; the position's channel is free; lines of which it is no party are as they were. R96: the membership its ptt_channel named takes the floor release, and every membership keeps its channel, role and priority. -/
def Obligations.ThirdMissDetaches : Prop :=
  (∀ (s : State) (p : Fin 48), s.resetPin ≠ .coldHeld → (s.recs.pos p).attached = true → (s.link.pres p).miss = 2 →
    let lost (next : CycleStep) : State := ((s.withRecs ((s.recs.losePosition p).raise (.position p.val) .detached)).withLink { s.link with
      txn := none, cycle := next, presence := vset s.link.presence p { s.link.pres p with miss := 0, idle := 0 } }).finish
    (s.link.cycle = .parkOrPoll → s.link.txn = some (.poll p) →
      exec (.positionDetach p.val) s = .next (lost .window) ∧
      (∀ bytes, bytes ≠ checked [7, byte1 (p.val + 1)] → exec (.poll (.reply bytes)) s = .next (lost .window))) ∧
    (∀ items, s.link.cycle = .output → s.link.txn = some (.output p items) →
      exec (.positionDetach p.val) s = .next (lost .parkOrPoll) ∧
      (∀ bytes, bytes ≠ checked [7, byte1 (p.val + 1)] → bytes ≠ checked [8, byte1 (p.val + 1), 1] →
        exec (.output (.reply bytes)) s = .next (lost .parkOrPoll))) ∧
    (∀ next, Reason.detached ∈ (lost next).recs.reasons (.position p.val))) ∧
  (∀ (r : Records) (p : Fin 48),
    let r' := r.losePosition p
    (r'.pos p).attached = false ∧ (r'.pos p).identity = none ∧ (r'.pos p).ptt = none ∧ (r'.pos p).selected = none ∧
    (r'.pos p).offHook1 = false ∧ (r'.pos p).offHook2 = false ∧ (r'.pos p).refusal = none ∧
    (r'.pos p).lampPending = [] ∧ (r'.pos p).channelPending = [] ∧ (r'.pos p).lock = (r.pos p).lock ∧
    (r'.pos p).volume = (r.pos p).volume ∧ (r'.pos p).pressed = (r.pos p).pressed ∧
    (∀ id l, r'.line? id = some l → l.hasParty p = false) ∧
    (∀ id l, r.line? id = some l → l.hasParty p = false → r'.line? id = some l) ∧
    (∀ id l ch, r.line? id = some l → l.partyChannel p = some ch →
      let others := l.parties.filter (fun x => !(x.pos == p))
      (r.bound p ch = .line id → r'.bound p ch = .none) ∧
      (l.state = .ringingOut → Reason.state ∈ r'.reasons (.line id) ∧ r'.line? id = some
        { l with state := .idle, parties := [], holdOwner := none, bridge := none, desired := Cond.off, timer := none }) ∧
      (l.state ≠ .ringingOut → l.parties.length ≤ 1 → (l.state = .connected → Reason.state ∈ r'.reasons (.line id)) ∧ r'.line? id = some
        { l with
          state := .held, parties := [], holdOwner := none, bridge := none, desired := Cond.call
          timer := if l.holdRecall = 0 then none else some ⟨.recallWait, l.holdRecall * 1000⟩ }) ∧
      (l.state ≠ .ringingOut → 1 < l.parties.length → r'.line? id = some
        { l with parties := others, bridge := if others.length < 2 then none else l.bridge }) ∧
      (∀ b j, l.bridge = some b → l.state = .ringingOut ∨ others.length < 2 → Table.find r'.bridges b ≠ some (.line j))) ∧
    (∀ m x, r.member? m = some x → ∃ y, r'.member? m = some y ∧ y = { x with floor := y.floor, talkTimer := y.talkTimer }) ∧
    (∀ q n m, r.bound q (.spk n) = .member m → r'.bound q (.spk n) = .member m) ∧
    (∀ n m x g, (r.pos p).ptt = some n → vget (r.pos p).speaker n = .member m → r.member? m = some x → r.group? x.group = some g →
      let kept := g.talkers.filter (fun i => !(i == m))
      (x.floor = .talking → g.bridge ≠ none → (∀ k y, r.group? k = some y → m ∉ y.waiting) →
        r'.member? m = some { x with floor := .idle, talkTimer := none } ∧ Reason.floor ∈ r'.reasons (.group x.group) ∧
        ∃ y, r'.group? x.group = some y ∧ y.talkers = kept ++ g.waiting.take (g.talkerLimit - kept.length) ∧
          y.waiting = g.waiting.drop (g.talkerLimit - kept.length)) ∧
      (x.floor = .waiting → (∀ k y, k ≠ x.group → r.group? k = some y → m ∉ y.waiting) →
        r'.member? m = some { x with floor := .idle, talkTimer := none } ∧
        ∃ y, r'.group? x.group = some y ∧ y.talkers ++ y.waiting = g.talkers ++ g.waiting.filter (fun i => !(i == m)) ∧
          (g.talkerLimit ≤ g.talkers.length → y.talkers = g.talkers))))

/-- R160, R161, R75: a round adds 1 to the round count; a wrong check byte ends it; a winner without an entry is parked and PARKED raised; a winner admitted to a position is sent ASSIGN, and its ACK attaches the position, marks its whole face and raises ATTACHED; without one it stays unattached. R154: a winner whose position is ATTACHED or LOCKED loses the old attachment in the same step, with or without the ACK: DETACHED is raised, the miss count is 0, and lines and floor are treated as at any loss (Obligations.ThirdMissDetaches says how). A round reaches the block whole, its reply included (log 27). -/
def Obligations.RollCallRoundAssignsOrParks : Prop :=
  ∀ (s : State) (x : Sequence) (i : Identity) (check : Byte) (reply : List Byte),
    s.resetPin ≠ .coldHeld → s.link.sequence = some x → s.roundOpen x = true →
    (check ≠ crc8 (identityBytes i) → exec (.rollCallRound i check reply) s = .next (s.withLink { s.link with
      sent := [msgRollCall x.roundScope], sequence := some { x with rounds := x.rounds + 1 } }).finish) ∧
    (check = crc8 (identityBytes i) → s.link.admittedTo i = none → exec (.rollCallRound i check reply) s =
      .next ((s.withLink { s.link.addParked i with
        sent := [msgRollCall x.roundScope, msgPark 63]
        sequence := some { x with rounds := x.rounds + 1, parked := x.parked + 1 } }).withRecs (s.recs.raise .link .parked)).finish) ∧
    (∀ p, check = crc8 (identityBytes i) → s.link.admittedTo i = some p → (s.recs.pos p).attached = false → reply ≠ msgAck (p.val + 1) →
      exec (.rollCallRound i check reply) s = .next (s.withLink { s.link with
        sent := [msgRollCall x.roundScope, msgAssign 63 (p.val + 1)], sequence := some { x with rounds := x.rounds + 1 } }).finish) ∧
    (∀ p, check = crc8 (identityBytes i) → s.link.admittedTo i = some p → (s.recs.pos p).attached = false → reply = msgAck (p.val + 1) →
      exec (.rollCallRound i check reply) s = .next ((s.withLink { s.link with
        sent := [msgRollCall x.roundScope, msgAssign 63 (p.val + 1)]
        sequence := some { x with rounds := x.rounds + 1, attached := x.attached + 1 }
        presence := vset s.link.presence p { s.link.pres p with miss := 0, idle := 0, flag := true }
        parked := s.link.parked.filter (fun k => !(k == i)) }).withRecs
          ((s.recs.modPos p (fun y => { y with
            attached := true, identity := some i, lampPending := List.range 96, channelPending := List.range 8 })).raise
              (.position p.val) .attached)).finish) ∧
    (∀ p, check = crc8 (identityBytes i) → s.link.admittedTo i = some p → (s.recs.pos p).attached = true →
      let lost : Records := (s.recs.losePosition p).raise (.position p.val) .detached
      (reply ≠ msgAck (p.val + 1) →
        exec (.rollCallRound i check reply) s = .next ((s.withLink { s.link with
          sent := [msgRollCall x.roundScope, msgAssign 63 (p.val + 1)], sequence := some { x with rounds := x.rounds + 1 }
          presence := vset s.link.presence p { s.link.pres p with miss := 0 } }).withRecs lost).finish) ∧
      (reply = msgAck (p.val + 1) →
        exec (.rollCallRound i check reply) s = .next ((s.withLink { s.link with
          sent := [msgRollCall x.roundScope, msgAssign 63 (p.val + 1)]
          sequence := some { x with rounds := x.rounds + 1, attached := x.attached + 1 }
          presence := vset s.link.presence p { s.link.pres p with miss := 0, idle := 0, flag := true }
          parked := s.link.parked.filter (fun k => !(k == i)) }).withRecs
            ((lost.modPos p (fun y => { y with
              attached := true, identity := some i, lampPending := List.range 96, channelPending := List.range 8 })).raise
                (.position p.val) .attached)).finish))

/-- R159, R160, R162, R202: SEQUENCE_BEGIN begins the wanted sequence of scope NEW or that of the ROLL-CALL that waits; silence, or the cap of 64 rounds, ends one; the first to end ends the consoles stage; the ROLL-CALL that owns it completes with the consoles attached and parked and the rounds. -/
def Obligations.SequenceBeginsAndEnds : Prop :=
  (∀ s : State, s.resetPin ≠ .coldHeld → s.link.state = .running → s.link.txn = none → s.link.sequence = none →
    (s.link.waits = [] → s.link.wanted = true → exec .sequenceBegin s = .next (s.withLink { s.link with
      sequence := some ⟨.new, 0, false, 0, 0⟩, wanted := false, cycle := .window }).finish) ∧
    (∀ w rest, s.link.waits = w :: rest → exec .sequenceBegin s = .next (s.withLink { s.link with
      waits := rest, sequence := some ⟨w.scope, 0, w.owned, 0, 0⟩, wanted := false, cycle := .window }).finish)) ∧
  (∀ (s : State) (x : Sequence), s.resetPin ≠ .coldHeld → s.link.sequence = some x → s.link.waits = [] → s.link.wanted = false →
    (x.owned = false → s.roundOpen x = true → exec .rollCallSilence s = .next ({ s with
      part := if s.part = PartState.startingConsoles then .running else s.part
      link := { s.link with sent := [msgRollCall x.roundScope], sequence := none, cycle := .window } }).finish) ∧
    (x.owned = false → s.link.state = .running → x.rounds = 64 → exec .roundCap s = .next ({ s with
      part := if s.part = PartState.startingConsoles then .running else s.part
      link := { s.link with sequence := none, cycle := .window } }).finish) ∧
    (∀ h, x.owned = true → s.roundOpen x = true → s.port.executor = some h → h.job = .rollCall → h.dropped = false → s.part = .running →
      exec .rollCallSilence s = .next ((s.completed h .done [byte1 x.attached, byte1 x.parked, byte1 (x.rounds + 1)]).withLink
        { s.link with sent := [msgRollCall x.roundScope], sequence := none, cycle := .window }).finish) ∧
    (∀ h, x.owned = true → s.link.state = .running → x.rounds = 64 → s.port.executor = some h → h.job = .rollCall → h.dropped = false →
      s.part = .running →
      exec .roundCap s = .next ((s.completed h .done [byte1 x.attached, byte1 x.parked, 64]).withLink
        { s.link with sequence := none, cycle := .window }).finish))

/-- R163: a link found stuck: STUCK is raised, the transaction in progress is abandoned with an OUTPUT's items handed back and no miss counted, a sequence in progress ends and leaves sequence wanted true, and the first attempt is made: with a wire still low the next one is 100 ms away; with both high the link is RUNNING again, RECOVERED is raised, the idle times restart and a wanted sequence begins. A ROLL-CALL whose sequence it was, or one waiting, completes with BUS_FAULT; the body 0, 0, 0 of one whose own sequence never began is the reading of log 14, and that one waiting for a transaction, not for a sequence, is treated so, with sequence wanted as it was, is the model's choice (logs 24, 43). That sequences which wait for no request, left by a warm restart, are dropped too is the reading of log 16. -/
def Obligations.LinkStuckAbandons : Prop :=
  ∀ (s : State) (w : Wires), s.resetPin ≠ .coldHeld → s.link.state = .running →
    ∃ t, exec (.linkStuck w) s = .next t ∧ Reason.stuck ∈ t.recs.reasons .link ∧ t.link.txn = none ∧ t.link.waits = [] ∧
      (w.clk = false ∨ w.dat = false → t.link.state = .stuck ∧ t.link.sequence = none ∧ t.link.recoveryWait = 100 ∧
        t.link.presence = s.link.presence ∧ (s.link.sequence ≠ none → t.link.wanted = true) ∧
        (s.link.sequence = none → t.link.wanted = s.link.wanted) ∧
        (∀ p items, s.link.txn = some (.output p items) → t.recs = ((s.recs.returnItems p items).raise .link .stuck).settle) ∧
        ((∀ p items, s.link.txn ≠ some (.output p items)) → t.recs = (s.recs.raise .link .stuck).settle)) ∧
      (w.clk = true → w.dat = true → t.link.state = .running ∧ t.link.wanted = false ∧
        t.link.sequence = (if s.link.wanted = true ∨ s.link.sequence ≠ none then some ⟨.new, 0, false, 0, 0⟩ else none) ∧
        (∀ p, t.link.pres p = { s.link.pres p with idle := 0 }) ∧
        (∀ p items, s.link.txn = some (.output p items) →
          t.recs = (((s.recs.returnItems p items).raise .link .stuck).raise .link .recovered).settle) ∧
        ((∀ p items, s.link.txn ≠ some (.output p items)) → t.recs = ((s.recs.raise .link .stuck).raise .link .recovered).settle)) ∧
      (∀ x h, s.link.sequence = some x → x.owned = true → s.port.executor = some h → h.job = .rollCall → h.dropped = false →
        t.port = (s.completed h .busFault [byte1 x.attached, byte1 x.parked, byte1 x.rounds]).port) ∧
      (∀ h, s.link.sequence.all (fun x => !x.owned) = true → s.link.waits.any (fun x => x.owned) = true → s.port.executor = some h →
        h.job = .rollCall → h.dropped = false → t.port = (s.completed h .busFault [0, 0, 0]).port)

/-! ### Windows, line bus, pools, attention -/

/-- R169, R170: a SET-WINDOW that passes its checks gives the window its fields with the effects on cards and lines, and is refused IN_USE while a line of its ranges is not at rest; one that leaves every field as it was answers DONE and changes nothing, whatever the window's lines do (the order of that test and check 3 is read by log 34). -/
def Obligations.SetWindowTakesFields : Prop :=
  ∀ (s : State) (q : Request) (rest : List Request) (b en b1 b0 z1 z0 c f m : Byte) (w : Fin 16) (new : Window),
    Takes s 40 q rest → q.body = [b, en, b1, b0, z1, z0, c, f, m] → b.toNat = w.val →
    WindowFields.judge ⟨en.toNat, num2 b1 b0, num2 z1 z0, c.toNat, f.toNat, m.toNat⟩ = some new →
    (new = vget s.recs.windows w → exec .setWindow s = .next (s.answered q rest .done []).finish) ∧
    (new ≠ vget s.recs.windows w →
      ((∃ e ∈ s.recs.lines, inRanges (vget s.recs.windows w) new e.2.port = true ∧ e.2.atRest = false) →
        exec .setWindow s = .next (s.answered q rest .inUse []).finish) ∧
      ((∀ e ∈ s.recs.lines, inRanges (vget s.recs.windows w) new e.2.port = true → e.2.atRest = true) →
        exec .setWindow s = .next ((s.answered q rest .done []).withRecs (s.recs.applyWindow w new)).finish ∧
        vget (s.recs.applyWindow w new).windows w = new ∧
        (∀ k, s.recs.named k = true → (s.recs.applyWindow w new).named k = false → (s.recs.applyWindow w new).card k = ⟨false, 0, false⟩) ∧
        (∀ k, s.recs.named k = false → (s.recs.applyWindow w new).named k = true → (s.recs.applyWindow w new).card k = ⟨false, 0, true⟩)))

/-- R173, R175, R178, R180, R181: with the bus free, each client that is granted has its command issued: FETCH to the first PRESENT card after the fetch pointer, wrapping from 31 to 0, the line command chosen from the conditions, the PASS command as carried, PROBE to the lowest card that is probe due; the pass guard counts the grants to others while PASS waits, the line guard the REPORT grants while LINE waits; and which client is granted: PASS at 8 on its guard, then LINE at 4 on its own, then the first in order that wants the bus. The response limit is that of the window (R172); the limit of a PASS to a card that an enabled window names is the model's choice, that window's limit (log 41). -/
def Obligations.BusGrantIssuesCommand : Prop :=
  ∀ (s : State) (lbReq : Bool), s.resetPin ≠ .coldHeld → s.part ≠ .startingImage → s.recs.inFlight = none →
    let guard := if s.bus.passSlot ≠ none then s.bus.passGuard + 1 else s.bus.passGuard
    (∀ c, s.grantee lbReq = some .report → s.fetchTarget = some c → exec (.busGrant lbReq) s = .next ({ s with
      recs := { s.recs with
        inFlight := some ⟨.fetch, c, 0, s.recs.cardLimit c, s.recs.cardLimit c⟩
        lineGuard := if s.recs.workList ≠ [] then s.recs.lineGuard + 1 else s.recs.lineGuard }
      bus := { s.bus with fetchPtr := c, passGuard := guard, sent := checked [byte1 c.val, 0, 9, 0] } } : State).finish) ∧
    (∀ id l c ch cmd rest, s.grantee lbReq = some .line → s.recs.workList = id :: rest → s.recs.line? id = some l →
      s.recs.place l.port = some (c, ch) → chooseCommand l.desired l.acknowledged = some cmd → exec (.busGrant lbReq) s = .next ({ s with
        recs := { s.recs with
          inFlight := some ⟨.line id cmd, c, ch, s.recs.portLimit l.port, s.recs.portLimit l.port⟩
          lineGuard := 0 }
        bus := { s.bus with passGuard := guard, sent := checked [byte1 c.val, byte1 ch, byte1 cmd.code, byte1 (cmd.arg l)] } } : State).finish) ∧
    (∀ x, s.grantee lbReq = some .pass → s.bus.passSlot = some x → exec (.busGrant lbReq) s = .next ({ s with
      recs := { s.recs with inFlight := some ⟨.pass, x.card, x.channel, s.recs.cardLimit x.card, s.recs.cardLimit x.card⟩ }
      bus := { s.bus with sent := checked [byte1 x.card.val, byte1 x.channel, byte1 x.code, byte1 x.arg] } } : State).finish) ∧
    (∀ c, s.grantee lbReq = some .probe → s.recs.dueCard = some c → exec (.busGrant lbReq) s = .next ({ s with
      recs := { s.recs.modCard c (fun x => { x with probeDue := false }) with
        inFlight := some ⟨.probe, c, 0, s.recs.cardLimit c, s.recs.cardLimit c⟩ }
      bus := { s.bus with passGuard := guard, sent := checked [byte1 c.val, 0, 7, 0] } } : State).finish) ∧
    let passFirst := s.bus.passSlot ≠ none ∧ 8 ≤ s.bus.passGuard
    let lineFirst := s.recs.workList ≠ [] ∧ 4 ≤ s.recs.lineGuard
    let report := lbReq = true ∧ ∃ c, (s.recs.card c).present = true
    (passFirst → s.grantee lbReq = some .pass) ∧
    (¬ passFirst → lineFirst → s.grantee lbReq = some .line) ∧
    (¬ passFirst → ¬ lineFirst → report → s.grantee lbReq = some .report) ∧
    (¬ passFirst → ¬ report → s.recs.workList ≠ [] → s.grantee lbReq = some .line) ∧
    (¬ report → s.recs.workList = [] → s.bus.passSlot ≠ none → s.grantee lbReq = some .pass) ∧
    (¬ report → s.recs.workList = [] → s.bus.passSlot = none → (∃ c, (s.recs.card c).probeDue = true) → s.grantee lbReq = some .probe) ∧
    (¬ report → s.recs.workList = [] → s.bus.passSlot = none → (∀ c, (s.recs.card c).probeDue = false) → s.grantee lbReq = none) ∧
    let stepsFromPointer (c : Fin 32) : Nat := (c.val + 31 - s.bus.fetchPtr.val) % 32
    (∀ c, s.fetchTarget = some c → (s.recs.card c).present = true ∧
      ∀ d, (s.recs.card d).present = true → stepsFromPointer c ≤ stepsFromPointer d) ∧
    (s.fetchTarget = none ↔ ∀ c, (s.recs.card c).present = false) ∧
    (∀ c, s.recs.dueCard = some c → (s.recs.card c).probeDue = true ∧ ∀ d, d < c → (s.recs.card d).probeDue = false) ∧
    (s.recs.dueCard = none ↔ ∀ c, (s.recs.card c).probeDue = false)

/-- R176, R172, R171: the outcomes of the six line commands on a line still of the card channel: ACCEPTED, and REJECTED for a teardown step, give the acknowledged field its value; REJECTED for a setup step is a port fault; an ACCEPTED SEIZE of a line that has left is followed by RELEASE on the same grant. -/
def Obligations.LineCommandOutcomes : Prop :=
  ∀ (s : State) (f : InFlight) (id : Nat) (cmd : LineCmd) (v1 v2 : Byte), s.resetPin ≠ .coldHeld → s.recs.inFlight = some f →
    f.job = .line id cmd →
    let command (bytes : List Byte) : Instr := match cmd with
      | .seize => .seize bytes
      | .release => .release bytes
      | .ringOn => .ringOn bytes
      | .ringOff => .ringOff bytes
      | .connect => .connect bytes
      | .disconnect => .disconnect bytes
    let accepted := checked [byte1 f.card.val, 1, v1, v2]
    let rejected := checked [byte1 f.card.val, 2, v1, v2]
    let r := (s.recs.responded f.card).requeue id
    (s.recs.lineOfChannel id f.card f.channel = true →
      exec (command accepted) s =
        .next (s.withRecs (r.modLine id (fun l => { l with acknowledged := l.acknowledged.acknowledge cmd }))).finish ∧
      (cmd = .release ∨ cmd = .ringOff ∨ cmd = .disconnect → exec (command rejected) s =
        .next (s.withRecs (r.modLine id (fun l => { l with acknowledged := l.acknowledged.acknowledge cmd }))).finish) ∧
      (cmd = .seize ∨ cmd = .connect ∨ cmd = .ringOn → exec (command rejected) s = .next (s.withRecs (r.portFault id)).finish)) ∧
    (s.recs.lineOfChannel id f.card f.channel = false →
      (cmd = .seize → exec (command accepted) s = .next ({ s with
        recs := { s.recs.responded f.card with inFlight := some ⟨.cleanup, f.card, f.channel, f.limit, f.limit⟩ }
        bus := { s.bus with sent := checked [byte1 f.card.val, byte1 f.channel, 2, 0] } }).finish) ∧
      (cmd ≠ .seize → exec (command accepted) s = .next (s.withRecs (s.recs.responded f.card)).finish) ∧
      exec (command rejected) s = .next (s.withRecs (s.recs.responded f.card)).finish)

/-- R178, R179, R171: the outcome of a FETCH: EMPTY changes only the miss count; a report of kind 1 to 6 is delivered to the line of the channel, or discarded when there is none, as is a report of any other kind but 7, and a CARD_RESET of a card that is not PRESENT; CARD_RESET resets the card's lines. What a delivered report does (R32, R34, R35, R44, R45, R46), and what a reset does (R48, R179): RESET is raised; RINGDOWN and SIGNALLED lines of the card go to IDLE with their slots freed; a CIRCUIT member that holds a slot keeps it and is CONNECTED; one without a slot takes one, or is a member without a path with NO_PATH raised; acknowledged is all false on each, and missed keeps its value. The discard of a CARD_RESET of a card no longer PRESENT is the reading of log 25, and that an OPEN line which is no group's member goes to IDLE at a reset is that of log 36. -/
def Obligations.FetchDelivers : Prop :=
  (∀ (s : State) (f : InFlight) (v1 v2 : Byte), s.resetPin ≠ .coldHeld → s.recs.inFlight = some f → f.job = .fetch →
    let r := s.recs.responded f.card
    exec (.fetch (checked [byte1 f.card.val, 4, v1, v2])) s = .next (s.withRecs r).finish ∧
    (∀ k id, Report.ofNat? v1.toNat = some k → v2.toNat ≤ 31 → r.lineAt f.card v2.toNat = some id →
      exec (.fetch (checked [byte1 f.card.val, 3, v1, v2])) s = .next (s.withRecs (r.report k id)).finish) ∧
    (∀ k, Report.ofNat? v1.toNat = some k → 31 < v2.toNat ∨ r.lineAt f.card v2.toNat = none →
      exec (.fetch (checked [byte1 f.card.val, 3, v1, v2])) s = .next (s.withRecs r).finish) ∧
    (v1 = 7 → (s.recs.card f.card).present = true →
      exec (.fetch (checked [byte1 f.card.val, 3, v1, v2])) s = .next (s.withRecs (r.resetCard f.card)).finish) ∧
    (v1 = 7 → (s.recs.card f.card).present = false →
      exec (.fetch (checked [byte1 f.card.val, 3, v1, v2])) s = .next (s.withRecs r).finish) ∧
    (v1.toNat = 0 ∨ 7 < v1.toNat → exec (.fetch (checked [byte1 f.card.val, 3, v1, v2])) s = .next (s.withRecs r).finish)) ∧
  (∀ (r : Records) (id : Nat) (l : Line), r.line? id = some l →
    let cleared (st : LineState) : Line :=
      { l with state := st, parties := [], holdOwner := none, bridge := none, desired := Cond.off, timer := none }
    let calling : Prop := l.state = .ringingOut ∨ l.state = .connected ∨ l.state = .held ∨ l.state = .recall
    (l.type ≠ .openLine → l.state = .idle → l.lifecycle = .defined →
      (r.report .ringInStart id).line? id = some { l with
        state := .ringingIn, holdOwner := none, desired := Cond.off
        timer := if l.ringTimeout = 0 then none else some ⟨.ring, l.ringTimeout * 1000⟩ } ∧
      Reason.state ∈ (r.report .ringInStart id).reasons (.line id)) ∧
    (l.type = .openLine ∨ l.state ≠ .idle ∨ l.lifecycle ≠ .defined → r.report .ringInStart id = r) ∧
    (l.type = .ringdown → l.state = .ringingIn → (r.report .ringInStop id).line? id = some { cleared .idle with missed := true } ∧
      Reason.missed ∈ (r.report .ringInStop id).reasons (.line id) ∧ Reason.state ∈ (r.report .ringInStop id).reasons (.line id)) ∧
    (l.type ≠ .ringdown ∨ l.state ≠ .ringingIn → r.report .ringInStop id = r) ∧
    (l.type = .ringdown → l.state = .ringingOut →
      (r.report .farAnswer id).line? id = some { l with state := .connected, holdOwner := none, desired := Cond.call, timer := none } ∧
      Reason.state ∈ (r.report .farAnswer id).reasons (.line id)) ∧
    (l.type ≠ .ringdown ∨ l.state ≠ .ringingOut → r.report .farAnswer id = r) ∧
    (l.type = .ringdown → calling → (r.report .farClear id).line? id = some (cleared .idle) ∧
      Reason.state ∈ (r.report .farClear id).reasons (.line id) ∧
      ∀ x ∈ l.parties, r.bound x.pos x.ch = .line id → (r.report .farClear id).bound x.pos x.ch = .none) ∧
    (l.type ≠ .ringdown ∨ ¬ calling → r.report .farClear id = r) ∧
    ((r.report .portFault id).line? id = some (cleared (.outOfService .portFault)) ∧
      Reason.fault ∈ (r.report .portFault id).reasons (.line id) ∧
      (l.state.isOos = false → Reason.state ∈ (r.report .portFault id).reasons (.line id)) ∧
      ∀ x ∈ l.parties, r.bound x.pos x.ch = .line id → (r.report .portFault id).bound x.pos x.ch = .none) ∧
    (l.state = .outOfService .portFault → l.type ≠ .openLine ∨ r.circuitOf id = none →
      (r.report .portRestored id).line? id = some { l with state := .idle, holdOwner := none, desired := Cond.off, timer := none }) ∧
    (l.state = .outOfService .portFault → l.type = .openLine → r.circuitOf id ≠ none →
      (∀ k, l.slot = some k ∨ (l.slot = none ∧ r.lowestSlot = some k) → (r.report .portRestored id).line? id = some { l with
        state := .connected, holdOwner := none, slot := some k, desired := Cond.call, timer := none }) ∧
      (l.slot = none → r.lowestSlot = none →
        (r.report .portRestored id).line? id = some { l with state := .idle, holdOwner := none, desired := Cond.off, timer := none } ∧
        Reason.noPath ∈ (r.report .portRestored id).reasons .pool)) ∧
    (l.state ≠ .outOfService .portFault → r.report .portRestored id = r) ∧
    (∀ k j, j ≠ id → (r.report k id).line? j = r.line? j)) ∧
  (∀ (c : Fin 32) (r : Records), r.inFlight = none →
    (∀ k, (r.resetCard c).card k = r.card k) ∧ Reason.reset ∈ (r.resetCard c).reasons (.card c.val) ∧
    (∀ id l, r.line? id = some l → (r.place l.port).map (·.1) = some c →
      (l.type ≠ .openLine ∨ r.circuitOf id = none →
        (l.state ≠ .idle → (r.resetCard c).line? id = some { l with
          state := .idle, parties := [], holdOwner := none, bridge := none, slot := none, desired := Cond.off, acknowledged := Cond.off
          timer := none }) ∧
        (l.state = .idle → l.desired = Cond.off → (r.resetCard c).line? id = some { l with slot := none, acknowledged := Cond.off })) ∧
      (l.type = .openLine → r.circuitOf id ≠ none →
        (∀ k, l.slot = some k → (r.resetCard c).line? id = some { l with
          state := .connected, holdOwner := none, desired := Cond.call, acknowledged := Cond.off, timer := none }) ∧
        (l.slot = none → ∃ x, (r.resetCard c).line? id = some x ∧ x.acknowledged = Cond.off ∧ x.parties = l.parties ∧
          ((x.state = .connected ∧ x.desired = Cond.call ∧ x.slot ≠ none) ∨
            (x.state = .idle ∧ x.desired = Cond.off ∧ x.slot = none ∧ Reason.noPath ∈ (r.resetCard c).reasons .pool))))) ∧
    (∀ id l, r.line? id = some l → id ∉ r.linesOfCard c → l.type ≠ .openLine ∨ r.circuitOf id = none → r.slotDue id = false →
      (r.resetCard c).line? id = some l))

/-- R180, R202, R172: an ACCEPTED PROBE of a named card keeps the bus for CARD_CLEAR, its limit that of the windows as they stand then; an ACCEPTED CARD_CLEAR returns the card: PRESENT, no misses, PRESENT raised, its NO_CARD lines back in service; a REJECTED one leaves it ABSENT, and so does an ACCEPTED one of a card no longer named; the probe tick makes every named ABSENT card due and starts the timer again. In the cards stage each probe served takes its card off the stage's list, and the last one ends the stage with the console link's recovery attempt. R180 has one sentence on a card no longer named; that an ACCEPTED PROBE of it sends no CARD_CLEAR, that an ACCEPTED CARD_CLEAR of it leaves it ABSENT, and that its turn in the cards stage is served by either, is the reading of log 23. -/
def Obligations.ProbesBringCardsBack : Prop :=
  (∀ (s : State) (f : InFlight) (v1 v2 : Byte) (w : Wires), s.resetPin ≠ .coldHeld → s.recs.inFlight = some f →
    let r := s.recs.responded f.card
    let accepted := checked [byte1 f.card.val, 1, v1, v2]
    let rejected := checked [byte1 f.card.val, 2, v1, v2]
    (f.job = .probe → s.recs.named f.card = true → exec (.probe accepted w) s = .next ({ s with
      recs := { r with inFlight := some ⟨.cardClear, f.card, 0, s.recs.cardLimit f.card, s.recs.cardLimit f.card⟩ }
      bus := { s.bus with sent := checked [byte1 f.card.val, 0, 8, 0] } }).finish) ∧
    (s.part ≠ .startingCards → s.bus.stageCards = [] →
      (f.job = .probe → exec (.probe rejected w) s = .next (s.withRecs r).finish) ∧
      (f.job = .probe → s.recs.named f.card = false → exec (.probe accepted w) s = .next (s.withRecs r).finish) ∧
      (f.job = .cardClear → s.recs.named f.card = true → exec (.cardClear accepted w) s = .next (s.withRecs (r.returnCard f.card)).finish) ∧
      (f.job = .cardClear → s.recs.named f.card = false → exec (.cardClear accepted w) s = .next (s.withRecs r).finish) ∧
      (f.job = .cardClear → exec (.cardClear rejected w) s = .next (s.withRecs r).finish)) ∧
    (s.part = .startingCards →
      let left := s.bus.stageCards.filter (fun i => !(i == f.card.val))
      let served (command : Instr) : Prop := ∃ t, exec command s = .next t ∧ t.bus.stageCards = left ∧
        (left ≠ [] → t.part = .startingCards ∧ t.link.state = s.link.state ∧ t.link.sequence = s.link.sequence) ∧
        (left = [] → w.clk = true → w.dat = true → t.part = .startingConsoles ∧ t.link.state = .running ∧
          t.link.sequence = some ⟨.all, 0, false, 0, 0⟩ ∧ t.link.wanted = false) ∧
        (left = [] → w.clk = false ∨ w.dat = false → t.part = .running ∧ t.link.state = .stuck ∧ t.link.wanted = true ∧
          t.link.recoveryWait = 100 ∧ Reason.stuck ∈ t.recs.reasons .link)
      (f.job = .probe → served (.probe rejected w) ∧ served (.responseTimeout w) ∧ (s.recs.named f.card = false → served (.probe accepted w))) ∧
      (f.job = .cardClear → served (.cardClear accepted w) ∧ served (.cardClear rejected w) ∧ served (.responseTimeout w))) ∧
    (f.job = .cardClear → s.recs.named f.card = true → ∃ t, exec (.cardClear accepted w) s = .next t ∧ (t.recs.card f.card).present = true)) ∧
  (∀ (s : State) (ms : Nat), s.resetPin ≠ .coldHeld → s.bus.probeTimer = some ms → ∃ t, exec .probeTick s = .next t ∧
    t.bus.probeTimer = some 1000 ∧
    ∀ c, (t.recs.card c).present = (s.recs.card c).present ∧ (t.recs.card c).miss = (s.recs.card c).miss ∧
      (t.recs.card c).probeDue = ((s.recs.card c).probeDue || (s.recs.named c && !(s.recs.card c).present))) ∧
  (∀ (c : Fin 32) (r : Records),
    (∀ k, (r.returnCard c).card k = if k = c then { r.card c with present := true, miss := 0 } else r.card k) ∧
    Reason.present ∈ (r.returnCard c).reasons (.card c.val) ∧
    (∀ id l, r.line? id = some l → (r.place l.port).map (·.1) = some c → l.state = .outOfService .noCard →
      (l.type ≠ .openLine ∨ r.circuitOf id = none →
        (r.returnCard c).line? id = some { l with state := .idle, holdOwner := none, desired := Cond.off, timer := none }) ∧
      (l.type = .openLine → r.circuitOf id ≠ none → ∃ x, (r.returnCard c).line? id = some x ∧
        x = { l with state := x.state, slot := x.slot, desired := x.desired, timer := x.timer, holdOwner := x.holdOwner } ∧
        ((x.state = .connected ∧ x.desired = Cond.call ∧ x.slot ≠ none) ∨
          (x.state = .idle ∧ x.desired = Cond.off ∧ x.slot = none ∧ Reason.noPath ∈ (r.returnCard c).reasons .pool)))) ∧
    (∀ id l, r.line? id = some l → l.state ≠ .outOfService .noCard ∨ id ∉ r.linesOfCard c → (r.returnCard c).line? id = some l))

/-- R181: PASS holds the executor with its command in the slot; the outcome empties the slot and completes the request. -/
def Obligations.PassHoldsAndCompletes : Prop :=
  (∀ (s : State) (q : Request) (rest : List Request) (c : Fin 32) (b ch code arg : Byte),
    Takes s 43 q rest → q.body = [b, ch, code, arg] → b.toNat = c.val → ch.toNat ≤ 31 → code.toNat = 7 ∨ 16 ≤ code.toNat →
    exec .pass s = .next { s.holding q rest .pass with
      bus := { s.bus with passSlot := some ⟨c, ch.toNat, code.toNat, arg.toNat⟩, passGuard := 0 } }) ∧
  (∀ (s : State) (f : InFlight) (h : Held) (v1 v2 : Byte), s.resetPin ≠ .coldHeld → s.recs.inFlight = some f → f.job = .pass →
    s.port.executor = some h → h.job = .pass → h.dropped = false →
    exec (.passCommand (checked [byte1 f.card.val, 1, v1, v2])) s =
      .next { (s.completed h .done [v1, v2]).withRecs (s.recs.responded f.card) with bus := { s.bus with passSlot := none } }.finish ∧
    exec (.passCommand (checked [byte1 f.card.val, 2, v1, v2])) s =
      .next { (s.completed h .rejected []).withRecs (s.recs.responded f.card) with bus := { s.bus with passSlot := none } }.finish)

/-- R171, R172, R177, R176, R180, R181: no response by the limit ends the command in flight, what remained of the limit having passed (log 3): a PRESENT card counts a miss, and the third loses it: ABSENT, miss count 0, ABSENT raised, its lines OUT_OF_SERVICE with acknowledged all false; an ABSENT card counts none. A line command, the cleanup RELEASE and a FETCH change nothing else, and no more does a PROBE or a CARD_CLEAR outside the cards stage; a PASS empties the slot, and its request completes with BUS_FAULT. -/
def Obligations.NoResponseCountsMiss : Prop :=
  ∀ (s : State) (f : InFlight) (w : Wires), s.resetPin ≠ .coldHeld → s.recs.inFlight = some f →
    let r : Records := { (s.advance f.left).recs with inFlight := none }
    (f.job = .fetch ∨ f.job = .cleanup ∨ (∃ id cmd, f.job = .line id cmd) ∨
        ((f.job = .probe ∨ f.job = .cardClear) ∧ s.part ≠ .startingCards ∧ s.bus.stageCards = []) →
      ((s.recs.card f.card).present = true → (s.recs.card f.card).miss < 2 → exec (.responseTimeout w) s =
        .next ((s.advance f.left).withRecs (r.modCard f.card (fun x => { x with miss := x.miss + 1 }))).finish) ∧
      ((s.recs.card f.card).present = true → (s.recs.card f.card).miss = 2 →
        exec (.responseTimeout w) s = .next ((s.advance f.left).withRecs (r.loseCard f.card)).finish ∧
        exec (.cardLoss f.card.val) s = .next ((s.advance f.left).withRecs (r.loseCard f.card)).finish) ∧
      ((s.recs.card f.card).present = false → exec (.responseTimeout w) s = .next ((s.advance f.left).withRecs r).finish)) ∧
    (f.job = .pass →
      ∃ t, exec (.responseTimeout w) s = .next t ∧ t.bus.passSlot = none ∧
        (∀ h, s.port.executor = some h → h.job = .pass → h.dropped = false → t.port = (s.completed h .busFault []).port) ∧
        (∀ h, s.port.executor = some h → h.job = .pass → h.dropped = true → t.port = { s.port with executor := none }) ∧
        ((s.recs.card f.card).present = true → (s.recs.card f.card).miss < 2 →
          t.recs = (r.modCard f.card (fun x => { x with miss := x.miss + 1 })).settle) ∧
        ((s.recs.card f.card).present = true → (s.recs.card f.card).miss = 2 → t.recs = (r.loseCard f.card).settle) ∧
        ((s.recs.card f.card).present = false → t.recs = r.settle)) ∧
    (r.loseCard f.card).card f.card = { r.card f.card with present := false, miss := 0 } ∧
    (∀ c, c ≠ f.card → (r.loseCard f.card).card c = r.card c) ∧ (r.loseCard f.card).inFlight = none ∧
    (Reason.absent ∈ (r.loseCard f.card).reasons (.card f.card.val)) ∧
    (∀ id l0 ch, r.line? id = some l0 → r.place l0.port = some (f.card, ch) → ∃ l, (r.loseCard f.card).line? id = some l ∧
      l.state = .outOfService .noCard ∧ l.acknowledged = Cond.off ∧ l.desired = Cond.off ∧ l.parties = [] ∧ l.bridge = none ∧ l.timer = none)

/-- R103, R108, R87, R105: SET-RESERVE takes the value; a lowered reserve serves the wait list in its order until it is empty or the free count is at most the reserve: the bridges bs, the lowest-numbered FREE ones, go to the groups at its head, one each, and each such group leaves the list with its grant pass run; lines, appearances, slots and the other bridges stay. -/
def Obligations.SetReserveServes : Prop :=
  ∀ (s : State) (q : Request) (rest : List Request) (v : Byte), Takes s 44 q rest → q.body = [v] → v.toNat ≤ 16 →
    (s.recs.reserve ≤ v.toNat →
      exec .setReserve s = .next ((s.answered q rest .done []).withRecs { s.recs with reserve := v.toNat }).finish) ∧
    (v.toNat < s.recs.reserve → ∃ (r : Records) (bs : List Nat),
      exec .setReserve s = .next ((s.answered q rest .done []).withRecs r).finish ∧ r.reserve = v.toNat ∧
      bs.length ≤ s.recs.waitList.length ∧ r.waitList = s.recs.waitList.drop bs.length ∧ (r.waitList = [] ∨ r.freeBridges ≤ v.toNat) ∧
      (bs ≠ [] → v.toNat ≤ r.freeBridges) ∧ bs.Pairwise (· < ·) ∧
      (∀ b ∈ bs, Table.find s.recs.bridges b = none ∧ ∀ k < b, Table.find s.recs.bridges k = none → k ∈ bs) ∧
      (∀ b, b ∉ bs → Table.find r.bridges b = Table.find s.recs.bridges b) ∧
      (∀ (i b g : Nat), bs[i]? = some b → s.recs.waitList[i]? = some g → Table.find r.bridges b = some (.group g)) ∧
      (s.recs.waitList.Nodup → ∀ (i b g : Nat) (x : Group), bs[i]? = some b → s.recs.waitList[i]? = some g → s.recs.group? g = some x →
        r.group? g = some { x with
          bridge := some b, inWaitList := false, talkers := x.talkers ++ x.waiting.take (x.talkerLimit - x.talkers.length)
          waiting := x.waiting.drop (x.talkerLimit - x.talkers.length) }) ∧
      r.lines = s.recs.lines ∧ r.appearances = s.recs.appearances ∧ r.slots = s.recs.slots ∧ r.cards = s.recs.cards)

/-- R193, R194, R195: SET-ATTENTION gives every byte that is not 255 its effect; TAKE-ATTENTION returns and empties the chosen entry, or returns the body of source 255. The level of an entry is the highest of its reasons' levels; the chosen entry has the highest level above the mask and stands before every other of that level; every raise keeps the entries in the order PART, LINK, POOL, CARD, POSITION, GROUP, LINE and rising within a source, so it is the first by that order. -/
def Obligations.AttentionRequestsAct : Prop :=
  (∀ (s : State) (q : Request) (rest : List Request) (bs : List Byte) (m e : Byte) (xs : List Nat) (levels : Vector Nat 21) (mask : Nat) (enable : Bool),
    Takes s 48 q rest → q.body = bs ++ [m, e] → bs.length = 21 → newLevels bs s.port.levels.toList = some xs → levels.toList = xs →
    nibbleOf? m s.port.mask = some mask → enableOf? e s.port.enable = some enable →
    exec .setAttention s = .next { s with port := { (s.answered q rest .done []).port with levels := levels, mask := mask, enable := enable } }) ∧
  (∀ (s : State) (q : Request) (rest : List Request), Takes s 49 q rest → q.body = [] →
    (∀ e reasons level, chooseEntry s.port s.recs.raised = some (e, reasons, level) → exec .takeAttention s =
      .next ((s.answered q rest .done (e.bytes ++ [byte1 level, byte1 reasons.length] ++ reasons.map (fun x => byte1 x.code.val))).withRecs
        { s.recs with raised := s.recs.raised.filter (fun x => !(x.1 == e)) })) ∧
    (chooseEntry s.port s.recs.raised = none → exec .takeAttention s = .next (s.answered q rest .done [0xFF, 0, 0, 0, 0]))) ∧
  (∀ (x : Port) (reasons : List Reason) (v : Nat), x.entryLevel reasons = some v →
    (∃ q ∈ reasons, x.level q = v) ∧ ∀ q ∈ reasons, x.level q ≤ v) ∧
  (∀ (x : Port) (raised : List (Entry × List Reason)),
    (∀ e reasons level, chooseEntry x raised = some (e, reasons, level) → x.entryLevel reasons = some level ∧ x.mask < level ∧
      ∃ before later, raised = before ++ (e, reasons) :: later ∧
        (∀ y ∈ before, ∀ v, x.entryLevel y.2 = some v → v < level) ∧ (∀ y ∈ later, ∀ v, x.entryLevel y.2 = some v → v ≤ level)) ∧
    (chooseEntry x raised = none → ∀ y ∈ raised, ∀ v, x.entryLevel y.2 = some v → v ≤ x.mask)) ∧
  (∀ (r : Records) (e : Entry) (q : Reason), r.raised.Pairwise (fun a b => a.1.rank ≤ b.1.rank) →
    (r.raise e q).raised.Pairwise (fun a b => a.1.rank ≤ b.1.rank)) ∧
  (Entry.part.rank < Entry.link.rank ∧ Entry.link.rank < Entry.pool.rank ∧ (∀ i, Entry.pool.rank < (Entry.card i).rank) ∧
    (∀ i j, i < 32 → (Entry.card i).rank < (Entry.position j).rank) ∧ (∀ i j, i < 48 → (Entry.position i).rank < (Entry.group j).rank) ∧
    (∀ i j, i < 256 → (Entry.group i).rank < (Entry.line j).rank) ∧
    ∀ i j, i < j → (Entry.card i).rank < (Entry.card j).rank ∧ (Entry.position i).rank < (Entry.position j).rank ∧
      (Entry.group i).rank < (Entry.group j).rank ∧ (Entry.line i).rank < (Entry.line j).rank)

/-- R196: ATTN is asserted exactly when enable is true and some entry's level exceeds the mask (the pin of a block that no cold start holds); the attention pending byte of READ_STATUS, its fourth, is the same test without enable, taken as the byte starts (log 13). -/
def Obligations.AttnFollowsAttentionTable : Prop :=
  ∀ s : State,
    (s.resetPin ≠ .coldHeld → (s.attn = true ↔ s.port.enable = true ∧
      ∃ e ∈ s.recs.raised, ∃ v, s.port.entryLevel e.2 = some v ∧ s.port.mask < v)) ∧
    (s.resetPin = .released → s.port.status.length = 3 → ∃ t, exec (.readStatus .byteStarts) s = .next t ∧
      ((∃ e ∈ s.recs.raised, ∃ v, s.port.entryLevel e.2 = some v ∧ s.port.mask < v) → t.port.status[3]? = some 1) ∧
      (¬ (∃ e ∈ s.recs.raised, ∃ v, s.port.entryLevel e.2 = some v ∧ s.port.mask < v) → t.port.status[3]? = some 0))

/-! ### Timers -/

/-- R35, R32, R43, R33, R93: each timer expiry lets the time that remained pass and then acts. A line ringing in goes to IDLE with missed true and MISSED raised; one ringing out goes to IDLE, its caller removed and its channel free, missed as it was, the caller refused NO_ANSWER with its key for the line, or its channel, as the subject when attached; a held line is recalled, or goes to IDLE when it is RETIRING; a ring burst ends; a talker leaves the floor: out of the talkers, not in the waiting list, timer none, FLOOR raised, the places freed granted from the head of the waiting list, ptt_channel as it was. -/
def Obligations.TimerExpiriesAct : Prop :=
  ∀ (s : State) (id ms : Nat) (l : Line), s.resetPin ≠ .coldHeld →
    (s.recs.line? id = some l → l.timer = some ⟨.ring, ms⟩ → l.state = .ringingIn →
      ∃ r, exec (.ringExpiry id) s = .next ((s.advance ms).withRecs r).finish ∧
        r.line? id = some { l with
          state := .idle, parties := [], holdOwner := none, bridge := none, desired := Cond.off, timer := none, missed := true } ∧
        Reason.missed ∈ r.reasons (.line id) ∧ Reason.state ∈ r.reasons (.line id) ∧
        ∀ j, j ≠ id → r.line? j = (s.advance ms).recs.line? j) ∧
    (∀ p ch, s.recs.line? id = some l → l.timer = some ⟨.ring, ms⟩ → l.state = .ringingOut → l.parties = [⟨p, ch⟩] →
      ∃ r, exec (.ringExpiry id) s = .next ((s.advance ms).withRecs r).finish ∧
        r.line? id = some { l with state := .idle, parties := [], holdOwner := none, bridge := none, desired := Cond.off, timer := none } ∧
        (s.recs.bound p ch = .line id → r.bound p ch = .none) ∧
        ((s.recs.pos p).attached = true → ∀ a, s.recs.appearanceOfLineAt id p = some a → (r.pos p).refusal = some ⟨.noAnswer, .key a.key⟩) ∧
        ((s.recs.pos p).attached = true → s.recs.appearanceOfLineAt id p = none → (r.pos p).refusal = some ⟨.noAnswer, .channel ch⟩) ∧
        ((s.recs.pos p).attached = false → (r.pos p).refusal = (s.recs.pos p).refusal) ∧
        (∀ k, k ≠ p → (r.pos k).refusal = (s.recs.pos k).refusal) ∧ Reason.state ∈ r.reasons (.line id) ∧
        ∀ j, j ≠ id → r.line? j = (s.advance ms).recs.line? j) ∧
    (s.recs.line? id = some l → l.timer = some ⟨.recallWait, ms⟩ → l.state = .held →
      ∃ r, exec (.recallWaitExpiry id) s = .next ((s.advance ms).withRecs r).finish ∧
        (l.lifecycle ≠ .retiring → r.line? id = some { l with state := .recall, holdOwner := none, desired := Cond.call, timer := none }) ∧
        (l.lifecycle = .retiring → r.line? id = some { l with
          state := .idle, parties := [], holdOwner := none, bridge := none, desired := Cond.off, timer := none }) ∧
        Reason.state ∈ r.reasons (.line id) ∧ ∀ j, j ≠ id → r.line? j = (s.advance ms).recs.line? j) ∧
    (s.recs.line? id = some l → l.timer = some ⟨.ringBurst, ms⟩ →
      ∃ r, exec (.ringBurstExpiry id) s = .next ((s.advance ms).withRecs r).finish ∧
        r.line? id = some { l with desired := { l.desired with ringOut := false }, timer := none } ∧
        (∀ j, j ≠ id → r.line? j = (s.advance ms).recs.line? j) ∧ r = { (s.advance ms).recs with lines := r.lines }) ∧
    (∀ x g, s.recs.member? id = some x → x.talkTimer = some ms → x.floor = .talking → s.recs.group? x.group = some g → g.bridge ≠ none →
      (∀ k y, s.recs.group? k = some y → id ∉ y.waiting) →
      let kept := g.talkers.filter (fun i => !(i == id))
      ∃ r, exec (.talkTimerExpiry id) s = .next ((s.advance ms).withRecs r).finish ∧
        r.member? id = some { x with floor := .idle, talkTimer := none } ∧
        (∃ y, r.group? x.group = some y ∧ y.talkers = kept ++ g.waiting.take (g.talkerLimit - kept.length) ∧
          y.waiting = g.waiting.drop (g.talkerLimit - kept.length)) ∧
        Reason.floor ∈ r.reasons (.group x.group) ∧ (∀ p, (r.pos p).ptt = (s.recs.pos p).ptt) ∧ r.lines = (s.advance ms).recs.lines)

/-! ### Audio -/

/-- R114 to R120, R98: a frame sends what the records and the previous frame's samples give and keeps the samples received for the next. The port input of a line in service is the sample of its slot while acknowledged.audio holds, else 0; that it is 0 for a line OUT_OF_SERVICE whose acknowledged.audio still holds is the reading of log 38; the microphones of a DETACHED position are 0; a FREE slot, a line OUT_OF_SERVICE and a line in no path carry 0; on the direct path the party hears the port input and the port carries the party's talk source; a party or port of a bridged line, and a CIRCUIT port or a channel bound to a membership of a group that holds a bridge, hears the sum less its own input, saturated; the speaker output is the volume-weighted sum shifted right by 4, saturated. -/
def Obligations.AudioFrameComputes : Prop :=
  ∀ (s : State) (line : Vector Sample 128) (pos : Vector Mics 48), s.resetPin ≠ .coldHeld → s.part ≠ .startingImage →
    let input (g : Group) (m : Nat) (x : Member) : Int := match x.kind with
      | .circuit id => ((s.recs.line? id).map (fun l => (s.audio.portInput l).toInt)).getD 0
      | .position p _ => if g.talkers.contains m && (s.recs.pos p).attached then (vget s.audio.posIn p).spk.toInt else 0
    let heard (m : Nat) (x : Member) (g : Group) : Sample :=
      saturate (((s.recs.membersOf x.group).map (fun e => input g e.1 e.2)).sum - input g m x)
    ∃ t, exec (.audioFrame line pos) s = .next t ∧ t = { s with audio := t.audio } ∧ t.audio.lineIn = line ∧ t.audio.posIn = pos ∧
      (∀ (l : Line) (k : Fin 128), l.slot = some k.val →
        (l.acknowledged.audio = true → l.state.isOos = false → s.audio.portInput l = vget s.audio.lineIn k) ∧
        (l.acknowledged.audio = false ∨ l.state.isOos = true → s.audio.portInput l = 0)) ∧
      (∀ l : Line, l.slot = none → s.audio.portInput l = 0) ∧
      (∀ p ch, (s.recs.pos p).attached = false → talkSource s.recs s.audio ⟨p, ch⟩ = 0) ∧
      (∀ p, (s.recs.pos p).attached = true → talkSource s.recs s.audio ⟨p, .hand .h1⟩ = (vget s.audio.posIn p).h1 ∧
        talkSource s.recs s.audio ⟨p, .hand .h2⟩ = (vget s.audio.posIn p).h2 ∧
        ∀ n, talkSource s.recs s.audio ⟨p, .spk n⟩ = if (s.recs.pos p).ptt = some n then (vget s.audio.posIn p).spk else 0) ∧
      (∀ k : Fin 128, Table.find s.recs.slots k.val = none → vget t.audio.lineOut k = 0) ∧
      (∀ (k : Fin 128) id l, Table.find s.recs.slots k.val = some id → s.recs.line? id = some l →
        (l.state.isOos = true → vget t.audio.lineOut k = 0) ∧
        (l.state.isOos = false → l.bridge ≠ none →
          vget t.audio.lineOut k = saturate ((l.parties.map (fun x => (talkSource s.recs s.audio x).toInt)).sum)) ∧
        (∀ x, l.bridge = none → l.type ≠ .openLine → l.state = .ringingOut ∨ l.state = .connected → l.parties = [x] →
          vget t.audio.lineOut k = talkSource s.recs s.audio x) ∧
        (l.bridge = none → l.type ≠ .openLine → l.state = .idle ∨ l.state = .held ∨ l.state = .ringingIn ∨ l.state = .recall →
          vget t.audio.lineOut k = 0) ∧
        (∀ m x g, l.state.isOos = false → l.bridge = none → l.type = .openLine → s.recs.circuitOf id = some m → s.recs.member? m = some x →
          s.recs.group? x.group = some g →
          (g.bridge ≠ none → vget t.audio.lineOut k = heard m x g) ∧ (g.bridge = none → vget t.audio.lineOut k = 0)) ∧
        (l.state.isOos = false → l.bridge = none → l.type = .openLine → s.recs.circuitOf id = none → vget t.audio.lineOut k = 0)) ∧
      (∀ (p : Fin 48) id l x, (s.recs.pos p).hand1 = some id → s.recs.line? id = some l → l.bridge ≠ none →
        l.parties.find? (fun y => y.pos == p) = some x →
        (vget t.audio.posOut p).h1 = saturate ((s.audio.portInput l).toInt +
          (l.parties.map (fun y => (talkSource s.recs s.audio y).toInt)).sum - (talkSource s.recs s.audio x).toInt)) ∧
      (∀ p : Fin 48, (vget t.audio.posOut p).h1 = channelSample s.recs s.audio p (.hand .h1) ∧
        (vget t.audio.posOut p).h2 = channelSample s.recs s.audio p (.hand .h2)) ∧
      (∀ (p : Fin 48) ch, (s.recs.bound p ch = .none → channelSample s.recs s.audio p ch = 0) ∧
        (∀ id l x, s.recs.bound p ch = .line id → s.recs.line? id = some l → l.parties.find? (fun y => y.pos == p) = some x →
          (l.bridge ≠ none → channelSample s.recs s.audio p ch = saturate ((s.audio.portInput l).toInt +
            (l.parties.map (fun y => (talkSource s.recs s.audio y).toInt)).sum - (talkSource s.recs s.audio x).toInt)) ∧
          (l.bridge = none → l.type ≠ .openLine → l.state = .ringingOut ∨ l.state = .connected → l.parties = [x] →
            channelSample s.recs s.audio p ch = s.audio.portInput l)) ∧
        (∀ m x g, s.recs.bound p ch = .member m → s.recs.member? m = some x → s.recs.group? x.group = some g →
          (g.bridge ≠ none → channelSample s.recs s.audio p ch = heard m x g) ∧
          (g.bridge = none → channelSample s.recs s.audio p ch = 0))) ∧
      (∀ p : Fin 48, (vget t.audio.posOut p).spk = saturate ((((allFin 8).map (fun n =>
        (channelSample s.recs s.audio p (.spk n)).toInt * ((vget (s.recs.pos p).volume n : Nat) : Int))).sum).fdiv 16))

/-! ### Derived values -/

/-- R21: the lamp of an appearance of a line, case by case (JOINABLE by the test of R18); a line key without a DEFINED appearance shows OFF. -/
def Obligations.LampFollowsLine : Prop :=
  (∀ (r : Records) (p : Fin 48) (k : Nat), r.appearanceAt p k = none → (r.lampAt p k).1 = .off) ∧
  (∀ (r : Records) (p : Fin 48) (k : Nat) (a : Appearance) (l : Line), r.appearanceAt p k = some a → r.line? a.line = some l →
    (r.lampAt p k).1 = lampOf l a) ∧
  ∀ (l : Line) (a : Appearance),
    (∀ why, l.state = .outOfService why → lampOf l a = .fault) ∧
    (l.state = .idle → lampOf l a = if l.missed then .missed else .off) ∧
    (l.state = .ringingIn → a.ringMode ≠ .silent → lampOf l a = .ring) ∧
    (l.state = .ringingIn → a.ringMode = .silent → lampOf l a = if l.missed then .missed else .off) ∧
    (l.state = .ringingOut → lampOf l a = if l.hasParty a.pos then .outgoing else .busy) ∧
    (l.state = .connected → l.hasParty a.pos = true → lampOf l a = .mine) ∧
    (l.state = .connected → l.hasParty a.pos = false → (l.privacy = .shared ∨ a.barge = true) ∧ l.parties.length < l.maxParties →
      lampOf l a = .joinable) ∧
    (l.state = .connected → l.hasParty a.pos = false → ¬ ((l.privacy = .shared ∨ a.barge = true) ∧ l.parties.length < l.maxParties) →
      lampOf l a = .busy) ∧
    (l.state = .held → l.holdOwner = some a.pos → lampOf l a = .heldMine) ∧
    (∀ q, l.state = .held → l.holdOwner = some q → q ≠ a.pos → lampOf l a = .heldOther) ∧
    (l.state = .held → l.holdOwner = none → lampOf l a = .heldOpen) ∧
    (l.state = .recall → a.ringMode ≠ .silent → lampOf l a = .recall) ∧
    (l.state = .recall → a.ringMode = .silent → lampOf l a = .heldOpen)

/-- R22: the audible flag is true exactly when the lamp is RING or RECALL and the ring_mode is AUDIBLE; a lamp item carries the lamp and the flag as they stand when the OUTPUT is built. -/
def Obligations.AudibleFlagExactly : Prop :=
  (∀ (r : Records) (a : Appearance) (l : Line), r.line? a.line = some l →
    ((r.lampAudible a).2 = true ↔ ((r.lampAudible a).1 = .ring ∨ (r.lampAudible a).1 = .recall) ∧ a.ringMode = .audible)) ∧
  (∀ (r : Records) (p : Fin 48) (k : Nat) (lamp : Lamp) (audible : Bool), OutItem.lamp k lamp audible ∈ r.buildItems p →
    (lamp, audible) = r.lampAt p k)

/-! ### What settling leaves alone, and the invariants -/

/-- What the end of a step never touches: the port, the part state, the loader, the line bus, the audio samples, the reset pins and the queue; of the link, everything but the cycle step; of the records, the groups, memberships, bridges, wait list, reserve, dispositions, windows, cards and the command in flight, and of a position everything but its lamp pending set. -/
def Obligations.SettlingTouchesOnlyLines : Prop :=
  ∀ s : State, s.finish.port = s.port ∧ s.finish.part = s.part ∧ s.finish.loader = s.loader ∧ s.finish.bus = s.bus ∧ s.finish.audio = s.audio ∧
    s.finish.resetPin = s.resetPin ∧ s.finish.pending = s.pending ∧ s.finish.link = { s.link with cycle := s.finish.link.cycle } ∧
    s.finish.recs.groups = s.recs.groups ∧ s.finish.recs.members = s.recs.members ∧ s.finish.recs.bridges = s.recs.bridges ∧
    s.finish.recs.waitList = s.recs.waitList ∧ s.finish.recs.reserve = s.recs.reserve ∧ s.finish.recs.dispositions = s.recs.dispositions ∧
    s.finish.recs.windows = s.recs.windows ∧ s.finish.recs.cards = s.recs.cards ∧ s.finish.recs.inFlight = s.recs.inFlight ∧
    ∀ p, s.finish.recs.pos p = { s.recs.pos p with lampPending := (s.finish.recs.pos p).lampPending }

/-- The state after reset has every invariant of Safety. -/
def Obligations.ResetSatisfiesInvariants : Prop :=
  QueuesFit State.reset ∧ WorkListExact State.reset ∧ NoSlotDue State.reset ∧ NoRetirementDue State.reset ∧ LevelsFit State.reset ∧ ListsFit State.reset

/-- R188, R190: no step overfills a queue of the supervisory port, and room for the held request's result stays. -/
def Obligations.QueuesStayFit : Prop :=
  ∀ s t : State, QueuesFit s → step s = .next t → QueuesFit t

/-- R174: every step leaves on the port work list exactly the lines whose desired condition differs from their acknowledged condition and whose card is PRESENT. -/
def Obligations.WorkListStaysExact : Prop :=
  ∀ s t : State, WorkListExact s → step s = .next t → WorkListExact t

/-- R126: no step leaves a RETIRING line at rest. -/
def Obligations.RetirementsComplete : Prop :=
  ∀ s t : State, NoRetirementDue s → step s = .next t → NoRetirementDue t

/-- R112: no step leaves a slot held whose three conditions hold. -/
def Obligations.DueSlotsAreFreed : Prop :=
  ∀ s t : State, NoSlotDue s → step s = .next t → NoSlotDue t

/-- R193, R194, R157, R160: no step leaves a level or the mask above 15, more than 8 identities or a duplicate on the parked list, or a sequence of more than 64 rounds. -/
def Obligations.BoundsStayKept : Prop :=
  (∀ s t : State, LevelsFit s → step s = .next t → LevelsFit t) ∧ (∀ s t : State, ListsFit s → step s = .next t → ListsFit t)
end

