-- ==== Sys2Proof/Laws/Table.lean ====
section
/-!
SUPPORT. What the containers do: reading after a write, a drop, a map; membership; sets in rising order; vectors.
-/
namespace Sys2Proof.Machine

variable {α β : Type}

/-! ### Tables -/

@[simp] theorem Table.find_nil (i : Nat) : Table.find ([] : Table α) i = none := rfl

@[simp] theorem Table.find_put_same (i : Nat) (v : α) (t : Table α) : Table.find (Table.put i v t) i = some v := by
  induction t with
  | nil => simp [Table.put, Table.find]
  | cons e t ih =>
    obtain ⟨k, w⟩ := e
    simp only [Table.put]
    split
    · simp [Table.find]
    · split
      · simp [Table.find]
      · rename_i h1 h2
        simp [Table.find, h2, ih]

theorem Table.find_put_other {i j : Nat} (h : j ≠ i) (v : α) (t : Table α) : Table.find (Table.put i v t) j = Table.find t j := by
  induction t with
  | nil => simp [Table.put, Table.find, h]
  | cons e t ih =>
    obtain ⟨k, w⟩ := e
    simp only [Table.put]
    split
    · simp [Table.find, h]
    · split
      · rename_i h1 h2
        subst h2
        simp [Table.find, h]
      · simp [Table.find, ih]

theorem Table.find_put (i j : Nat) (v : α) (t : Table α) :
    Table.find (Table.put i v t) j = if j = i then some v else Table.find t j := by
  by_cases h : j = i
  · subst h; simp
  · simp [h, Table.find_put_other h]

@[simp] theorem Table.find_drop_same (i : Nat) (t : Table α) : Table.find (Table.drop i t) i = none := by
  induction t with
  | nil => rfl
  | cons e t ih =>
    obtain ⟨k, w⟩ := e
    unfold Table.drop at ih ⊢
    by_cases h : k = i
    · subst h; simpa using ih
    · simp [h, Table.find, Ne.symm h]
      simpa using ih

theorem Table.find_drop_other {i j : Nat} (h : j ≠ i) (t : Table α) : Table.find (Table.drop i t) j = Table.find t j := by
  induction t with
  | nil => rfl
  | cons e t ih =>
    obtain ⟨k, w⟩ := e
    unfold Table.drop at ih ⊢
    by_cases hk : k = i
    · subst hk; simp [Table.find, h]; simpa using ih
    · simp only [List.filter_cons, Table.find]
      simp only [show (!(k == i)) = true by simp [hk], if_true, Table.find]
      rw [ih]

@[simp] theorem Table.find_map (f : α → β) (t : Table α) (i : Nat) :
    Table.find (t.map (fun e => (e.1, f e.2))) i = (Table.find t i).map f := by
  induction t with
  | nil => rfl
  | cons e t ih =>
    simp only [List.map_cons, Table.find]
    split
    · rfl
    · exact ih

theorem Table.mem_of_find {t : Table α} {i : Nat} {v : α} (h : Table.find t i = some v) : (i, v) ∈ t := by
  induction t with
  | nil => cases h
  | cons e t ih =>
    simp only [Table.find] at h
    split at h
    · rename_i hk
      cases h; subst hk
      exact List.mem_cons_self ..
    · exact List.mem_cons_of_mem _ (ih h)

theorem Table.find_isSome_of_mem {t : Table α} {i : Nat} {v : α} (h : (i, v) ∈ t) : ∃ w, Table.find t i = some w := by
  induction t with
  | nil => cases h
  | cons e t ih =>
    obtain ⟨k, w⟩ := e
    simp only [Table.find]
    by_cases hk : i = k
    · exact ⟨w, by simp [hk]⟩
    · rcases List.mem_cons.mp h with h | h
      · cases h; exact absurd rfl hk
      · obtain ⟨w', hw⟩ := ih h
        exact ⟨w', by simp [hk, hw]⟩

/-- Every number that has a record is listed. -/
theorem Table.mem_ids {t : Table α} {i : Nat} {v : α} (h : Table.find t i = some v) : i ∈ Table.ids t :=
  List.mem_map_of_mem (f := (·.1)) (Table.mem_of_find h)

theorem Table.mem_idsWhere {f : Nat → α → Bool} {t : Table α} {i : Nat} :
    i ∈ Table.idsWhere f t ↔ ∃ v, (i, v) ∈ t ∧ f i v = true := by
  simp [Table.idsWhere, Table.ids, List.mem_filter]

theorem Table.length_put {t : Table α} {i : Nat} (v : α) (h : Table.find t i = none) : (Table.put i v t).length = t.length + 1 := by
  induction t with
  | nil => rfl
  | cons e t ih =>
    obtain ⟨k, w⟩ := e
    simp only [Table.find] at h
    split at h
    · cases h
    · rename_i hk
      simp only [Table.put]
      split
      · rfl
      · rw [List.length_cons, ih h, List.length_cons]

/-- The lowest FREE number is FREE, and no lower one is. -/
theorem Table.lowestFree_some {n b : Nat} {t : Table α} (h : Table.lowestFree n t = some b) :
    b < n ∧ Table.find t b = none ∧ ∀ k < b, Table.find t k ≠ none := by
  obtain ⟨h1, h2, h3⟩ := List.find?_range_eq_some.mp h
  exact ⟨List.mem_range.mp h2, by simpa using h1, fun k hk hn => by simpa [hn] using h3 k hk⟩

/-- Where no number below n is FREE, n records are listed. -/
theorem Table.lowestFree_none {n : Nat} {t : Table α} (h : Table.lowestFree n t = none) : n ≤ t.length := by
  have hs : List.range n ⊆ Table.ids t := by
    intro i hi
    have := List.find?_eq_none.mp h i hi
    cases hf : Table.find t i with
    | none => simp [hf] at this
    | some v => exact Table.mem_ids hf
  simpa [Table.ids] using ((List.nodup_range (n := n)).subperm hs).length_le

theorem Table.mem_put {i j : Nat} {v w : α} {t : Table α} (h : (j, w) ∈ Table.put i v t) : (j = i ∧ w = v) ∨ (j, w) ∈ t := by
  induction t with
  | nil => simp [Table.put] at h; exact .inl h
  | cons e t ih =>
    obtain ⟨k, u⟩ := e
    simp only [Table.put] at h
    split at h
    · rcases List.mem_cons.mp h with h | h
      · cases h; exact .inl ⟨rfl, rfl⟩
      · exact .inr h
    · split at h
      · rcases List.mem_cons.mp h with h | h
        · cases h; exact .inl ⟨rfl, rfl⟩
        · exact .inr (List.mem_cons_of_mem _ h)
      · rcases List.mem_cons.mp h with h | h
        · cases h; exact .inr (List.mem_cons_self ..)
        · rcases ih h with h | h
          · exact .inl h
          · exact .inr (List.mem_cons_of_mem _ h)

theorem Table.mem_drop {i j : Nat} {w : α} {t : Table α} : (j, w) ∈ Table.drop i t ↔ (j, w) ∈ t ∧ j ≠ i := by
  simp [Table.drop, List.mem_filter]

/-- A table in rising order lists a number once. -/
theorem Table.wf_tail {e : Nat × α} {t : Table α} (h : Table.wf (e :: t) = true) : Table.wf t = true := by
  cases t with
  | nil => rfl
  | cons b t =>
    simp only [Table.wf, Bool.and_eq_true, decide_eq_true_eq] at h
    exact h.2

theorem Table.lt_of_wf {e x : Nat × α} {t : Table α} (h : Table.wf (e :: t) = true) (hx : x ∈ t) : e.1 < x.1 := by
  induction t generalizing e with
  | nil => cases hx
  | cons b t ih =>
    simp only [Table.wf, Bool.and_eq_true, decide_eq_true_eq] at h
    rcases List.mem_cons.mp hx with hx | hx
    · subst hx; exact h.1
    · exact Nat.lt_trans h.1 (ih h.2 hx)

theorem Table.find_of_mem_wf {t : Table α} {i : Nat} {v : α} (hw : Table.wf t = true) (h : (i, v) ∈ t) : Table.find t i = some v := by
  induction t with
  | nil => cases h
  | cons e t ih =>
    rcases List.mem_cons.mp h with h | h
    · subst h; simp [Table.find]
    · have hlt := Table.lt_of_wf hw h
      simp only [Table.find]
      rw [if_neg (by simp at hlt; omega)]
      exact ih (Table.wf_tail hw) h

/-- A write keeps the rising order. -/
theorem Table.wf_put {t : Table α} (i : Nat) (v : α) (h : Table.wf t = true) : Table.wf (Table.put i v t) = true := by
  induction t with
  | nil => rfl
  | cons e t ih =>
    obtain ⟨k, w⟩ := e
    simp only [Table.put]
    split
    · simp only [Table.wf, Bool.and_eq_true, decide_eq_true_eq]
      exact ⟨by assumption, h⟩
    · split
      · rename_i h1 h2
        subst h2
        cases t with
        | nil => rfl
        | cons b t => simpa [Table.wf] using h
      · have h3 := ih (Table.wf_tail h)
        cases ht : Table.put i v t with
        | nil => rfl
        | cons b u =>
          rw [ht] at h3
          simp only [Table.wf, Bool.and_eq_true, decide_eq_true_eq]
          refine ⟨?_, h3⟩
          have hb : b ∈ Table.put i v t := by rw [ht]; exact List.mem_cons_self ..
          rcases Table.mem_put (show (b.1, b.2) ∈ _ from hb) with hb | hb
          · rw [hb.1]; omega
          · exact Table.lt_of_wf h hb

/-- A drop keeps the rising order. -/
theorem Table.wf_filter {t : Table α} (f : Nat × α → Bool) (h : Table.wf t = true) : Table.wf (t.filter f) = true := by
  induction t with
  | nil => rfl
  | cons e t ih =>
    have h3 := ih (Table.wf_tail h)
    simp only [List.filter_cons]
    split
    · cases ht : t.filter f with
      | nil => rfl
      | cons b u =>
        rw [ht] at h3
        simp only [Table.wf, Bool.and_eq_true, decide_eq_true_eq]
        refine ⟨?_, h3⟩
        have hb : b ∈ t.filter f := by rw [ht]; exact List.mem_cons_self ..
        exact Table.lt_of_wf h (List.mem_of_mem_filter hb)
    · exact h3

theorem Table.wf_drop {t : Table α} (i : Nat) (h : Table.wf t = true) : Table.wf (Table.drop i t) = true := Table.wf_filter _ h

/-! ### Sets -/

theorem mem_setAdd {k x : Nat} {t : List Nat} : x ∈ setAdd k t ↔ x = k ∨ x ∈ t := by
  induction t with
  | nil => simp [setAdd]
  | cons y t ih =>
    simp only [setAdd]
    split
    · simp
    · split
      · rename_i h; subst h; simp
      · simp [ih]; tauto

/-! ### Vectors -/

@[simp] theorem vget_vset_same {n : Nat} (v : Vector α n) (i : Fin n) (x : α) : vget (vset v i x) i = x := by
  simp [vget, vset]

theorem vget_vset_other {n : Nat} (v : Vector α n) {i j : Fin n} (h : j ≠ i) (x : α) : vget (vset v i x) j = vget v j := by
  have h' : i.val ≠ j.val := fun e => h (Fin.ext e.symm)
  simp [vget, vset, h']

theorem vget_vset {n : Nat} (v : Vector α n) (i j : Fin n) (x : α) : vget (vset v i x) j = if j = i then x else vget v j := by
  by_cases h : j = i
  · subst h; simp
  · simp [h, vget_vset_other v h]

@[simp] theorem vset_vget {n : Nat} (v : Vector α n) (i : Fin n) : vset v i (vget v i) = v := by
  ext j hj
  simp [vset, vget]

@[simp] theorem vset_vset {n : Nat} (v : Vector α n) (i : Fin n) (x y : α) : vset (vset v i x) i y = vset v i y := by
  ext j hj
  simp only [vset, Vector.getElem_set]
  split <;> rfl

@[simp] theorem asFin_val {n : Nat} (i : Fin n) : asFin n i.val = some i := by simp [asFin]

theorem asFin_of_eq {n k : Nat} {i : Fin n} (h : k = i.val) : asFin n k = some i := by subst h; simp

@[simp] theorem mem_allFin {n : Nat} (i : Fin n) : i ∈ allFin n := List.mem_finRange i

@[simp] theorem vget_tabulate {n : Nat} (f : Fin n → α) (i : Fin n) : vget (tabulate f) i = f i := by
  simp [vget, tabulate, allFin]

/-- Writing each element in turn with a function of its own present value writes them all. -/
theorem vget_foldl_vset {n : Nat} (f : Fin n → α → α) (ks : List (Fin n)) (hk : ks.Nodup) (v : Vector α n) (i : Fin n) :
    vget (ks.foldl (fun v k => vset v k (f k (vget v k))) v) i = if i ∈ ks then f i (vget v i) else vget v i := by
  induction ks generalizing v with
  | nil => simp
  | cons k ks ih =>
    rw [List.nodup_cons] at hk
    simp only [List.foldl_cons, ih hk.2, vget_vset, List.mem_cons]
    by_cases h : i = k
    · subst h; simp [hk.1]
    · simp [h]

end Sys2Proof.Machine
end

