-- ==== Sys2Proof/Laws/State.lean ====
section
/-!
SUPPORT. One lemma per field per update, true by rfl and tagged simp: what each named update of the records and of the state leaves alone and what it writes.
-/
namespace Sys2Proof.Machine

/-! ### Records -/

@[simp] theorem setLine_lines (r : Records) (id : Nat) (l : Line) : (r.setLine id l).lines = Table.put id l r.lines := rfl
@[simp] theorem setLine_appearances (r : Records) (id : Nat) (l : Line) : (r.setLine id l).appearances = r.appearances := rfl
@[simp] theorem setLine_positions (r : Records) (id : Nat) (l : Line) : (r.setLine id l).positions = r.positions := rfl
@[simp] theorem setLine_dispositions (r : Records) (id : Nat) (l : Line) : (r.setLine id l).dispositions = r.dispositions := rfl
@[simp] theorem setLine_groups (r : Records) (id : Nat) (l : Line) : (r.setLine id l).groups = r.groups := rfl
@[simp] theorem setLine_members (r : Records) (id : Nat) (l : Line) : (r.setLine id l).members = r.members := rfl
@[simp] theorem setLine_bridges (r : Records) (id : Nat) (l : Line) : (r.setLine id l).bridges = r.bridges := rfl
@[simp] theorem setLine_reserve (r : Records) (id : Nat) (l : Line) : (r.setLine id l).reserve = r.reserve := rfl
@[simp] theorem setLine_waitList (r : Records) (id : Nat) (l : Line) : (r.setLine id l).waitList = r.waitList := rfl
@[simp] theorem setLine_slots (r : Records) (id : Nat) (l : Line) : (r.setLine id l).slots = r.slots := rfl
@[simp] theorem setLine_windows (r : Records) (id : Nat) (l : Line) : (r.setLine id l).windows = r.windows := rfl
@[simp] theorem setLine_cards (r : Records) (id : Nat) (l : Line) : (r.setLine id l).cards = r.cards := rfl
@[simp] theorem setLine_workList (r : Records) (id : Nat) (l : Line) : (r.setLine id l).workList = r.workList := rfl
@[simp] theorem setLine_inFlight (r : Records) (id : Nat) (l : Line) : (r.setLine id l).inFlight = r.inFlight := rfl
@[simp] theorem setLine_lineGuard (r : Records) (id : Nat) (l : Line) : (r.setLine id l).lineGuard = r.lineGuard := rfl
@[simp] theorem setLine_raised (r : Records) (id : Nat) (l : Line) : (r.setLine id l).raised = r.raised := rfl

@[simp] theorem setGroup_lines (r : Records) (g : Nat) (x : Group) : (r.setGroup g x).lines = r.lines := rfl
@[simp] theorem setGroup_appearances (r : Records) (g : Nat) (x : Group) : (r.setGroup g x).appearances = r.appearances := rfl
@[simp] theorem setGroup_positions (r : Records) (g : Nat) (x : Group) : (r.setGroup g x).positions = r.positions := rfl
@[simp] theorem setGroup_dispositions (r : Records) (g : Nat) (x : Group) : (r.setGroup g x).dispositions = r.dispositions := rfl
@[simp] theorem setGroup_groups (r : Records) (g : Nat) (x : Group) : (r.setGroup g x).groups = Table.put g x r.groups := rfl
@[simp] theorem setGroup_members (r : Records) (g : Nat) (x : Group) : (r.setGroup g x).members = r.members := rfl
@[simp] theorem setGroup_bridges (r : Records) (g : Nat) (x : Group) : (r.setGroup g x).bridges = r.bridges := rfl
@[simp] theorem setGroup_reserve (r : Records) (g : Nat) (x : Group) : (r.setGroup g x).reserve = r.reserve := rfl
@[simp] theorem setGroup_waitList (r : Records) (g : Nat) (x : Group) : (r.setGroup g x).waitList = r.waitList := rfl
@[simp] theorem setGroup_slots (r : Records) (g : Nat) (x : Group) : (r.setGroup g x).slots = r.slots := rfl
@[simp] theorem setGroup_windows (r : Records) (g : Nat) (x : Group) : (r.setGroup g x).windows = r.windows := rfl
@[simp] theorem setGroup_cards (r : Records) (g : Nat) (x : Group) : (r.setGroup g x).cards = r.cards := rfl
@[simp] theorem setGroup_workList (r : Records) (g : Nat) (x : Group) : (r.setGroup g x).workList = r.workList := rfl
@[simp] theorem setGroup_inFlight (r : Records) (g : Nat) (x : Group) : (r.setGroup g x).inFlight = r.inFlight := rfl
@[simp] theorem setGroup_lineGuard (r : Records) (g : Nat) (x : Group) : (r.setGroup g x).lineGuard = r.lineGuard := rfl
@[simp] theorem setGroup_raised (r : Records) (g : Nat) (x : Group) : (r.setGroup g x).raised = r.raised := rfl

@[simp] theorem setMember_lines (r : Records) (m : Nat) (x : Member) : (r.setMember m x).lines = r.lines := rfl
@[simp] theorem setMember_appearances (r : Records) (m : Nat) (x : Member) : (r.setMember m x).appearances = r.appearances := rfl
@[simp] theorem setMember_positions (r : Records) (m : Nat) (x : Member) : (r.setMember m x).positions = r.positions := rfl
@[simp] theorem setMember_dispositions (r : Records) (m : Nat) (x : Member) : (r.setMember m x).dispositions = r.dispositions := rfl
@[simp] theorem setMember_groups (r : Records) (m : Nat) (x : Member) : (r.setMember m x).groups = r.groups := rfl
@[simp] theorem setMember_members (r : Records) (m : Nat) (x : Member) : (r.setMember m x).members = Table.put m x r.members := rfl
@[simp] theorem setMember_bridges (r : Records) (m : Nat) (x : Member) : (r.setMember m x).bridges = r.bridges := rfl
@[simp] theorem setMember_reserve (r : Records) (m : Nat) (x : Member) : (r.setMember m x).reserve = r.reserve := rfl
@[simp] theorem setMember_waitList (r : Records) (m : Nat) (x : Member) : (r.setMember m x).waitList = r.waitList := rfl
@[simp] theorem setMember_slots (r : Records) (m : Nat) (x : Member) : (r.setMember m x).slots = r.slots := rfl
@[simp] theorem setMember_windows (r : Records) (m : Nat) (x : Member) : (r.setMember m x).windows = r.windows := rfl
@[simp] theorem setMember_cards (r : Records) (m : Nat) (x : Member) : (r.setMember m x).cards = r.cards := rfl
@[simp] theorem setMember_workList (r : Records) (m : Nat) (x : Member) : (r.setMember m x).workList = r.workList := rfl
@[simp] theorem setMember_inFlight (r : Records) (m : Nat) (x : Member) : (r.setMember m x).inFlight = r.inFlight := rfl
@[simp] theorem setMember_lineGuard (r : Records) (m : Nat) (x : Member) : (r.setMember m x).lineGuard = r.lineGuard := rfl
@[simp] theorem setMember_raised (r : Records) (m : Nat) (x : Member) : (r.setMember m x).raised = r.raised := rfl

@[simp] theorem modPos_lines (r : Records) (p : Fin 48) (f : Position → Position) : (r.modPos p f).lines = r.lines := rfl
@[simp] theorem modPos_appearances (r : Records) (p : Fin 48) (f : Position → Position) : (r.modPos p f).appearances = r.appearances := rfl
@[simp] theorem modPos_positions (r : Records) (p : Fin 48) (f : Position → Position) : (r.modPos p f).positions = vset r.positions p (f (r.pos p)) := rfl
@[simp] theorem modPos_dispositions (r : Records) (p : Fin 48) (f : Position → Position) : (r.modPos p f).dispositions = r.dispositions := rfl
@[simp] theorem modPos_groups (r : Records) (p : Fin 48) (f : Position → Position) : (r.modPos p f).groups = r.groups := rfl
@[simp] theorem modPos_members (r : Records) (p : Fin 48) (f : Position → Position) : (r.modPos p f).members = r.members := rfl
@[simp] theorem modPos_bridges (r : Records) (p : Fin 48) (f : Position → Position) : (r.modPos p f).bridges = r.bridges := rfl
@[simp] theorem modPos_reserve (r : Records) (p : Fin 48) (f : Position → Position) : (r.modPos p f).reserve = r.reserve := rfl
@[simp] theorem modPos_waitList (r : Records) (p : Fin 48) (f : Position → Position) : (r.modPos p f).waitList = r.waitList := rfl
@[simp] theorem modPos_slots (r : Records) (p : Fin 48) (f : Position → Position) : (r.modPos p f).slots = r.slots := rfl
@[simp] theorem modPos_windows (r : Records) (p : Fin 48) (f : Position → Position) : (r.modPos p f).windows = r.windows := rfl
@[simp] theorem modPos_cards (r : Records) (p : Fin 48) (f : Position → Position) : (r.modPos p f).cards = r.cards := rfl
@[simp] theorem modPos_workList (r : Records) (p : Fin 48) (f : Position → Position) : (r.modPos p f).workList = r.workList := rfl
@[simp] theorem modPos_inFlight (r : Records) (p : Fin 48) (f : Position → Position) : (r.modPos p f).inFlight = r.inFlight := rfl
@[simp] theorem modPos_lineGuard (r : Records) (p : Fin 48) (f : Position → Position) : (r.modPos p f).lineGuard = r.lineGuard := rfl
@[simp] theorem modPos_raised (r : Records) (p : Fin 48) (f : Position → Position) : (r.modPos p f).raised = r.raised := rfl

@[simp] theorem modCard_lines (r : Records) (c : Fin 32) (f : Card → Card) : (r.modCard c f).lines = r.lines := rfl
@[simp] theorem modCard_appearances (r : Records) (c : Fin 32) (f : Card → Card) : (r.modCard c f).appearances = r.appearances := rfl
@[simp] theorem modCard_positions (r : Records) (c : Fin 32) (f : Card → Card) : (r.modCard c f).positions = r.positions := rfl
@[simp] theorem modCard_dispositions (r : Records) (c : Fin 32) (f : Card → Card) : (r.modCard c f).dispositions = r.dispositions := rfl
@[simp] theorem modCard_groups (r : Records) (c : Fin 32) (f : Card → Card) : (r.modCard c f).groups = r.groups := rfl
@[simp] theorem modCard_members (r : Records) (c : Fin 32) (f : Card → Card) : (r.modCard c f).members = r.members := rfl
@[simp] theorem modCard_bridges (r : Records) (c : Fin 32) (f : Card → Card) : (r.modCard c f).bridges = r.bridges := rfl
@[simp] theorem modCard_reserve (r : Records) (c : Fin 32) (f : Card → Card) : (r.modCard c f).reserve = r.reserve := rfl
@[simp] theorem modCard_waitList (r : Records) (c : Fin 32) (f : Card → Card) : (r.modCard c f).waitList = r.waitList := rfl
@[simp] theorem modCard_slots (r : Records) (c : Fin 32) (f : Card → Card) : (r.modCard c f).slots = r.slots := rfl
@[simp] theorem modCard_windows (r : Records) (c : Fin 32) (f : Card → Card) : (r.modCard c f).windows = r.windows := rfl
@[simp] theorem modCard_cards (r : Records) (c : Fin 32) (f : Card → Card) : (r.modCard c f).cards = vset r.cards c (f (r.card c)) := rfl
@[simp] theorem modCard_workList (r : Records) (c : Fin 32) (f : Card → Card) : (r.modCard c f).workList = r.workList := rfl
@[simp] theorem modCard_inFlight (r : Records) (c : Fin 32) (f : Card → Card) : (r.modCard c f).inFlight = r.inFlight := rfl
@[simp] theorem modCard_lineGuard (r : Records) (c : Fin 32) (f : Card → Card) : (r.modCard c f).lineGuard = r.lineGuard := rfl
@[simp] theorem modCard_raised (r : Records) (c : Fin 32) (f : Card → Card) : (r.modCard c f).raised = r.raised := rfl

@[simp] theorem raise_lines (r : Records) (e : Entry) (q : Reason) : (r.raise e q).lines = r.lines := rfl
@[simp] theorem raise_appearances (r : Records) (e : Entry) (q : Reason) : (r.raise e q).appearances = r.appearances := rfl
@[simp] theorem raise_positions (r : Records) (e : Entry) (q : Reason) : (r.raise e q).positions = r.positions := rfl
@[simp] theorem raise_dispositions (r : Records) (e : Entry) (q : Reason) : (r.raise e q).dispositions = r.dispositions := rfl
@[simp] theorem raise_groups (r : Records) (e : Entry) (q : Reason) : (r.raise e q).groups = r.groups := rfl
@[simp] theorem raise_members (r : Records) (e : Entry) (q : Reason) : (r.raise e q).members = r.members := rfl
@[simp] theorem raise_bridges (r : Records) (e : Entry) (q : Reason) : (r.raise e q).bridges = r.bridges := rfl
@[simp] theorem raise_reserve (r : Records) (e : Entry) (q : Reason) : (r.raise e q).reserve = r.reserve := rfl
@[simp] theorem raise_waitList (r : Records) (e : Entry) (q : Reason) : (r.raise e q).waitList = r.waitList := rfl
@[simp] theorem raise_slots (r : Records) (e : Entry) (q : Reason) : (r.raise e q).slots = r.slots := rfl
@[simp] theorem raise_windows (r : Records) (e : Entry) (q : Reason) : (r.raise e q).windows = r.windows := rfl
@[simp] theorem raise_cards (r : Records) (e : Entry) (q : Reason) : (r.raise e q).cards = r.cards := rfl
@[simp] theorem raise_workList (r : Records) (e : Entry) (q : Reason) : (r.raise e q).workList = r.workList := rfl
@[simp] theorem raise_inFlight (r : Records) (e : Entry) (q : Reason) : (r.raise e q).inFlight = r.inFlight := rfl
@[simp] theorem raise_lineGuard (r : Records) (e : Entry) (q : Reason) : (r.raise e q).lineGuard = r.lineGuard := rfl
@[simp] theorem raise_raised (r : Records) (e : Entry) (q : Reason) : (r.raise e q).raised = raiseIn e q r.raised := rfl

/-! ### State -/

@[simp] theorem withRecs_resetPin (s : State) (r : Records) : (s.withRecs r).resetPin = s.resetPin := rfl
@[simp] theorem withRecs_part (s : State) (r : Records) : (s.withRecs r).part = s.part := rfl
@[simp] theorem withRecs_loader (s : State) (r : Records) : (s.withRecs r).loader = s.loader := rfl
@[simp] theorem withRecs_port (s : State) (r : Records) : (s.withRecs r).port = s.port := rfl
@[simp] theorem withRecs_recs (s : State) (r : Records) : (s.withRecs r).recs = r := rfl
@[simp] theorem withRecs_link (s : State) (r : Records) : (s.withRecs r).link = s.link := rfl
@[simp] theorem withRecs_bus (s : State) (r : Records) : (s.withRecs r).bus = s.bus := rfl
@[simp] theorem withRecs_audio (s : State) (r : Records) : (s.withRecs r).audio = s.audio := rfl
@[simp] theorem withRecs_pending (s : State) (r : Records) : (s.withRecs r).pending = s.pending := rfl

@[simp] theorem withLink_resetPin (s : State) (l : Link) : (s.withLink l).resetPin = s.resetPin := rfl
@[simp] theorem withLink_part (s : State) (l : Link) : (s.withLink l).part = s.part := rfl
@[simp] theorem withLink_loader (s : State) (l : Link) : (s.withLink l).loader = s.loader := rfl
@[simp] theorem withLink_port (s : State) (l : Link) : (s.withLink l).port = s.port := rfl
@[simp] theorem withLink_recs (s : State) (l : Link) : (s.withLink l).recs = s.recs := rfl
@[simp] theorem withLink_link (s : State) (l : Link) : (s.withLink l).link = l := rfl
@[simp] theorem withLink_bus (s : State) (l : Link) : (s.withLink l).bus = s.bus := rfl
@[simp] theorem withLink_audio (s : State) (l : Link) : (s.withLink l).audio = s.audio := rfl
@[simp] theorem withLink_pending (s : State) (l : Link) : (s.withLink l).pending = s.pending := rfl

@[simp] theorem answered_resetPin (s : State) (q : Request) (rest : List Request) (c : ResultCode) (body : List Byte) : (s.answered q rest c body).resetPin = s.resetPin := rfl
@[simp] theorem answered_part (s : State) (q : Request) (rest : List Request) (c : ResultCode) (body : List Byte) : (s.answered q rest c body).part = s.part := rfl
@[simp] theorem answered_loader (s : State) (q : Request) (rest : List Request) (c : ResultCode) (body : List Byte) : (s.answered q rest c body).loader = s.loader := rfl
@[simp] theorem answered_port (s : State) (q : Request) (rest : List Request) (c : ResultCode) (body : List Byte) : (s.answered q rest c body).port = { s.port with requests := rest, results := s.port.results ++ [⟨q.tag, q.code, c, body⟩], frame := frameAfter q.flags c } := rfl
@[simp] theorem answered_recs (s : State) (q : Request) (rest : List Request) (c : ResultCode) (body : List Byte) : (s.answered q rest c body).recs = s.recs := rfl
@[simp] theorem answered_link (s : State) (q : Request) (rest : List Request) (c : ResultCode) (body : List Byte) : (s.answered q rest c body).link = s.link := rfl
@[simp] theorem answered_bus (s : State) (q : Request) (rest : List Request) (c : ResultCode) (body : List Byte) : (s.answered q rest c body).bus = s.bus := rfl
@[simp] theorem answered_audio (s : State) (q : Request) (rest : List Request) (c : ResultCode) (body : List Byte) : (s.answered q rest c body).audio = s.audio := rfl
@[simp] theorem answered_pending (s : State) (q : Request) (rest : List Request) (c : ResultCode) (body : List Byte) : (s.answered q rest c body).pending = s.pending := rfl

@[simp] theorem holding_resetPin (s : State) (q : Request) (rest : List Request) (j : Job) : (s.holding q rest j).resetPin = s.resetPin := rfl
@[simp] theorem holding_part (s : State) (q : Request) (rest : List Request) (j : Job) : (s.holding q rest j).part = s.part := rfl
@[simp] theorem holding_loader (s : State) (q : Request) (rest : List Request) (j : Job) : (s.holding q rest j).loader = s.loader := rfl
@[simp] theorem holding_port (s : State) (q : Request) (rest : List Request) (j : Job) : (s.holding q rest j).port = { s.port with requests := rest, executor := some ⟨q.tag, q.code, q.flags, j, false⟩ } := rfl
@[simp] theorem holding_recs (s : State) (q : Request) (rest : List Request) (j : Job) : (s.holding q rest j).recs = s.recs := rfl
@[simp] theorem holding_link (s : State) (q : Request) (rest : List Request) (j : Job) : (s.holding q rest j).link = s.link := rfl
@[simp] theorem holding_bus (s : State) (q : Request) (rest : List Request) (j : Job) : (s.holding q rest j).bus = s.bus := rfl
@[simp] theorem holding_audio (s : State) (q : Request) (rest : List Request) (j : Job) : (s.holding q rest j).audio = s.audio := rfl
@[simp] theorem holding_pending (s : State) (q : Request) (rest : List Request) (j : Job) : (s.holding q rest j).pending = s.pending := rfl

@[simp] theorem completed_resetPin (s : State) (h : Held) (c : ResultCode) (body : List Byte) : (s.completed h c body).resetPin = s.resetPin := rfl
@[simp] theorem completed_part (s : State) (h : Held) (c : ResultCode) (body : List Byte) : (s.completed h c body).part = s.part := rfl
@[simp] theorem completed_loader (s : State) (h : Held) (c : ResultCode) (body : List Byte) : (s.completed h c body).loader = s.loader := rfl
@[simp] theorem completed_port (s : State) (h : Held) (c : ResultCode) (body : List Byte) : (s.completed h c body).port = { s.port with results := s.port.results ++ [⟨h.tag, h.code, c, body⟩], executor := none, frame := frameAfter h.flags c } := rfl
@[simp] theorem completed_recs (s : State) (h : Held) (c : ResultCode) (body : List Byte) : (s.completed h c body).recs = s.recs := rfl
@[simp] theorem completed_link (s : State) (h : Held) (c : ResultCode) (body : List Byte) : (s.completed h c body).link = s.link := rfl
@[simp] theorem completed_bus (s : State) (h : Held) (c : ResultCode) (body : List Byte) : (s.completed h c body).bus = s.bus := rfl
@[simp] theorem completed_audio (s : State) (h : Held) (c : ResultCode) (body : List Byte) : (s.completed h c body).audio = s.audio := rfl
@[simp] theorem completed_pending (s : State) (h : Held) (c : ResultCode) (body : List Byte) : (s.completed h c body).pending = s.pending := rfl

@[simp] theorem modPres_state (l : Link) (p : Fin 48) (f : Presence → Presence) : (l.modPres p f).state = l.state := rfl
@[simp] theorem modPres_policy (l : Link) (p : Fin 48) (f : Presence → Presence) : (l.modPres p f).policy = l.policy := rfl
@[simp] theorem modPres_admission (l : Link) (p : Fin 48) (f : Presence → Presence) : (l.modPres p f).admission = l.admission := rfl
@[simp] theorem modPres_parked (l : Link) (p : Fin 48) (f : Presence → Presence) : (l.modPres p f).parked = l.parked := rfl
@[simp] theorem modPres_sequence (l : Link) (p : Fin 48) (f : Presence → Presence) : (l.modPres p f).sequence = l.sequence := rfl
@[simp] theorem modPres_wanted (l : Link) (p : Fin 48) (f : Presence → Presence) : (l.modPres p f).wanted = l.wanted := rfl
@[simp] theorem modPres_waits (l : Link) (p : Fin 48) (f : Presence → Presence) : (l.modPres p f).waits = l.waits := rfl
@[simp] theorem modPres_outPtr (l : Link) (p : Fin 48) (f : Presence → Presence) : (l.modPres p f).outPtr = l.outPtr := rfl
@[simp] theorem modPres_presence (l : Link) (p : Fin 48) (f : Presence → Presence) : (l.modPres p f).presence = vset l.presence p (f (l.pres p)) := rfl
@[simp] theorem modPres_cycle (l : Link) (p : Fin 48) (f : Presence → Presence) : (l.modPres p f).cycle = l.cycle := rfl
@[simp] theorem modPres_txn (l : Link) (p : Fin 48) (f : Presence → Presence) : (l.modPres p f).txn = l.txn := rfl
@[simp] theorem modPres_recoveryWait (l : Link) (p : Fin 48) (f : Presence → Presence) : (l.modPres p f).recoveryWait = l.recoveryWait := rfl
@[simp] theorem modPres_sent (l : Link) (p : Fin 48) (f : Presence → Presence) : (l.modPres p f).sent = l.sent := rfl

@[simp] theorem endStep_state (l : Link) : (l.endStep).state = l.state := rfl
@[simp] theorem endStep_policy (l : Link) : (l.endStep).policy = l.policy := rfl
@[simp] theorem endStep_admission (l : Link) : (l.endStep).admission = l.admission := rfl
@[simp] theorem endStep_parked (l : Link) : (l.endStep).parked = l.parked := rfl
@[simp] theorem endStep_sequence (l : Link) : (l.endStep).sequence = l.sequence := rfl
@[simp] theorem endStep_wanted (l : Link) : (l.endStep).wanted = l.wanted := rfl
@[simp] theorem endStep_waits (l : Link) : (l.endStep).waits = l.waits := rfl
@[simp] theorem endStep_outPtr (l : Link) : (l.endStep).outPtr = l.outPtr := rfl
@[simp] theorem endStep_presence (l : Link) : (l.endStep).presence = l.presence := rfl
@[simp] theorem endStep_cycle (l : Link) : (l.endStep).cycle = l.cycle.succ := rfl
@[simp] theorem endStep_txn (l : Link) : (l.endStep).txn = none := rfl
@[simp] theorem endStep_recoveryWait (l : Link) : (l.endStep).recoveryWait = l.recoveryWait := rfl
@[simp] theorem endStep_sent (l : Link) : (l.endStep).sent = l.sent := rfl

@[simp] theorem begin_state (l : Link) (sc : Scope) (owned : Bool) : (l.begin sc owned).state = l.state := rfl
@[simp] theorem begin_policy (l : Link) (sc : Scope) (owned : Bool) : (l.begin sc owned).policy = l.policy := rfl
@[simp] theorem begin_admission (l : Link) (sc : Scope) (owned : Bool) : (l.begin sc owned).admission = l.admission := rfl
@[simp] theorem begin_parked (l : Link) (sc : Scope) (owned : Bool) : (l.begin sc owned).parked = l.parked := rfl
@[simp] theorem begin_sequence (l : Link) (sc : Scope) (owned : Bool) : (l.begin sc owned).sequence = some ⟨sc, 0, owned, 0, 0⟩ := rfl
@[simp] theorem begin_wanted (l : Link) (sc : Scope) (owned : Bool) : (l.begin sc owned).wanted = false := rfl
@[simp] theorem begin_waits (l : Link) (sc : Scope) (owned : Bool) : (l.begin sc owned).waits = l.waits := rfl
@[simp] theorem begin_outPtr (l : Link) (sc : Scope) (owned : Bool) : (l.begin sc owned).outPtr = l.outPtr := rfl
@[simp] theorem begin_presence (l : Link) (sc : Scope) (owned : Bool) : (l.begin sc owned).presence = l.presence := rfl
@[simp] theorem begin_cycle (l : Link) (sc : Scope) (owned : Bool) : (l.begin sc owned).cycle = .window := rfl
@[simp] theorem begin_txn (l : Link) (sc : Scope) (owned : Bool) : (l.begin sc owned).txn = l.txn := rfl
@[simp] theorem begin_recoveryWait (l : Link) (sc : Scope) (owned : Bool) : (l.begin sc owned).recoveryWait = l.recoveryWait := rfl
@[simp] theorem begin_sent (l : Link) (sc : Scope) (owned : Bool) : (l.begin sc owned).sent = l.sent := rfl

end Sys2Proof.Machine
end

