-- ==== Sys2Proof/Laws/Ops.lean ====
section
/-!
SUPPORT. What the named operations over the shared records do: reading after a write, what a mark may change, what a move leaves alone, and what settling a step leaves alone.
-/
namespace Sys2Proof.Machine

/-! ### Reading after a write -/

theorem line?_setLine (r : Records) (id j : Nat) (l : Line) : (r.setLine id l).line? j = if j = id then some l else r.line? j :=
  Table.find_put ..
@[simp] theorem line?_setLine_same (r : Records) (id : Nat) (l : Line) : (r.setLine id l).line? id = some l := by simp [line?_setLine]
theorem group?_setGroup (r : Records) (g j : Nat) (x : Group) : (r.setGroup g x).group? j = if j = g then some x else r.group? j :=
  Table.find_put ..
@[simp] theorem group?_setGroup_same (r : Records) (g : Nat) (x : Group) : (r.setGroup g x).group? g = some x := by simp [group?_setGroup]
theorem member?_setMember (r : Records) (m j : Nat) (x : Member) : (r.setMember m x).member? j = if j = m then some x else r.member? j :=
  Table.find_put ..
@[simp] theorem member?_setMember_same (r : Records) (m : Nat) (x : Member) : (r.setMember m x).member? m = some x := by
  simp [member?_setMember]
theorem pos_modPos (r : Records) (p q : Fin 48) (f : Position → Position) : (r.modPos p f).pos q = if q = p then f (r.pos p) else r.pos q :=
  vget_vset ..
@[simp] theorem pos_modPos_same (r : Records) (p : Fin 48) (f : Position → Position) : (r.modPos p f).pos p = f (r.pos p) := by
  simp [pos_modPos]
theorem card_modCard (r : Records) (c k : Fin 32) (f : Card → Card) : (r.modCard c f).card k = if k = c then f (r.card c) else r.card k :=
  vget_vset ..
@[simp] theorem card_modCard_same (r : Records) (c : Fin 32) (f : Card → Card) : (r.modCard c f).card c = f (r.card c) := by
  simp [card_modCard]
theorem pres_modPres (l : Link) (p q : Fin 48) (f : Presence → Presence) : (l.modPres p f).pres q = if q = p then f (l.pres p) else l.pres q :=
  vget_vset ..
@[simp] theorem pres_modPres_same (l : Link) (p : Fin 48) (f : Presence → Presence) : (l.modPres p f).pres p = f (l.pres p) := by
  simp [pres_modPres]

/-- A write of what stands there changes nothing. -/
theorem modPos_self (r : Records) (p : Fin 48) (f : Position → Position) (h : f (r.pos p) = r.pos p) : r.modPos p f = r := by
  cases r
  simp only [Records.modPos, Records.pos] at h ⊢
  rw [h, vset_vget]

@[simp] theorem line?_modPos (r : Records) (p : Fin 48) (f : Position → Position) (j : Nat) : (r.modPos p f).line? j = r.line? j := rfl
@[simp] theorem line?_modCard (r : Records) (c : Fin 32) (f : Card → Card) (j : Nat) : (r.modCard c f).line? j = r.line? j := rfl
@[simp] theorem line?_raise (r : Records) (e : Entry) (q : Reason) (j : Nat) : (r.raise e q).line? j = r.line? j := rfl
@[simp] theorem line?_setGroup (r : Records) (g : Nat) (x : Group) (j : Nat) : (r.setGroup g x).line? j = r.line? j := rfl
@[simp] theorem line?_setMember (r : Records) (m : Nat) (x : Member) (j : Nat) : (r.setMember m x).line? j = r.line? j := rfl
@[simp] theorem group?_modPos (r : Records) (p : Fin 48) (f : Position → Position) (j : Nat) : (r.modPos p f).group? j = r.group? j := rfl
@[simp] theorem group?_raise (r : Records) (e : Entry) (q : Reason) (j : Nat) : (r.raise e q).group? j = r.group? j := rfl
@[simp] theorem group?_setLine (r : Records) (id : Nat) (l : Line) (j : Nat) : (r.setLine id l).group? j = r.group? j := rfl
@[simp] theorem group?_setMember (r : Records) (m : Nat) (x : Member) (j : Nat) : (r.setMember m x).group? j = r.group? j := rfl
@[simp] theorem member?_modPos (r : Records) (p : Fin 48) (f : Position → Position) (j : Nat) : (r.modPos p f).member? j = r.member? j := rfl
@[simp] theorem member?_raise (r : Records) (e : Entry) (q : Reason) (j : Nat) : (r.raise e q).member? j = r.member? j := rfl
@[simp] theorem member?_setLine (r : Records) (id : Nat) (l : Line) (j : Nat) : (r.setLine id l).member? j = r.member? j := rfl
@[simp] theorem member?_setGroup (r : Records) (g : Nat) (x : Group) (j : Nat) : (r.setGroup g x).member? j = r.member? j := rfl
@[simp] theorem pos_setLine (r : Records) (id : Nat) (l : Line) (p : Fin 48) : (r.setLine id l).pos p = r.pos p := rfl
@[simp] theorem pos_setGroup (r : Records) (g : Nat) (x : Group) (p : Fin 48) : (r.setGroup g x).pos p = r.pos p := rfl
@[simp] theorem pos_setMember (r : Records) (m : Nat) (x : Member) (p : Fin 48) : (r.setMember m x).pos p = r.pos p := rfl
@[simp] theorem pos_raise (r : Records) (e : Entry) (q : Reason) (p : Fin 48) : (r.raise e q).pos p = r.pos p := rfl
@[simp] theorem pos_modCard (r : Records) (c : Fin 32) (f : Card → Card) (p : Fin 48) : (r.modCard c f).pos p = r.pos p := rfl
@[simp] theorem card_modPos (r : Records) (p : Fin 48) (f : Position → Position) (c : Fin 32) : (r.modPos p f).card c = r.card c := rfl
@[simp] theorem card_setLine (r : Records) (id : Nat) (l : Line) (c : Fin 32) : (r.setLine id l).card c = r.card c := rfl
@[simp] theorem card_raise (r : Records) (e : Entry) (q : Reason) (c : Fin 32) : (r.raise e q).card c = r.card c := rfl

theorem line?_modLine (r : Records) (id j : Nat) (f : Line → Line) :
    (r.modLine id f).line? j = if j = id then (r.line? id).map f else r.line? j := by
  unfold Records.modLine
  split
  · rename_i l h
    rw [line?_setLine]
    split <;> simp_all
  · rename_i h
    split <;> simp_all

theorem modLine_of_some {r : Records} {id : Nat} {l : Line} (f : Line → Line) (h : r.line? id = some l) : r.modLine id f = r.setLine id (f l) := by
  simp [Records.modLine, h]

theorem member?_modMember (r : Records) (m j : Nat) (f : Member → Member) :
    (r.modMember m f).member? j = if j = m then (r.member? m).map f else r.member? j := by
  unfold Records.modMember
  split
  · rename_i l h
    rw [member?_setMember]
    split <;> simp_all
  · rename_i h
    split <;> simp_all

theorem modMember_of_some {r : Records} {m : Nat} {x : Member} (f : Member → Member) (h : r.member? m = some x) :
    r.modMember m f = r.setMember m (f x) := by simp [Records.modMember, h]

theorem modGroup_of_some {r : Records} {g : Nat} {x : Group} (f : Group → Group) (h : r.group? g = some x) :
    r.modGroup g f = r.setGroup g (f x) := by simp [Records.modGroup, h]

/-! ### Marks change the lamp and channel marks of positions only -/

/-- r' is r but for the lamp and channel marks of its positions. -/
def MarksOnly (r r' : Records) : Prop :=
  r' = { r with positions := r'.positions } ∧
  ∀ p, r'.pos p = { r.pos p with lampPending := (r'.pos p).lampPending, channelPending := (r'.pos p).channelPending }

theorem MarksOnly.refl (r : Records) : MarksOnly r r := ⟨rfl, fun _ => rfl⟩

theorem MarksOnly.trans {a b c : Records} (h1 : MarksOnly a b) (h2 : MarksOnly b c) : MarksOnly a c := by
  refine ⟨?_, fun p => ?_⟩
  · rw [h2.1, h1.1]
  · rw [h2.2 p, h1.2 p]

theorem MarksOnly.foldl {α : Type} {f : Records → α → Records} (h : ∀ r a, MarksOnly r (f r a)) (xs : List α) (r : Records) :
    MarksOnly r (xs.foldl f r) := by
  induction xs generalizing r with
  | nil => exact .refl r
  | cons a xs ih => exact (h r a).trans (ih _)

theorem marksOnly_modPos (r : Records) (p : Fin 48) (f : Position → Position)
    (hf : ∀ x : Position, f x = { x with lampPending := (f x).lampPending, channelPending := (f x).channelPending }) :
    MarksOnly r (r.modPos p f) := by
  refine ⟨rfl, fun q => ?_⟩
  rw [pos_modPos]
  split
  · rename_i h; subst h; exact hf _
  · rfl

theorem markLamp_marksOnly (p : Fin 48) (k : Nat) (r : Records) : MarksOnly r (r.markLamp p k) := by
  unfold Records.markLamp
  split
  · exact marksOnly_modPos r p _ (fun x => rfl)
  · exact .refl r

theorem markChannel_marksOnly (p : Fin 48) (n : Fin 8) (r : Records) : MarksOnly r (r.markChannel p n) := by
  unfold Records.markChannel
  split
  · exact marksOnly_modPos r p _ (fun x => rfl)
  · exact .refl r

theorem markLine_marksOnly (id : Nat) (r : Records) : MarksOnly r (r.markLine id) :=
  MarksOnly.foldl (fun r _ => markLamp_marksOnly _ _ r) _ r

theorem markMember_marksOnly (k : MemberKind) (r : Records) : MarksOnly r (r.markMember k) := by
  cases k with
  | position p n => exact markChannel_marksOnly p n r
  | circuit _ => exact .refl r

theorem markGroup_marksOnly (g : Nat) (r : Records) : MarksOnly r (r.markGroup g) :=
  MarksOnly.foldl (fun r _ => markMember_marksOnly _ r) _ r

/-- A mark of keys leaves the channel marks alone. -/
theorem markLine_channelPending (id : Nat) (r : Records) (p : Fin 48) : ((r.markLine id).pos p).channelPending = (r.pos p).channelPending := by
  unfold Records.markLine
  generalize r.appearancesOf id = xs
  induction xs generalizing r with
  | nil => rfl
  | cons e xs ih =>
    rw [List.foldl_cons, ih]
    unfold Records.markLamp
    split
    · rw [pos_modPos]; split
      · rename_i h; subst h; rfl
      · rfl
    · rfl

/-- The fields that no mark touches. -/
theorem MarksOnly.fields {r r' : Records} (h : MarksOnly r r') :
    r'.lines = r.lines ∧ r'.appearances = r.appearances ∧ r'.dispositions = r.dispositions ∧ r'.groups = r.groups ∧ r'.members = r.members ∧
    r'.bridges = r.bridges ∧ r'.reserve = r.reserve ∧ r'.waitList = r.waitList ∧ r'.slots = r.slots ∧ r'.windows = r.windows ∧
    r'.cards = r.cards ∧ r'.workList = r.workList ∧ r'.inFlight = r.inFlight ∧ r'.lineGuard = r.lineGuard ∧ r'.raised = r.raised := by
  rw [h.1]; simp

@[simp] theorem markLine_lines (id : Nat) (r : Records) : (r.markLine id).lines = r.lines := (markLine_marksOnly id r).fields.1
@[simp] theorem markLine_appearances (id : Nat) (r : Records) : (r.markLine id).appearances = r.appearances := (markLine_marksOnly id r).fields.2.1
@[simp] theorem markLine_groups (id : Nat) (r : Records) : (r.markLine id).groups = r.groups := (markLine_marksOnly id r).fields.2.2.2.1
@[simp] theorem markLine_members (id : Nat) (r : Records) : (r.markLine id).members = r.members := (markLine_marksOnly id r).fields.2.2.2.2.1
@[simp] theorem markLine_bridges (id : Nat) (r : Records) : (r.markLine id).bridges = r.bridges := (markLine_marksOnly id r).fields.2.2.2.2.2.1
@[simp] theorem markLine_reserve (id : Nat) (r : Records) : (r.markLine id).reserve = r.reserve := (markLine_marksOnly id r).fields.2.2.2.2.2.2.1
@[simp] theorem markLine_slots (id : Nat) (r : Records) : (r.markLine id).slots = r.slots := (markLine_marksOnly id r).fields.2.2.2.2.2.2.2.2.1
@[simp] theorem markLine_inFlight (id : Nat) (r : Records) : (r.markLine id).inFlight = r.inFlight :=
  (markLine_marksOnly id r).fields.2.2.2.2.2.2.2.2.2.2.2.2.1
@[simp] theorem markLine_raised (id : Nat) (r : Records) : (r.markLine id).raised = r.raised :=
  (markLine_marksOnly id r).fields.2.2.2.2.2.2.2.2.2.2.2.2.2.2
@[simp] theorem line?_markLine (id j : Nat) (r : Records) : (r.markLine id).line? j = r.line? j := by simp [Records.line?]
@[simp] theorem markGroup_lines (g : Nat) (r : Records) : (r.markGroup g).lines = r.lines := (markGroup_marksOnly g r).fields.1
@[simp] theorem markGroup_groups (g : Nat) (r : Records) : (r.markGroup g).groups = r.groups := (markGroup_marksOnly g r).fields.2.2.2.1
@[simp] theorem markGroup_members (g : Nat) (r : Records) : (r.markGroup g).members = r.members := (markGroup_marksOnly g r).fields.2.2.2.2.1
@[simp] theorem markGroup_raised (g : Nat) (r : Records) : (r.markGroup g).raised = r.raised :=
  (markGroup_marksOnly g r).fields.2.2.2.2.2.2.2.2.2.2.2.2.2.2

/-! ### Raised reasons -/

theorem mem_addReason {q x : Reason} {s : List Reason} : x ∈ addReason q s ↔ x = q ∨ x ∈ s := by
  induction s with
  | nil => simp [addReason]
  | cons y t ih =>
    simp only [addReason]
    split
    · simp
    · split
      · rename_i h; subst h; simp
      · simp [ih]; tauto

theorem reasons_find (e : Entry) (q : Reason) (s : List (Entry × List Reason)) :
    ∃ xs, (raiseIn e q s).find? (fun x => x.1 == e) = some (e, xs) ∧ q ∈ xs := by
  induction s with
  | nil => exact ⟨[q], by simp [raiseIn], by simp⟩
  | cons a t ih =>
    obtain ⟨f, xs⟩ := a
    simp only [raiseIn]
    split
    · exact ⟨[q], by simp, by simp⟩
    · split
      · rename_i h; subst h
        exact ⟨addReason q xs, by simp, mem_addReason.mpr (.inl rfl)⟩
      · rename_i h1 h2
        obtain ⟨ys, hy, hq⟩ := ih
        exact ⟨ys, by simp [show (f == e) = false by simp [Ne.symm h2], hy], hq⟩

/-- R193: a raised reason stands in the entry's set. -/
theorem mem_reasons_raise (r : Records) (e : Entry) (q : Reason) : q ∈ (r.raise e q).reasons e := by
  obtain ⟨xs, hx, hq⟩ := reasons_find e q r.raised
  simp [Records.reasons, hx, hq]

theorem raiseIn_other {e f : Entry} (q : Reason) (s : List (Entry × List Reason)) (h : f ≠ e) :
    (raiseIn e q s).find? (fun x => x.1 == f) = s.find? (fun x => x.1 == f) := by
  induction s with
  | nil => simp [raiseIn, Ne.symm h]
  | cons a t ih =>
    obtain ⟨k, xs⟩ := a
    simp only [raiseIn]
    split
    · simp [List.find?_cons, Ne.symm h]
    · split
      · rename_i h2; subst h2
        simp [show (e == f) = false by simp [Ne.symm h]]
      · simp only [List.find?_cons, ih]

/-- Raising a reason at one entry leaves the sets of the others alone. -/
theorem reasons_raise_other {e f : Entry} (q : Reason) (r : Records) (h : f ≠ e) : (r.raise e q).reasons f = r.reasons f := by
  simp only [Records.reasons, raise_raised, raiseIn_other q r.raised h]

/-- q stands in the set of entry e, and no entry before it ranks higher: what every later raise keeps. -/
def Standing (e : Entry) (q : Reason) : List (Entry × List Reason) → Prop
  | [] => False
  | (f, xs) :: t => (f = e ∧ q ∈ xs) ∨ (f ≠ e ∧ f.rank ≤ e.rank ∧ Standing e q t)

theorem Standing.raised (e : Entry) (q : Reason) (s : List (Entry × List Reason)) : Standing e q (raiseIn e q s) := by
  induction s with
  | nil => exact .inl ⟨rfl, by simp⟩
  | cons a t ih =>
    obtain ⟨f, xs⟩ := a
    simp only [raiseIn]
    split
    · exact .inl ⟨rfl, by simp⟩
    · split
      · rename_i h; exact .inl ⟨h.symm, mem_addReason.mpr (.inl rfl)⟩
      · rename_i h1 h2; exact .inr ⟨Ne.symm h2, by omega, ih⟩

theorem Standing.raiseIn {e : Entry} {q : Reason} {s : List (Entry × List Reason)} (h : Standing e q s) (f : Entry) (q' : Reason) :
    Standing e q (raiseIn f q' s) := by
  induction s with
  | nil => cases h
  | cons a t ih =>
    obtain ⟨k, xs⟩ := a
    simp only [Machine.raiseIn]
    split
    · rename_i hr
      by_cases hf : f = e
      · rcases h with ⟨h1, _⟩ | ⟨_, h2, _⟩
        · subst h1; subst hf; omega
        · subst hf; omega
      · refine .inr ⟨hf, ?_, h⟩
        rcases h with ⟨h1, _⟩ | ⟨_, h2, _⟩
        · subst h1; omega
        · omega
    · split
      · rcases h with ⟨h1, h2⟩ | h
        · exact .inl ⟨h1, mem_addReason.mpr (.inr h2)⟩
        · exact .inr h
      · rcases h with h | ⟨h1, h2, h3⟩
        · exact .inl h
        · exact .inr ⟨h1, h2, ih h3⟩

theorem Standing.mem {e : Entry} {q : Reason} {r : Records} (h : Standing e q r.raised) : q ∈ r.reasons e := by
  have key : ∀ s : List (Entry × List Reason), Standing e q s → ∃ xs, s.find? (fun x => x.1 == e) = some (e, xs) ∧ q ∈ xs := by
    intro s
    induction s with
    | nil => intro h; cases h
    | cons a t ih =>
      obtain ⟨k, xs⟩ := a
      rintro (⟨h1, h2⟩ | ⟨h1, _, h3⟩)
      · subst h1; exact ⟨xs, by simp, h2⟩
      · simpa [h1] using ih h3
  obtain ⟨xs, h1, h2⟩ := key _ h
  simp [Records.reasons, h1, h2]

/-- b is a with reasons raised in it. -/
def Grown (a b : List (Entry × List Reason)) : Prop := ∃ es : List (Entry × Reason), b = es.foldl (fun s x => raiseIn x.1 x.2 s) a

theorem Grown.refl (a : List (Entry × List Reason)) : Grown a a := ⟨[], rfl⟩

theorem Grown.trans {a b c : List (Entry × List Reason)} (h : Grown a b) (k : Grown b c) : Grown a c := by
  obtain ⟨xs, rfl⟩ := h
  obtain ⟨ys, rfl⟩ := k
  exact ⟨xs ++ ys, by rw [List.foldl_append]⟩

theorem Grown.raise (e : Entry) (q : Reason) (a : List (Entry × List Reason)) : Grown a (raiseIn e q a) := ⟨[(e, q)], rfl⟩

theorem Grown.standing {a b : List (Entry × List Reason)} (h : Grown a b) {e : Entry} {q : Reason} (hs : Standing e q a) : Standing e q b := by
  obtain ⟨es, rfl⟩ := h
  induction es generalizing a with
  | nil => exact hs
  | cons x es ih => exact ih (hs.raiseIn x.1 x.2)

/-- A reason raised, with others raised after it, stands in its entry's set. -/
theorem mem_reasons_of_grown {r r' : Records} {e : Entry} {q : Reason} (h : Grown (r.raise e q).raised r'.raised) : q ∈ r'.reasons e :=
  (h.standing (Standing.raised e q r.raised)).mem

/-- R195: the entries stand in the order of their rank, and raising a reason keeps them so. -/
theorem pairwise_raiseIn {s : List (Entry × List Reason)} (h : s.Pairwise (fun a b => a.1.rank ≤ b.1.rank)) (e : Entry) (q : Reason) :
    (raiseIn e q s).Pairwise (fun a b => a.1.rank ≤ b.1.rank) ∧ ∀ x ∈ raiseIn e q s, x.1 = e ∨ ∃ y ∈ s, y.1 = x.1 := by
  induction s with
  | nil => simp [raiseIn]
  | cons a t ih =>
    obtain ⟨f, xs⟩ := a
    have h0 := List.pairwise_cons.mp h
    obtain ⟨i1, i2⟩ := ih h0.2
    simp only [raiseIn]
    split
    · rename_i hr
      refine ⟨List.pairwise_cons.mpr ⟨fun y hy => ?_, h⟩, fun x hx => ?_⟩
      · rcases List.mem_cons.mp hy with rfl | hy
        · simp; omega
        · have := h0.1 y hy; simp at this ⊢; omega
      · rcases List.mem_cons.mp hx with rfl | hx
        · exact .inl rfl
        · exact .inr ⟨x, hx, rfl⟩
    · split
      · refine ⟨List.pairwise_cons.mpr ⟨fun y hy => h0.1 y hy, h0.2⟩, fun x hx => ?_⟩
        rcases List.mem_cons.mp hx with rfl | hx
        · exact .inr ⟨(f, xs), by simp, rfl⟩
        · exact .inr ⟨x, by simp [hx], rfl⟩
      · rename_i h1 h2
        refine ⟨List.pairwise_cons.mpr ⟨fun y hy => ?_, i1⟩, fun x hx => ?_⟩
        · rcases i2 y hy with he | ⟨z, hz, he⟩
          · rw [he]; simp; omega
          · rw [← he]; exact h0.1 z hz
        · rcases List.mem_cons.mp hx with rfl | hx
          · exact .inr ⟨(f, xs), by simp, rfl⟩
          · rcases i2 x hx with he | ⟨z, hz, he⟩
            · exact .inl he
            · exact .inr ⟨z, by simp [hz], he⟩

end Sys2Proof.Machine
end

