-- ==== Sys2Proof/Laws/Lines.lean ====
section
/-!
SUPPORT. What moves of a line, slot offers, retirements and the end of a step leave alone, and what the end of a step establishes.
-/
namespace Sys2Proof.Machine

/-! ### What line work leaves alone -/

/-- r' differs from r at most in lines, appearances, slots, the port work list with its guard, raised reasons, and lamp marks. -/
structure LineWork (r r' : Records) : Prop where
  dispositions : r'.dispositions = r.dispositions
  groups : r'.groups = r.groups
  members : r'.members = r.members
  bridges : r'.bridges = r.bridges
  reserve : r'.reserve = r.reserve
  waitList : r'.waitList = r.waitList
  windows : r'.windows = r.windows
  cards : r'.cards = r.cards
  inFlight : r'.inFlight = r.inFlight
  pos : ∀ p, r'.pos p = { r.pos p with lampPending := (r'.pos p).lampPending }

theorem LineWork.refl (r : Records) : LineWork r r := ⟨rfl, rfl, rfl, rfl, rfl, rfl, rfl, rfl, rfl, fun _ => rfl⟩

theorem LineWork.trans {a b c : Records} (h : LineWork a b) (k : LineWork b c) : LineWork a c where
  dispositions := k.dispositions.trans h.dispositions
  groups := k.groups.trans h.groups
  members := k.members.trans h.members
  bridges := k.bridges.trans h.bridges
  reserve := k.reserve.trans h.reserve
  waitList := k.waitList.trans h.waitList
  windows := k.windows.trans h.windows
  cards := k.cards.trans h.cards
  inFlight := k.inFlight.trans h.inFlight
  pos p := by rw [k.pos p, h.pos p]

theorem LineWork.foldl {α : Type} {f : Records → α → Records} (h : ∀ r a, LineWork r (f r a)) (xs : List α) (r : Records) :
    LineWork r (xs.foldl f r) := by
  induction xs generalizing r with
  | nil => exact .refl r
  | cons a xs ih => exact (h r a).trans (ih _)

theorem LineWork.of_positions_eq {r r' : Records} (h1 : r'.positions = r.positions) (h2 : r'.dispositions = r.dispositions)
    (h3 : r'.groups = r.groups) (h4 : r'.members = r.members) (h5 : r'.bridges = r.bridges) (h6 : r'.reserve = r.reserve)
    (h7 : r'.waitList = r.waitList) (h8 : r'.windows = r.windows) (h9 : r'.cards = r.cards) (h10 : r'.inFlight = r.inFlight) :
    LineWork r r' := ⟨h2, h3, h4, h5, h6, h7, h8, h9, h10, fun p => by simp [Records.pos, h1]⟩

theorem lineWork_setLine (id : Nat) (l : Line) (r : Records) : LineWork r (r.setLine id l) := .of_positions_eq rfl rfl rfl rfl rfl rfl rfl rfl rfl rfl
theorem lineWork_raise (e : Entry) (q : Reason) (r : Records) : LineWork r (r.raise e q) := .of_positions_eq rfl rfl rfl rfl rfl rfl rfl rfl rfl rfl

theorem lineWork_slots (xs : Table Nat) (r : Records) : LineWork r { r with slots := xs } := .of_positions_eq rfl rfl rfl rfl rfl rfl rfl rfl rfl rfl

theorem lineWork_modLine (id : Nat) (f : Line → Line) (r : Records) : LineWork r (r.modLine id f) := by
  unfold Records.modLine
  split
  · exact lineWork_setLine ..
  · exact .refl r

theorem lineWork_markLine (id : Nat) (r : Records) : LineWork r (r.markLine id) := by
  have h := (markLine_marksOnly id r)
  refine ⟨by rw [h.1], by rw [h.1], by rw [h.1], by rw [h.1], by rw [h.1], by rw [h.1], by rw [h.1], by rw [h.1], by rw [h.1], fun p => ?_⟩
  have h2 := h.2 p
  rw [markLine_channelPending] at h2
  exact h2

theorem lineWork_moveLine (id : Nat) (st : LineState) (r : Records) : LineWork r (r.moveLine id st) := by
  unfold Records.moveLine
  split
  · exact .refl r
  · rename_i l h
    have h1 : LineWork r (if st.isOos = true ∧ l.state ≠ st then (r.setLine id (l.enter st)).raise (.line id) .fault else r.setLine id (l.enter st)) := by
      split
      · exact (lineWork_setLine ..).trans (lineWork_raise ..)
      · exact lineWork_setLine ..
    simp only
    split
    · exact h1
    · exact (h1.trans (lineWork_raise ..)).trans (lineWork_markLine ..)

theorem lineWork_bindSlot (id k : Nat) (r : Records) : LineWork r (r.bindSlot id k) := by
  unfold Records.bindSlot
  exact (lineWork_slots _ r).trans (lineWork_modLine ..)

theorem lineWork_offerSlot (k : Nat) (r : Records) : LineWork r (r.offerSlot k) := by
  unfold Records.offerSlot
  split
  · exact .refl r
  · exact (lineWork_bindSlot ..).trans (lineWork_moveLine ..)

theorem lineWork_freeSlot (id : Nat) (r : Records) : LineWork r (r.freeSlot id) := by
  unfold Records.freeSlot
  split
  · exact .refl r
  · split
    · exact .refl r
    · exact ((lineWork_slots _ r).trans (lineWork_setLine ..)).trans (lineWork_offerSlot ..)

theorem lineWork_settleSlots (r : Records) : LineWork r r.settleSlots := by
  unfold Records.settleSlots
  refine LineWork.foldl (fun r id => ?_) _ r
  split
  · exact lineWork_freeSlot ..
  · exact .refl r

theorem lineWork_freeLine (id : Nat) (r : Records) : LineWork r (r.freeLine id) := by
  unfold Records.freeLine
  exact (lineWork_markLine ..).trans (.of_positions_eq rfl rfl rfl rfl rfl rfl rfl rfl rfl rfl)

theorem lineWork_settleRetired (r : Records) : LineWork r r.settleRetired := by
  unfold Records.settleRetired
  exact LineWork.foldl (fun r id => (lineWork_freeLine ..).trans (lineWork_raise ..)) _ r

theorem lineWork_syncWork (r : Records) : LineWork r r.syncWork := .of_positions_eq rfl rfl rfl rfl rfl rfl rfl rfl rfl rfl

/-- What the end of a step leaves alone in the records. -/
theorem lineWork_settle (r : Records) : LineWork r r.settle :=
  ((lineWork_settleSlots r).trans (lineWork_settleRetired _)).trans (lineWork_syncWork _)

theorem finish_recs (s : State) : s.finish.recs = s.recs.settle := by
  unfold State.finish State.settleCycle
  split <;> rfl

theorem finish_link (s : State) : s.finish.link = { s.link with cycle := s.finish.link.cycle } := by
  unfold State.finish State.settleCycle
  split <;> rfl

@[simp] theorem finish_port (s : State) : s.finish.port = s.port := by unfold State.finish State.settleCycle; split <;> rfl
@[simp] theorem finish_part (s : State) : s.finish.part = s.part := by unfold State.finish State.settleCycle; split <;> rfl
@[simp] theorem finish_loader (s : State) : s.finish.loader = s.loader := by unfold State.finish State.settleCycle; split <;> rfl
@[simp] theorem finish_bus (s : State) : s.finish.bus = s.bus := by unfold State.finish State.settleCycle; split <;> rfl
@[simp] theorem finish_audio (s : State) : s.finish.audio = s.audio := by unfold State.finish State.settleCycle; split <;> rfl
@[simp] theorem finish_resetPin (s : State) : s.finish.resetPin = s.resetPin := by unfold State.finish State.settleCycle; split <;> rfl
@[simp] theorem finish_pending (s : State) : s.finish.pending = s.pending := by unfold State.finish State.settleCycle; split <;> rfl
@[simp] theorem finish_link_state (s : State) : s.finish.link.state = s.link.state := by rw [finish_link]
@[simp] theorem finish_link_policy (s : State) : s.finish.link.policy = s.link.policy := by rw [finish_link]
@[simp] theorem finish_link_admission (s : State) : s.finish.link.admission = s.link.admission := by rw [finish_link]
@[simp] theorem finish_link_parked (s : State) : s.finish.link.parked = s.link.parked := by rw [finish_link]
@[simp] theorem finish_link_sequence (s : State) : s.finish.link.sequence = s.link.sequence := by rw [finish_link]
@[simp] theorem finish_link_wanted (s : State) : s.finish.link.wanted = s.link.wanted := by rw [finish_link]
@[simp] theorem finish_link_waits (s : State) : s.finish.link.waits = s.link.waits := by rw [finish_link]
@[simp] theorem finish_link_outPtr (s : State) : s.finish.link.outPtr = s.link.outPtr := by rw [finish_link]
@[simp] theorem finish_link_presence (s : State) : s.finish.link.presence = s.link.presence := by rw [finish_link]
@[simp] theorem finish_link_txn (s : State) : s.finish.link.txn = s.link.txn := by rw [finish_link]
@[simp] theorem finish_link_recoveryWait (s : State) : s.finish.link.recoveryWait = s.link.recoveryWait := by rw [finish_link]
@[simp] theorem finish_link_sent (s : State) : s.finish.link.sent = s.link.sent := by rw [finish_link]

/-! ### Raised reasons at the end of a step -/

/-- Line work raises reasons at line entries only. -/
structure KeepsReasons (r r' : Records) : Prop where
  same : ∀ e, (∀ id, e ≠ .line id) → r'.reasons e = r.reasons e

theorem KeepsReasons.trans {a b c : Records} (h : KeepsReasons a b) (k : KeepsReasons b c) : KeepsReasons a c :=
  ⟨fun e he => (k.same e he).trans (h.same e he)⟩

theorem KeepsReasons.of_raised {r r' : Records} (h : r'.raised = r.raised) : KeepsReasons r r' := ⟨fun e _ => by simp [Records.reasons, h]⟩

theorem keepsReasons_raise (id : Nat) (q : Reason) (r : Records) : KeepsReasons r (r.raise (.line id) q) :=
  ⟨fun _ he => reasons_raise_other q r (he id)⟩

theorem KeepsReasons.foldl {α : Type} {f : Records → α → Records} (h : ∀ r a, KeepsReasons r (f r a)) (xs : List α) (r : Records) :
    KeepsReasons r (xs.foldl f r) := by
  induction xs generalizing r with
  | nil => exact .of_raised rfl
  | cons a xs ih => exact (h r a).trans (ih _)

theorem keepsReasons_modLine (id : Nat) (f : Line → Line) (r : Records) : KeepsReasons r (r.modLine id f) := by
  unfold Records.modLine
  split
  · exact .of_raised rfl
  · exact .of_raised rfl

theorem keepsReasons_moveLine (id : Nat) (st : LineState) (r : Records) : KeepsReasons r (r.moveLine id st) := by
  unfold Records.moveLine
  split
  · exact .of_raised rfl
  · rename_i l h
    have h1 : KeepsReasons r (if st.isOos = true ∧ l.state ≠ st then (r.setLine id (l.enter st)).raise (.line id) .fault else r.setLine id (l.enter st)) := by
      split
      · have h0 : KeepsReasons r (r.setLine id (l.enter st)) := .of_raised rfl
        exact h0.trans (keepsReasons_raise ..)
      · exact .of_raised rfl
    simp only
    split
    · exact h1
    · exact (h1.trans (keepsReasons_raise ..)).trans (.of_raised (markLine_raised ..))

theorem keepsReasons_bindSlot (id k : Nat) (r : Records) : KeepsReasons r (r.bindSlot id k) := by
  have h : KeepsReasons r { r with slots := Table.put k id r.slots } := .of_raised rfl
  exact h.trans (keepsReasons_modLine ..)

theorem keepsReasons_offerSlot (k : Nat) (r : Records) : KeepsReasons r (r.offerSlot k) := by
  unfold Records.offerSlot
  split
  · exact .of_raised rfl
  · exact (keepsReasons_bindSlot ..).trans (keepsReasons_moveLine ..)

theorem keepsReasons_freeSlot (id : Nat) (r : Records) : KeepsReasons r (r.freeSlot id) := by
  unfold Records.freeSlot
  split
  · exact .of_raised rfl
  · split
    · exact .of_raised rfl
    · rename_i l _ _ k _
      have h : KeepsReasons r (({ r with slots := Table.drop k r.slots } : Records).setLine id { l with slot := none }) := .of_raised rfl
      exact h.trans (keepsReasons_offerSlot ..)

theorem keepsReasons_settle (r : Records) : KeepsReasons r r.settle := by
  have h1 : KeepsReasons r r.settleSlots := by
    unfold Records.settleSlots
    refine KeepsReasons.foldl (fun r id => ?_) _ r
    split
    · exact keepsReasons_freeSlot ..
    · exact .of_raised rfl
  have h2 (r : Records) : KeepsReasons r r.settleRetired := by
    unfold Records.settleRetired
    refine KeepsReasons.foldl (fun r id => ?_) _ r
    have h : KeepsReasons r (r.freeLine id) := .of_raised (markLine_raised ..)
    exact h.trans (keepsReasons_raise ..)
  exact (h1.trans (h2 _)).trans (.of_raised rfl)

/-! ### What the end of a step establishes -/

theorem settle_lines (r : Records) : r.settle.lines = r.settleSlots.settleRetired.lines := rfl

/-- R174: after a settled step the port work list holds exactly the lines that belong on it. -/
theorem mem_workList_settle (r : Records) (id : Nat) :
    id ∈ r.settle.workList ↔ ∃ l, (id, l) ∈ r.settle.lines ∧ r.settle.differs l = true := by
  have h : ∀ r : Records, id ∈ r.syncWork.workList ↔ id ∈ r.workers := by
    intro r
    simp [Records.syncWork]
    tauto
  unfold Records.settle
  rw [h]
  exact Table.mem_idsWhere

theorem freeLine_lines (id : Nat) (r : Records) : (r.freeLine id).lines = Table.drop id r.lines := by simp [Records.freeLine]

theorem mem_lines_settleRetired (r : Records) (id : Nat) (l : Line) :
    (id, l) ∈ r.settleRetired.lines ↔ (id, l) ∈ r.lines ∧ id ∉ Table.idsWhere (fun _ l => l.lifecycle == .retiring && l.atRest) r.lines := by
  unfold Records.settleRetired
  generalize Table.idsWhere (fun _ l => l.lifecycle == .retiring && l.atRest) r.lines = ids
  induction ids generalizing r with
  | nil => simp
  | cons k ids ih =>
    rw [List.foldl_cons, ih, raise_lines, freeLine_lines, Table.mem_drop]
    simp; tauto

/-- R126: after a settled step no RETIRING line is at rest. -/
theorem atRest_of_mem_settle {r : Records} {id : Nat} {l : Line} (h : (id, l) ∈ r.settle.lines) (hr : l.lifecycle = .retiring) : l.atRest = false := by
  rw [settle_lines, mem_lines_settleRetired] at h
  obtain ⟨hm, hn⟩ := h
  by_contra hc
  exact hn (Table.mem_idsWhere.mpr ⟨l, hm, by simp [hr, hc]⟩)

theorem line?_settleRetired (r : Records) (id : Nat) :
    r.settleRetired.line? id = none ∨ r.settleRetired.line? id = r.line? id := by
  unfold Records.settleRetired
  generalize Table.idsWhere (fun _ l => l.lifecycle == .retiring && l.atRest) r.lines = ids
  induction ids generalizing r with
  | nil => exact .inr rfl
  | cons k ids ih =>
    rw [List.foldl_cons]
    rcases ih ((r.freeLine k).raise (.line k) .lineRetired) with h | h
    · exact .inl h
    · rw [h]
      simp only [Records.line?, raise_lines, freeLine_lines]
      by_cases hk : id = k
      · subst hk; simp
      · rw [Table.find_drop_other hk]; exact .inr rfl

theorem slotDue_line {r : Records} {id : Nat} (h : r.slotDue id = true) :
    ∃ l, r.line? id = some l ∧ l.slot.isSome = true ∧ l.desired.audio = false ∧ l.acknowledged.audio = false := by
  unfold Records.slotDue at h
  split at h
  · cases h
  · rename_i l hl
    simp at h
    exact ⟨l, hl, by simp [h.1.1.1], h.1.1.2, h.1.2⟩

theorem line?_moveLine (r : Records) (id j : Nat) (st : LineState) :
    (r.moveLine id st).line? j = if j = id then (r.line? id).map (fun l => l.enter st) else r.line? j := by
  unfold Records.moveLine
  split
  · rename_i h; split <;> simp_all
  · rename_i l h
    simp only
    split <;> split <;> simp only [line?_markLine, line?_raise, line?_setLine, h, Option.map_some]

theorem line?_bindSlot (r : Records) (id k j : Nat) :
    (r.bindSlot id k).line? j = if j = id then (r.line? id).map (fun l => { l with slot := some k }) else r.line? j := by
  unfold Records.bindSlot
  rw [line?_modLine]
  rfl

/-- After its slot is freed a line is not due; every other line is due only if it was. -/
theorem slotDue_freeSlot (r : Records) (id j : Nat) (h : (r.freeSlot id).slotDue j = true) : j ≠ id ∧ r.slotDue j = true ∨ r.freeSlot id = r ∧ r.slotDue j = true := by
  unfold Records.freeSlot at h ⊢
  split at h
  · exact .inr ⟨rfl, h⟩
  · rename_i l hl
    split at h
    · rename_i hs
      exact .inr ⟨by simp, h⟩
    · rename_i k hk
      left
      simp only at h
      generalize hr' : (({ r with slots := Table.drop k r.slots } : Records).setLine id { l with slot := none }) = r' at h
      have hin : r'.inFlight = r.inFlight := by subst hr'; rfl
      have hl' : ∀ j, r'.line? j = if j = id then some { l with slot := none } else r.line? j := by
        intro j; subst hr'; rw [line?_setLine]; rfl
      unfold Records.offerSlot at h
      split at h
      · unfold Records.slotDue at h
        rw [hl'] at h
        by_cases hj : j = id
        · subst hj; simp at h
        · refine ⟨hj, ?_⟩
          simp only [hj, if_false] at h
          unfold Records.slotDue
          simpa [Records.connectOutstanding, hin] using h
      · rename_i m hm
        by_cases hjm : j = m
        · subst hjm
          obtain ⟨x, hx, _, hd, _⟩ := slotDue_line h
          rw [line?_moveLine, if_pos rfl, line?_bindSlot, if_pos rfl] at hx
          cases hq : r'.line? j with
          | none => simp [hq] at hx
          | some y =>
            simp [hq] at hx
            subst hx
            simp [Line.enter, desiredFor, Cond.call] at hd
        · have hx : ((r'.bindSlot m k).moveLine m .connected).line? j = r'.line? j := by
            rw [line?_moveLine, if_neg hjm, line?_bindSlot, if_neg hjm]
          have hi : ((r'.bindSlot m k).moveLine m .connected).inFlight = r'.inFlight := ((lineWork_bindSlot m k r').trans (lineWork_moveLine m .connected _)).inFlight
          unfold Records.slotDue at h
          rw [hx, hl'] at h
          by_cases hj : j = id
          · subst hj; simp at h
          · refine ⟨hj, ?_⟩
            simp only [hj, if_false] at h
            unfold Records.slotDue
            simpa [Records.connectOutstanding, hi, hin] using h

theorem slotDue_freeSlot_self (r : Records) (id : Nat) (h : r.slotDue id = true) : (r.freeSlot id).slotDue id = false := by
  by_contra hc
  have hc : (r.freeSlot id).slotDue id = true := by simpa using hc
  obtain ⟨l, hl, hs, _⟩ := slotDue_line h
  obtain ⟨k, hk⟩ := Option.isSome_iff_exists.mp hs
  unfold Records.freeSlot at hc
  simp only [hl, hk] at hc
  unfold Records.offerSlot at hc
  generalize hr' : (({ r with slots := Table.drop k r.slots } : Records).setLine id { l with slot := none }) = r' at hc
  have hl' : r'.line? id = some { l with slot := none } := by subst hr'; simp
  split at hc
  · obtain ⟨x, hx, hxs, _⟩ := slotDue_line hc
    rw [hl'] at hx
    cases hx
    simp at hxs
  · rename_i m hm
    obtain ⟨x, hx, hxs, hd, _⟩ := slotDue_line hc
    rw [line?_moveLine, line?_bindSlot, line?_bindSlot] at hx
    by_cases hjm : id = m
    · subst hjm
      simp [hl'] at hx
      subst hx
      simp [Line.enter, desiredFor, Cond.call] at hd
    · rw [if_neg hjm, if_neg hjm, hl'] at hx
      cases hx
      simp at hxs

/-- R112: after a settled step no slot is due. -/
theorem slotDue_settleSlots (r : Records) (id : Nat) : r.settleSlots.slotDue id = false := by
  unfold Records.settleSlots
  -- the fold leaves no line of its list due, and makes no line due
  have key : ∀ (ids : List Nat) (r : Records),
      (∀ j, (ids.foldl (fun r id => if r.slotDue id then r.freeSlot id else r) r).slotDue j = true → r.slotDue j = true ∧ j ∉ ids) := by
    intro ids
    induction ids with
    | nil => intro r j h; exact ⟨h, by simp⟩
    | cons k ids ih =>
      intro r j h
      rw [List.foldl_cons] at h
      obtain ⟨h1, h2⟩ := ih _ j h
      split at h1
      · rename_i hk
        have hjk : j ≠ k := by
          rintro rfl
          rw [slotDue_freeSlot_self r j hk] at h1
          cases h1
        rcases slotDue_freeSlot r k j h1 with h3 | h3
        · exact ⟨h3.2, by simp [hjk, h2]⟩
        · exact ⟨h3.2, by simp [hjk, h2]⟩
      · rename_i hk
        refine ⟨h1, ?_⟩
        have hjk : j ≠ k := by rintro rfl; exact hk h1
        simp [hjk, h2]
  by_contra hc
  obtain ⟨h1, h2⟩ := key _ r id (by simpa using hc)
  obtain ⟨l, hl, _⟩ := slotDue_line h1
  exact h2 (Table.mem_ids hl)

theorem slotDue_settle (r : Records) (id : Nat) : r.settle.slotDue id = false := by
  by_contra hc
  have hc : r.settle.slotDue id = true := by simpa using hc
  have h0 := slotDue_settleSlots r id
  have hline : r.settle.line? id = r.settleSlots.settleRetired.line? id := rfl
  have hin : r.settle.inFlight = r.settleSlots.inFlight := ((lineWork_settleRetired _).trans (lineWork_syncWork _)).inFlight
  unfold Records.slotDue at hc h0
  rw [hline] at hc
  rcases line?_settleRetired r.settleSlots id with h | h
  · rw [h] at hc; simp at hc
  · rw [h] at hc
    simp only [Records.connectOutstanding, hin] at hc h0
    rw [h0] at hc
    cases hc

end Sys2Proof.Machine
end

