-- ==== Sys2Proof/Laws/Port.lean ====
section
/-!
SUPPORT. What taking a request, answering it, holding it and completing it do to the supervisory port, and what the four shapes of a request's meaning come to; what an SPI transaction does.
-/
namespace Sys2Proof.Machine

theorem ready_of_head {s : State} {q : Request} {rest : List Request} (h1 : s.part = .running) (h2 : s.resetPin = .released)
    (h3 : s.port.executor = none) (h4 : s.port.results.length < Config.queue) (h5 : s.port.requests = q :: rest) :
    s.ready = some (q, { s.port with requests := rest }) := by
  unfold State.ready
  rw [if_pos ⟨h1, h2, h3, h4⟩, h5]

theorem takes_of_Takes {s : State} {code : Nat} {q : Request} {rest : List Request} (h : Takes s code q rest) :
    s.takes code = some (q, { s.port with requests := rest }) := by
  obtain ⟨h1, h2, h3, h4, h5, h6, h7, h8, h9⟩ := h
  unfold State.takes
  rw [ready_of_head h1 h2 h3 h4 h5]
  simp [h6, Request.wellSized, h7, h8, h9]

theorem executor_of_Takes {s : State} {code : Nat} {q : Request} {rest : List Request} (h : Takes s code q rest) : s.port.executor = none := h.2.2.1

/-- A block whose executor took a request was not held by a cold start. -/
theorem resetPin_of_Takes {s : State} {code : Nat} {q : Request} {rest : List Request} (h : Takes s code q rest) : s.resetPin = .released := h.2.1

/-- Answering the request just taken, from a free executor. -/
theorem answer_port {s : State} {q : Request} {rest : List Request} (h : s.port.executor = none) (c : ResultCode) (body : List Byte) :
    Port.answer q c body { s.port with requests := rest } = (s.answered q rest c body).port := by
  simp [Port.answer, Port.reply, h]

theorem hold_port (s : State) (q : Request) (rest : List Request) (j : Job) :
    Port.hold q j { s.port with requests := rest } = (s.holding q rest j).port := rfl

theorem complete_port {s : State} {h : Held} (he : s.port.executor = some h) (hd : h.dropped = false) (c : ResultCode) (body : List Byte) :
    s.port.complete c body = (s.completed h c body).port := by
  simp [Port.complete, he, hd, Port.reply]

/-- A request over the shared records. -/
theorem recordRequest_taken {s : State} {code : Nat} {q : Request} {rest : List Request} (h : Takes s code q rest)
    (f : List Byte → Records → ResultCode × Records) :
    s.recordRequest code f = .next ((s.answered q rest (f q.body s.recs).1 []).withRecs (f q.body s.recs).2).finish := by
  simp only [State.recordRequest, takes_of_Takes h, answer_port (executor_of_Takes h)]
  rfl

/-- A request that only reads. -/
theorem readRequest_taken {s : State} {code : Nat} {q : Request} {rest : List Request} (h : Takes s code q rest)
    (f : List Byte → ResultCode × List Byte) :
    s.readRequest code f = .next (s.answered q rest (f q.body).1 (f q.body).2) := by
  simp only [State.readRequest, takes_of_Takes h, answer_port (executor_of_Takes h)]
  rfl

/-- A request that is not taken changes nothing. -/
theorem recordRequest_not_taken {s : State} {code : Nat} (h : s.takes code = none) (f : List Byte → Records → ResultCode × Records) :
    s.recordRequest code f = .next s := by simp [State.recordRequest, h]

theorem whenUp_of_up {s : State} (h : s.resetPin ≠ .coldHeld) (t : Host.Outcome State Fault Refusal) : s.whenUp t = t := by
  simp [State.whenUp, h]

theorem whenUp_of_held {s : State} (h : s.resetPin = .coldHeld) (t : Host.Outcome State Fault Refusal) : s.whenUp t = .next s := by
  simp [State.whenUp, h]

theorem ready_none_of_held {s : State} (h : s.resetPin = .coldHeld) : s.ready = none := by simp [State.ready, h]

theorem takes_none_of_held {s : State} (h : s.resetPin = .coldHeld) (code : Nat) : s.takes code = none := by
  simp [State.takes, ready_none_of_held h]

/-! ### SPI transactions -/

theorem spi_released {s : State} (h : s.resetPin = .released) (f : Port → Port) : s.spi f = .next { s with port := f s.port } := by
  simp [State.spi, h]

theorem spi_not_released {s : State} (h : s.resetPin ≠ .released) (f : Port → Port) : s.spi f = .next s := by
  simp [State.spi, h]

/-- R183: an operation byte that is none of the three selects no operation. -/
theorem spiOperation_other {op : Byte} (h1 : op ≠ 0xA1) (h2 : op ≠ 0xA2) (h3 : op ≠ 0xA3) : spiOperation op = none := by
  unfold spiOperation
  rw [if_neg h1, if_neg h2, if_neg h3]

@[simp] theorem startStatusByte_status (v : Byte) (p : Port) : (p.startStatusByte v).status = p.status ++ [v] := rfl
@[simp] theorem startStatusByte_full (v : Byte) (p : Port) : (p.startStatusByte v).full = p.full := rfl
@[simp] theorem startStatusByte_requests (v : Byte) (p : Port) : (p.startStatusByte v).requests = p.requests := rfl
@[simp] theorem startStatusByte_results (v : Byte) (p : Port) : (p.startStatusByte v).results = p.results := rfl
@[simp] theorem startStatusByte_executor (v : Byte) (p : Port) : (p.startStatusByte v).executor = p.executor := rfl
@[simp] theorem startStatusByte_spDo (v : Byte) (p : Port) : (p.startStatusByte v).spDo = p.spDo := rfl
@[simp] theorem endStatus_status (p : Port) : p.endStatus.status = [] := rfl
@[simp] theorem endStatus_spDo (p : Port) : p.endStatus.spDo = 0 :: p.status := rfl
@[simp] theorem endStatus_requests (p : Port) : p.endStatus.requests = p.requests := rfl
@[simp] theorem endStatus_results (p : Port) : p.endStatus.results = p.results := rfl
@[simp] theorem endStatus_executor (p : Port) : p.endStatus.executor = p.executor := rfl

/-- R186: FULL becomes false when the fifth byte reported it as 1. -/
theorem endStatus_full (p : Port) : p.endStatus.full = if p.status[4]? = some 1 then false else p.full := by
  show (p.full && !(p.status[4]? == some 1)) = _
  by_cases h : p.status[4]? = some 1
  · rw [if_pos h, beq_iff_eq.2 h, Bool.not_true, Bool.and_false]
  · rw [if_neg h, beq_eq_false_iff_ne.2 h, Bool.not_false, Bool.and_true]

/-- R186: the five values by their place. -/
theorem statusByte_of_place {s : State} {n : Nat} {v : Byte} (h : [s.part.byte, byte1 (Config.queue - s.port.requests.length),
    byte1 s.port.results.length, boolByte (attentionPending s.port s.recs.raised), boolByte s.port.full][n]? = some v) : s.statusByte n = v := by
  match n, h with
  | 0, h => simpa [State.statusByte] using h
  | 1, h => simpa [State.statusByte] using h
  | 2, h => simpa [State.statusByte] using h
  | 3, h => simpa [State.statusByte] using h
  | 4, h => simpa [State.statusByte] using h
  | n + 5, h => simp at h

/-- Log 42: zeros follow the fifth byte. -/
theorem statusByte_past {s : State} {n : Nat} (h : 5 ≤ n) : s.statusByte n = 0 := by
  match n, h with
  | n + 5, _ => rfl

/-! ### The bounds of the queues -/

theorem ready_bounds {s : State} {q : Request} {p : Port} (h : s.ready = some (q, p)) :
    p.results = s.port.results ∧ p.executor = none ∧ s.port.results.length < Config.queue ∧ p.requests.length < s.port.requests.length := by
  unfold State.ready at h
  split at h
  · rename_i hc
    split at h
    · rename_i x rest hq
      cases h
      exact ⟨rfl, hc.2.2.1, hc.2.2.2, by simp [hq]⟩
    · cases h
  · cases h

theorem takes_bounds {s : State} {code : Nat} {q : Request} {p : Port} (h : s.takes code = some (q, p)) :
    p.results = s.port.results ∧ p.executor = none ∧ s.port.results.length < Config.queue ∧ p.requests.length < s.port.requests.length := by
  unfold State.takes at h
  split at h
  · cases h
  · rename_i x y hr
    split at h
    · cases h; exact ready_bounds hr
    · cases h

end Sys2Proof.Machine
end

