-- ==== Sys2Proof/Laws/Calls.lean ====
section
/-!
SUPPORT. What the call operations do to the line they act on and to the channel of the acting position: binding a slot, adding a party, answering, seizing, joining, handing a bridge back.
-/
namespace Sys2Proof.Machine

/-! ### Bindings -/

/-- A mark leaves every binding alone. -/
theorem MarksOnly.bound {r r' : Records} (h : MarksOnly r r') (p : Fin 48) (ch : Channel) : r'.bound p ch = r.bound p ch := by
  have h0 := h.2 p
  have h1 : (r'.pos p).hand1 = (r.pos p).hand1 := by rw [h0]
  have h2 : (r'.pos p).hand2 = (r.pos p).hand2 := by rw [h0]
  have h3 : (r'.pos p).speaker = (r.pos p).speaker := by rw [h0]
  rcases ch with (_|_)|_ <;> simp [Records.bound, h1, h2, h3]

/-- A binding stands in the position table alone. -/
theorem bound_of_positions {r r' : Records} (h : r'.positions = r.positions) (p : Fin 48) (ch : Channel) : r'.bound p ch = r.bound p ch := by
  rcases ch with (_|_)|_ <;> simp [Records.bound, Records.pos, h]

@[simp] theorem bound_setBound_line (r : Records) (p : Fin 48) (ch : Channel) (id : Nat) : (r.setBound p ch (.line id)).bound p ch = .line id := by
  rcases ch with (_|_)|n
  · simp [Records.setBound, Records.bound]
  · simp [Records.setBound, Records.bound]
  · rw [show r.setBound p (.spk n) (.line id) = Records.markChannel p n _ from rfl, (markChannel_marksOnly ..).bound]
    simp [Records.bound]

@[simp] theorem bound_setBound_none (r : Records) (p : Fin 48) (ch : Channel) : (r.setBound p ch .none).bound p ch = .none := by
  rcases ch with (_|_)|n
  · simp [Records.setBound, Records.bound]
  · simp [Records.setBound, Records.bound]
  · rw [show r.setBound p (.spk n) .none = Records.markChannel p n _ from rfl, (markChannel_marksOnly ..).bound]
    simp [Records.bound]

@[simp] theorem line?_setBound (r : Records) (p : Fin 48) (ch : Channel) (b : Binding) (j : Nat) : (r.setBound p ch b).line? j = r.line? j := by
  rcases ch with (_|_)|n
  · rfl
  · rfl
  · simp [Records.setBound, Records.line?, (markChannel_marksOnly p n _).fields.1, Records.modPos]

theorem bound_modLine (r : Records) (id : Nat) (f : Line → Line) (p : Fin 48) (ch : Channel) : (r.modLine id f).bound p ch = r.bound p ch := by
  unfold Records.modLine; split <;> (rcases ch with (_|_)|_ <;> rfl)

/-- A binding stays where the position's record keeps all but its lamp marks. -/
theorem bound_of_pos {r r' : Records} {p : Fin 48} (h : r'.pos p = { r.pos p with lampPending := (r'.pos p).lampPending }) (ch : Channel) :
    r'.bound p ch = r.bound p ch := by
  have h1 : (r'.pos p).hand1 = (r.pos p).hand1 := by rw [h]
  have h2 : (r'.pos p).hand2 = (r.pos p).hand2 := by rw [h]
  have h3 : (r'.pos p).speaker = (r.pos p).speaker := by rw [h]
  rcases ch with (_|_)|_ <;> simp [Records.bound, h1, h2, h3]

theorem handLine_of_bound_none {r : Records} {p : Fin 48} {h : Handset} (hb : r.bound p (.hand h) = .none) : r.handLine p h = none := by
  cases h <;> simp only [Records.bound] at hb <;> simp only [Records.handLine] <;> split at hb <;> simp_all

theorem handLine_of_bound {r : Records} {p : Fin 48} {h : Handset} {id : Nat} (hb : r.bound p (.hand h) = .line id) : r.handLine p h = some id := by
  cases h <;> simp only [Records.bound] at hb <;> simp only [Records.handLine] <;> split at hb <;> simp_all

/-! ### Slots and parties -/

/-- R111: a line that holds a slot keeps it; one without takes the lowest-numbered FREE one. -/
theorem line?_needSlot {r : Records} {id slot : Nat} {l : Line} (hl : r.line? id = some l)
    (hs : l.slot = some slot ∨ (l.slot = none ∧ r.lowestSlot = some slot)) (j : Nat) :
    (r.needSlot id).line? j = if j = id then some { l with slot := some slot } else r.line? j := by
  unfold Records.needSlot
  rw [hl]
  rcases hs with h | ⟨h1, h2⟩
  · simp only [h]
    split
    · subst_vars; rw [hl, ← h]
    · rfl
  · simp only [h1, h2]
    rw [line?_bindSlot, hl]; rfl

theorem lineWork_needSlot (id : Nat) (r : Records) : LineWork r (r.needSlot id) := by
  unfold Records.needSlot
  split
  · exact .refl r
  · split
    · exact lineWork_bindSlot ..
    · exact .refl r
    · exact .refl r

/-- R25: a party joins at the tail, its free channel bound. -/
theorem addParty_spec {r : Records} {p : Fin 48} {ch : Channel} {id : Nat} {l : Line} (hl : r.line? id = some l) (hb : r.bound p ch = .none) :
    (r.addParty p ch id).bound p ch = .line id ∧
    ∀ j, (r.addParty p ch id).line? j = if j = id then some { l with parties := l.parties ++ [⟨p, ch⟩] } else r.line? j := by
  unfold Records.addParty Records.claim
  rw [bound_modLine, hb]
  simp only [if_true, bound_setBound_line, line?_setBound, true_and]
  intro j
  rw [line?_modLine, hl]; rfl

/-- R36: what an answer does to the line and to the answering channel. -/
theorem answerLine_spec {r : Records} {p : Fin 48} {ch : Channel} {id slot : Nat} {l : Line} (hl : r.line? id = some l)
    (hb : r.bound p ch = .none) (hs : l.slot = some slot ∨ (l.slot = none ∧ r.lowestSlot = some slot)) :
    (r.answerLine p ch id).bound p ch = .line id ∧
    ∀ j, (r.answerLine p ch id).line? j = if j = id then some { l with
      state := .connected, parties := l.parties ++ [⟨p, ch⟩], holdOwner := none, slot := some slot, desired := Cond.call
      missed := false, timer := none } else r.line? j := by
  have hn := line?_needSlot hl hs
  have hb2 : (r.needSlot id).bound p ch = .none := by rw [bound_of_pos ((lineWork_needSlot id r).pos p)]; exact hb
  obtain ⟨h1, h2⟩ := addParty_spec (by rw [hn, if_pos rfl]) hb2
  unfold Records.answerLine
  refine ⟨?_, fun j => ?_⟩
  · rw [bound_of_pos ((lineWork_moveLine ..).pos p), bound_modLine, h1]
  · simp only [line?_moveLine, line?_modLine, h2, hn]
    split <;> simp_all [Line.enter, desiredFor, timerFor]

/-- R30, R31: what a seizure does to the line and to the seizing channel. -/
theorem seizeLine_spec {r : Records} {p : Fin 48} {ch : Channel} {id slot : Nat} {l : Line} (hl : r.line? id = some l)
    (hb : r.bound p ch = .none) (hs : l.slot = some slot ∨ (l.slot = none ∧ r.lowestSlot = some slot)) :
    (r.seizeLine p ch id l).bound p ch = .line id ∧
    ∀ j, (r.seizeLine p ch id l).line? j = if j = id then some { l with
      state := if l.type = .ringdown then .ringingOut else .connected
      parties := l.parties ++ [⟨p, ch⟩], holdOwner := none, slot := some slot, desired := Cond.call, missed := false
      timer := if l.type = .ringdown then (if l.ringTimeout = 0 then none else some ⟨.ring, l.ringTimeout * 1000⟩) else none } else r.line? j := by
  have hn := line?_needSlot hl hs
  have hb2 : (r.needSlot id).bound p ch = .none := by rw [bound_of_pos ((lineWork_needSlot id r).pos p)]; exact hb
  obtain ⟨h1, h2⟩ := addParty_spec (by rw [hn, if_pos rfl]) hb2
  unfold Records.seizeLine
  refine ⟨?_, fun j => ?_⟩
  · rw [bound_of_pos ((lineWork_moveLine ..).pos p), bound_modLine, h1]
  · simp only [line?_moveLine, line?_modLine, h2, hn]
    by_cases hj : j = id
    · by_cases ht : l.type = .ringdown
      · by_cases h0 : l.ringTimeout = 0 <;> simp [hj, ht, h0, Line.enter, desiredFor, timerFor, secondsTimer]
      · simp [hj, ht, Line.enter, desiredFor, timerFor]
    · simp [hj]

/-- R104: the line takes the lowest-numbered FREE bridge. -/
theorem lineClaim_spec {r : Records} {id b : Nat} {l : Line} (hl : r.line? id = some l) (hb : r.lowestBridge = some b) :
    Table.find (r.lineClaim id).bridges b = some (.line id) ∧
    ∀ j, (r.lineClaim id).line? j = if j = id then some { l with bridge := some b } else r.line? j := by
  unfold Records.lineClaim
  rw [hb]
  simp only []
  have hl' : ({ r with bridges := Table.put b (.line id) r.bridges } : Records).line? id = some l := hl
  refine ⟨?_, fun j => ?_⟩
  · rw [modLine_of_some _ hl']; simp
  · rw [line?_modLine, hl']; rfl

end Sys2Proof.Machine
end

