-- ==== Sys2Proof/Laws/Frames.lean ====
section
/-!
SUPPORT. Frames: what floor work (talk floors, bridges, the wait list) and call work (moves, parties, slots, service) leave alone.
-/
namespace Sys2Proof.Machine

/-! ### Call work -/

/-- r' differs from r at most in lines, appearances, slots, groups, memberships, bridges, the wait list, raised reasons, the port work list with its guard, and, at each position, in bindings and marks; a position that is not attached is not marked. -/
structure CallWork (r r' : Records) : Prop where
  dispositions : r'.dispositions = r.dispositions
  reserve : r'.reserve = r.reserve
  windows : r'.windows = r.windows
  cards : r'.cards = r.cards
  inFlight : r'.inFlight = r.inFlight
  pos : ∀ p, r'.pos p = { r.pos p with
    hand1 := (r'.pos p).hand1, hand2 := (r'.pos p).hand2, speaker := (r'.pos p).speaker
    lampPending := (r'.pos p).lampPending, channelPending := (r'.pos p).channelPending }
  dark : ∀ p, (r.pos p).attached = false →
    (r'.pos p).lampPending = (r.pos p).lampPending ∧ (r'.pos p).channelPending = (r.pos p).channelPending
  raised : Grown r.raised r'.raised

theorem CallWork.attached {r r' : Records} (h : CallWork r r') (p : Fin 48) : (r'.pos p).attached = (r.pos p).attached := by rw [h.pos p]

theorem CallWork.refl (r : Records) : CallWork r r := ⟨rfl, rfl, rfl, rfl, rfl, fun _ => rfl, fun _ _ => ⟨rfl, rfl⟩, .refl _⟩

theorem CallWork.trans {a b c : Records} (h : CallWork a b) (k : CallWork b c) : CallWork a c where
  dispositions := k.dispositions.trans h.dispositions
  reserve := k.reserve.trans h.reserve
  windows := k.windows.trans h.windows
  cards := k.cards.trans h.cards
  inFlight := k.inFlight.trans h.inFlight
  pos p := by rw [k.pos p, h.pos p]
  dark p hp := by
    have h1 := h.dark p hp
    have h2 := k.dark p (by rw [h.attached]; exact hp)
    exact ⟨h2.1.trans h1.1, h2.2.trans h1.2⟩
  raised := h.raised.trans k.raised

theorem CallWork.foldl {α : Type} {f : Records → α → Records} (h : ∀ r a, CallWork r (f r a)) (xs : List α) (r : Records) :
    CallWork r (xs.foldl f r) := by
  induction xs generalizing r with
  | nil => exact .refl r
  | cons a xs ih => exact (h r a).trans (ih _)

/-- A change that touches no position and none of the fields above. -/
theorem CallWork.of_eq {r r' : Records} (h1 : r'.positions = r.positions) (h2 : r'.dispositions = r.dispositions) (h3 : r'.reserve = r.reserve)
    (h4 : r'.windows = r.windows) (h5 : r'.cards = r.cards) (h6 : r'.inFlight = r.inFlight) (h7 : Grown r.raised r'.raised) :
    CallWork r r' :=
  ⟨h2, h3, h4, h5, h6, fun p => by simp [Records.pos, h1], fun p _ => by simp [Records.pos, h1], h7⟩

theorem callWork_modPos (r : Records) (p : Fin 48) (f : Position → Position)
    (hf : f (r.pos p) = { r.pos p with
      hand1 := (f (r.pos p)).hand1, hand2 := (f (r.pos p)).hand2, speaker := (f (r.pos p)).speaker
      lampPending := (f (r.pos p)).lampPending, channelPending := (f (r.pos p)).channelPending })
    (hd : (r.pos p).attached = false →
      (f (r.pos p)).lampPending = (r.pos p).lampPending ∧ (f (r.pos p)).channelPending = (r.pos p).channelPending) :
    CallWork r (r.modPos p f) := by
  refine ⟨rfl, rfl, rfl, rfl, rfl, fun q => ?_, fun q hq => ?_, .refl _⟩
  · rw [pos_modPos]
    split
    · rename_i h; subst h; exact hf
    · rfl
  · rw [pos_modPos]
    split
    · rename_i h; subst h; exact hd hq
    · exact ⟨rfl, rfl⟩

theorem callWork_markLamp (p : Fin 48) (k : Nat) (r : Records) : CallWork r (r.markLamp p k) := by
  unfold Records.markLamp
  split
  · rename_i ha; exact callWork_modPos r p _ rfl (fun h => by rw [h] at ha; cases ha)
  · exact .refl r

theorem callWork_markChannel (p : Fin 48) (n : Fin 8) (r : Records) : CallWork r (r.markChannel p n) := by
  unfold Records.markChannel
  split
  · rename_i ha; exact callWork_modPos r p _ rfl (fun h => by rw [h] at ha; cases ha)
  · exact .refl r

theorem callWork_markLine (id : Nat) (r : Records) : CallWork r (r.markLine id) := CallWork.foldl (fun r _ => callWork_markLamp _ _ r) _ r

theorem callWork_markGroup (g : Nat) (r : Records) : CallWork r (r.markGroup g) := by
  refine CallWork.foldl (fun r e => ?_) _ r
  unfold Records.markMember
  split
  · exact callWork_markChannel ..
  · exact .refl r

theorem callWork_setLine (id : Nat) (l : Line) (r : Records) : CallWork r (r.setLine id l) := .of_eq rfl rfl rfl rfl rfl rfl (.refl _)
theorem callWork_setGroup (g : Nat) (x : Group) (r : Records) : CallWork r (r.setGroup g x) := .of_eq rfl rfl rfl rfl rfl rfl (.refl _)
theorem callWork_setMember (m : Nat) (x : Member) (r : Records) : CallWork r (r.setMember m x) := .of_eq rfl rfl rfl rfl rfl rfl (.refl _)
theorem callWork_raise (e : Entry) (q : Reason) (r : Records) : CallWork r (r.raise e q) := .of_eq rfl rfl rfl rfl rfl rfl (.raise ..)
theorem callWork_bridges (bs : Table Owner) (r : Records) : CallWork r { r with bridges := bs } := .of_eq rfl rfl rfl rfl rfl rfl (.refl _)
theorem callWork_waitList (ws : List Nat) (r : Records) : CallWork r { r with waitList := ws } := .of_eq rfl rfl rfl rfl rfl rfl (.refl _)
theorem callWork_members (ms : Table Member) (r : Records) : CallWork r { r with members := ms } := .of_eq rfl rfl rfl rfl rfl rfl (.refl _)

theorem callWork_modLine (id : Nat) (f : Line → Line) (r : Records) : CallWork r (r.modLine id f) := by
  unfold Records.modLine; split
  · exact callWork_setLine ..
  · exact .refl r
theorem callWork_modGroup (g : Nat) (f : Group → Group) (r : Records) : CallWork r (r.modGroup g f) := by
  unfold Records.modGroup; split
  · exact callWork_setGroup ..
  · exact .refl r
theorem callWork_modMember (m : Nat) (f : Member → Member) (r : Records) : CallWork r (r.modMember m f) := by
  unfold Records.modMember; split
  · exact callWork_setMember ..
  · exact .refl r

theorem callWork_setBound (p : Fin 48) (ch : Channel) (b : Binding) (r : Records) : CallWork r (r.setBound p ch b) := by
  unfold Records.setBound
  split
  · simp only
    split
    · exact callWork_modPos r p _ rfl (fun _ => ⟨rfl, rfl⟩)
    · exact callWork_modPos r p _ rfl (fun _ => ⟨rfl, rfl⟩)
  · exact (callWork_modPos r p _ rfl (fun _ => ⟨rfl, rfl⟩)).trans (callWork_markChannel ..)

theorem callWork_claim (p : Fin 48) (ch : Channel) (b : Binding) (r : Records) : CallWork r (r.claim p ch b) := by
  unfold Records.claim; split
  · exact callWork_setBound ..
  · exact .refl r
theorem callWork_free (p : Fin 48) (ch : Channel) (b : Binding) (r : Records) : CallWork r (r.free p ch b) := by
  unfold Records.free; split
  · exact callWork_setBound ..
  · exact .refl r

/-! ### Floor work leaves the lines alone -/

/-- Call work that leaves lines, appearances, slots and channel bindings alone. -/
structure FloorWork (r r' : Records) : Prop extends CallWork r r' where
  lines : r'.lines = r.lines
  appearances : r'.appearances = r.appearances
  slots : r'.slots = r.slots
  bound : ∀ p ch, r'.bound p ch = r.bound p ch

theorem FloorWork.refl (r : Records) : FloorWork r r := ⟨.refl r, rfl, rfl, rfl, fun _ _ => rfl⟩

theorem FloorWork.trans {a b c : Records} (h : FloorWork a b) (k : FloorWork b c) : FloorWork a c :=
  ⟨h.toCallWork.trans k.toCallWork, k.lines.trans h.lines, k.appearances.trans h.appearances, k.slots.trans h.slots,
    fun p ch => (k.bound p ch).trans (h.bound p ch)⟩

theorem FloorWork.foldl {α : Type} {f : Records → α → Records} (h : ∀ r a, FloorWork r (f r a)) (xs : List α) (r : Records) :
    FloorWork r (xs.foldl f r) := by
  induction xs generalizing r with
  | nil => exact .refl r
  | cons a xs ih => exact (h r a).trans (ih _)

theorem FloorWork.line? {r r' : Records} (h : FloorWork r r') (id : Nat) : r'.line? id = r.line? id := by simp [Records.line?, h.lines]

theorem floorWork_markGroup (g : Nat) (r : Records) : FloorWork r (r.markGroup g) :=
  ⟨callWork_markGroup g r, by simp, (markGroup_marksOnly g r).fields.2.1, (markGroup_marksOnly g r).fields.2.2.2.2.2.2.2.2.1,
    (markGroup_marksOnly g r).bound⟩
theorem floorWork_setGroup (g : Nat) (x : Group) (r : Records) : FloorWork r (r.setGroup g x) := ⟨callWork_setGroup g x r, rfl, rfl, rfl, bound_of_positions rfl⟩
theorem floorWork_setMember (m : Nat) (x : Member) (r : Records) : FloorWork r (r.setMember m x) := ⟨callWork_setMember m x r, rfl, rfl, rfl, bound_of_positions rfl⟩
theorem floorWork_raise (e : Entry) (q : Reason) (r : Records) : FloorWork r (r.raise e q) := ⟨callWork_raise e q r, rfl, rfl, rfl, bound_of_positions rfl⟩
theorem floorWork_bridges (bs : Table Owner) (r : Records) : FloorWork r { r with bridges := bs } := ⟨callWork_bridges bs r, rfl, rfl, rfl, bound_of_positions rfl⟩
theorem floorWork_waitList (ws : List Nat) (r : Records) : FloorWork r { r with waitList := ws } := ⟨callWork_waitList ws r, rfl, rfl, rfl, bound_of_positions rfl⟩

theorem floorWork_modGroup (g : Nat) (f : Group → Group) (r : Records) : FloorWork r (r.modGroup g f) := by
  unfold Records.modGroup; split
  · exact floorWork_setGroup ..
  · exact .refl r
theorem floorWork_modMember (m : Nat) (f : Member → Member) (r : Records) : FloorWork r (r.modMember m f) := by
  unfold Records.modMember; split
  · exact floorWork_setMember ..
  · exact .refl r

theorem floorWork_reportFloor (g : Nat) (b : Bool) (r : Records) : FloorWork r (r.reportFloor g b) := by
  unfold Records.reportFloor
  cases b
  · exact floorWork_markGroup ..
  · exact (floorWork_raise ..).trans (floorWork_markGroup ..)

theorem floorWork_grantPass (g : Nat) (r : Records) : FloorWork r (r.grantPass g) := by
  unfold Records.grantPass
  split
  · exact .refl r
  · rename_i x hx
    simp only
    split
    · exact .refl r
    · exact ((floorWork_setGroup ..).trans (FloorWork.foldl (fun r _ => floorWork_modMember ..) _ _)).trans (floorWork_reportFloor ..)

theorem floorWork_allocateToGroup (g b : Nat) (r : Records) : FloorWork r (r.allocateToGroup g b) :=
  ((floorWork_bridges _ r).trans (floorWork_modGroup ..)).trans (floorWork_grantPass ..)

theorem floorWork_grantWaiting (g b : Nat) (r : Records) : FloorWork r (r.grantWaiting g b) :=
  (floorWork_allocateToGroup g b r).trans (floorWork_markGroup ..)

theorem floorWork_releaseBridge (b : Nat) (r : Records) : FloorWork r (r.releaseBridge b) := by
  unfold Records.releaseBridge
  simp only
  split
  · exact floorWork_bridges _ r
  · rename_i g rest _
    split
    · exact ((floorWork_bridges (Table.drop b r.bridges) r).trans (floorWork_waitList rest _)).trans (floorWork_grantWaiting g b _)
    · exact floorWork_bridges _ r

theorem floorWork_serveWaitList (ws : List Nat) (r : Records) : FloorWork r (serveWaitList ws r) := by
  induction ws generalizing r with
  | nil => exact .refl r
  | cons g rest ih =>
    unfold serveWaitList
    split
    · split
      · exact ((floorWork_waitList rest r).trans (floorWork_grantWaiting ..)).trans (ih _)
      · exact .refl r
    · exact .refl r

theorem floorWork_groupClaim (g : Nat) (r : Records) : FloorWork r (r.groupClaim g) := by
  unfold Records.groupClaim
  split
  · exact floorWork_allocateToGroup ..
  · exact ((floorWork_waitList (r.waitList ++ [g]) r).trans (floorWork_modGroup ..)).trans (floorWork_raise ..)

theorem floorWork_leaveWaitList (g : Nat) (r : Records) : FloorWork r (r.leaveWaitList g) :=
  (floorWork_waitList _ r).trans (floorWork_modGroup ..)

theorem floorWork_testNeed (g : Nat) (r : Records) : FloorWork r (r.testNeed g) := by
  unfold Records.testNeed
  split
  · exact .refl r
  · split
    · split
      · exact floorWork_groupClaim ..
      · exact .refl r
    · split
      · exact (floorWork_setGroup ..).trans (floorWork_releaseBridge ..)
      · split
        · exact floorWork_leaveWaitList ..
        · exact .refl r

theorem floorWork_dropFloor (m : Nat) (r : Records) : FloorWork r (r.dropFloor m) := by
  unfold Records.dropFloor
  split
  · exact .refl r
  · split
    · exact .refl r
    · exact ((floorWork_modGroup ..).trans (floorWork_setMember ..)).trans (floorWork_reportFloor ..)
    · exact ((floorWork_modGroup ..).trans (floorWork_setMember ..)).trans (floorWork_reportFloor ..)

theorem floorWork_afterLeave (g : Nat) (w : TalkFloor) (r : Records) : FloorWork r (r.afterLeave g w) := by
  unfold Records.afterLeave
  split
  · exact .refl r
  · exact (floorWork_grantPass ..).trans (floorWork_testNeed ..)
  · exact floorWork_testNeed ..

theorem floorWork_releaseFloor (m : Nat) (r : Records) : FloorWork r (r.releaseFloor m) := by
  unfold Records.releaseFloor
  split
  · exact .refl r
  · exact (floorWork_dropFloor ..).trans (floorWork_afterLeave ..)

theorem floorWork_leaveIfUnneeded (g : Nat) (r : Records) : FloorWork r (r.leaveIfUnneeded g) := by
  unfold Records.leaveIfUnneeded
  split
  · exact .refl r
  · split
    · exact floorWork_leaveWaitList ..
    · exact .refl r

/-! ### Moves and parties -/

theorem callWork_moveLine (id : Nat) (st : LineState) (r : Records) : CallWork r (r.moveLine id st) := by
  unfold Records.moveLine
  split
  · exact .refl r
  · rename_i l h
    have h1 : CallWork r (if st.isOos = true ∧ l.state ≠ st then (r.setLine id (l.enter st)).raise (.line id) .fault else r.setLine id (l.enter st)) := by
      split
      · exact (callWork_setLine ..).trans (callWork_raise ..)
      · exact callWork_setLine ..
    simp only
    split
    · exact h1
    · exact (h1.trans (callWork_raise ..)).trans (callWork_markLine ..)

theorem callWork_handBack (id : Nat) (r : Records) : CallWork r (r.handBack id) := by
  unfold Records.handBack
  split
  · exact .refl r
  · split
    · exact .refl r
    · split
      · exact (callWork_setLine ..).trans (floorWork_releaseBridge ..).toCallWork
      · exact .refl r

theorem callWork_removeParty (p : Fin 48) (id : Nat) (r : Records) : CallWork r (r.removeParty p id) := by
  unfold Records.removeParty
  split
  · exact .refl r
  · split
    · exact .refl r
    · exact (((callWork_setLine ..).trans (callWork_free ..)).trans (callWork_handBack ..)).trans (callWork_markLine ..)

theorem callWork_removeAllParties (id : Nat) (r : Records) : CallWork r (r.removeAllParties id) := by
  unfold Records.removeAllParties
  split
  · exact .refl r
  · exact ((callWork_setLine ..).trans (CallWork.foldl (fun r _ => callWork_free ..) _ _)).trans (callWork_handBack ..)

theorem callWork_toIdle (id : Nat) (r : Records) : CallWork r (r.toIdle id) := (callWork_removeAllParties id r).trans (callWork_moveLine ..)
theorem callWork_toOos (id : Nat) (q : OosReason) (r : Records) : CallWork r (r.toOos id q) := (callWork_removeAllParties id r).trans (callWork_moveLine ..)

theorem callWork_bindSlot (id k : Nat) (r : Records) : CallWork r (r.bindSlot id k) := by
  have h : CallWork r { r with slots := Table.put k id r.slots } := .of_eq rfl rfl rfl rfl rfl rfl (.refl _)
  exact h.trans (callWork_modLine ..)

theorem callWork_needSlot (id : Nat) (r : Records) : CallWork r (r.needSlot id) := by
  unfold Records.needSlot
  split
  · exact .refl r
  · split
    · exact callWork_bindSlot ..
    · exact .refl r
    · exact .refl r

theorem callWork_returnToService (id : Nat) (r : Records) : CallWork r (r.returnToService id) := by
  unfold Records.returnToService
  split
  · exact .refl r
  · split
    · split
      · exact (callWork_needSlot ..).trans (callWork_moveLine ..)
      · exact (callWork_moveLine ..).trans (callWork_raise ..)
    · exact callWork_moveLine ..

theorem callWork_serviceTest (id : Nat) (b : Bool) (r : Records) : CallWork r (r.serviceTest id b) := by
  unfold Records.serviceTest
  split
  · exact .refl r
  · split
    · exact callWork_toOos ..
    · split <;> first | exact .refl r | exact callWork_returnToService .. | (split <;> first | exact .refl r | exact callWork_returnToService ..)

theorem callWork_lineLosesPosition (p : Fin 48) (id : Nat) (r : Records) : CallWork r (r.lineLosesPosition p id) := by
  unfold Records.lineLosesPosition
  split
  · exact .refl r
  · split
    · split
      · exact callWork_toIdle ..
      · split
        · exact (callWork_removeAllParties ..).trans (callWork_moveLine ..)
        · exact callWork_removeParty ..
    · exact .refl r

/-! ### What leaves do to the lines -/

theorem line?_free (r : Records) (p : Fin 48) (ch : Channel) (b : Binding) (j : Nat) : (r.free p ch b).line? j = r.line? j := by
  unfold Records.free
  split
  · unfold Records.setBound
    split
    · simp only; split <;> rfl
    · unfold Records.markChannel; split <;> rfl
  · rfl

/-- R25: the line's own bridge is given up when fewer than two parties are left; no other line changes. -/
theorem line?_handBack (r : Records) (id j : Nat) :
    (r.handBack id).line? j = if j = id then (r.line? id).map (fun l => if l.parties.length < 2 then { l with bridge := none } else l) else r.line? j := by
  unfold Records.handBack
  split
  · rename_i h; split <;> simp_all
  · rename_i l h
    split
    · rename_i hb
      split
      · rename_i hj; subst hj; rw [h]
        simp only [Option.map_some]
        split
        · rw [← hb]
        · rfl
      · rfl
    · split
      · rename_i hlt
        rw [(floorWork_releaseBridge ..).line?, line?_setLine, h]
        split
        · rw [Option.map_some, if_pos hlt]
        · rfl
      · rename_i hlt
        split
        · rename_i hj; subst hj; rw [h, Option.map_some, if_neg hlt]
        · rfl

theorem line?_foldl_free (xs : List Party) (b : Binding) (r : Records) (j : Nat) :
    (xs.foldl (fun r x => r.free x.pos x.ch b) r).line? j = r.line? j := by
  induction xs generalizing r with
  | nil => rfl
  | cons x xs ih => rw [List.foldl_cons, ih, line?_free]

theorem line?_removeAllParties (r : Records) (id j : Nat) :
    (r.removeAllParties id).line? j = if j = id then (r.line? id).map (fun l => { l with parties := [], bridge := none }) else r.line? j := by
  unfold Records.removeAllParties
  split
  · rename_i h; split <;> simp_all
  · rename_i l h
    simp only
    rw [line?_handBack]
    simp only [line?_foldl_free, line?_setLine, h]
    split <;> simp

theorem line?_removeParty (r : Records) (p : Fin 48) (id j : Nat) (l : Line) (h : r.line? id = some l) (hp : l.hasParty p = true) :
    (r.removeParty p id).line? j = if j = id then
      some { l with
        parties := l.parties.filter (fun x => !(x.pos == p))
        bridge := if (l.parties.filter (fun x => !(x.pos == p))).length < 2 then none else l.bridge } else r.line? j := by
  unfold Records.removeParty
  rw [h]
  cases hc : l.partyChannel p with
  | none =>
    simp only [Line.partyChannel, Option.map_eq_none_iff, List.find?_eq_none] at hc
    simp only [Line.hasParty, List.any_eq_true] at hp
    obtain ⟨x, hx, hx2⟩ := hp
    exact absurd hx2 (hc x hx)
  | some ch =>
    simp only [hc]
    rw [line?_markLine, line?_handBack]
    simp only [line?_free, line?_setLine]
    split
    · simp only [if_true, Option.map_some]
      split <;> rfl
    · rfl

theorem line?_toOos (r : Records) (id j : Nat) (q : OosReason) :
    (r.toOos id q).line? j = if j = id then (r.line? id).map (fun l => Line.enter { l with parties := [], bridge := none } (.outOfService q)) else r.line? j := by
  unfold Records.toOos
  rw [line?_moveLine]
  simp only [line?_removeAllParties]
  split
  · simp [Option.map_map, Function.comp_def]
  · rfl

theorem line?_toIdle (r : Records) (id j : Nat) :
    (r.toIdle id).line? j = if j = id then (r.line? id).map (fun l => Line.enter { l with parties := [], bridge := none } .idle) else r.line? j := by
  unfold Records.toIdle
  rw [line?_moveLine]
  simp only [line?_removeAllParties]
  split
  · simp [Option.map_map, Function.comp_def]
  · rfl

/-- R8: a change of state raises STATE at the line. -/
theorem state_raised_moveLine {r : Records} {id : Nat} {l : Line} {st : LineState} (h : r.line? id = some l) (hs : l.state ≠ st)
    (ho : ¬ (l.state.isOos = true ∧ st.isOos = true)) : Reason.state ∈ (r.moveLine id st).reasons (.line id) := by
  simp only [Records.moveLine, h, hs, ho, or_self, if_false]
  exact mem_reasons_of_grown (callWork_markLine ..).raised

theorem state_raised_toIdle {r : Records} {id : Nat} {l : Line} (h : r.line? id = some l) (hs : l.state ≠ .idle) :
    Reason.state ∈ (r.toIdle id).reasons (.line id) :=
  state_raised_moveLine (l := { l with parties := [], bridge := none }) (by rw [line?_removeAllParties, if_pos rfl, h]; rfl) hs
    (by simp [LineState.isOos])

/-- R49: after the loss of p, line id has no party p; no other line changes, nor does a line without p. -/
theorem line?_lineLosesPosition (r : Records) (p : Fin 48) (id j : Nat) :
    (j ≠ id → (r.lineLosesPosition p id).line? j = r.line? j) ∧
    (∀ l, r.line? id = some l → l.hasParty p = false → r.lineLosesPosition p id = r) ∧
    (∀ l, (r.lineLosesPosition p id).line? id = some l → l.hasParty p = false) := by
  unfold Records.lineLosesPosition
  split
  · rename_i h
    exact ⟨fun _ => rfl, fun l hl => (by rw [h] at hl; cases hl), fun l hl => (by rw [h] at hl; cases hl)⟩
  · rename_i l h
    by_cases hp : l.hasParty p = true
    · rw [if_pos hp]
      refine ⟨?_, fun x hx hx2 => (by rw [h] at hx; cases hx; rw [hp] at hx2; cases hx2), ?_⟩
      · intro hj
        split
        · rw [line?_toIdle, if_neg hj]
        · split
          · rw [line?_moveLine, if_neg hj, line?_removeAllParties, if_neg hj]
          · rw [line?_removeParty _ _ _ _ l h hp, if_neg hj]
      · intro x
        split
        · rw [line?_toIdle, if_pos rfl, h]
          intro hx; cases hx; rfl
        · split
          · rw [line?_moveLine, if_pos rfl, line?_removeAllParties, if_pos rfl, h]
            intro hx; cases hx; rfl
          · rw [line?_removeParty _ _ _ _ l h hp, if_pos rfl]
            intro hx; cases hx
            simp [Line.hasParty]
    · rw [if_neg hp]
      exact ⟨fun _ => rfl, fun _ _ _ => rfl, fun x hx => (by rw [h] at hx; cases hx; simpa using hp)⟩

end Sys2Proof.Machine
end

