-- ==== Sys2Proof/Laws/Steps.lean ====
section
/-!
SUPPORT. What a step can do, said once: it ends settled, or it leaves every record but the raised reasons alone, or it is the end of a cold start.
-/
namespace Sys2Proof.Machine

/-- How a command leaves the records. -/
def RecsAfter (s t : State) : Prop :=
  (∃ u : State, t = u.finish) ∨ t.recs = { s.recs with raised := t.recs.raised } ∨ t.recs = Records.cold

theorem RecsAfter.same {s t : State} (h : t.recs = s.recs) : RecsAfter s t := .inr (.inl (by rw [h]))

theorem RecsAfter.of_finish {s t u : State} (h : (Host.Outcome.next u.finish : Host.Outcome State Fault Refusal) = .next t) : RecsAfter s t := by
  cases h; exact .inl ⟨u, rfl⟩

theorem RecsAfter.of_same {s t u : State} (h : (Host.Outcome.next u : Host.Outcome State Fault Refusal) = .next t) (hu : u.recs = s.recs) :
    RecsAfter s t := by
  cases h; exact .same hu

theorem request_recsAfter {s t : State} {code : Nat} {f : List Byte → State → ResultCode × List Byte × State} (h : s.request code f = .next t) :
    RecsAfter s t := by
  unfold State.request at h
  split at h
  · exact .of_same h rfl
  · exact .of_finish h

theorem recordRequest_recsAfter {s t : State} {code : Nat} {f : List Byte → Records → ResultCode × Records} (h : s.recordRequest code f = .next t) :
    RecsAfter s t := by
  unfold State.recordRequest at h
  split at h
  · exact .of_same h rfl
  · exact .of_finish h

theorem readRequest_recsAfter {s t : State} {code : Nat} {f : List Byte → ResultCode × List Byte} (h : s.readRequest code f = .next t) :
    RecsAfter s t := by
  unfold State.readRequest at h
  split at h
  · exact .of_same h rfl
  · exact .of_same h rfl

theorem spi_recsAfter {s t : State} {f : Port → Port} (h : s.spi f = .next t) : RecsAfter s t := by
  unfold State.spi at h
  split at h
  · exact .of_same h rfl
  · exact .of_same h rfl

/-- A meaning that runs only while the block is not held by a cold start. -/
theorem whenUp_recsAfter {s t : State} {o : Host.Outcome State Fault Refusal} (ho : ∀ u, o = .next u → RecsAfter s u) (h : s.whenUp o = .next t) :
    RecsAfter s t := by
  unfold State.whenUp at h
  split at h
  · exact .of_same h rfl
  · exact ho t h

theorem lineResponse_recsAfter {s t : State} {isJob : BusJob → Bool} {bytes : List Byte} (h : s.lineResponse isJob bytes = .next t) : RecsAfter s t := by
  refine whenUp_recsAfter (fun u hu => ?_) h
  repeat (first | exact .of_finish hu | exact .of_same hu rfl | split at hu)

theorem lineExpiry_recsAfter {s t : State} {id : Nat} {k : TimerKind} {f : Records → Records} (h : s.lineExpiry id k f = .next t) : RecsAfter s t := by
  refine whenUp_recsAfter (fun u hu => ?_) h
  repeat (first | exact .of_finish hu | exact .of_same hu rfl | split at hu)

/-- How exec leaves the records. -/
theorem exec_recsAfter {c : Instr} {s t : State} (h : exec c s = .next t) : RecsAfter s t := by
  cases c
  all_goals
    simp only [exec] at h
    first
    | exact request_recsAfter h
    | exact recordRequest_recsAfter h
    | exact readRequest_recsAfter h
    | exact spi_recsAfter h
    | exact lineResponse_recsAfter h
    | exact lineExpiry_recsAfter h
    | skip
  case coldStart cause =>
    cases cause <;> simp only [execColdStart] at h
    · exact .of_same h rfl
    · split at h <;> exact .of_same h rfl
  case resetRelease =>
    unfold execResetRelease at h
    split at h
    · exact .of_same h rfl
    · exact .of_same h rfl
    · cases h; exact .inr (.inr rfl)
  case readStatus phase =>
    cases phase
    · exact spi_recsAfter h
    · exact spi_recsAfter h
  case warmRestart =>
    unfold execWarmRestart at h
    split at h
    · cases h; exact .inr (.inl rfl)
    · exact .of_same h rfl
  case takeAttention =>
    unfold execTakeAttention at h
    split at h
    · exact .of_same h rfl
    · split at h
      · split at h
        · exact .of_same h rfl
        · cases h; exact .inr (.inl rfl)
      · exact .of_same h rfl
  all_goals
    first
    | (simp only [execSpiUnknownOperation, execRequestSkipped, execRequestMalformed, execLoadAppearances, execRollCall, execLinkReset, execPass,
        execSetAttention] at h
       repeat' (first | exact .of_same h rfl | exact .of_finish h | exact spi_recsAfter h | split at h))
    | (simp only [execImageHeader, execImageSection, execLoadAppearancesItem, execRequestWindow, execEventMessage, execOutput, execPoll, execPark,
        execPositionDetach, execSequenceBegin, execRollCallRound, execRollCallSilence, execRoundCap, execLinkStuck, execRecoveryAttempt, execBusGrant,
        execFetch, execProbe, execCardClear, execPassCommand, execResponseTimeout, execCardLoss, execProbeTick, execTalkTimerExpiry,
        execAudioFrame] at h
       refine whenUp_recsAfter (fun u hu => ?_) h
       repeat' (first | exact .of_same hu rfl | exact .of_finish hu | split at hu))

end Sys2Proof.Machine
end

