-- ==== Sys2Proof/Laws/PortSteps.lean ====
section
/-!
SUPPORT. What a step can do to the supervisory port, said once: nothing, a transaction, an answer, a hold, a completion, the next item of a run, a restart.
-/
namespace Sys2Proof.Machine

/-! ### Operations that leave the port alone -/

@[simp] theorem advance_port (ms : Nat) (s : State) : (s.advance ms).port = s.port := by unfold State.advance; split <;> rfl
@[simp] theorem tick_port (s : State) : s.tick.port = s.port := by
  unfold State.tick State.settleCycle
  split
  · rfl
  · split <;> simp
@[simp] theorem window_port (a : Option (BitVec 6)) (s : State) : (s.window a).port = s.port := by
  unfold State.window
  simp only
  split
  · rfl
  · split
    · rfl
    · split
      · split <;> rfl
      · rfl
@[simp] theorem detach_port (p : Fin 48) (s : State) : (s.detach p).port = s.port := rfl
@[simp] theorem detachIfAttached_port (p : Fin 48) (s : State) : (s.detachIfAttached p).port = s.port := by
  unfold State.detachIfAttached; split <;> rfl
@[simp] theorem present_port (p : Fin 48) (s : State) : (s.present p).port = s.port := rfl
@[simp] theorem miss_port (p : Fin 48) (s : State) : (s.miss p).port = s.port := by
  unfold State.miss
  split
  · split <;> rfl
  · rfl
@[simp] theorem attach_port (p : Fin 48) (i : Identity) (s : State) : (s.attach p i).port = s.port := rfl
@[simp] theorem endTxn_port (p : Fin 48) (s : State) : (s.endTxn p).port = s.port := rfl
@[simp] theorem judgeEvent_port (p : Fin 48) (bytes : List Byte) (s : State) : (s.judgeEvent p bytes).2.port = s.port := by
  unfold State.judgeEvent
  split
  · rfl
  · simp only; split
    · rfl
    · split <;> rfl
@[simp] theorem takeMessage_port (p : Fin 48) (bytes : List Byte) (s : State) : (s.takeMessage p bytes).port = s.port := by
  unfold State.takeMessage
  simp only [endTxn_port]
  split <;> simp
@[simp] theorem sendOutput_port (p : Fin 48) (s : State) : (s.sendOutput p).port = s.port := rfl
@[simp] theorem outputReply_port (p : Fin 48) (items : List OutItem) (bytes : List Byte) (s : State) : (s.outputReply p items bytes).port = s.port := by
  unfold State.outputReply
  split
  · rfl
  · simp only; split <;> simp
@[simp] theorem sendPoll_port (p : Fin 48) (s : State) : (s.sendPoll p).port = s.port := rfl
@[simp] theorem pollReply_port (p : Fin 48) (bytes : List Byte) (s : State) : (s.pollReply p bytes).port = s.port := by
  unfold State.pollReply; split <;> simp
@[simp] theorem sendPark_port (p : Fin 48) (s : State) : (s.sendPark p).port = s.port := rfl
@[simp] theorem assignWinner_port (q : Sequence) (p : Fin 48) (i : Identity) (reply : List Byte) (s : State) :
    (s.assignWinner q p i reply).port = s.port := by
  unfold State.assignWinner
  simp only; split <;> simp
@[simp] theorem parkWinner_port (q : Sequence) (i : Identity) (s : State) : (s.parkWinner q i).port = s.port := rfl
@[simp] theorem round_port (q : Sequence) (i : Identity) (check : Byte) (reply : List Byte) (s : State) : (s.round q i check reply).port = s.port := by
  unfold State.round
  split
  · split <;> simp
  · rfl
@[simp] theorem attempt_port (w : Wires) (s : State) : (s.attempt w).port = s.port := by unfold State.attempt; split <;> rfl
@[simp] theorem abandon_port (s : State) : s.abandon.port = s.port := by unfold State.abandon; split <;> rfl
@[simp] theorem countGrant_port (b : Bool) (c : Client) (s : State) : (s.countGrant b c).port = s.port := rfl
@[simp] theorem issue_port (j : BusJob) (c : Fin 32) (a b d e : Nat) (s : State) : (s.issue j c a b d e).port = s.port := rfl
@[simp] theorem grantLine_port (id : Nat) (s : State) : (s.grantLine id).port = s.port := by
  unfold State.grantLine
  split
  · rfl
  · split <;> rfl
@[simp] theorem grant_port (c : Client) (s : State) : (s.grant c).port = s.port := by
  unfold State.grant
  split <;> split <;> simp
@[simp] theorem takeLineOutcome_port (f : InFlight) (id : Nat) (cmd : LineCmd) (b : Bool) (s : State) : (s.takeLineOutcome f id cmd b).port = s.port := by
  unfold State.takeLineOutcome
  simp only; split
  · rfl
  · split <;> rfl
@[simp] theorem startConsoles_port (w : Wires) (s : State) : (s.startConsoles w).port = s.port := by unfold State.startConsoles; split <;> rfl
@[simp] theorem served_port (c : Fin 32) (w : Wires) (s : State) : (s.served c w).port = s.port := by
  unfold State.served
  simp only; split <;> simp
@[simp] theorem endImage_port (w : Wires) (s : State) : (s.endImage w).port = s.port := by
  unfold State.endImage
  simp only; split <;> simp
@[simp] theorem applySettings_port (a b c d e f g h i : Byte) (s : State) : (s.applySettings a b c d e f g h i).2.port = s.port := by
  unfold State.applySettings
  split
  · split <;> rfl
  · rfl
@[simp] theorem applyItem_port (k : Nat) (item : List Byte) (s : State) : (s.applyItem k item).2.port = s.port := by
  unfold State.applyItem
  split <;> simp [State.onRecords]
@[simp] theorem takeItem_port (k : Nat) (s : State) (item : List Byte) : (s.takeItem k item).port = s.port := by
  unfold State.takeItem
  simp only; split <;> simp
@[simp] theorem takeSection_port (k n : Nat) (items : List Byte) (sum : Nat) (s : State) : (s.takeSection k n items sum).port = s.port := by
  unfold State.takeSection
  split
  · rfl
  · split
    · rfl
    · generalize itemsOf (itemLength k) n items = xs
      induction xs generalizing s with
      | nil => rfl
      | cons x xs ih => rw [List.foldl_cons, ih]; simp
@[simp] theorem dealSection_port (k n : Nat) (items : List Byte) (sum : Nat) (s : State) : (s.dealSection k n items sum).port = s.port := by
  unfold State.dealSection
  simp only; split <;> simp [State.abandonImage]
@[simp] theorem revoke_port (p : Nat) (s : State) : (s.revoke p).2.port = s.port := by
  unfold State.revoke
  split
  · rfl
  · split <;> simp

/-! ### Operations that may complete the held request -/

/-- The port is as it was, or the held request has completed. -/
def MayComplete (p p' : Port) : Prop := p' = p ∨ ∃ c body, p' = p.complete c body

theorem MayComplete.of_eq {p p' : Port} (h : p' = p) : MayComplete p p' := .inl h

theorem complete_of_free {p : Port} (h : p.executor = none) (c : ResultCode) (body : List Byte) : p.complete c body = p := by simp [Port.complete, h]

theorem complete_executor (p : Port) (c : ResultCode) (body : List Byte) : (p.complete c body).executor = none := by
  unfold Port.complete
  split
  · assumption
  · split <;> rfl

theorem MayComplete.trans {a b c : Port} (h : MayComplete a b) (k : MayComplete b c) : MayComplete a c := by
  rcases h with rfl | ⟨x, y, rfl⟩
  · exact k
  · rcases k with rfl | ⟨u, v, rfl⟩
    · exact .inr ⟨x, y, rfl⟩
    · exact .inr ⟨x, y, complete_of_free (complete_executor a x y) u v⟩

theorem closeSequence_port (q : Sequence) (c : ResultCode) (s : State) : MayComplete s.port (s.closeSequence q c).port := by
  unfold State.closeSequence
  simp only; split
  · exact .inr ⟨_, _, rfl⟩
  · exact .inl rfl
theorem endSequence_port (q : Sequence) (s : State) : MayComplete s.port (s.endSequence q).port := closeSequence_port q .done s
theorem dropWaits_port (s : State) : MayComplete s.port s.dropWaits.port := by
  unfold State.dropWaits
  simp only; split
  · exact .inr ⟨_, _, rfl⟩
  · exact .inl rfl
theorem breakSequence_port (s : State) : MayComplete s.port s.breakSequence.port := by
  unfold State.breakSequence
  split
  · exact .inl rfl
  · exact closeSequence_port _ _ s
theorem goStuck_port (w : Wires) (s : State) : MayComplete s.port (s.goStuck w).port := by
  unfold State.goStuck
  simp only [attempt_port]
  exact (MayComplete.of_eq (abandon_port s)).trans ((breakSequence_port _).trans (dropWaits_port _))
theorem completeReset_port (s : State) : MayComplete s.port s.completeReset.port := by
  unfold State.completeReset
  split
  · exact .inr ⟨_, _, rfl⟩
  · exact .inl rfl
theorem completePass_port (c : ResultCode) (body : List Byte) (s : State) : MayComplete s.port (s.completePass c body).port := by
  unfold State.completePass
  simp only; split
  · exact .inr ⟨_, _, rfl⟩
  · exact .inl rfl
theorem noResponse_port (f : InFlight) (w : Wires) (s : State) : MayComplete s.port (s.noResponse f w).port := by
  unfold State.noResponse
  simp only
  split <;> first | exact .inl rfl | exact .inl (served_port ..) | exact completePass_port ..

/-! ### The port after a command -/

/-- How a command leaves the port. -/
inductive PortAfter (s t : State) : Prop where
  | completed (h : MayComplete s.port t.port)
  | answered (q : Request) (p : Port) (c : ResultCode) (body : List Byte) (hr : s.ready = some (q, p)) (h : t.port = p.answer q c body)
  | attention (q : Request) (p : Port) (hr : s.ready = some (q, p)) (h : t.port = (p.setAttention q.body).2.answer q (p.setAttention q.body).1 [])
  | held (q : Request) (p : Port) (j : Job) (hr : s.ready = some (q, p)) (h : t.port = p.hold q j)
  | item (x y : Held) (hx : s.port.executor = some x) (h : t.port = { s.port with executor := some y })
  | write (bytes : List Byte) (h : t.port = s.port.write bytes)
  | readResult (k : Nat) (h : t.port = s.port.readResult k)
  | latch (bytes sent : List Byte) (full : Bool) (h : t.port = { s.port with status := bytes, spDo := sent, full := full })
  | restart (x : Option Held) (h : t.port = s.port.restart x)
  | cold (h : t.port = Port.cold)

theorem PortAfter.same {s t u : State} (h : (Host.Outcome.next u : Host.Outcome State Fault Refusal) = .next t) (hu : u.port = s.port) : PortAfter s t := by
  cases h; exact .completed (.inl hu)

theorem PortAfter.may {s t u : State} (h : (Host.Outcome.next u : Host.Outcome State Fault Refusal) = .next t) (hu : MayComplete s.port u.port) :
    PortAfter s t := by
  cases h; exact .completed hu

theorem ready_of_takes {s : State} {code : Nat} {q : Request} {p : Port} (h : s.takes code = some (q, p)) : s.ready = some (q, p) := by
  unfold State.takes at h
  split at h
  · cases h
  · split at h
    · cases h; assumption
    · cases h

theorem recordRequest_portAfter {s t : State} {code : Nat} {f : List Byte → Records → ResultCode × Records} (h : s.recordRequest code f = .next t) :
    PortAfter s t := by
  unfold State.recordRequest at h
  split at h
  · exact .same h rfl
  · rename_i q p hq
    cases h
    exact .answered q p _ _ (ready_of_takes hq) (by simp; rfl)

theorem readRequest_portAfter {s t : State} {code : Nat} {f : List Byte → ResultCode × List Byte} (h : s.readRequest code f = .next t) : PortAfter s t := by
  unfold State.readRequest at h
  split at h
  · exact .same h rfl
  · rename_i q p hq
    cases h
    exact .answered q p _ _ (ready_of_takes hq) rfl

theorem request_portAfter {s t : State} {code : Nat} {f : List Byte → State → ResultCode × List Byte × State}
    (hf : ∀ body u, (f body u).2.2.port = u.port) (h : s.request code f = .next t) : PortAfter s t := by
  unfold State.request at h
  split at h
  · exact .same h rfl
  · rename_i q p hq
    cases h
    refine .answered q p (f q.body { s with port := p }).1 (f q.body { s with port := p }).2.1 (ready_of_takes hq) ?_
    simp only [finish_port, hf]

theorem whenUp_portAfter {s t : State} {o : Host.Outcome State Fault Refusal} (ho : ∀ u, o = .next u → PortAfter s u) (h : s.whenUp o = .next t) :
    PortAfter s t := by
  unfold State.whenUp at h
  split at h
  · exact .same h rfl
  · exact ho t h

theorem lineResponse_portAfter {s t : State} {isJob : BusJob → Bool} {bytes : List Byte} (h : s.lineResponse isJob bytes = .next t) : PortAfter s t := by
  refine whenUp_portAfter (fun u hu => ?_) h
  repeat' (first | exact .same hu rfl | exact .same hu (by simp) | split at hu)

theorem lineExpiry_portAfter {s t : State} {id : Nat} {k : TimerKind} {f : Records → Records} (h : s.lineExpiry id k f = .next t) : PortAfter s t := by
  refine whenUp_portAfter (fun u hu => ?_) h
  repeat' (first | exact .same hu rfl | exact .same hu (by simp) | split at hu)

theorem loadItem_portAfter {s : State} {id : Nat} {x : AppearanceItem} {rest : List AppearanceItem} {n : Nat} {h : Held}
    (he : s.port.executor = some h) : PortAfter s (s.loadItem id x rest n h) := by
  unfold State.loadItem
  simp only
  split
  · split
    · exact .completed (.inr ⟨_, _, rfl⟩)
    · exact .item h _ he rfl
  · exact .completed (.inr ⟨_, _, rfl⟩)

theorem PortAfter.finish {s u : State} (h : PortAfter s u) : PortAfter s u.finish := by
  cases h with
  | completed h => exact .completed (by simpa using h)
  | answered q p c body hr h => exact .answered q p c body hr (by simpa using h)
  | attention q p hr h => exact .attention q p hr (by simpa using h)
  | held q p j hr h => exact .held q p j hr (by simpa using h)
  | item x y hx h => exact .item x y hx (by simpa using h)
  | write bytes h => exact .write bytes (by simpa using h)
  | readResult k h => exact .readResult k (by simpa using h)
  | latch bytes sent full h => exact .latch bytes sent full (by simpa using h)
  | restart x h => exact .restart x (by simpa using h)
  | cold h => exact .cold (by simpa using h)

/-- How exec leaves the port. -/
theorem exec_portAfter {c : Instr} {s t : State} (h : exec c s = .next t) : PortAfter s t := by
  cases c
  all_goals
    simp only [exec] at h
    first
    | exact recordRequest_portAfter h
    | exact readRequest_portAfter h
    | exact lineResponse_portAfter h
    | exact lineExpiry_portAfter h
    | skip
  case coldStart cause =>
    cases cause <;> simp only [execColdStart] at h
    · exact .same h rfl
    · split at h <;> exact .same h rfl
  case resetRelease =>
    unfold execResetRelease at h
    split at h
    · exact .same h rfl
    · exact .same h rfl
    · cases h; exact .cold rfl
  case warmRestart =>
    unfold execWarmRestart at h
    split at h
    · cases h; exact .restart _ rfl
    · exact .same h rfl
  case writeRequest bytes =>
    simp only [execWriteRequest, State.spi] at h
    split at h
    · cases h; exact .write bytes rfl
    · exact .same h rfl
  case readResult k =>
    simp only [execReadResult, State.spi] at h
    split at h
    · cases h; exact .readResult k rfl
    · exact .same h rfl
  case readStatus phase =>
    cases phase <;> simp only [execReadStatus, State.spi] at h
    all_goals
      split at h
      · cases h; exact .latch _ _ _ rfl
      · exact .same h rfl
  case spiUnknownOperation op k =>
    simp only [execSpiUnknownOperation, State.spi] at h
    split at h
    · exact .same h rfl
    · split at h
      · cases h; exact .latch _ _ _ rfl
      · exact .same h rfl
  case requestSkipped =>
    unfold execRequestSkipped at h
    split at h
    · exact .same h rfl
    · rename_i q p hq
      split at h
      · cases h; exact .answered q p _ _ hq rfl
      · exact .same h rfl
  case requestMalformed =>
    unfold execRequestMalformed at h
    split at h
    · exact .same h rfl
    · rename_i q p hq
      split at h
      · cases h; exact .answered q p _ _ hq rfl
      · exact .same h rfl
  case loadAppearances =>
    unfold execLoadAppearances at h
    split at h
    · exact .same h rfl
    · rename_i q p hq
      split at h
      · cases h; exact .held q p _ (ready_of_takes hq) rfl
      · cases h; exact .answered q p _ _ (ready_of_takes hq) rfl
  case rollCall =>
    unfold execRollCall at h
    split at h
    · exact .same h rfl
    · rename_i q p hq
      split at h
      · split at h
        · cases h; exact .answered q p _ _ (ready_of_takes hq) rfl
        · split at h
          · cases h; exact .answered q p _ _ (ready_of_takes hq) rfl
          · cases h; exact .held q p _ (ready_of_takes hq) (by simp; rfl)
      · cases h; exact .answered q p _ _ (ready_of_takes hq) rfl
  case linkReset =>
    unfold execLinkReset at h
    split at h
    · exact .same h rfl
    · rename_i q p hq
      split at h
      · cases h; exact .held q p _ (ready_of_takes hq) rfl
      · cases h; exact .answered q p _ _ (ready_of_takes hq) rfl
  case pass =>
    unfold execPass at h
    split at h
    · exact .same h rfl
    · rename_i q p hq
      split at h
      · split at h
        · cases h; exact .answered q p _ _ (ready_of_takes hq) rfl
        · cases h; exact .held q p _ (ready_of_takes hq) rfl
      · cases h; exact .answered q p _ _ (ready_of_takes hq) rfl
  case setAttention =>
    unfold execSetAttention at h
    split at h
    · exact .same h rfl
    · rename_i q p hq
      cases h; exact .attention q p (ready_of_takes hq) rfl
  case takeAttention =>
    unfold execTakeAttention at h
    split at h
    · exact .same h rfl
    · rename_i q p hq
      split at h
      · split at h
        · cases h; exact .answered q p _ _ (ready_of_takes hq) rfl
        · cases h; exact .answered q p _ _ (ready_of_takes hq) rfl
      · cases h; exact .answered q p _ _ (ready_of_takes hq) rfl
  case loadAppearancesItem =>
    refine whenUp_portAfter (fun u hu => ?_) h
    split at hu
    · exact .same hu rfl
    · rename_i x hx
      split at hu
      · cases hu; exact (loadItem_portAfter hx).finish
      all_goals exact .same hu rfl
  case takeKeys =>
    refine request_portAfter (fun body u => ?_) h
    split <;> rfl
  case admitConsole =>
    refine request_portAfter (fun body u => ?_) h
    split <;> rfl
  case revokeConsole =>
    refine request_portAfter (fun body u => ?_) h
    split <;> simp
  case readParked =>
    refine request_portAfter (fun body u => ?_) h
    split
    · split
      · rfl
      · split <;> rfl
    · rfl
  case setJoinPolicy =>
    refine request_portAfter (fun body u => ?_) h
    split
    · split <;> rfl
    · rfl
  all_goals
    refine whenUp_portAfter (fun u hu => ?_) h
  case eventMessage =>
    repeat' (first | exact .same hu rfl | exact .same hu (by simp) | split at hu)
  case imageHeader =>
    split at hu
    · split at hu
      · split at hu
        · exact .same hu (by rw [finish_port]; split <;> simp)
        · exact .same hu (by simp)
      · exact .same hu (by simp)
    · exact .same hu rfl
  case imageSection =>
    split at hu
    · refine .same hu ?_
      rw [finish_port]
      split
      · split
        · rw [endImage_port]; exact dealSection_port ..
        · exact dealSection_port ..
      · split
        · rw [endImage_port]; rfl
        · rfl
    · exact .same hu rfl
  case rollCallSilence =>
    split at hu
    · exact .same hu rfl
    · split at hu
      · exact .may hu (by rw [finish_port]; exact endSequence_port ..)
      · exact .same hu rfl
  case roundCap =>
    split at hu
    · exact .same hu rfl
    · split at hu
      · exact .may hu (by rw [finish_port]; exact endSequence_port ..)
      · exact .same hu rfl
  case linkStuck =>
    split at hu
    · exact .may hu (by rw [finish_port]; exact goStuck_port ..)
    · exact .same hu rfl
  case recoveryAttempt =>
    split at hu
    · refine .may hu ?_
      rw [finish_port]
      refine (MayComplete.of_eq ?_).trans (completeReset_port _)
      rw [attempt_port]
      split <;> simp
    · split at hu
      · exact .may hu (by rw [finish_port]; exact completeReset_port ..)
      · exact .same hu rfl
  case passCommand =>
    split at hu
    · exact .same hu rfl
    · refine .may hu ?_
      rw [finish_port]
      split <;> exact completePass_port ..
  case responseTimeout =>
    split at hu
    · exact .same hu rfl
    · refine .may hu ?_
      rw [finish_port]
      exact (MayComplete.of_eq (advance_port _ s)).trans (noResponse_port ..)
  case cardLoss =>
    split at hu
    · split at hu
      · refine .may hu ?_
        rw [finish_port]
        exact (MayComplete.of_eq (advance_port _ s)).trans (noResponse_port ..)
      · exact .same hu rfl
    · exact .same hu rfl
  all_goals
    repeat' (first | exact .same hu rfl | exact .same hu (by simp) | split at hu)

end Sys2Proof.Machine
end

