-- ==== Sys2Proof/Laws/Bus.lean ====
section
/-!
SUPPORT. Bus responses, the passing of time, the console link's bounds: small facts the statements about them rest on.
-/
namespace Sys2Proof.Machine

/-! ### Bus responses -/

theorem toNat_byte1_card (card : Fin 32) : (byte1 card.val).toNat = card.val := by
  have := card.isLt
  simp [byte1]
  omega

/-- R172: a response from the card with a right check byte and an allowed status is read as it was sent. -/
theorem parse_checked (card : Fin 32) (allowed : List Nat) (st v1 v2 : Byte) (h : allowed.contains st.toNat = true) :
    Response.parse card allowed (checked [byte1 card.val, st, v1, v2]) = some ⟨st.toNat, v1, v2⟩ := by
  simp [Response.parse, checked, toNat_byte1_card]
  simpa using h

/-- R171: a valid response changes no card's presence. -/
theorem responded_present (c k : Fin 32) (r : Records) : ((r.responded c).card k).present = (r.card k).present := by
  show ((r.modCard c _).card k).present = _
  rw [card_modCard]
  split
  · rename_i h; subst h; split <;> rfl
  · rfl

/-- R171, R176: a valid response leaves the line's standing on its card channel alone. -/
theorem responded_lineOfChannel (c : Fin 32) (id ch : Nat) (r : Records) : (r.responded c).lineOfChannel id c ch = r.lineOfChannel id c ch := by
  unfold Records.lineOfChannel
  rw [responded_present]
  rfl

/-! ### The passing of time -/

@[simp] theorem advance_cards (ms : Nat) (s : State) : (s.advance ms).recs.cards = s.recs.cards := by unfold State.advance; split <;> rfl
@[simp] theorem advance_windows (ms : Nat) (s : State) : (s.advance ms).recs.windows = s.recs.windows := by unfold State.advance; split <;> rfl
@[simp] theorem advance_resetPin (ms : Nat) (s : State) : (s.advance ms).resetPin = s.resetPin := by unfold State.advance; split <;> rfl
@[simp] theorem advance_part (ms : Nat) (s : State) : (s.advance ms).part = s.part := by unfold State.advance; split <;> rfl

@[simp] theorem advance_stageCards (ms : Nat) (s : State) : (s.advance ms).bus.stageCards = s.bus.stageCards := by unfold State.advance; split <;> rfl
@[simp] theorem advance_loader (ms : Nat) (s : State) : (s.advance ms).loader = s.loader := by unfold State.advance; split <;> rfl
@[simp] theorem advance_audio (ms : Nat) (s : State) : (s.advance ms).audio = s.audio := by unfold State.advance; split <;> rfl
@[simp] theorem advance_pending (ms : Nat) (s : State) : (s.advance ms).pending = s.pending := by unfold State.advance; split <;> rfl
@[simp] theorem advance_positions (ms : Nat) (s : State) : (s.advance ms).recs.positions = s.recs.positions := by unfold State.advance; split <;> rfl
@[simp] theorem advance_groups (ms : Nat) (s : State) : (s.advance ms).recs.groups = s.recs.groups := by unfold State.advance; split <;> rfl
@[simp] theorem advance_appearances (ms : Nat) (s : State) : (s.advance ms).recs.appearances = s.recs.appearances := by
  unfold State.advance; split <;> rfl
@[simp] theorem advance_raised (ms : Nat) (s : State) : (s.advance ms).recs.raised = s.recs.raised := by unfold State.advance; split <;> rfl

/-- A fold over positions that touches one presence record at a time touches the presence table only, and keeps there what each touch keeps. -/
theorem link_foldl_presence {f : Link → Fin 48 → Link} (h : ∀ l p, f l p = l ∨ ∃ x, f l p = { l with presence := vset l.presence p { l.pres p with idle := x } })
    (ps : List (Fin 48)) (l : Link) :
    ∃ pr, ps.foldl f l = { l with presence := pr } ∧ ∀ p, vget pr p = { l.pres p with idle := (vget pr p).idle } := by
  induction ps generalizing l with
  | nil => exact ⟨l.presence, rfl, fun _ => rfl⟩
  | cons q ps ih =>
    rw [List.foldl_cons]
    rcases h l q with h | ⟨x, h⟩
    · rw [h]; exact ih l
    · obtain ⟨pr, h1, h2⟩ := ih (f l q)
      refine ⟨pr, by rw [h1, h], fun p => ?_⟩
      rw [h2 p, h]
      simp only [Link.pres, vget_vset]
      split
      · rename_i hp; subst hp; rfl
      · rfl

/-- The passing of time touches of the link only the idle times and the recovery interval. -/
theorem advance_link (ms : Nat) (s : State) :
    ∃ pr w, (s.advance ms).link = { s.link with presence := pr, recoveryWait := w } ∧
      ∀ p, vget pr p = { s.link.pres p with idle := (vget pr p).idle } := by
  unfold State.advance
  split
  · exact ⟨s.link.presence, s.link.recoveryWait, rfl, fun _ => rfl⟩
  · obtain ⟨pr, h1, h2⟩ := link_foldl_presence (f := Link.elapseAt ms s.recs) (fun l p => by
      unfold Link.elapseAt
      split
      · exact .inr ⟨_, rfl⟩
      · exact .inl rfl) (allFin 48) { s.link with recoveryWait := s.link.recoveryWait - ms }
    exact ⟨pr, _, h1, h2⟩

/-- R164: every idle time restarts, and nothing else of the link changes. -/
theorem restAll_spec (l : Link) : ∃ pr, l.restAll = { l with presence := pr } ∧ ∀ p, vget pr p = { l.pres p with idle := 0 } := by
  have key : ∀ (ps : List (Fin 48)) (l : Link), ∃ pr, ps.foldl (fun l p => l.rest p) l = { l with presence := pr } ∧
      ∀ p, vget pr p = if p ∈ ps then { l.pres p with idle := 0 } else l.pres p := by
    intro ps
    induction ps with
    | nil => intro l; exact ⟨l.presence, rfl, fun p => by simp [Link.pres]⟩
    | cons q ps ih =>
      intro l
      obtain ⟨pr, h1, h2⟩ := ih (l.rest q)
      refine ⟨pr, h1, fun p => ?_⟩
      rw [h2 p]
      simp only [Link.rest, pres_modPres, List.mem_cons]
      by_cases hp : p = q
      · subst hp; simp
      · simp [hp]
  obtain ⟨pr, h1, h2⟩ := key (allFin 48) l
  exact ⟨pr, h1, fun p => by rw [h2 p]; simp⟩

/-- R164: a recovery attempt that finds both wires high. -/
theorem attempt_high {w : Wires} (h1 : w.clk = true) (h2 : w.dat = true) (s : State) :
    ∃ pr, s.attempt w = { s with
        recs := s.recs.raise .link .recovered, link := { s.link with presence := pr, state := .running, recoveryWait := 0 }.beginNext } ∧
      ∀ p, vget pr p = { s.link.pres p with idle := 0 } := by
  obtain ⟨pr, h3, h4⟩ := restAll_spec s.link
  refine ⟨pr, ?_, h4⟩
  unfold State.attempt
  rw [if_pos (by simp [h1, h2]), h3]

/-- R164: a recovery attempt that finds a wire low. -/
theorem attempt_low {w : Wires} (h : w.clk = false ∨ w.dat = false) (s : State) :
    s.attempt w = { s with link := { s.link with recoveryWait := 100 } } := by
  unfold State.attempt
  rw [if_neg]
  rcases h with h | h <;> simp [h]

/-- R159, R162: the sequence that begins next, and what is left of the wait. -/
theorem beginNext_spec (l : Link) : ∃ q ws wd, l.beginNext = { l with sequence := q, waits := ws, wanted := wd, cycle := .window } ∧
    (l.waits = [] → ws = [] ∧ wd = false ∧ q = if l.wanted then some ⟨.new, 0, false, 0, 0⟩ else l.sequence) ∧
    (∀ x rest, l.waits = x :: rest → ws = rest ∧ wd = false ∧ q = some ⟨x.scope, 0, x.owned, 0, 0⟩) := by
  unfold Link.beginNext
  cases h : l.waits with
  | nil =>
    simp only
    cases hw : l.wanted with
    | true =>
      refine ⟨some ⟨.new, 0, false, 0, 0⟩, [], false, ?_, fun _ => ⟨rfl, rfl, rfl⟩, fun x rest hx => absurd hx (by simp)⟩
      rw [if_pos rfl, ← h]; rfl
    | false =>
      refine ⟨l.sequence, [], false, ?_, fun _ => ⟨rfl, rfl, rfl⟩, fun x rest hx => absurd hx (by simp)⟩
      rw [if_neg (by simp)]
  | cons x rest =>
    refine ⟨_, rest, false, rfl, fun hx => absurd hx (by simp), fun y ys hx => ?_⟩
    injection hx with h1 h2
    subst h1; subst h2
    exact ⟨rfl, rfl, rfl⟩

/-- A line after some time is the line but for its timer. -/
theorem advance_line? {s : State} {id : Nat} {l : Line} (ms : Nat) (h : s.recs.line? id = some l) :
    ∃ t, (s.advance ms).recs.line? id = some { l with timer := t } := by
  unfold State.advance
  split
  · exact ⟨l.timer, h⟩
  · refine ⟨(l.elapse ms).timer, ?_⟩
    simp only [Records.line?, Records.elapse, Table.find_map] at h ⊢
    rw [h]; rfl

/-- A member after some time is the member but for its talk timer. -/
theorem advance_member? {s : State} {m : Nat} {x : Member} (ms : Nat) (h : s.recs.member? m = some x) :
    ∃ t, (s.advance ms).recs.member? m = some { x with talkTimer := t } := by
  unfold State.advance
  split
  · exact ⟨x.talkTimer, h⟩
  · refine ⟨(x.elapse ms).talkTimer, ?_⟩
    simp only [Records.member?, Records.elapse, Table.find_map] at h ⊢
    rw [h]; rfl

theorem elapse_differs (ms : Nat) (r : Records) (l : Line) : (r.elapse ms).differs (l.elapse ms) = r.differs l := rfl

theorem tick_recs (s : State) : s.tick.recs = s.recs ∨ s.tick.recs = s.recs.elapse 1 := by
  unfold State.tick State.settleCycle
  split
  · exact .inl rfl
  · split
    · exact .inr rfl
    · exact .inr rfl

/-! ### The bounds of the parked list (R157) and of a sequence's rounds (R160) -/

/-- The bounds of R157 and R160 on a link. -/
def Link.Bounded (l : Link) : Prop :=
  l.parked.length ≤ Config.parked ∧ l.parked.Nodup ∧ ∀ q, l.sequence = some q → q.rounds ≤ Config.rounds

theorem bounded_of_eq {l l' : Link} (h : l.Bounded) (h1 : l'.parked = l.parked) (h2 : l'.sequence = l.sequence) : l'.Bounded := by
  unfold Link.Bounded at *; rw [h1, h2]; exact h

theorem bounded_addParked {l : Link} (i : Identity) (h : l.Bounded) : (l.addParked i).Bounded := by
  unfold Link.addParked
  split
  · exact h
  · rename_i hc
    simp only [Bool.or_eq_true, decide_eq_true_eq, not_or, List.contains_iff_mem] at hc
    refine ⟨by simp; omega, ?_, h.2.2⟩
    simp only [List.nodup_append, List.nodup_singleton, true_and]
    refine ⟨h.2.1, ?_⟩
    rintro a ha b hb rfl
    simp at hb
    subst hb
    exact hc.1 ha

theorem bounded_dropParked {l : Link} (i : Identity) (h : l.Bounded) : (l.dropParked i).Bounded :=
  ⟨Nat.le_trans (List.length_filter_le ..) h.1, h.2.1.filter _, h.2.2⟩

theorem bounded_begin {l : Link} (sc : Scope) (o : Bool) (h : l.Bounded) : (l.begin sc o).Bounded :=
  ⟨h.1, h.2.1, fun q hq => by cases hq; exact Nat.zero_le _⟩

theorem bounded_beginNext {l : Link} (h : l.Bounded) : l.beginNext.Bounded := by
  unfold Link.beginNext
  split
  · exact bounded_begin _ _ (bounded_of_eq h rfl rfl)
  · split
    · exact bounded_begin _ _ h
    · exact bounded_of_eq h rfl rfl

end Sys2Proof.Machine
end

