-- ==== Sys2Proof/Laws/Leaves.lean ====
section
/-!
SUPPORT. What a party's leaving, a hold, a retrieval and a handset move do to the line they act on and to the channels of the position, and what ending a floor or granting one does to the group.
-/
namespace Sys2Proof.Machine

/-! ### Bindings after a free -/

theorem bound_setBound_other (r : Records) {p q : Fin 48} {ch dh : Channel} (b : Binding) (h : (q, dh) ≠ (p, ch)) :
    (r.setBound p ch b).bound q dh = r.bound q dh := by
  have hm : ∀ (n : Fin 8) (r : Records), (r.markChannel p n).bound q dh = r.bound q dh := fun n r => (markChannel_marksOnly p n r).bound q dh
  by_cases hq : q = p
  · subst hq
    rcases ch with (_|_)|n <;> rcases dh with (_|_)|k <;> simp_all [Records.setBound, Records.bound, vget_vset]
  · rcases ch with (_|_)|n <;> rcases dh with (_|_)|k <;> simp_all [Records.setBound, Records.bound, pos_modPos]

/-- R61: freeing the holder's own binding leaves the channel bound to none. -/
theorem bound_free (r : Records) {p : Fin 48} {ch : Channel} {b : Binding} (h : r.bound p ch = b) : (r.free p ch b).bound p ch = .none := by
  unfold Records.free
  split
  · simp
  · rename_i hn; simp_all

theorem bound_free_other (r : Records) {p q : Fin 48} {ch dh : Channel} (b : Binding) (h : (q, dh) ≠ (p, ch)) :
    (r.free p ch b).bound q dh = r.bound q dh := by
  unfold Records.free
  split
  · exact bound_setBound_other r _ h
  · rfl

theorem bound_setLine (r : Records) (id : Nat) (l : Line) (p : Fin 48) (ch : Channel) : (r.setLine id l).bound p ch = r.bound p ch :=
  bound_of_positions rfl p ch

theorem bound_moveLine (r : Records) (id : Nat) (st : LineState) (p : Fin 48) (ch : Channel) : (r.moveLine id st).bound p ch = r.bound p ch :=
  bound_of_pos ((lineWork_moveLine ..).pos p) ch

theorem bound_handBack (r : Records) (id : Nat) (p : Fin 48) (ch : Channel) : (r.handBack id).bound p ch = r.bound p ch := by
  unfold Records.handBack
  split
  · rfl
  · split
    · rfl
    · split
      · rw [(floorWork_releaseBridge ..).bound, bound_setLine]
      · rfl

/-- R24, R61: when a line's sole party leaves, its channel is bound to none. -/
theorem bound_removeAllParties {r : Records} {id : Nat} {l : Line} {p : Fin 48} {ch : Channel} (hl : r.line? id = some l)
    (hp : l.parties = [⟨p, ch⟩]) (hb : r.bound p ch = .line id) : (r.removeAllParties id).bound p ch = .none := by
  simp only [Records.removeAllParties, hl, bound_handBack, hp, List.foldl_cons, List.foldl_nil]
  exact bound_free _ (by rw [bound_setLine]; exact hb)

/-- R24, R61: when every party leaves, the channel of each is bound to none. -/
theorem bound_removeAllParties_mem {r : Records} {id : Nat} {l : Line} {x : Party} (hl : r.line? id = some l)
    (hx : x ∈ l.parties) (hb : r.bound x.pos x.ch = .line id) : (r.removeAllParties id).bound x.pos x.ch = .none := by
  have key : ∀ (xs : List Party) (r : Records), (x ∈ xs ∧ r.bound x.pos x.ch = .line id) ∨ r.bound x.pos x.ch = .none →
      (xs.foldl (fun r x => r.free x.pos x.ch (.line id)) r).bound x.pos x.ch = .none := by
    intro xs
    induction xs with
    | nil => intro r h; simpa using h
    | cons y xs ih =>
      intro r h
      rw [List.foldl_cons]
      apply ih
      by_cases hxy : (x.pos, x.ch) = (y.pos, y.ch)
      · right
        simp only [Prod.mk.injEq] at hxy
        rw [← hxy.1, ← hxy.2]
        rcases h with ⟨_, h⟩ | h
        · exact bound_free r h
        · unfold Records.free
          rw [h, if_neg (by simp)]
          exact h
      · rw [bound_free_other _ _ hxy]
        rcases h with ⟨h1, h2⟩ | h
        · rcases List.mem_cons.mp h1 with h1 | h1
          · subst h1; exact absurd rfl hxy
          · exact .inl ⟨h1, h2⟩
        · exact .inr h
  simp only [Records.removeAllParties, hl, bound_handBack]
  exact key _ _ (.inl ⟨hx, by rw [bound_setLine]; exact hb⟩)

theorem partyChannel_none {l : Line} {p : Fin 48} (h : l.hasParty p = false) : l.partyChannel p = none := by
  simp only [Line.partyChannel, Line.hasParty, List.any_eq_false] at h ⊢
  simp only [Option.map_eq_none_iff, List.find?_eq_none]
  exact h

theorem hasParty_of_partyChannel {l : Line} {p : Fin 48} {ch : Channel} (h : l.partyChannel p = some ch) : l.hasParty p = true := by
  simp only [Line.partyChannel, Option.map_eq_some_iff] at h
  obtain ⟨x, hx, _⟩ := h
  exact List.any_eq_true.mpr ⟨x, List.mem_of_find?_eq_some hx, by simpa using List.find?_some hx⟩

/-- R25, R61: a party that leaves frees its channel. -/
theorem bound_removeParty {r : Records} {id : Nat} {l : Line} {p : Fin 48} {ch : Channel} (hl : r.line? id = some l)
    (hp : l.partyChannel p = some ch) (hb : r.bound p ch = .line id) : (r.removeParty p id).bound p ch = .none := by
  simp only [Records.removeParty, hl, hp, (markLine_marksOnly ..).bound, bound_handBack]
  exact bound_free _ (by rw [bound_setLine]; exact hb)

/-! ### Leaves (R39, R41) -/

/-- R41: the line that its sole party has left. -/
def Line.leftIdle (l : Line) : Line :=
  { l with state := .idle, parties := [], holdOwner := none, bridge := none, desired := Cond.off, timer := none }

/-- R39: the line that its sole party p has held. -/
def Line.leftHeld (p : Fin 48) (l : Line) : Line :=
  { l with
    state := .held, parties := [], bridge := none, desired := Cond.call, holdOwner := if l.privacy = .closed then some p else none
    timer := if l.holdRecall = 0 then none else some ⟨.recallWait, l.holdRecall * 1000⟩ }

/-- R25: the line that party p, one of several, has left. -/
def Line.leftBy (p : Fin 48) (l : Line) : Line :=
  { l with
    parties := l.parties.filter (fun x => !(x.pos == p))
    bridge := if (l.parties.filter (fun x => !(x.pos == p))).length < 2 then none else l.bridge }

/-- R41: the sole party leaves: the line is IDLE, its channel free, no other line changed. -/
theorem releaseLeave_sole {r : Records} {id : Nat} {l : Line} {p : Fin 48} {ch : Channel} (hl : r.line? id = some l)
    (hp : l.parties = [⟨p, ch⟩]) :
    (∀ j, (r.releaseLeave p id).line? j = if j = id then some l.leftIdle else r.line? j) ∧
    (r.bound p ch = .line id → (r.releaseLeave p id).bound p ch = .none) := by
  have h : r.releaseLeave p id = r.toIdle id := by simp [Records.releaseLeave, hl, hp]
  rw [h]
  refine ⟨fun j => ?_, fun hb => ?_⟩
  · rw [line?_toIdle, hl]; rfl
  · rw [Records.toIdle, bound_moveLine]; exact bound_removeAllParties hl hp hb

/-- R41: one of several parties leaves: the call goes on without it. -/
theorem releaseLeave_several {r : Records} {id : Nat} {l : Line} {p : Fin 48} {ch : Channel} (hl : r.line? id = some l)
    (hp : l.partyChannel p = some ch) (hn : 1 < l.parties.length) :
    (∀ j, (r.releaseLeave p id).line? j = if j = id then some (l.leftBy p) else r.line? j) ∧
    (r.bound p ch = .line id → (r.releaseLeave p id).bound p ch = .none) := by
  have h : r.releaseLeave p id = r.removeParty p id := by
    simp only [Records.releaseLeave, hl]; rw [if_neg (by omega)]
  rw [h]
  exact ⟨fun j => line?_removeParty r p id j l hl (hasParty_of_partyChannel hp), bound_removeParty hl hp⟩

/-- R39: the sole party holds: the line is HELD, its channel free, no other line changed. -/
theorem holdLeave_sole {r : Records} {id : Nat} {l : Line} {p : Fin 48} {ch : Channel} (hl : r.line? id = some l)
    (hp : l.parties = [⟨p, ch⟩]) :
    (∀ j, (r.holdLeave p id).line? j = if j = id then some (l.leftHeld p) else r.line? j) ∧
    (r.bound p ch = .line id → (r.holdLeave p id).bound p ch = .none) := by
  have hm : ∀ j, ((r.removeAllParties id).moveLine id .held).line? j =
      if j = id then some (Line.enter { l with parties := [], bridge := none } .held) else r.line? j := by
    intro j
    rw [line?_moveLine, line?_removeAllParties, line?_removeAllParties, if_pos rfl, hl]
    split <;> rfl
  simp only [Records.holdLeave, hl, hp, List.length_singleton, Nat.le_refl, if_true]
  refine ⟨fun j => ?_, fun hb => ?_⟩
  · split
    · rename_i hc
      rw [line?_modLine, hm, hm, if_pos rfl]
      split
      · by_cases h0 : l.holdRecall = 0 <;> simp [Line.enter, Line.leftHeld, hc, desiredFor, timerFor, secondsTimer, h0]
      · rfl
    · rename_i hc
      rw [hm]
      split
      · by_cases h0 : l.holdRecall = 0 <;> simp [Line.enter, Line.leftHeld, hc, desiredFor, timerFor, secondsTimer, h0]
      · rfl
  · split
    · rw [bound_modLine, bound_moveLine]; exact bound_removeAllParties hl hp hb
    · rw [bound_moveLine]; exact bound_removeAllParties hl hp hb

/-- R39: one of several parties holds: it leaves, and the call goes on. -/
theorem holdLeave_several {r : Records} {id : Nat} {l : Line} {p : Fin 48} {ch : Channel} (hl : r.line? id = some l)
    (hp : l.partyChannel p = some ch) (hn : 1 < l.parties.length) :
    (∀ j, (r.holdLeave p id).line? j = if j = id then some (l.leftBy p) else r.line? j) ∧
    (r.bound p ch = .line id → (r.holdLeave p id).bound p ch = .none) := by
  have h : r.holdLeave p id = r.removeParty p id := by
    simp only [Records.holdLeave, hl]; rw [if_neg (by omega)]
  rw [h]
  exact ⟨fun j => line?_removeParty r p id j l hl (hasParty_of_partyChannel hp), bound_removeParty hl hp⟩

/-- A leave touches no slot. -/
theorem slots_moveLine (r : Records) (id : Nat) (st : LineState) : (r.moveLine id st).slots = r.slots := by
  unfold Records.moveLine
  split
  · rfl
  · simp only; split <;> split <;> simp

theorem slots_modLine (r : Records) (id : Nat) (f : Line → Line) : (r.modLine id f).slots = r.slots := by
  unfold Records.modLine; split <;> rfl

theorem slots_free (r : Records) (p : Fin 48) (ch : Channel) (b : Binding) : (r.free p ch b).slots = r.slots := by
  unfold Records.free
  split
  · rcases ch with (_|_)|n
    · rfl
    · rfl
    · exact (markChannel_marksOnly p n _).fields.2.2.2.2.2.2.2.2.1
  · rfl

theorem slots_handBack (r : Records) (id : Nat) : (r.handBack id).slots = r.slots := by
  unfold Records.handBack
  split
  · rfl
  · split
    · rfl
    · split
      · rw [(floorWork_releaseBridge ..).slots]; rfl
      · rfl

theorem slots_removeAllParties (r : Records) (id : Nat) : (r.removeAllParties id).slots = r.slots := by
  unfold Records.removeAllParties
  split
  · rfl
  · rw [slots_handBack]
    have h : ∀ (xs : List Party) (r : Records), (xs.foldl (fun r x => r.free x.pos x.ch (.line id)) r).slots = r.slots := by
      intro xs
      induction xs with
      | nil => intro r; rfl
      | cons x xs ih => intro r; rw [List.foldl_cons, ih, slots_free]
    rw [h]; rfl

/-! ### Retrieval and the handset move (R42, R29) -/

/-- R42: what a retrieval does to the line and to the retrieving channel. -/
theorem retrieveLine_spec {r : Records} {p : Fin 48} {ch : Channel} {id : Nat} {l : Line} (hl : r.line? id = some l)
    (hb : r.bound p ch = .none) :
    (r.retrieveLine p ch id).bound p ch = .line id ∧
    ∀ j, (r.retrieveLine p ch id).line? j = if j = id then some { l with
      state := .connected, parties := l.parties ++ [⟨p, ch⟩], holdOwner := none, desired := Cond.call, timer := none } else r.line? j := by
  obtain ⟨h1, h2⟩ := addParty_spec hl hb
  unfold Records.retrieveLine
  refine ⟨by rw [bound_moveLine, h1], fun j => ?_⟩
  simp only [line?_moveLine, h2]
  split <;> simp_all [Line.enter, desiredFor, timerFor]

/-- R29: what a handset move does to the line and to the two handsets. -/
theorem moveHandset_spec {r : Records} {p : Fin 48} {h dest : Handset} {id : Nat} {l : Line} (hl : r.line? id = some l)
    (hp : l.partyChannel p = some (.hand h)) (hd : dest ≠ h) (hb : r.bound p (.hand h) = .line id) (hn : r.bound p (.hand dest) = .none) :
    (r.moveHandset p id dest).bound p (.hand h) = .none ∧ (r.moveHandset p id dest).bound p (.hand dest) = .line id ∧
    ∀ j, (r.moveHandset p id dest).line? j = if j = id then
      some { l with parties := l.parties.map (fun x => if x.pos = p then ⟨p, .hand dest⟩ else x) } else r.line? j := by
  have hm : l.parties.map (fun x => if x.pos = p then { x with ch := Channel.hand dest } else x) =
      l.parties.map (fun x => if x.pos = p then ⟨p, .hand dest⟩ else x) := by
    refine List.map_congr_left (fun x _ => ?_)
    split
    · rename_i hx; rw [← hx]
    · rfl
  have h1 : (p, Channel.hand dest) ≠ (p, Channel.hand h) := by simpa using hd
  simp only [Records.moveHandset, hl, hp, hm, (markLine_marksOnly ..).bound, line?_markLine]
  generalize hr : r.setLine id _ = r1
  have hr1 : ∀ q ch, r1.bound q ch = r.bound q ch := by intro q ch; subst hr; exact bound_setLine ..
  have hf : (r1.free p (.hand h) (.line id)).bound p (.hand dest) = .none := by rw [bound_free_other _ _ h1, hr1, hn]
  simp only [Records.claim, hf, if_true]
  refine ⟨?_, bound_setBound_line .., fun j => ?_⟩
  · rw [bound_setBound_other _ _ (Ne.symm h1)]; exact bound_free _ (by rw [hr1, hb])
  · rw [line?_setBound, line?_free, ← hr, line?_setLine]

end Sys2Proof.Machine
end

