-- ==== Sys2Proof/Laws/Floors.lean ====
section
/-!
SUPPORT. What the group controller's operations do to a group, its members and the bridge pool: ptt_channel, the grant pass, the bridge need, and the end of a floor.
-/
namespace Sys2Proof.Machine

/-! ### ptt_channel (R59, R62) -/

theorem ptt_markChannel (r : Records) (p q : Fin 48) (n : Fin 8) : ((r.markChannel p n).pos q).ptt = (r.pos q).ptt := by
  rw [(markChannel_marksOnly p n r).2 q]

/-- A change of ptt_channel touches positions only, and there ptt_channel and channel marks. -/
theorem setPtt_spec (r : Records) (p : Fin 48) (v : Option (Fin 8)) :
    r.setPtt p v = { r with positions := (r.setPtt p v).positions } ∧
    ∀ q, (r.setPtt p v).pos q =
      { r.pos q with ptt := if q = p then v else (r.pos q).ptt, lampPending := ((r.setPtt p v).pos q).lampPending
                     channelPending := ((r.setPtt p v).pos q).channelPending } := by
  unfold Records.setPtt
  simp only
  split
  · rename_i h
    refine ⟨rfl, fun q => ?_⟩
    split
    · rename_i hq; subst hq; rw [← h]
    · rfl
  · generalize hr : r.modPos p (fun x => { x with ptt := v }) = r1
    have h1 : r1 = { r with positions := r1.positions } := by subst hr; rfl
    have h2 : ∀ q, r1.pos q = { r.pos q with ptt := if q = p then v else (r.pos q).ptt } := by
      intro q; subst hr; rw [pos_modPos]; split
      · rename_i hq; subst hq; rfl
      · rfl
    have key : ∀ r' : Records, MarksOnly r1 r' → r' = { r with positions := r'.positions } ∧ ∀ q, r'.pos q =
        { r.pos q with ptt := if q = p then v else (r.pos q).ptt, lampPending := (r'.pos q).lampPending, channelPending := (r'.pos q).channelPending } := by
      intro r' hm
      refine ⟨?_, fun q => ?_⟩
      · rw [hm.1, h1]
      · rw [hm.2 q, h2]
    cases (r.pos p).ptt <;> cases v <;> simp only
    · exact key _ (.refl _)
    · exact key _ (markChannel_marksOnly ..)
    · exact key _ (markChannel_marksOnly ..)
    · exact key _ ((markChannel_marksOnly ..).trans (markChannel_marksOnly ..))

theorem setPtt_ptt (r : Records) (p q : Fin 48) (v : Option (Fin 8)) : ((r.setPtt p v).pos q).ptt = if q = p then v else (r.pos q).ptt := by
  rw [(setPtt_spec r p v).2 q]

theorem setPtt_speaker (r : Records) (p q : Fin 48) (v : Option (Fin 8)) : ((r.setPtt p v).pos q).speaker = (r.pos q).speaker := by
  rw [(setPtt_spec r p v).2 q]

@[simp] theorem setPtt_lines (r : Records) (p : Fin 48) (v : Option (Fin 8)) : (r.setPtt p v).lines = r.lines := by rw [(setPtt_spec r p v).1]
@[simp] theorem setPtt_groups (r : Records) (p : Fin 48) (v : Option (Fin 8)) : (r.setPtt p v).groups = r.groups := by rw [(setPtt_spec r p v).1]
@[simp] theorem setPtt_members (r : Records) (p : Fin 48) (v : Option (Fin 8)) : (r.setPtt p v).members = r.members := by rw [(setPtt_spec r p v).1]
@[simp] theorem setPtt_bridges (r : Records) (p : Fin 48) (v : Option (Fin 8)) : (r.setPtt p v).bridges = r.bridges := by rw [(setPtt_spec r p v).1]
@[simp] theorem setPtt_waitList (r : Records) (p : Fin 48) (v : Option (Fin 8)) : (r.setPtt p v).waitList = r.waitList := by rw [(setPtt_spec r p v).1]
@[simp] theorem setPtt_reserve (r : Records) (p : Fin 48) (v : Option (Fin 8)) : (r.setPtt p v).reserve = r.reserve := by rw [(setPtt_spec r p v).1]
@[simp] theorem setPtt_group? (r : Records) (p : Fin 48) (v : Option (Fin 8)) (g : Nat) : (r.setPtt p v).group? g = r.group? g := by simp [Records.group?]
@[simp] theorem setPtt_member? (r : Records) (p : Fin 48) (v : Option (Fin 8)) (m : Nat) : (r.setPtt p v).member? m = r.member? m := by
  simp [Records.member?]

/-- Call work leaves ptt_channel alone. -/
theorem CallWork.ptt {r r' : Records} (h : CallWork r r') (p : Fin 48) : (r'.pos p).ptt = (r.pos p).ptt := by rw [h.pos p]

/-! ### Reports of a floor, and the floor taken -/

@[simp] theorem reportFloor_groups (g : Nat) (b : Bool) (r : Records) : (r.reportFloor g b).groups = r.groups := by
  cases b <;> simp [Records.reportFloor]
@[simp] theorem reportFloor_members (g : Nat) (b : Bool) (r : Records) : (r.reportFloor g b).members = r.members := by
  cases b <;> simp [Records.reportFloor]
@[simp] theorem reportFloor_bridges (g : Nat) (b : Bool) (r : Records) : (r.reportFloor g b).bridges = r.bridges := by
  cases b <;> simp [Records.reportFloor, (markGroup_marksOnly g _).fields]
@[simp] theorem reportFloor_waitList (g : Nat) (b : Bool) (r : Records) : (r.reportFloor g b).waitList = r.waitList := by
  cases b <;> simp [Records.reportFloor, (markGroup_marksOnly g _).fields]
@[simp] theorem reportFloor_group? (g : Nat) (b : Bool) (r : Records) (k : Nat) : (r.reportFloor g b).group? k = r.group? k := by simp [Records.group?]
@[simp] theorem reportFloor_member? (g : Nat) (b : Bool) (r : Records) (m : Nat) : (r.reportFloor g b).member? m = r.member? m := by
  simp [Records.member?]

@[simp] theorem modMember_groups (r : Records) (m : Nat) (f : Member → Member) : (r.modMember m f).groups = r.groups := by
  unfold Records.modMember; split <;> rfl
@[simp] theorem modMember_bridges (r : Records) (m : Nat) (f : Member → Member) : (r.modMember m f).bridges = r.bridges := by
  unfold Records.modMember; split <;> rfl
@[simp] theorem modMember_waitList (r : Records) (m : Nat) (f : Member → Member) : (r.modMember m f).waitList = r.waitList := by
  unfold Records.modMember; split <;> rfl
@[simp] theorem modMember_group? (r : Records) (m : Nat) (f : Member → Member) (g : Nat) : (r.modMember m f).group? g = r.group? g := by
  simp [Records.group?]
@[simp] theorem modGroup_members (r : Records) (g : Nat) (f : Group → Group) : (r.modGroup g f).members = r.members := by
  unfold Records.modGroup; split <;> rfl
@[simp] theorem modGroup_bridges (r : Records) (g : Nat) (f : Group → Group) : (r.modGroup g f).bridges = r.bridges := by
  unfold Records.modGroup; split <;> rfl
@[simp] theorem modGroup_waitList (r : Records) (g : Nat) (f : Group → Group) : (r.modGroup g f).waitList = r.waitList := by
  unfold Records.modGroup; split <;> rfl
@[simp] theorem modGroup_member? (r : Records) (g : Nat) (f : Group → Group) (m : Nat) : (r.modGroup g f).member? m = r.member? m := by
  simp [Records.member?]

theorem group?_modGroup (r : Records) (g j : Nat) (f : Group → Group) :
    (r.modGroup g f).group? j = if j = g then (r.group? g).map f else r.group? j := by
  unfold Records.modGroup
  split
  · rename_i x h
    rw [group?_setGroup]
    split <;> simp_all
  · rename_i h
    split <;> simp_all

/-! ### The grant pass (R94) -/

/-- The members a grant pass lets talk: as many from the head of the waiting list as there are free places, while the group holds a bridge. -/
def Group.winners (x : Group) : List Nat := if x.bridge.isSome then x.waiting.take (x.talkerLimit - x.talkers.length) else []

/-- The group after its grant pass. -/
def Group.granted (x : Group) : Group :=
  { x with talkers := x.talkers ++ x.winners, waiting := x.waiting.drop x.winners.length }

theorem member?_foldl_startTalk (ms : List Nat) (t : Nat) (r : Records) (j : Nat) :
    (ms.foldl (fun r m => r.startTalk m t) r).groups = r.groups ∧ (ms.foldl (fun r m => r.startTalk m t) r).bridges = r.bridges ∧
    (ms.foldl (fun r m => r.startTalk m t) r).waitList = r.waitList ∧
    (ms.foldl (fun r m => r.startTalk m t) r).member? j =
      if j ∈ ms then (r.member? j).map (fun x => { x with floor := .talking, talkTimer := secondsTimer t }) else r.member? j := by
  induction ms generalizing r with
  | nil => simp
  | cons m ms ih =>
    obtain ⟨h1, h2, h3, h4⟩ := ih (r.startTalk m t)
    rw [List.foldl_cons]
    refine ⟨by rw [h1]; simp [Records.startTalk], by rw [h2]; simp [Records.startTalk], by rw [h3]; simp [Records.startTalk], ?_⟩
    rw [h4]
    simp only [Records.startTalk, member?_modMember, List.mem_cons]
    by_cases hj : j = m
    · subst hj
      cases r.member? j <;> simp
    · simp [hj]

/-- R94: what the grant pass does. -/
theorem grantPass_spec {r : Records} {g : Nat} {x : Group} (h : r.group? g = some x) :
    (∀ k, (r.grantPass g).group? k = if k = g then some x.granted else r.group? k) ∧
    (∀ j, (r.grantPass g).member? j = if j ∈ x.winners then
      (r.member? j).map (fun y => { y with floor := .talking, talkTimer := secondsTimer x.talkTime }) else r.member? j) ∧
    (r.grantPass g).bridges = r.bridges ∧ (r.grantPass g).waitList = r.waitList := by
  unfold Records.grantPass
  rw [h]
  simp only
  rw [show (if x.bridge.isSome then x.waiting.take (x.talkerLimit - x.talkers.length) else []) = x.winners from rfl]
  cases hw : x.winners with
  | nil =>
    dsimp only
    refine ⟨fun k => ?_, fun j => by simp, rfl, rfl⟩
    split
    · rename_i hk; subst hk; rw [h]; simp [Group.granted, hw]
    · rfl
  | cons w ws =>
    simp only [reportFloor_group?, reportFloor_member?, reportFloor_bridges, reportFloor_waitList]
    obtain ⟨h1, h2, h3, _⟩ := member?_foldl_startTalk (w :: ws) x.talkTime
      (r.setGroup g { x with talkers := x.talkers ++ w :: ws, waiting := x.waiting.drop (w :: ws).length }) 0
    refine ⟨fun k => ?_, fun j => ?_, by rw [h2]; rfl, by rw [h3]; rfl⟩
    · simp only [Records.group?, h1]
      simp only [Records.setGroup, Table.find_put]
      simp [Group.granted, hw]
    · rw [(member?_foldl_startTalk _ _ _ j).2.2.2]; rfl

/-- R94: a group with nobody waiting is left as it is. -/
theorem granted_of_waiting_nil {x : Group} (h : x.waiting = []) : x.granted = x ∧ x.winners = [] := by
  have : x.winners = [] := by simp [Group.winners, h]
  exact ⟨by simp [Group.granted, this], this⟩

/-! ### Bridges of groups (R86, R105, R107) -/

/-- R105: what the allocation of bridge b to group g does. -/
theorem allocateToGroup_spec {r : Records} {g b : Nat} {x : Group} (h : r.group? g = some x) :
    (∀ k, (r.allocateToGroup g b).group? k = if k = g then some { x with bridge := some b, inWaitList := false }.granted else r.group? k) ∧
    (∀ j, (r.allocateToGroup g b).member? j = if j ∈ ({ x with bridge := some b, inWaitList := false } : Group).winners then
      (r.member? j).map (fun y => { y with floor := .talking, talkTimer := secondsTimer x.talkTime }) else r.member? j) ∧
    (r.allocateToGroup g b).bridges = Table.put b (.group g) r.bridges ∧ (r.allocateToGroup g b).waitList = r.waitList := by
  unfold Records.allocateToGroup
  generalize hr : ({ r with bridges := Table.put b (.group g) r.bridges } : Records) = r0
  have h0 : ∀ k, r0.group? k = r.group? k := by intro k; subst hr; rfl
  have h1 : (r0.modGroup g (fun x => { x with bridge := some b, inWaitList := false })).group? g =
      some { x with bridge := some b, inWaitList := false } := by rw [group?_modGroup, if_pos rfl, h0, h]; rfl
  obtain ⟨k1, k2, k3, k4⟩ := grantPass_spec h1
  refine ⟨fun k => ?_, fun j => ?_, ?_, ?_⟩
  · rw [k1, group?_modGroup, h0]; split
    · rfl
    · rw [h0]
  · rw [k2, modGroup_member?]; subst hr; rfl
  · simp only; rw [k3, modGroup_bridges]; subst hr; rfl
  · simp only; rw [k4, modGroup_waitList]; subst hr; rfl

/-- An allocation to a number that is no group leaves every group and member alone. -/
theorem allocateToGroup_none {r : Records} {g b : Nat} (h : r.group? g = none) :
    (∀ k, (r.allocateToGroup g b).group? k = r.group? k) ∧ (∀ j, (r.allocateToGroup g b).member? j = r.member? j) ∧
    (r.allocateToGroup g b).bridges = Table.put b (.group g) r.bridges ∧ (r.allocateToGroup g b).waitList = r.waitList := by
  unfold Records.allocateToGroup
  generalize hr : ({ r with bridges := Table.put b (.group g) r.bridges } : Records) = r0
  have h0 : r0.group? g = none := by subst hr; exact h
  simp only [Records.modGroup, h0, Records.grantPass]
  subst hr
  exact ⟨fun _ => rfl, fun _ => rfl, rfl, rfl⟩

@[simp] theorem markGroup_group? (g : Nat) (r : Records) (k : Nat) : (r.markGroup g).group? k = r.group? k := by simp [Records.group?]
@[simp] theorem markGroup_member? (g : Nat) (r : Records) (m : Nat) : (r.markGroup g).member? m = r.member? m := by simp [Records.member?]
@[simp] theorem markGroup_bridges (g : Nat) (r : Records) : (r.markGroup g).bridges = r.bridges := (markGroup_marksOnly g r).fields.2.2.2.2.2.1
@[simp] theorem markGroup_waitList (g : Nat) (r : Records) : (r.markGroup g).waitList = r.waitList := (markGroup_marksOnly g r).fields.2.2.2.2.2.2.2.1

/-! ### The wait list served (R87, R108) -/

/-- R87: what a grant of the FREE bridge b to the waiting group g does. -/
theorem grantWaiting_spec (r : Records) (g b : Nat) :
    (r.grantWaiting g b).bridges = Table.put b (.group g) r.bridges ∧ (r.grantWaiting g b).waitList = r.waitList ∧
    (r.grantWaiting g b).reserve = r.reserve ∧
    ∀ k, (r.grantWaiting g b).group? k =
      if k = g then (r.group? g).map (fun x => Group.granted { x with bridge := some b, inWaitList := false }) else r.group? k := by
  refine ⟨?_, ?_, (floorWork_grantWaiting g b r).reserve, fun k => ?_⟩ <;> unfold Records.grantWaiting <;> cases h : r.group? g
  · simp [(allocateToGroup_none (b := b) h).2.2.1]
  · simp [(allocateToGroup_spec (b := b) h).2.2.1]
  · simp [(allocateToGroup_none (b := b) h).2.2.2]
  · simp [(allocateToGroup_spec (b := b) h).2.2.2]
  · rw [markGroup_group?, (allocateToGroup_none (b := b) h).1]; split
    · rename_i hk; subst hk; exact h
    · rfl
  · rw [markGroup_group?, (allocateToGroup_spec (b := b) h).1]; rfl

/-- R108: r' is r after the wait list ws was served with the bridges bs: lowest FREE first, they went to as many groups from its head; it ended with the list empty or no more bridges FREE than the reserve, and no grant left fewer FREE than the reserve. -/
structure Served (ws : List Nat) (r r' : Records) (bs : List Nat) : Prop where
  length : bs.length ≤ ws.length
  waitList : r'.waitList = ws.drop bs.length
  done : r'.waitList = [] ∨ r'.freeBridges ≤ r.reserve
  kept : r' = r ∨ r.reserve ≤ r'.freeBridges
  rising : bs.Pairwise (· < ·)
  free : ∀ b ∈ bs, b < Config.bridges ∧ Table.find r.bridges b = none ∧ ∀ k < b, Table.find r.bridges k = none → k ∈ bs
  owner : ∀ (i b g : Nat), bs[i]? = some b → ws[i]? = some g → Table.find r'.bridges b = some (.group g)
  others : ∀ b, b ∉ bs → Table.find r'.bridges b = Table.find r.bridges b
  granted : ws.Nodup → ∀ (i b g : Nat), bs[i]? = some b → ws[i]? = some g →
    r'.group? g = (r.group? g).map (fun x => Group.granted { x with bridge := some b, inWaitList := false })
  rest : ∀ g, g ∉ ws → r'.group? g = r.group? g

theorem Served.none {ws : List Nat} {r : Records} (h : r.waitList = ws) (hd : r.waitList = [] ∨ r.freeBridges ≤ r.reserve) : Served ws r r [] :=
  ⟨by simp, by simp [h], hd, .inl rfl, .nil, by simp, by simp, by simp, by simp, fun _ _ => rfl⟩

/-- A wait list that was granted a bridge leaves no fewer FREE than the reserve. -/
theorem Served.reserve_kept {ws bs : List Nat} {r r' : Records} (h : Served ws r r' bs) (hn : bs ≠ []) : r.reserve ≤ r'.freeBridges := by
  rcases h.kept with h0 | h0
  · exfalso
    obtain ⟨b, hb⟩ := List.exists_mem_of_ne_nil bs hn
    obtain ⟨i, hi, rfl⟩ := List.getElem_of_mem hb
    have hw : i < ws.length := Nat.lt_of_lt_of_le hi h.length
    have h1 := h.owner i _ _ (List.getElem?_eq_getElem hi) (List.getElem?_eq_getElem hw)
    rw [h0, (h.free _ hb).2.1] at h1
    cases h1
  · exact h0

/-- R108: what serving the wait list does. -/
theorem serveWaitList_spec (ws : List Nat) (r : Records) (hw : r.waitList = ws) : ∃ bs, Served ws r (serveWaitList ws r) bs := by
  induction ws generalizing r with
  | nil => exact ⟨[], .none hw (.inl hw)⟩
  | cons g rest ih =>
    by_cases hf : r.reserve < r.freeBridges
    · cases hb : r.lowestBridge with
      | none =>
        have := Table.lowestFree_none hb
        simp only [Records.freeBridges] at hf
        omega
      | some b =>
        obtain ⟨hb1, hb2, hb3⟩ := Table.lowestFree_some hb
        have hs : serveWaitList (g :: rest) r = serveWaitList rest ({ r with waitList := rest }.grantWaiting g b) := by
          rw [serveWaitList, if_pos hf, hb]
        obtain ⟨e1, e2, e3, e4⟩ := grantWaiting_spec { r with waitList := rest } g b
        generalize ({ r with waitList := rest } : Records).grantWaiting g b = r1 at hs e1 e2 e3 e4
        obtain ⟨bs, k⟩ := ih r1 e2
        rw [hs]
        have hres : r1.reserve = r.reserve := e3
        have hfree : r1.freeBridges + 1 = r.freeBridges := by
          simp only [Records.freeBridges, e1, Table.length_put _ hb2] at hf ⊢; omega
        have hfind : ∀ k, Table.find r1.bridges k = if k = b then some (.group g) else Table.find r.bridges k := by
          intro k; rw [e1, Table.find_put]
        have hlt : ∀ c ∈ bs, b < c := by
          intro c hc
          obtain ⟨_, h2, _⟩ := k.free c hc
          rw [hfind] at h2
          rcases Nat.lt_trichotomy c b with h | h | h
          · rw [if_neg (by omega)] at h2; exact absurd h2 (hb3 c h)
          · simp [h] at h2
          · exact h
        have hbn : b ∉ bs := fun h => absurd (hlt b h) (by omega)
        refine ⟨b :: bs, by simpa using k.length, by simpa using k.waitList, hres ▸ k.done, .inr ?_, List.pairwise_cons.mpr ⟨hlt, k.rising⟩,
          fun c hc => ?_, fun i c h hi hg => ?_, fun c hc => ?_, fun hnd i c h hi hg => ?_, fun h hh => ?_⟩
        · rcases k.kept with h | h
          · rw [h]; omega
          · omega
        · rcases List.mem_cons.mp hc with h | h
          · subst h; exact ⟨hb1, hb2, fun k hk hn => absurd hn (hb3 k hk)⟩
          · obtain ⟨h1, h2, h3⟩ := k.free c h
            have hcb : c ≠ b := fun e => hbn (e ▸ h)
            rw [hfind, if_neg hcb] at h2
            refine ⟨h1, h2, fun j hj hn => ?_⟩
            by_cases hjb : j = b
            · simp [hjb]
            · exact List.mem_cons_of_mem _ (h3 j hj (by rw [hfind, if_neg hjb]; exact hn))
        · cases i with
          | zero =>
            simp only [List.getElem?_cons_zero, Option.some.injEq] at hi hg
            subst hi; subst hg
            rw [k.others b hbn, hfind, if_pos rfl]
          | succ i => exact k.owner i c h (by simpa using hi) (by simpa using hg)
        · simp only [List.mem_cons, not_or] at hc
          rw [k.others c hc.2, hfind, if_neg hc.1]
        · have hnd' := List.nodup_cons.mp hnd
          cases i with
          | zero =>
            simp only [List.getElem?_cons_zero, Option.some.injEq] at hi hg
            subst hi; subst hg
            rw [k.rest g hnd'.1, e4, if_pos rfl]; rfl
          | succ i =>
            have hm : h ∈ rest := List.mem_of_getElem? (by simpa using hg)
            have hne : h ≠ g := fun e => hnd'.1 (e ▸ hm)
            rw [k.granted hnd'.2 i c h (by simpa using hi) (by simpa using hg), e4, if_neg hne]; rfl
        · simp only [List.mem_cons, not_or] at hh
          rw [k.rest h hh.2, e4, if_neg hh.1]; rfl
    · refine ⟨[], ?_⟩
      rw [serveWaitList, if_neg hf]
      exact .none hw (.inr (by omega))

/-- A release, which may grant the bridge to the group that waits longest, leaves a group with nobody waiting its talkers and its empty waiting list, and a member that waits in no group as it was. -/
theorem releaseBridge_keeps (r : Records) (b : Nat) :
    (∀ g x, r.group? g = some x → x.waiting = [] → ∃ y, (r.releaseBridge b).group? g = some y ∧ y.talkers = x.talkers ∧ y.waiting = []) ∧
    (∀ m, (∀ k y, r.group? k = some y → m ∉ y.waiting) → (r.releaseBridge b).member? m = r.member? m) := by
  unfold Records.releaseBridge
  simp only
  split
  · exact ⟨fun g x h hw => ⟨x, h, rfl, hw⟩, fun m _ => rfl⟩
  · rename_i g0 rest _
    split
    · generalize hr : ({ r with bridges := Table.drop b r.bridges, waitList := rest } : Records) = r1
      have hg : ∀ k, r1.group? k = r.group? k := by intro k; subst hr; rfl
      have hm : ∀ k, r1.member? k = r.member? k := by intro k; subst hr; rfl
      unfold Records.grantWaiting
      simp only [markGroup_group?, markGroup_member?]
      cases h0 : r1.group? g0 with
      | none =>
        obtain ⟨k1, k2, _⟩ := allocateToGroup_none (b := b) h0
        exact ⟨fun g x h hw => ⟨x, by rw [k1, hg, h], rfl, hw⟩, fun m _ => by rw [k2, hm]⟩
      | some x0 =>
        obtain ⟨k1, k2, _⟩ := allocateToGroup_spec (b := b) h0
        refine ⟨fun g x h hw => ?_, fun m hn => ?_⟩
        · by_cases hgg : g = g0
          · subst hgg
            rw [hg, h] at h0; cases h0
            obtain ⟨e1, e2⟩ := granted_of_waiting_nil (x := ⟨x0.talkerLimit, x0.talkTime, x0.policy, x0.preempt, x0.talkers, x0.waiting, some b, false⟩) hw
            exact ⟨_, by rw [k1, if_pos rfl], by rw [e1], by rw [e1]; exact hw⟩
          · exact ⟨x, by rw [k1, if_neg hgg, hg, h], rfl, hw⟩
        · rw [k2, if_neg, hm]
          intro hc
          have : m ∈ x0.waiting := by
            simp only [Group.winners, Option.isSome_some, if_true] at hc
            exact List.mem_of_mem_take hc
          exact hn g0 x0 (by rw [← hg]; exact h0) this
    · exact ⟨fun g x h hw => ⟨x, h, rfl, hw⟩, fun m _ => rfl⟩

/-- R86: the test of a group that holds a bridge or waits for one keeps its talkers and its waiting list, and a member that waits in no group. -/
theorem testNeed_keeps {r : Records} {g : Nat} {x : Group} (h : r.group? g = some x) (hb : x.bridge ≠ none ∨ x.inWaitList = true) :
    (∃ y, (r.testNeed g).group? g = some y ∧ y.talkers = x.talkers ∧ y.waiting = x.waiting) ∧
    (∀ m, (∀ k y, r.group? k = some y → m ∉ y.waiting) → (r.testNeed g).member? m = r.member? m) := by
  unfold Records.testNeed
  rw [h]
  simp only
  split
  · rw [if_neg]
    · exact ⟨⟨x, h, rfl, rfl⟩, fun _ _ => rfl⟩
    · rintro ⟨h1, h2⟩
      rcases hb with h3 | h3
      · simp only [Option.isNone_iff_eq_none] at h1; exact h3 h1
      · rw [h2] at h3; cases h3
  · rename_i hn
    have hw : x.waiting = [] ∧ x.talkers = [] := by
      simp only [Records.needsBridge, h] at hn
      simp at hn
      exact ⟨hn.1.2, hn.1.1⟩
    split
    · rename_i b hbb
      have h1 : (r.setGroup g { x with bridge := none }).group? g = some { x with bridge := none } := by simp
      obtain ⟨k1, k2⟩ := releaseBridge_keeps (r.setGroup g { x with bridge := none }) b
      obtain ⟨y, e1, e2, e3⟩ := k1 g _ h1 hw.1
      refine ⟨⟨y, e1, e2, by rw [e3, hw.1]⟩, fun m hm => ?_⟩
      rw [k2 m]; · rfl
      intro k y hk
      rw [group?_setGroup] at hk
      split at hk
      · cases hk; rw [hw.1]; simp
      · exact hm k y hk
    · split
      · refine ⟨⟨{ x with inWaitList := false }, ?_, rfl, rfl⟩, fun m _ => ?_⟩
        · simp only [Records.leaveWaitList, group?_modGroup, if_true]
          rw [show ({ r with waitList := r.waitList.filter (fun x => !(x == g)) } : Records).group? g = r.group? g from rfl, h]; rfl
        · simp only [Records.leaveWaitList, modGroup_member?]; rfl
      · exact ⟨⟨x, h, rfl, rfl⟩, fun _ _ => rfl⟩

/-! ### The end of a floor (R92, R93) -/

/-- R93, R94: a talker that leaves the floor: out of the talkers, its timer stopped, the places freed granted from the head of the waiting list. -/
theorem releaseFloor_talking {r : Records} {m : Nat} {x : Member} {g : Group} (hm : r.member? m = some x) (hg : r.group? x.group = some g)
    (hf : x.floor = .talking) (hb : g.bridge ≠ none) (hw : ∀ k y, r.group? k = some y → m ∉ y.waiting) :
    (r.releaseFloor m).member? m = some { x with floor := .idle, talkTimer := none } ∧
    ∃ y, (r.releaseFloor m).group? x.group = some y ∧
      y.talkers = g.talkers.filter (fun i => !(i == m)) ++ g.waiting.take (g.talkerLimit - (g.talkers.filter (fun i => !(i == m))).length) ∧
      y.waiting = g.waiting.drop (g.talkerLimit - (g.talkers.filter (fun i => !(i == m))).length) := by
  generalize hk : g.talkers.filter (fun i => !(i == m)) = kept
  generalize hr : r.dropFloor m = r1
  have e1 : ∀ k, r1.group? k = if k = x.group then some { g with talkers := kept } else r.group? k := by
    intro k; subst hr
    simp only [Records.dropFloor, hm, hf, reportFloor_group?, group?_setMember, group?_modGroup, hg, Option.map_some, hk]
  have e2 : ∀ j, r1.member? j = if j = m then some { x with floor := .idle, talkTimer := none } else r.member? j := by
    intro j; subst hr
    simp only [Records.dropFloor, hm, hf, reportFloor_member?, member?_setMember, modGroup_member?]
  have hrel : r.releaseFloor m = (r1.grantPass x.group).testNeed x.group := by
    simp only [Records.releaseFloor, hm, hr, Records.afterLeave, hf]
  obtain ⟨k1, k2, _⟩ := grantPass_spec (r := r1) (g := x.group) (by rw [e1, if_pos rfl])
  have hbs : g.bridge.isSome = true := by cases h : g.bridge <;> simp_all
  have hmw : m ∉ g.waiting := hw _ _ hg
  have hwin : ({ g with talkers := kept } : Group).winners = g.waiting.take (g.talkerLimit - kept.length) := by
    simp [Group.winners, hbs]
  have hgp : (r1.grantPass x.group).group? x.group = some (Group.granted { g with talkers := kept }) := by rw [k1, if_pos rfl]
  obtain ⟨⟨y, t1, t2, t3⟩, t4⟩ := testNeed_keeps hgp (.inl hb)
  rw [hrel]
  refine ⟨?_, y, t1, ?_, ?_⟩
  · rw [t4 m, k2, if_neg, e2, if_pos rfl]
    · rw [hwin]; exact fun h => hmw (List.mem_of_mem_take h)
    · intro k z hz
      rw [k1] at hz
      split at hz
      · cases hz
        simp only [Group.granted]
        exact fun h => hmw (List.mem_of_mem_drop h)
      · rename_i hkk
        rw [e1, if_neg hkk] at hz
        exact hw k z hz
  · rw [t2]; simp only [Group.granted, hwin]
  · rw [t3]; simp only [Group.granted, hwin]
    rw [List.length_take]
    by_cases h : g.talkerLimit - kept.length ≤ g.waiting.length
    · rw [Nat.min_eq_left h]
    · rw [Nat.min_eq_right (by omega), List.drop_length, List.drop_eq_nil_of_le (by omega)]

/-- R92: a member that waits no more: out of the waiting list, the talkers as they were. -/
theorem releaseFloor_waiting {r : Records} {m : Nat} {x : Member} {g : Group} (hm : r.member? m = some x) (hg : r.group? x.group = some g)
    (hf : x.floor = .waiting) (hb : g.bridge ≠ none ∨ g.inWaitList = true) (hw : ∀ k y, k ≠ x.group → r.group? k = some y → m ∉ y.waiting) :
    (r.releaseFloor m).member? m = some { x with floor := .idle, talkTimer := none } ∧
    ∃ y, (r.releaseFloor m).group? x.group = some y ∧ y.talkers = g.talkers ∧ y.waiting = g.waiting.filter (fun i => !(i == m)) := by
  generalize hr : r.dropFloor m = r1
  have e1 : ∀ k, r1.group? k = if k = x.group then some { g with waiting := g.waiting.filter (fun i => !(i == m)) } else r.group? k := by
    intro k; subst hr
    simp only [Records.dropFloor, hm, hf, reportFloor_group?, group?_setMember, group?_modGroup, hg, Option.map_some]
  have e2 : ∀ j, r1.member? j = if j = m then some { x with floor := .idle, talkTimer := none } else r.member? j := by
    intro j; subst hr
    simp only [Records.dropFloor, hm, hf, reportFloor_member?, member?_setMember, modGroup_member?]
  have hrel : r.releaseFloor m = r1.testNeed x.group := by
    simp only [Records.releaseFloor, hm, hr, Records.afterLeave, hf]
  have hgp : r1.group? x.group = some { g with waiting := g.waiting.filter (fun i => !(i == m)) } := by rw [e1, if_pos rfl]
  obtain ⟨⟨y, t1, t2, t3⟩, t4⟩ := testNeed_keeps hgp hb
  rw [hrel]
  refine ⟨?_, y, t1, t2, t3⟩
  rw [t4 m, e2, if_pos rfl]
  intro k z hz
  rw [e1] at hz
  split at hz
  · cases hz; simp
  · rename_i hkk; exact hw k z hkk hz

/-- R95: a talker's end of floor raises FLOOR at its group. -/
theorem floor_raised_releaseFloor {r : Records} {m : Nat} {x : Member} (hm : r.member? m = some x) (hf : x.floor = .talking) :
    Reason.floor ∈ (r.releaseFloor m).reasons (.group x.group) := by
  simp only [Records.releaseFloor, Records.dropFloor, hm, hf]
  exact mem_reasons_of_grown ((floorWork_markGroup ..).trans (floorWork_afterLeave ..)).raised

end Sys2Proof.Machine
end

