-- ==== Sys2Proof/Laws/Cards.lean ====
section
/-!
SUPPORT. What the loss, the reset and the return of a card do to the card and to its lines, what settling does to one line's slot, and what serving a probe does.
-/
namespace Sys2Proof.Machine

/-! ### Probes (R180, R202) -/

/-- R202: outside the cards stage a served probe changes nothing more. -/
theorem served_elsewhere {s : State} (h1 : s.part ≠ .startingCards) (h2 : s.bus.stageCards = []) (c : Fin 32) (w : Wires) : s.served c w = s := by
  simp only [State.served, h2, List.filter_nil]
  rw [if_neg (fun h => h1 h.1), ← h2]

/-- R142: the first recovery attempt, both wires high. -/
theorem startConsoles_high {w : Wires} (h1 : w.clk = true) (h2 : w.dat = true) (s : State) :
    s.startConsoles w = { s with part := .startingConsoles, link := { s.link with state := .running }.begin .all false } := by
  simp [State.startConsoles, h1, h2]

/-- R142: the first recovery attempt, a wire low. -/
theorem startConsoles_low {w : Wires} (h : w.clk = false ∨ w.dat = false) (s : State) :
    s.startConsoles w = { s with
      part := .running
      recs := s.recs.raise .link .stuck
      link := { s.link with state := .stuck, wanted := true, recoveryWait := 100 } } := by
  unfold State.startConsoles
  rw [if_neg]
  rcases h with h | h <;> simp [h]

/-! ### Card loss (R177) -/

/-- What the fold over the card's lines does to line id. -/
theorem line?_loseFold (ids : List Nat) (r : Records) (id : Nat) :
    (id ∉ ids → (ids.foldl (fun r id => (r.toOos id .noCard).modLine id (fun l => { l with acknowledged := Cond.off })) r).line? id = r.line? id) ∧
    (∀ l0, r.line? id = some l0 → (id ∈ ids ∨ (l0.state = .outOfService .noCard ∧ l0.acknowledged = Cond.off ∧ l0.desired = Cond.off ∧ l0.parties = [] ∧ l0.bridge = none ∧ l0.timer = none)) →
      ∃ l, (ids.foldl (fun r id => (r.toOos id .noCard).modLine id (fun l => { l with acknowledged := Cond.off })) r).line? id = some l ∧
       (l.state = .outOfService .noCard ∧ l.acknowledged = Cond.off ∧ l.desired = Cond.off ∧ l.parties = [] ∧ l.bridge = none ∧ l.timer = none)) := by
  induction ids generalizing r with
  | nil =>
    refine ⟨fun _ => rfl, fun l0 h h2 => ?_⟩
    rcases h2 with h2 | h2
    · cases h2
    · exact ⟨l0, h, h2⟩
  | cons k ids ih =>
    obtain ⟨i1, i2⟩ := ih ((r.toOos k .noCard).modLine k (fun l => { l with acknowledged := Cond.off }))
    simp only [List.foldl_cons]
    have hk : ∀ j, ((r.toOos k .noCard).modLine k (fun l => { l with acknowledged := Cond.off })).line? j = if j = k then (r.line? k).map (fun l => { Line.enter { l with parties := [], bridge := none } (.outOfService .noCard) with acknowledged := Cond.off }) else r.line? j := by
      intro j
      rw [line?_modLine]
      simp only [line?_toOos]
      split
      · simp [Option.map_map, Function.comp_def]
      · rfl
    refine ⟨fun h => ?_, fun l0 h h2 => ?_⟩
    · simp at h
      rw [i1 h.2, hk, if_neg h.1]
    · by_cases hj : id = k
      · subst hj
        refine i2 _ (by rw [hk, if_pos rfl, h]; rfl) (.inr ?_)
        simp [Line.enter, desiredFor, timerFor]
      · refine i2 l0 (by rw [hk, if_neg hj]; exact h) ?_
        rcases h2 with h2 | h2
        · left; simp [hj] at h2; exact h2
        · exact .inr h2

theorem callWork_loseFold (ids : List Nat) (r : Records) :
    CallWork r (ids.foldl (fun r id => (r.toOos id .noCard).modLine id (fun l => { l with acknowledged := Cond.off })) r) :=
  CallWork.foldl (fun _ _ => (callWork_toOos ..).trans (callWork_modLine ..)) ids r

/-- R177: a lost card is ABSENT with no misses, ABSENT is raised, and its lines are OUT_OF_SERVICE with nothing desired or acknowledged. -/
theorem loseCard_spec (c : Fin 32) (r : Records) :
    (∀ k, (r.loseCard c).card k = if k = c then { r.card c with present := false, miss := 0 } else r.card k) ∧
    (r.loseCard c).inFlight = r.inFlight ∧ Reason.absent ∈ (r.loseCard c).reasons (.card c.val) ∧
    ∀ id l0, r.line? id = some l0 → (r.place l0.port).map (·.1) = some c → ∃ l, (r.loseCard c).line? id = some l ∧
      l.state = .outOfService .noCard ∧ l.acknowledged = Cond.off ∧ l.desired = Cond.off ∧ l.parties = [] ∧ l.bridge = none ∧ l.timer = none := by
  unfold Records.loseCard
  simp only
  have cw := callWork_loseFold (r.linesOfCard c) ((r.modCard c (fun x => { x with present := false, miss := 0 })).raise (.card c.val) .absent)
  refine ⟨fun k => ?_, cw.inFlight, mem_reasons_of_grown cw.raised, fun id l0 hl hp => ?_⟩
  · simp only [Records.card, cw.cards, raise_cards, modCard_cards, vget_vset]
  · refine (line?_loseFold _ _ id).2 l0 hl (.inl ?_)
    exact Table.mem_idsWhere.mpr ⟨l0, Table.mem_of_find hl, by simp [hp]⟩

/-! ### CIRCUIT membership -/

/-- r' has the CIRCUIT members of r. -/
structure SameCircuits (r r' : Records) : Prop where
  same : ∀ id, (r'.circuitOf id).isSome = (r.circuitOf id).isSome

theorem circuitOf_isSome (r : Records) (id : Nat) : (r.circuitOf id).isSome = r.members.any (fun e => e.2.kind == .circuit id) := by
  simp [Records.circuitOf, List.isSome_find?]

theorem SameCircuits.of_members {r r' : Records} (h : r'.members = r.members) : SameCircuits r r' := ⟨fun id => by simp only [circuitOf_isSome, h]⟩

theorem SameCircuits.trans {a b c : Records} (h : SameCircuits a b) (k : SameCircuits b c) : SameCircuits a c :=
  ⟨fun id => (k.same id).trans (h.same id)⟩

theorem SameCircuits.foldl {α : Type} {f : Records → α → Records} (h : ∀ r a, SameCircuits r (f r a)) (xs : List α) (r : Records) :
    SameCircuits r (xs.foldl f r) := by
  induction xs generalizing r with
  | nil => exact .of_members rfl
  | cons a xs ih => exact (h r a).trans (ih _)

theorem Table.any_put {α : Type} {t : Table α} {i : Nat} {x v : α} {P : α → Bool} (h : Table.find t i = some x) (hv : P v = P x) :
    (Table.put i v t).any (fun e => P e.2) = t.any (fun e => P e.2) := by
  induction t with
  | nil => cases h
  | cons e t ih =>
    obtain ⟨k, w⟩ := e
    have hm := Table.mem_of_find h
    simp only [Table.find] at h
    simp only [Table.put]
    split
    · simp only [List.any_cons]
      cases hp : P v with
      | false => simp
      | true =>
        have : ((k, w) :: t).any (fun e => P e.2) = true := List.any_eq_true.mpr ⟨_, hm, by simpa [hv] using hp⟩
        simpa using this.symm
    · split at h
      · rename_i hk
        cases h
        rw [if_pos hk]
        simp [hv]
      · rename_i hk
        rw [if_neg hk, List.any_cons, List.any_cons, ih h]

theorem sameCircuits_modMember (m : Nat) (f : Member → Member) (hf : ∀ x, (f x).kind = x.kind) (r : Records) : SameCircuits r (r.modMember m f) := by
  refine ⟨fun id => ?_⟩
  unfold Records.modMember
  split
  · rename_i x hx
    simp only [circuitOf_isSome, setMember_members]
    exact Table.any_put (P := fun e => e.kind == .circuit id) hx (by show ((f x).kind == _) = (x.kind == _); rw [hf])
  · rfl

theorem sameCircuits_startTalk (m t : Nat) (r : Records) : SameCircuits r (r.startTalk m t) := by
  unfold Records.startTalk
  exact sameCircuits_modMember m _ (by intro x; rfl) r
theorem sameCircuits_setGroup (g : Nat) (x : Group) (r : Records) : SameCircuits r (r.setGroup g x) := .of_members rfl
theorem sameCircuits_setLine (id : Nat) (l : Line) (r : Records) : SameCircuits r (r.setLine id l) := .of_members rfl

theorem sameCircuits_grantPass (g : Nat) (r : Records) : SameCircuits r (r.grantPass g) := by
  unfold Records.grantPass
  split
  · exact .of_members rfl
  · simp only
    split
    · exact .of_members rfl
    · exact ((sameCircuits_setGroup ..).trans (.foldl (fun r _ => sameCircuits_startTalk _ _ r) _ _)).trans (.of_members (reportFloor_members ..))

theorem sameCircuits_releaseBridge (b : Nat) (r : Records) : SameCircuits r (r.releaseBridge b) := by
  unfold Records.releaseBridge
  simp only
  split
  · exact .of_members rfl
  · split
    · unfold Records.grantWaiting Records.allocateToGroup
      exact ((SameCircuits.of_members (by rw [modGroup_members])).trans (sameCircuits_grantPass ..)).trans (.of_members (markGroup_members ..))
    · exact .of_members rfl

theorem members_free (r : Records) (p : Fin 48) (ch : Channel) (b : Binding) : (r.free p ch b).members = r.members := by
  unfold Records.free
  split
  · rcases ch with (_|_)|n
    · rfl
    · rfl
    · exact (markChannel_marksOnly p n _).fields.2.2.2.2.1
  · rfl

theorem sameCircuits_free (p : Fin 48) (ch : Channel) (b : Binding) (r : Records) : SameCircuits r (r.free p ch b) := .of_members (members_free ..)

theorem sameCircuits_handBack (id : Nat) (r : Records) : SameCircuits r (r.handBack id) := by
  unfold Records.handBack
  split
  · exact .of_members rfl
  · split
    · exact .of_members rfl
    · split
      · exact (sameCircuits_setLine ..).trans (sameCircuits_releaseBridge ..)
      · exact .of_members rfl

theorem sameCircuits_removeAllParties (id : Nat) (r : Records) : SameCircuits r (r.removeAllParties id) := by
  unfold Records.removeAllParties
  split
  · exact .of_members rfl
  · exact ((sameCircuits_setLine ..).trans (.foldl (fun r _ => sameCircuits_free _ _ _ r) _ _)).trans (sameCircuits_handBack ..)

theorem LineWork.sameCircuits {r r' : Records} (h : LineWork r r') : SameCircuits r r' := .of_members h.members

theorem sameCircuits_toIdle (id : Nat) (r : Records) : SameCircuits r (r.toIdle id) :=
  (sameCircuits_removeAllParties id r).trans (lineWork_moveLine ..).sameCircuits

theorem sameCircuits_toOos (id : Nat) (q : OosReason) (r : Records) : SameCircuits r (r.toOos id q) :=
  (sameCircuits_removeAllParties id r).trans (lineWork_moveLine ..).sameCircuits

/-! ### Slots freed and offered (R85, R112) -/

/-- What freeing the slot of line id does to line j: it loses the slot if it is line id, and a member without a path may take the slot. -/
theorem freeSlot_spec {r : Records} {id k : Nat} {l : Line} (hl : r.line? id = some l) (hk : l.slot = some k) (j : Nat) {x : Line}
    (hx : (if j = id then some { l with slot := none } else r.line? j) = some x) :
    (r.freeSlot id).line? j = some x ∨ (x.type = .openLine ∧ (r.circuitOf j).isSome = true ∧ x.state = .idle ∧ x.slot = none ∧
      (r.freeSlot id).line? j = some (Line.enter { x with slot := some k } .connected)) := by
  unfold Records.freeSlot
  simp only [hl, hk]
  generalize hr : (({ r with slots := Table.drop k r.slots } : Records).setLine id { l with slot := none }) = r1
  have h1 : r1.line? j = some x := by subst hr; rw [line?_setLine]; exact hx
  unfold Records.offerSlot
  split
  · exact .inl h1
  · rename_i m hm
    by_cases hj : j = m
    · subst hj
      have hp := List.find?_some hm
      simp only [Records.pathless, h1, Option.any_some, Records.withoutPath, Bool.and_eq_true, beq_iff_eq, Option.isNone_iff_eq_none] at hp
      refine .inr ⟨hp.1.1.1, ?_, hp.1.1.2, hp.1.2, ?_⟩
      · have : r1.circuitOf j = r.circuitOf j := by subst hr; rfl
        rw [← this]; exact hp.2
      · rw [line?_moveLine, if_pos rfl, line?_bindSlot, if_pos rfl, h1]; rfl
    · refine .inl ?_
      rw [line?_moveLine, if_neg hj, line?_bindSlot, if_neg hj, h1]

/-- What settling the slots does to one line: a line that is no CIRCUIT member loses a slot that is due; a line with a slot and audio desired is left alone; a member without a slot may take one. -/
theorem settleSlots_spec (r : Records) (j : Nat) {l : Line} (hl : r.line? j = some l) :
    (l.type ≠ .openLine ∨ (r.circuitOf j).isSome = false →
      r.settleSlots.line? j = some (if r.slotDue j then { l with slot := none } else l)) ∧
    (l.slot ≠ none → l.desired.audio = true → r.settleSlots.line? j = some l) ∧
    (l.slot = none → r.settleSlots.line? j = some l ∨
      (l.state = .idle ∧ ∃ k, r.settleSlots.line? j = some (Line.enter { l with slot := some k } .connected))) := by
  unfold Records.settleSlots
  have hmem : j ∈ Table.ids r.lines := Table.mem_ids hl
  revert hmem
  generalize Table.ids r.lines = ids
  have key : ∀ (ids : List Nat) (r : Records) (l : Line), r.line? j = some l →
      let r' := ids.foldl (fun r id => if r.slotDue id then r.freeSlot id else r) r
      (l.type ≠ .openLine ∨ (r.circuitOf j).isSome = false → r'.line? j = some (if r.slotDue j = true ∧ j ∈ ids then { l with slot := none } else l)) ∧
      (l.slot ≠ none → l.desired.audio = true → r'.line? j = some l) ∧
      (l.slot = none → r'.line? j = some l ∨ (l.state = .idle ∧ ∃ k, r'.line? j = some (Line.enter { l with slot := some k } .connected))) := by
    intro ids
    induction ids with
    | nil => intro r l hl; simp [hl]
    | cons id ids ih =>
      intro r l hl
      simp only [List.foldl_cons]
      by_cases hd : r.slotDue id = true
      · rw [if_pos hd]
        obtain ⟨y, hy, hys, hyd, _⟩ := slotDue_line hd
        obtain ⟨k, hk⟩ := Option.isSome_iff_exists.mp hys
        have hc : ∀ i, (r.freeSlot id).circuitOf i = r.circuitOf i := by
          intro i; simp only [Records.circuitOf, (lineWork_freeSlot id r).members]
        have hif : (r.freeSlot id).inFlight = r.inFlight := (lineWork_freeSlot id r).inFlight
        have spec := fun x hx => freeSlot_spec (x := x) hy hk j hx
        by_cases hj : j = id
        · subst hj
          rw [hl] at hy; cases hy
          have hdd : (r.freeSlot j).slotDue j = false := slotDue_freeSlot_self r j hd
          refine ⟨fun hp => ?_, fun _ ha => ?_, fun hn => ?_⟩
          · rcases spec _ (by rw [if_pos rfl]) with h | ⟨h1, h2, _⟩
            · rw [(ih _ _ h).1 (by simpa [hc] using hp)]
              simp [hd, hdd]
            · rcases hp with hp | hp
              · exact absurd h1 hp
              · rw [hp] at h2; cases h2
          · rw [hyd] at ha; cases ha
          · rw [hk] at hn; cases hn
        · have hjd : (r.freeSlot id).line? j = some l → (r.freeSlot id).slotDue j = r.slotDue j := by
            intro h; simp only [Records.slotDue, h, hl, Records.connectOutstanding, hif]
          refine ⟨fun hp => ?_, fun hs ha => ?_, fun hn => ?_⟩
          · rcases spec l (by rw [if_neg hj, hl]) with h | ⟨h1, h2, _⟩
            · rw [(ih _ _ h).1 (by simpa [hc] using hp), hjd h]
              simp [hj]
            · rcases hp with hp | hp
              · exact absurd h1 hp
              · rw [hp] at h2; cases h2
          · rcases spec l (by rw [if_neg hj, hl]) with h | ⟨_, _, _, h4, _⟩
            · exact (ih _ _ h).2.1 hs ha
            · exact absurd h4 hs
          · rcases spec l (by rw [if_neg hj, hl]) with h | ⟨_, _, h3, _, h5⟩
            · exact (ih _ _ h).2.2 hn
            · exact .inr ⟨h3, k, (ih _ _ h5).2.1 (by simp [Line.enter]) (by simp [Line.enter, desiredFor, Cond.call])⟩
      · rw [if_neg hd]
        obtain ⟨i1, i2, i3⟩ := ih r l hl
        refine ⟨fun hp => ?_, i2, i3⟩
        rw [i1 hp]
        by_cases hj : j = id
        · subst hj; simp [hd]
        · simp [hj]
  intro hmem
  have := key ids r l hl
  simpa [hmem] using this

/-! ### Card reset (R48, R179) -/

theorem callWork_offerSlot (k : Nat) (r : Records) : CallWork r (r.offerSlot k) := by
  unfold Records.offerSlot
  split
  · exact .refl r
  · exact (callWork_bindSlot ..).trans (callWork_moveLine ..)

theorem callWork_freeSlot (id : Nat) (r : Records) : CallWork r (r.freeSlot id) := by
  unfold Records.freeSlot
  split
  · exact .refl r
  · split
    · exact .refl r
    · rename_i l _ k _
      have h : CallWork r { r with slots := Table.drop k r.slots } := .of_eq rfl rfl rfl rfl rfl rfl (.refl _)
      exact (h.trans (callWork_setLine ..)).trans (callWork_offerSlot ..)

theorem callWork_settleSlots (r : Records) : CallWork r r.settleSlots := by
  refine CallWork.foldl (fun r id => ?_) _ r
  split
  · exact callWork_freeSlot ..
  · exact .refl r

theorem callWork_resetLine (id : Nat) (r : Records) : CallWork r (r.resetLine id) := by
  unfold Records.resetLine
  split
  · exact .refl r
  · split
    · split
      · exact callWork_moveLine ..
      · exact .refl r
    · split
      · exact .refl r
      · exact callWork_toIdle ..

theorem sameCircuits_resetLine (id : Nat) (r : Records) : SameCircuits r (r.resetLine id) := by
  unfold Records.resetLine
  split
  · exact .of_members rfl
  · split
    · split
      · exact (lineWork_moveLine ..).sameCircuits
      · exact .of_members rfl
    · split
      · exact .of_members rfl
      · exact sameCircuits_toIdle ..

/-- R48: the line at a CARD_RESET, its acknowledged condition all false; `member`: it is a CIRCUIT member. -/
def Line.reset (member : Bool) (l : Line) : Line :=
  { (if l.type = .openLine ∧ member = true then (if l.slot.isSome then l.enter .connected else l)
     else if l.state = .idle then l else Line.enter { l with parties := [], bridge := none } .idle) with acknowledged := Cond.off }

theorem Line.reset_reset (b : Bool) (l : Line) : (l.reset b).reset b = l.reset b := by
  unfold Line.reset
  by_cases h1 : l.type = .openLine ∧ b = true <;> by_cases h2 : l.slot.isSome = true <;> by_cases h3 : l.state = .idle <;>
    simp [h1, h2, h3, Line.enter, timerFor]

/-- The step of the fold over the card's lines. -/
theorem line?_resetStep (r : Records) (id j : Nat) :
    ((r.resetLine id).modLine id (fun l => { l with acknowledged := Cond.off })).line? j =
      if j = id then (r.line? id).map (Line.reset (r.circuitOf id).isSome) else r.line? j := by
  rw [line?_modLine]
  cases h : r.line? id with
  | none =>
    have : r.resetLine id = r := by simp [Records.resetLine, h]
    rw [this, h]; rfl
  | some l =>
    have hr : ∀ j, (r.resetLine id).line? j = if j = id then
        some (if l.type = .openLine ∧ (r.circuitOf id).isSome = true then (if l.slot.isSome then l.enter .connected else l)
          else if l.state = .idle then l else Line.enter { l with parties := [], bridge := none } .idle) else r.line? j := by
      intro j
      unfold Records.resetLine
      rw [h]
      simp only
      split
      · split
        · rw [line?_moveLine, h]; rfl
        · split
          · rename_i hj; rw [hj, h]
          · rfl
      · split
        · split
          · rename_i hj; rw [hj, h]
          · rfl
        · rw [line?_toIdle, h]; rfl
    rw [hr, hr, if_pos rfl]
    split
    · rfl
    · rfl

theorem line?_resetFold (ids : List Nat) (r : Records) (j : Nat) :
    let r' := ids.foldl (fun r id => (r.resetLine id).modLine id (fun l => { l with acknowledged := Cond.off })) r
    r'.line? j = (if j ∈ ids then (r.line? j).map (Line.reset (r.circuitOf j).isSome) else r.line? j) ∧ CallWork r r' ∧ SameCircuits r r' := by
  induction ids generalizing r with
  | nil => exact ⟨by simp, .refl r, .of_members rfl⟩
  | cons k ids ih =>
    simp only [List.foldl_cons]
    have hs := (sameCircuits_resetLine k r).trans (lineWork_modLine k (fun l => { l with acknowledged := Cond.off }) (r.resetLine k)).sameCircuits
    obtain ⟨i1, i2, i3⟩ := ih ((r.resetLine k).modLine k (fun l => { l with acknowledged := Cond.off }))
    refine ⟨?_, ((callWork_resetLine k r).trans (callWork_modLine ..)).trans i2, hs.trans i3⟩
    rw [i1, line?_resetStep, hs.same]
    by_cases hj : j = k
    · subst hj
      by_cases hm : j ∈ ids
      · simp only [hm, if_true, List.mem_cons, or_true, Option.map_map]
        congr 1
        funext l; exact Line.reset_reset _ l
      · simp [hm]
    · simp [hj]

theorem line?_needSlot_other (r : Records) {id j : Nat} (hj : j ≠ id) : (r.needSlot id).line? j = r.line? j := by
  unfold Records.needSlot
  split
  · rfl
  · split
    · rw [line?_bindSlot, if_neg hj]
    · rfl
    · rfl

theorem lineWork_returnToService (id : Nat) (r : Records) : LineWork r (r.returnToService id) := by
  unfold Records.returnToService
  split
  · exact .refl r
  · split
    · split
      · exact (lineWork_needSlot ..).trans (lineWork_moveLine ..)
      · exact (lineWork_moveLine ..).trans (lineWork_raise ..)
    · exact lineWork_moveLine ..

/-- R46, R84: what a return to service does to line id: IDLE, or for a CIRCUIT member CONNECTED with its slot or the lowest-numbered FREE one, or IDLE as a member without a path. -/
theorem returnToService_spec {r : Records} {id : Nat} {l : Line} (hl : r.line? id = some l) :
    (∀ j, j ≠ id → (r.returnToService id).line? j = r.line? j) ∧
    (l.type ≠ .openLine ∨ (r.circuitOf id).isSome = false → (r.returnToService id).line? id = some (l.enter .idle)) ∧
    (l.type = .openLine → (r.circuitOf id).isSome = true →
      (∀ k, l.slot = some k ∨ (l.slot = none ∧ r.lowestSlot = some k) →
        (r.returnToService id).line? id = some (Line.enter { l with slot := some k } .connected)) ∧
      (l.slot = none → r.lowestSlot = none →
        (r.returnToService id).line? id = some (l.enter .idle) ∧ Reason.noPath ∈ (r.returnToService id).reasons .pool ∧
        Standing .pool .noPath (r.returnToService id).raised)) := by
  unfold Records.returnToService
  rw [hl]
  simp only
  refine ⟨fun j hj => ?_, fun h => ?_, fun h1 h2 => ⟨fun k hk => ?_, fun h3 h4 => ?_⟩⟩
  · split
    · split
      · rw [line?_moveLine, if_neg hj]
        exact line?_needSlot_other r hj
      · rw [line?_raise, line?_moveLine, if_neg hj]
    · rw [line?_moveLine, if_neg hj]
  · rw [if_neg, line?_moveLine, if_pos rfl, hl]; rfl
    rintro ⟨h1, h2⟩
    rcases h with h | h
    · exact h h1
    · rw [h] at h2; cases h2
  · rw [if_pos ⟨h1, h2⟩, if_pos]
    · rw [line?_moveLine, if_pos rfl, line?_needSlot hl hk, if_pos rfl]; rfl
    · rcases hk with hk | ⟨_, hk⟩
      · simp [hk]
      · simp [hk]
  · rw [if_pos ⟨h1, h2⟩, if_neg (by simp [h3, h4])]
    refine ⟨by rw [line?_raise, line?_moveLine, if_pos rfl, hl]; rfl, mem_reasons_raise .., Standing.raised ..⟩

/-- A CIRCUIT member in service: CONNECTED with a slot, or IDLE as a member without a path, with NO_PATH raised. -/
def Line.InService (l : Line) (r : Records) : Prop :=
  (l.state = .connected ∧ l.desired = Cond.call ∧ l.slot ≠ none) ∨
  (l.state = .idle ∧ l.desired = Cond.off ∧ l.slot = none ∧ Standing .pool .noPath r.raised)

theorem callWork_rebindLine (id : Nat) (r : Records) : CallWork r (r.rebindLine id) := by
  unfold Records.rebindLine
  split
  · exact .refl r
  · split
    · exact callWork_returnToService ..
    · exact .refl r

theorem sameCircuits_rebindLine (id : Nat) (r : Records) : SameCircuits r (r.rebindLine id) := by
  unfold Records.rebindLine
  split
  · exact .of_members rfl
  · split
    · exact (lineWork_returnToService ..).sameCircuits
    · exact .of_members rfl

/-- The same line but for what a return to service writes. -/
def Line.SameCall (l x : Line) : Prop := x = { l with state := x.state, slot := x.slot, desired := x.desired, timer := x.timer, holdOwner := x.holdOwner }

theorem rebindLine_spec (r : Records) (id j : Nat) {l : Line} (hl : r.line? j = some l) :
    (l.type ≠ .openLine ∨ (r.circuitOf j).isSome = false ∨ l.slot ≠ none → (r.rebindLine id).line? j = some l) ∧
    (l.type = .openLine → (r.circuitOf j).isSome = true → l.slot = none → j = id →
      ∃ x, (r.rebindLine id).line? j = some x ∧ x.InService (r.rebindLine id) ∧ l.SameCall x) ∧
    (j ≠ id → (r.rebindLine id).line? j = some l) := by
  have hother : j ≠ id → (r.rebindLine id).line? j = some l := by
    intro hj
    unfold Records.rebindLine
    split
    · exact hl
    · rename_i y hy
      split
      · rw [(returnToService_spec hy).1 j hj, hl]
      · exact hl
  refine ⟨fun h => ?_, fun h1 h2 h3 hj => ?_, hother⟩
  · by_cases hj : j = id
    · subst hj
      unfold Records.rebindLine
      rw [hl]
      simp only
      rw [if_neg, hl]
      rintro ⟨k1, k2, k3⟩
      rcases h with h | h | h
      · exact h k1
      · rw [h] at k2; cases k2
      · simp only [Option.isNone_iff_eq_none] at k3; exact h k3
    · exact hother hj
  · subst hj
    have hr : r.rebindLine j = r.returnToService j := by simp [Records.rebindLine, hl, h1, h2, h3]
    rw [hr]
    obtain ⟨_, _, k3⟩ := returnToService_spec hl
    obtain ⟨k4, k5⟩ := k3 h1 h2
    cases hs : r.lowestSlot with
    | none =>
      obtain ⟨k6, _, k8⟩ := k5 h3 hs
      exact ⟨_, k6, .inr ⟨rfl, rfl, h3, k8⟩, rfl⟩
    | some k => exact ⟨_, k4 k (.inr ⟨h3, hs⟩), .inl ⟨rfl, rfl, by simp [Line.enter]⟩, rfl⟩

theorem Line.SameCall.trans {a b c : Line} (h : a.SameCall b) (k : b.SameCall c) : a.SameCall c := by
  unfold Line.SameCall at *
  rw [k, h]

theorem rebindFold_spec (ids : List Nat) (r : Records) (j : Nat) {l : Line} (hl : r.line? j = some l) :
    let r' := ids.foldl (fun r id => r.rebindLine id) r
    CallWork r r' ∧ (l.type ≠ .openLine ∨ (r.circuitOf j).isSome = false ∨ l.slot ≠ none → r'.line? j = some l) ∧
    (l.type = .openLine → (r.circuitOf j).isSome = true → l.InService r ∨ (l.slot = none ∧ j ∈ ids) →
      ∃ x, r'.line? j = some x ∧ x.InService r' ∧ l.SameCall x) := by
  induction ids generalizing r l with
  | nil =>
    refine ⟨.refl r, fun _ => hl, fun _ _ h => ⟨l, hl, ?_, rfl⟩⟩
    rcases h with h | ⟨_, h⟩
    · exact h
    · cases h
  | cons k ids ih =>
    simp only [List.foldl_cons]
    obtain ⟨s1, s2, s3⟩ := rebindLine_spec r k j hl
    have hc := (sameCircuits_rebindLine k r).same j
    have cw := callWork_rebindLine k r
    have next : ∀ x, (r.rebindLine k).line? j = some x → l.SameCall x → x.InService (r.rebindLine k) ∨ (x.slot = none ∧ j ∈ ids) →
        l.type = .openLine → (r.circuitOf j).isSome = true →
        ∃ y, (ids.foldl (fun r id => r.rebindLine id) (r.rebindLine k)).line? j = some y ∧
          y.InService (ids.foldl (fun r id => r.rebindLine id) (r.rebindLine k)) ∧ l.SameCall y := by
      intro x hx hsame hin h1 h2
      have hty : x.type = .openLine := by rw [hsame]; exact h1
      obtain ⟨y, y1, y2, y3⟩ := (ih _ hx).2.2 hty (by rw [hc]; exact h2) hin
      exact ⟨y, y1, y2, hsame.trans y3⟩
    refine ⟨?_, fun h => ?_, fun h1 h2 h3 => ?_⟩
    · by_cases h : l.type ≠ .openLine ∨ (r.circuitOf j).isSome = false ∨ l.slot ≠ none
      · exact cw.trans (ih _ (s1 h)).1
      · by_cases hj : j = k
        · obtain ⟨x, hx, _⟩ := s2 (by_contra fun h' => h (.inl h')) (by by_contra h'; exact h (.inr (.inl (by simpa using h'))))
            (by_contra fun h' => h (.inr (.inr h'))) hj
          exact cw.trans (ih _ hx).1
        · exact cw.trans (ih _ (s3 hj)).1
    · exact (ih _ (s1 h)).2.1 (by rw [hc]; exact h)
    · by_cases hs : l.slot = none
      · by_cases hj : j = k
        · obtain ⟨x, x1, x2, x3⟩ := s2 h1 h2 hs hj
          exact next x x1 x3 (.inl x2) h1 h2
        · refine next l (s3 hj) rfl ?_ h1 h2
          rcases h3 with (h3 | ⟨h4, h5, h6, h7⟩) | ⟨h3, h4⟩
          · exact absurd hs h3.2.2
          · exact .inl (.inr ⟨h4, h5, h6, cw.raised.standing h7⟩)
          · exact .inr ⟨h3, by simpa [hj] using h4⟩
      · refine next l (s1 (.inr (.inr hs))) rfl ?_ h1 h2
        rcases h3 with (h3 | ⟨_, _, h6, _⟩) | ⟨h3, _⟩
        · exact .inl (.inl h3)
        · exact absurd h6 hs
        · exact absurd h3 hs

theorem Line.reset_member {l : Line} {k : Nat} (h1 : l.type = .openLine) (h2 : l.slot = some k) :
    l.reset true = { l with state := .connected, holdOwner := none, desired := Cond.call, acknowledged := Cond.off, timer := none } := by
  simp [Line.reset, h1, h2, Line.enter, desiredFor, timerFor]

/-- R48, R179: what a CARD_RESET does to the cards, to the card's lines and to the lines of other cards. -/
theorem resetCard_spec (c : Fin 32) (r : Records) (hf : r.inFlight = none) :
    (∀ k, (r.resetCard c).card k = r.card k) ∧ Reason.reset ∈ (r.resetCard c).reasons (.card c.val) ∧
    (∀ id l, r.line? id = some l → (r.place l.port).map (·.1) = some c →
      (l.type ≠ .openLine ∨ r.circuitOf id = none →
        (l.state ≠ .idle → (r.resetCard c).line? id = some { l with
          state := .idle, parties := [], holdOwner := none, bridge := none, slot := none, desired := Cond.off, acknowledged := Cond.off
          timer := none }) ∧
        (l.state = .idle → l.desired = Cond.off → (r.resetCard c).line? id = some { l with slot := none, acknowledged := Cond.off })) ∧
      (l.type = .openLine → r.circuitOf id ≠ none →
        (∀ k, l.slot = some k → (r.resetCard c).line? id = some { l with
          state := .connected, holdOwner := none, desired := Cond.call, acknowledged := Cond.off, timer := none }) ∧
        (l.slot = none → ∃ x, (r.resetCard c).line? id = some x ∧ x.acknowledged = Cond.off ∧ x.parties = l.parties ∧ x.InService (r.resetCard c)))) ∧
    (∀ id l, r.line? id = some l → id ∉ r.linesOfCard c → l.type ≠ .openLine ∨ r.circuitOf id = none → r.slotDue id = false →
      (r.resetCard c).line? id = some l) := by
  unfold Records.resetCard
  simp only
  have fold := fun j => line?_resetFold (r.linesOfCard c) (r.raise (.card c.val) .reset) j
  simp only [line?_raise] at fold
  have hcirc : ∀ id, ((r.raise (.card c.val) .reset).circuitOf id) = r.circuitOf id := fun _ => rfl
  simp only [hcirc] at fold
  generalize hr1 : (r.linesOfCard c).foldl (fun r id => (r.resetLine id).modLine id (fun l => { l with acknowledged := Cond.off }))
    (r.raise (.card c.val) .reset) = r1 at fold
  obtain ⟨_, cw, sc⟩ := fold 0
  have hf1 : r1.inFlight = none := by rw [cw.inFlight]; exact hf
  have hl1 := fun j => (fold j).1
  have lw := lineWork_settleSlots r1
  have sc2 : ∀ j, (r1.settleSlots.circuitOf j).isSome = (r.circuitOf j).isSome := fun j => by rw [lw.sameCircuits.same, sc.same, hcirc]
  have sc1 : ∀ j, (r1.circuitOf j).isSome = (r.circuitOf j).isSome := fun j => by rw [sc.same, hcirc]
  have hmem : ∀ id l, r.line? id = some l → (r.place l.port).map (·.1) = some c → id ∈ r.linesOfCard c := fun id l h hp =>
    Table.mem_idsWhere.mpr ⟨l, Table.mem_of_find h, by simp [hp]⟩
  have hdue : ∀ id x, r1.line? id = some x → r1.slotDue id = (x.slot.isSome && !x.desired.audio && !x.acknowledged.audio) := by
    intro id x hx; simp [Records.slotDue, hx, Records.connectOutstanding, hf1]
  -- a line whose slot the settling leaves as it stands, or that has no slot and is no member
  have plain : ∀ id l x, r1.line? id = some x → r.line? id = some l → (x.type ≠ .openLine ∨ r.circuitOf id = none) →
      ((r.linesOfCard c).foldl (fun r id => r.rebindLine id) r1.settleSlots).line? id =
        some (if r1.slotDue id then { x with slot := none } else x) := by
    intro id l x hx hl hn
    have hn' : x.type ≠ .openLine ∨ (r.circuitOf id).isSome = false := by
      rcases hn with h | h
      · exact .inl h
      · exact .inr (by simp [h])
    have h1 := (settleSlots_spec r1 id hx).1 (by rw [sc1]; exact hn')
    refine (rebindFold_spec (r.linesOfCard c) r1.settleSlots id h1).2.1 ?_
    rw [sc2]
    rcases hn' with h | h
    · left; split <;> exact h
    · exact .inr (.inl h)
  have cwAll : CallWork (r.raise (.card c.val) .reset) ((r.linesOfCard c).foldl (fun r id => r.rebindLine id) r1.settleSlots) := by
    have h2 : CallWork r1.settleSlots ((r.linesOfCard c).foldl (fun r id => r.rebindLine id) r1.settleSlots) :=
      CallWork.foldl (fun r id => callWork_rebindLine id r) _ _
    exact (cw.trans (callWork_settleSlots r1)).trans h2
  refine ⟨fun k => ?_, mem_reasons_of_grown cwAll.raised, fun id l hl hp => ⟨fun hn => ⟨fun hs => ?_, fun hs hd => ?_⟩, fun ht hm => ⟨fun k hk => ?_, fun hk => ?_⟩⟩,
    fun id l hl hni hn hd => ?_⟩
  · simp only [Records.card, cwAll.cards]; rfl
  · have hx : r1.line? id = some (l.reset (r.circuitOf id).isSome) := by rw [hl1, if_pos (hmem id l hl hp), hl]; rfl
    have he : l.reset (r.circuitOf id).isSome = { l with
        state := .idle, parties := [], holdOwner := none, bridge := none, desired := Cond.off, acknowledged := Cond.off, timer := none } := by
      have : ¬ (l.type = .openLine ∧ (r.circuitOf id).isSome = true) := by
        rintro ⟨h1, h2⟩; rcases hn with h | h
        · exact h h1
        · simp [h] at h2
      simp [Line.reset, this, hs, Line.enter, desiredFor, timerFor]
    rw [he] at hx
    rw [plain id l _ hx hl hn, hdue id _ hx]
    cases hsl : l.slot with
    | none => simp
    | some k => simp [Cond.off]
  · have hx : r1.line? id = some (l.reset (r.circuitOf id).isSome) := by rw [hl1, if_pos (hmem id l hl hp), hl]; rfl
    have he : l.reset (r.circuitOf id).isSome = { l with acknowledged := Cond.off } := by
      have : ¬ (l.type = .openLine ∧ (r.circuitOf id).isSome = true) := by
        rintro ⟨h1, h2⟩; rcases hn with h | h
        · exact h h1
        · simp [h] at h2
      simp [Line.reset, this, hs]
    rw [he] at hx
    rw [plain id l _ hx hl hn, hdue id _ hx]
    cases hsl : l.slot with
    | none => simp
    | some k => simp [hd, Cond.off]
  · have hmm : (r.circuitOf id).isSome = true := by cases h : r.circuitOf id <;> simp_all
    have hx : r1.line? id = some (l.reset true) := by rw [hl1, if_pos (hmem id l hl hp), hl, hmm]; rfl
    rw [Line.reset_member ht hk] at hx
    have h1 := (settleSlots_spec r1 id hx).2.1 (by simp [hk]) rfl
    exact (rebindFold_spec _ _ id h1).2.1 (.inr (.inr (by simp [hk])))
  · have hmm : (r.circuitOf id).isSome = true := by cases h : r.circuitOf id <;> simp_all
    have hx : r1.line? id = some { l with acknowledged := Cond.off } := by
      rw [hl1, if_pos (hmem id l hl hp), hl, hmm]; simp [Line.reset, ht, hk]
    rcases (settleSlots_spec r1 id hx).2.2 hk with h1 | ⟨_, k, h1⟩
    · obtain ⟨x, x1, x2, x3⟩ := (rebindFold_spec (r.linesOfCard c) r1.settleSlots id h1).2.2 ht (by rw [sc2]; exact hmm) (.inr ⟨hk, hmem id l hl hp⟩)
      exact ⟨x, x1, by rw [x3], by rw [x3], x2⟩
    · have := (rebindFold_spec (r.linesOfCard c) r1.settleSlots id h1).2.1 (.inr (.inr (by simp [Line.enter])))
      exact ⟨_, this, rfl, rfl, .inl ⟨rfl, rfl, by simp [Line.enter]⟩⟩
  · have hx : r1.line? id = some l := by rw [hl1, if_neg hni, hl]
    rw [plain id l l hx hl hn, hdue id l hx]
    have : r.slotDue id = (l.slot.isSome && !l.desired.audio && !l.acknowledged.audio) := by
      simp [Records.slotDue, hl, Records.connectOutstanding, hf]
    rw [← this, hd]; rfl

/-! ### Card return (R180) -/

theorem sameCircuits_serviceTest (id : Nat) (b : Bool) (r : Records) : SameCircuits r (r.serviceTest id b) := by
  unfold Records.serviceTest
  split
  · exact .of_members rfl
  · split
    · exact sameCircuits_toOos ..
    · split <;> first
        | exact .of_members rfl
        | exact (lineWork_returnToService ..).sameCircuits
        | (split <;> first | exact (lineWork_returnToService ..).sameCircuits | exact .of_members rfl)

theorem callWork_returnLine (id : Nat) (r : Records) : CallWork r (r.returnLine id) := by
  unfold Records.returnLine
  split
  · exact .refl r
  · split
    · exact callWork_serviceTest ..
    · exact .refl r

theorem sameCircuits_returnLine (id : Nat) (r : Records) : SameCircuits r (r.returnLine id) := by
  unfold Records.returnLine
  split
  · exact .of_members rfl
  · split
    · exact sameCircuits_serviceTest ..
    · exact .of_members rfl

theorem line?_returnLine_other (r : Records) {id j : Nat} (hj : j ≠ id) : (r.returnLine id).line? j = r.line? j := by
  unfold Records.returnLine
  split
  · rfl
  · rename_i l hl
    split
    · rename_i hs
      unfold Records.serviceTest
      rw [hl]
      simp only
      split
      · rw [line?_toOos, if_neg hj]
      · rw [hs]; exact (returnToService_spec hl).1 j hj
    · rfl

/-- A line that is not OUT_OF_SERVICE for want of its card is left alone. -/
theorem returnLine_keeps {r : Records} {id j : Nat} {l : Line} (hl : r.line? j = some l) (hs : l.state ≠ .outOfService .noCard) :
    (r.returnLine id).line? j = some l := by
  by_cases hj : j = id
  · subst hj; simp [Records.returnLine, hl, hs]
  · rw [line?_returnLine_other r hj, hl]

/-- A line whose card is PRESENT again returns to service. -/
theorem returnLine_spec {r : Records} {id : Nat} {l : Line} {c : Fin 32} {ch : Nat} (hl : r.line? id = some l)
    (hs : l.state = .outOfService .noCard) (hp : r.place l.port = some (c, ch)) (hc : (r.card c).present = true) :
    r.returnLine id = r.returnToService id := by
  simp [Records.returnLine, hl, hs, Records.serviceTest, Records.serviceOf, hp, hc]

theorem returnFold_spec (c : Fin 32) (ids : List Nat) (r : Records) (hc : (r.card c).present = true) (j : Nat) {l : Line} (hl : r.line? j = some l) :
    let r' := ids.foldl (fun r id => r.returnLine id) r
    (l.state ≠ .outOfService .noCard ∨ j ∉ ids → r'.line? j = some l) ∧
    (l.state = .outOfService .noCard → (r.place l.port).map (·.1) = some c → j ∈ ids →
      (l.type ≠ .openLine ∨ (r.circuitOf j).isSome = false → r'.line? j = some (l.enter .idle)) ∧
      (l.type = .openLine → (r.circuitOf j).isSome = true → ∃ x, r'.line? j = some x ∧ l.SameCall x ∧ x.InService r')) := by
  induction ids generalizing r l with
  | nil => exact ⟨fun _ => hl, fun _ _ h => by cases h⟩
  | cons k ids ih =>
    simp only [List.foldl_cons]
    have cw := callWork_returnLine k r
    have hc' : ((r.returnLine k).card c).present = true := by simp only [Records.card, cw.cards]; exact hc
    have hpl : ∀ p, (r.returnLine k).place p = r.place p := fun p => by simp [Records.place, Records.windowOf, cw.windows]
    have hsc := (sameCircuits_returnLine k r).same j
    have cwRest : CallWork (r.returnLine k) (ids.foldl (fun r id => r.returnLine id) (r.returnLine k)) :=
      CallWork.foldl (fun r id => callWork_returnLine id r) _ _
    refine ⟨fun h => ?_, fun h1 h2 h3 => ?_⟩
    · rcases h with h | h
      · exact (ih _ hc' (returnLine_keeps hl h)).1 (.inl h)
      · simp only [List.mem_cons, not_or] at h
        exact (ih _ hc' (by rw [line?_returnLine_other r h.1, hl])).1 (.inr h.2)
    · by_cases hj : j = k
      · subst hj
        obtain ⟨⟨c', ch⟩, hp, hcc⟩ := Option.map_eq_some_iff.mp h2
        simp only at hcc; subst hcc
        have e := returnLine_spec hl h1 hp hc
        obtain ⟨_, k1, k2⟩ := returnToService_spec hl
        have done : ∀ x, (r.returnLine j).line? j = some x → x.state ≠ .outOfService .noCard →
            (ids.foldl (fun r id => r.returnLine id) (r.returnLine j)).line? j = some x := fun x hx hs => (ih _ hc' hx).1 (.inl hs)
        refine ⟨fun h => ?_, fun h4 h5 => ?_⟩
        · exact done _ (by rw [e]; exact k1 h) (by simp [Line.enter])
        · obtain ⟨k3, k4⟩ := k2 h4 h5
          cases hs : l.slot with
          | some k =>
            exact ⟨Line.enter { l with slot := some k } .connected, done _ (by rw [e]; exact k3 k (.inl hs)) (by simp [Line.enter]), rfl, .inl ⟨rfl, rfl, by simp [Line.enter]⟩⟩
          | none => cases hlow : r.lowestSlot with
            | some k =>
              exact ⟨Line.enter { l with slot := some k } .connected, done _ (by rw [e]; exact k3 k (.inr ⟨hs, hlow⟩)) (by simp [Line.enter]), rfl, .inl ⟨rfl, rfl, by simp [Line.enter]⟩⟩
            | none =>
              obtain ⟨k5, _, k6⟩ := k4 hs hlow
              exact ⟨l.enter .idle, done _ (by rw [e]; exact k5) (by simp [Line.enter]), rfl,
                .inr ⟨rfl, rfl, hs, cwRest.raised.standing (by rw [e]; exact k6)⟩⟩
      · have := (ih _ hc' (l := l) (by rw [line?_returnLine_other r hj, hl])).2 h1 (by rw [hpl]; exact h2) (by simpa [hj] using h3)
        rw [hsc] at this
        exact this

/-- R180: what the return of card c does to the cards, to its lines that were OUT_OF_SERVICE for want of it, and to the other lines. -/
theorem returnCard_spec (c : Fin 32) (r : Records) :
    (∀ k, (r.returnCard c).card k = if k = c then { r.card c with present := true, miss := 0 } else r.card k) ∧
    Reason.present ∈ (r.returnCard c).reasons (.card c.val) ∧
    (∀ id l, r.line? id = some l → (r.place l.port).map (·.1) = some c → l.state = .outOfService .noCard →
      (l.type ≠ .openLine ∨ r.circuitOf id = none → (r.returnCard c).line? id = some (l.enter .idle)) ∧
      (l.type = .openLine → r.circuitOf id ≠ none →
        ∃ x, (r.returnCard c).line? id = some x ∧ l.SameCall x ∧ x.InService (r.returnCard c))) ∧
    (∀ id l, r.line? id = some l → l.state ≠ .outOfService .noCard ∨ id ∉ r.linesOfCard c → (r.returnCard c).line? id = some l) := by
  unfold Records.returnCard
  simp only
  generalize hr : ((r.modCard c (fun x => { x with present := true, miss := 0 })).raise (.card c.val) .present) = r1
  have hids : r1.linesOfCard c = r.linesOfCard c := by subst hr; rfl
  have hl : ∀ j, r1.line? j = r.line? j := by intro j; subst hr; rfl
  have hc : (r1.card c).present = true := by subst hr; simp
  have hp : ∀ p, r1.place p = r.place p := by intro p; subst hr; rfl
  have hcirc : ∀ j, r1.circuitOf j = r.circuitOf j := by intro j; subst hr; rfl
  have cw : CallWork r1 ((r1.linesOfCard c).foldl (fun r id => r.returnLine id) r1) := CallWork.foldl (fun r id => callWork_returnLine id r) _ _
  rw [hids] at cw ⊢
  refine ⟨fun k => ?_, ?_, fun id l h1 h2 h3 => ?_, fun id l h1 h2 => (returnFold_spec c _ r1 hc id (by rw [hl]; exact h1)).1 h2⟩
  · simp only [Records.card, cw.cards]
    subst hr
    simp only [raise_cards, modCard_cards, vget_vset, Records.card]
  · exact mem_reasons_of_grown (r := r.modCard c (fun x => { x with present := true, miss := 0 })) (by rw [hr]; exact cw.raised)
  · have hm : id ∈ r.linesOfCard c := Table.mem_idsWhere.mpr ⟨l, Table.mem_of_find h1, by simp [h2]⟩
    obtain ⟨k1, k2⟩ := (returnFold_spec c _ r1 hc id (by rw [hl]; exact h1)).2 h3 (by rw [hp]; exact h2) hm
    refine ⟨fun h => k1 ?_, fun h4 h5 => k2 h4 ?_⟩
    · rw [hcirc]; rcases h with h | h
      · exact .inl h
      · exact .inr (by simp [h])
    · rw [hcirc]; cases h : r.circuitOf id <;> simp_all

/-! ### Probe due (R180) -/

/-- R180: every named ABSENT card is due, and nothing else of the records changes. -/
theorem makeDue_spec (r : Records) :
    (∀ c, r.makeDue.card c = { r.card c with probeDue := (r.card c).probeDue || (r.named c && !(r.card c).present) }) ∧
    r.makeDue = { r with cards := r.makeDue.cards } := by
  have key : ∀ (ks : List (Fin 32)) (t : Records), t = { r with cards := t.cards } →
      let t' := ks.foldl (fun t c => if t.named c && !(t.card c).present then t.modCard c (fun x => { x with probeDue := true }) else t) t
      t' = { r with cards := t'.cards } ∧
      ∀ c, t'.card c = { t.card c with probeDue := (t.card c).probeDue || (decide (c ∈ ks) && r.named c && !(t.card c).present) } := by
    intro ks
    induction ks with
    | nil => intro t h; exact ⟨h, fun c => by simp⟩
    | cons k ks ih =>
      intro t h
      have hn : ∀ c, t.named c = r.named c := by intro c; rw [h]; rfl
      simp only [List.foldl_cons]
      generalize hu : (if t.named k && !(t.card k).present then t.modCard k (fun x => { x with probeDue := true }) else t) = u
      have hu1 : u = { r with cards := u.cards } := by
        subst hu; split
        · simp only [Records.modCard]; rw [h]
        · exact h
      have hu2 : ∀ c, u.card c = { t.card c with probeDue := (t.card c).probeDue || (decide (c = k) && r.named c && !(t.card c).present) } := by
        intro c
        subst hu
        rw [hn]
        by_cases hc : c = k
        · subst hc
          split
          · rename_i hh
            rw [card_modCard, if_pos rfl]
            simp [hh]
          · rename_i hh
            simp only [Bool.not_eq_true] at hh
            simp [hh]
        · split
          · rw [card_modCard, if_neg hc]; simp [hc]
          · simp [hc]
      obtain ⟨i1, i2⟩ := ih u hu1
      refine ⟨i1, fun c => ?_⟩
      rw [i2, hu2]
      simp only [List.mem_cons, Bool.decide_or]
      congr 1
      generalize decide (c = k) = a
      generalize decide (c ∈ ks) = b
      cases a <;> cases b <;> cases r.named c <;> cases (t.card c).present <;> simp
  obtain ⟨h1, h2⟩ := key (allFin 32) r rfl
  exact ⟨fun c => by rw [show r.makeDue.card c = _ from h2 c]; simp, h1⟩

end Sys2Proof.Machine
end

