-- ==== Sys2Proof/Laws/Losses.lean ====
section
/-!
SUPPORT. What the loss of a position does: to the lines of which it is a party, to its bindings, to the floor its ptt_channel named and to the bridges handed back.
-/
namespace Sys2Proof.Machine

/-! ### What bridges handed back may do to groups -/

/-- r' is r after bridges went from lines to waiting groups or to none, and waiting members took the places this opened: of each group as many from the head of its waiting list as it had free places. -/
structure Drift (r r' : Records) : Prop where
  group : ∀ g x, r.group? g = some x → ∃ y n, r'.group? g = some y ∧ n ≤ x.waiting.length ∧ n ≤ x.talkerLimit - x.talkers.length ∧
    y.talkers = x.talkers ++ x.waiting.take n ∧ y.waiting = x.waiting.drop n ∧ y.talkerLimit = x.talkerLimit ∧
    (x.bridge ≠ none → y.bridge ≠ none ∨ y.waiting = [])
  none : ∀ g, r.group? g = none → r'.group? g = none
  member : ∀ m, (∀ k y, r.group? k = some y → m ∉ y.waiting) → r'.member? m = r.member? m
  kept : ∀ m x, r.member? m = some x → ∃ y, r'.member? m = some y ∧ y = { x with floor := y.floor, talkTimer := y.talkTimer }
  owner : ∀ b id, Table.find r'.bridges b = some (.line id) → Table.find r.bridges b = some (.line id)

theorem Drift.of_eq {r r' : Records} (h1 : r'.groups = r.groups) (h2 : r'.members = r.members) (h3 : r'.bridges = r.bridges) : Drift r r' where
  group g x h := ⟨x, 0, by simpa [Records.group?, h1] using h, by simp, by simp, by simp, by simp, rfl, fun h => .inl h⟩
  none g h := by simpa [Records.group?, h1] using h
  member m _ := by simp [Records.member?, h2]
  kept m x h := ⟨x, by simpa [Records.member?, h2] using h, rfl⟩
  owner b id h := by rw [← h3]; exact h

theorem Drift.refl (r : Records) : Drift r r := .of_eq rfl rfl rfl

/-- A group whose number of waiting members drifted had them in the same order before. -/
theorem Drift.waiting {r r' : Records} (h : Drift r r') {k : Nat} {y : Group} {m : Nat} (hy : r'.group? k = some y) (hm : m ∈ y.waiting) :
    ∃ x, r.group? k = some x ∧ m ∈ x.waiting := by
  cases hx : r.group? k with
  | none => rw [h.none k hx] at hy; cases hy
  | some x =>
    obtain ⟨z, n, h1, _, _, _, h2, _⟩ := h.group k x hx
    rw [hy] at h1
    cases h1
    exact ⟨x, rfl, List.mem_of_mem_drop (h2 ▸ hm)⟩

theorem Drift.trans {a b c : Records} (h : Drift a b) (k : Drift b c) : Drift a c where
  group g x hx := by
    obtain ⟨y, n, h1, h2, h3, h4, h5, h6, h8⟩ := h.group g x hx
    obtain ⟨z, m, k1, k2, k3, k4, k5, k6, k8⟩ := k.group g y h1
    rw [h5, List.length_drop] at k2
    rw [h4, h6, List.length_append, List.length_take] at k3
    refine ⟨z, n + m, k1, by omega, by omega, ?_, ?_, k6.trans h6, fun hb => ?_⟩
    · rw [k4, h4, h5, List.append_assoc, ← List.take_add]
    · rw [k5, h5, List.drop_drop]
    · rcases h8 hb with h8 | h8
      · exact k8 h8
      · right; rw [k5, h8, List.drop_nil]
  none g hg := k.none g (h.none g hg)
  member m hm := by
    rw [k.member m (fun j y hj hy => ?_), h.member m hm]
    obtain ⟨x, h1, h2⟩ := h.waiting hj hy
    exact hm j x h1 h2
  kept m x hx := by
    obtain ⟨y, h1, h2⟩ := h.kept m x hx
    obtain ⟨z, k1, k2⟩ := k.kept m y h1
    exact ⟨z, k1, by rw [k2, h2]⟩
  owner b id hb := h.owner b id (k.owner b id hb)

theorem Drift.foldl {α : Type} {f : Records → α → Records} (h : ∀ r a, Drift r (f r a)) (xs : List α) (r : Records) : Drift r (xs.foldl f r) := by
  induction xs generalizing r with
  | nil => exact .refl r
  | cons x xs ih => exact (h r x).trans (ih _)

theorem LineWork.drift {r r' : Records} (h : LineWork r r') : Drift r r' := .of_eq h.groups h.members h.bridges

/-- R94: the winners of a grant pass are as many from the head of the waiting list as there are free places. -/
theorem winners_spec (x : Group) : ∃ n, n ≤ x.waiting.length ∧ n ≤ x.talkerLimit - x.talkers.length ∧ x.winners = x.waiting.take n ∧
    x.granted.talkers = x.talkers ++ x.waiting.take n ∧ x.granted.waiting = x.waiting.drop n := by
  by_cases hb : x.bridge.isSome = true
  · refine ⟨min (x.talkerLimit - x.talkers.length) x.waiting.length, Nat.min_le_right .., Nat.min_le_left .., ?_⟩
    have hw : x.winners = x.waiting.take (min (x.talkerLimit - x.talkers.length) x.waiting.length) := by
      unfold Group.winners; rw [if_pos hb]
      by_cases hl : x.talkerLimit - x.talkers.length ≤ x.waiting.length
      · rw [Nat.min_eq_left hl]
      · rw [Nat.min_eq_right (by omega), List.take_length, List.take_of_length_le (by omega)]
    refine ⟨hw, by simp only [Group.granted, hw], ?_⟩
    simp only [Group.granted, hw, List.length_take]
    congr 1
    omega
  · have hw : x.winners = [] := by unfold Group.winners; rw [if_neg hb]
    exact ⟨0, by simp, by simp, by simpa using hw, by simp [Group.granted, hw], by simp [Group.granted, hw]⟩

/-- A member that a grant pass makes talk keeps its group, kind, role and priority. -/
theorem kept_of_winners {r : Records} {ws : List Nat} {t : Nat} {f : Nat → Option Member}
    (hf : ∀ j, f j = if j ∈ ws then (r.member? j).map (fun y => { y with floor := .talking, talkTimer := secondsTimer t }) else r.member? j)
    (m : Nat) (x : Member) (h : r.member? m = some x) : ∃ y, f m = some y ∧ y = { x with floor := y.floor, talkTimer := y.talkTimer } := by
  rw [hf, h]
  split
  · exact ⟨_, rfl, rfl⟩
  · exact ⟨x, rfl, rfl⟩

theorem drift_grantPass (g : Nat) (r : Records) : Drift r (r.grantPass g) := by
  cases hg : r.group? g with
  | none => simp only [Records.grantPass, hg]; exact .refl r
  | some x0 =>
    obtain ⟨h1, h2, h3, _⟩ := grantPass_spec hg
    obtain ⟨n, w1, w2, w3, w4, w5⟩ := winners_spec x0
    refine ⟨fun k x hx => ?_, fun k hk => ?_, fun m hm => ?_, kept_of_winners h2, fun b id hb => by rw [← h3]; exact hb⟩
    · rw [h1]
      split
      · rename_i hk; subst hk
        rw [hg] at hx; cases hx
        exact ⟨_, n, rfl, w1, w2, w4, w5, rfl, fun h => .inl h⟩
      · exact (Drift.refl r).group k x hx
    · rw [h1, if_neg (by rintro rfl; rw [hg] at hk; cases hk)]; exact hk
    · rw [h2, if_neg]
      rw [w3]
      exact fun hc => hm _ _ hg (List.mem_of_mem_take hc)

/-- R107: a bridge handed back goes to none, or to the group that waits longest. -/
theorem drift_releaseBridge (b : Nat) (r : Records) :
    Drift r (r.releaseBridge b) ∧ ∀ id, Table.find (r.releaseBridge b).bridges b ≠ some (.line id) := by
  have h0 : Drift r { r with bridges := Table.drop b r.bridges } := by
    refine ⟨(Drift.refl r).group, fun _ h => h, fun _ _ => rfl, (Drift.refl r).kept, fun c id h => ?_⟩
    by_cases hc : c = b
    · subst hc; simp at h
    · rw [Table.find_drop_other hc] at h; exact h
  unfold Records.releaseBridge
  simp only
  split
  · exact ⟨h0, by simp⟩
  · rename_i g rest _
    split
    · generalize hr : ({ r with bridges := Table.drop b r.bridges, waitList := rest } : Records) = r1
      have d1 : Drift r r1 := h0.trans (by subst hr; exact .of_eq rfl rfl rfl)
      obtain ⟨e1, _, _, e4⟩ := grantWaiting_spec r1 g b
      have hown : ∀ c id, Table.find (r1.grantWaiting g b).bridges c = some (.line id) → Table.find r1.bridges c = some (.line id) := by
        intro c id h
        rw [e1, Table.find_put] at h
        split at h
        · cases h
        · exact h
      refine ⟨d1.trans ?_, fun id h => ?_⟩
      · cases h0 : r1.group? g with
        | none =>
          obtain ⟨_, k2, _⟩ := allocateToGroup_none (b := b) h0
          have hg : ∀ k, (r1.grantWaiting g b).group? k = r1.group? k := by
            intro k; rw [e4]; split
            · rename_i hk; subst hk; rw [h0]; rfl
            · rfl
          have hm : ∀ k, (r1.grantWaiting g b).member? k = r1.member? k := by
            intro k; unfold Records.grantWaiting; rw [markGroup_member?, k2]
          exact ⟨fun k x hx => by rw [hg]; exact (Drift.refl r1).group k x hx, fun k hk => by rw [hg]; exact hk, fun m _ => hm m,
            fun m x hx => ⟨x, by rw [hm]; exact hx, rfl⟩, hown⟩
        | some x0 =>
          obtain ⟨_, k2, _⟩ := allocateToGroup_spec (b := b) h0
          have hm : ∀ j, (r1.grantWaiting g b).member? j = if j ∈ ({ x0 with bridge := some b, inWaitList := false } : Group).winners then
              (r1.member? j).map (fun y => { y with floor := .talking, talkTimer := secondsTimer x0.talkTime }) else r1.member? j := by
            intro j; unfold Records.grantWaiting; rw [markGroup_member?, k2]
          obtain ⟨n, w1, w2, w3, w4, w5⟩ := winners_spec { x0 with bridge := some b, inWaitList := false }
          refine ⟨fun k x hx => ?_, fun k hk => ?_, fun m hmw => ?_, kept_of_winners hm, hown⟩
          · rw [e4]
            split
            · rename_i hk; subst hk
              rw [h0] at hx; cases hx
              rw [h0]
              exact ⟨_, n, rfl, w1, w2, w4, w5, rfl, fun _ => .inl (by simp [Group.granted])⟩
            · exact (Drift.refl r1).group k x hx
          · rw [e4, if_neg (by rintro rfl; rw [h0] at hk; cases hk)]; exact hk
          · rw [hm, if_neg]
            rw [w3]
            exact fun hc => hmw _ _ h0 (List.mem_of_mem_take hc)
      · rw [e1, Table.find_put, if_pos rfl] at h; cases h
    · exact ⟨h0, by simp⟩

theorem drift_modGroup (g : Nat) (f : Group → Group) (r : Records) (hf : ∀ x, (f x).talkers = x.talkers ∧ (f x).waiting = x.waiting ∧
    (f x).talkerLimit = x.talkerLimit ∧ ((f x).bridge = x.bridge ∨ x.waiting = [])) : Drift r (r.modGroup g f) := by
  have h1 := group?_modGroup r g
  refine ⟨fun k x hx => ?_, fun k hk => ?_, fun m _ => by rw [modGroup_member?], fun m x hx => ⟨x, by rw [modGroup_member?]; exact hx, rfl⟩,
    fun b id hb => by rw [← modGroup_bridges r g f]; exact hb⟩
  · rw [h1]
    split
    · rename_i hk; subst hk
      obtain ⟨f1, f2, f3, f4⟩ := hf x
      refine ⟨f x, 0, by rw [hx]; rfl, by simp, by simp, by simp [f1], by simp [f2], f3, fun hb => ?_⟩
      rcases f4 with f4 | f4
      · left; rw [f4]; exact hb
      · right; rw [f2]; exact f4
    · exact (Drift.refl r).group k x hx
  · rw [h1]
    split
    · rename_i hkg; subst hkg; rw [hk]; rfl
    · exact hk

theorem drift_leaveWaitList (g : Nat) (r : Records) : Drift r (r.leaveWaitList g) :=
  Drift.trans (b := { r with waitList := r.waitList.filter (fun x => !(x == g)) }) (.of_eq rfl rfl rfl)
    (drift_modGroup g _ _ (fun _ => ⟨rfl, rfl, rfl, .inl rfl⟩))

/-- R105: a group claim takes a FREE bridge, whose places the head of the waiting list takes, or waits for one. -/
theorem drift_groupClaim (g : Nat) (r : Records) : Drift r (r.groupClaim g) := by
  unfold Records.groupClaim
  split
  · rename_i b _
    have d0 : Drift r { r with bridges := Table.put b (.group g) r.bridges } := by
      refine ⟨(Drift.refl r).group, fun _ h => h, fun _ _ => rfl, (Drift.refl r).kept, fun c id hb => ?_⟩
      rw [Table.find_put] at hb
      split at hb
      · cases hb
      · exact hb
    have d1 : ∀ r : Records, Drift r (r.modGroup g (fun x => { x with bridge := some b, inWaitList := false })) := by
      intro r
      have h1 := fun k => group?_modGroup r g k (fun x => { x with bridge := some b, inWaitList := false })
      refine ⟨fun k x hx => ?_, fun k hk => ?_, fun m _ => by rw [modGroup_member?], fun m x hx => ⟨x, by rw [modGroup_member?]; exact hx, rfl⟩,
        fun c id hb => by rw [modGroup_bridges] at hb; exact hb⟩
      · rw [h1]
        split
        · rename_i hk; subst hk
          exact ⟨{ x with bridge := some b, inWaitList := false }, 0, by rw [hx]; rfl, by simp, by simp, by simp, by simp, rfl,
            fun _ => .inl (by simp)⟩
        · exact (Drift.refl r).group k x hx
      · rw [h1]
        split
        · rename_i hkg; subst hkg; rw [hk]; rfl
        · exact hk
    exact (d0.trans (d1 _)).trans (drift_grantPass ..)
  · exact Drift.trans (Drift.trans (b := { r with waitList := r.waitList ++ [g] }) (.of_eq rfl rfl rfl)
      (drift_modGroup g (fun x => { x with inWaitList := true }) _ (fun _ => ⟨rfl, rfl, rfl, .inl rfl⟩))) (.of_eq rfl rfl rfl)

/-- R86: a group that gives up its bridge has nobody waiting. -/
theorem drift_testNeed (g : Nat) (r : Records) : Drift r (r.testNeed g) := by
  unfold Records.testNeed
  split
  · exact .refl r
  · rename_i x hx
    split
    · split
      · exact drift_groupClaim ..
      · exact .refl r
    · rename_i hn
      have hw : x.waiting = [] := by
        simp only [Records.needsBridge, hx] at hn
        simp at hn
        exact hn.1.2
      split
      · rename_i b _
        refine Drift.trans ?_ (drift_releaseBridge b _).1
        have := drift_modGroup g (fun y => if y.waiting = [] then { y with bridge := none } else y) r
          (fun y => by split <;> simp_all)
        rw [modGroup_of_some _ hx, if_pos hw] at this
        exact this
      · split
        · exact drift_leaveWaitList ..
        · exact .refl r

theorem drift_leaveIfUnneeded (g : Nat) (r : Records) : Drift r (r.leaveIfUnneeded g) := by
  unfold Records.leaveIfUnneeded
  split
  · exact .refl r
  · split
    · exact drift_leaveWaitList ..
    · exact .refl r

theorem drift_afterLeave (g : Nat) (w : TalkFloor) (r : Records) : Drift r (r.afterLeave g w) := by
  cases w
  · exact .refl r
  · exact drift_testNeed ..
  · exact (drift_grantPass ..).trans (drift_testNeed ..)

/-! ### The lines of a lost position (R49) -/

theorem free_fields (r : Records) (p : Fin 48) (ch : Channel) (b : Binding) :
    (r.free p ch b).groups = r.groups ∧ (r.free p ch b).members = r.members ∧ (r.free p ch b).bridges = r.bridges := by
  unfold Records.free
  split
  · rcases ch with (_|_)|n
    · exact ⟨rfl, rfl, rfl⟩
    · exact ⟨rfl, rfl, rfl⟩
    · have h := (markChannel_marksOnly p n (r.modPos p (fun x => { x with speaker := vset x.speaker n Binding.none }))).fields
      exact ⟨h.2.2.2.1, h.2.2.2.2.1, h.2.2.2.2.2.1⟩
  · exact ⟨rfl, rfl, rfl⟩

theorem drift_free (r : Records) (p : Fin 48) (ch : Channel) (b : Binding) : Drift r (r.free p ch b) :=
  .of_eq (free_fields ..).1 (free_fields ..).2.1 (free_fields ..).2.2

theorem drift_handBack (id : Nat) (r : Records) : Drift r (r.handBack id) := by
  unfold Records.handBack
  split
  · exact .refl r
  · split
    · exact .refl r
    · split
      · exact (lineWork_setLine ..).drift.trans (drift_releaseBridge ..).1
      · exact .refl r

theorem drift_removeAllParties (id : Nat) (r : Records) : Drift r (r.removeAllParties id) := by
  unfold Records.removeAllParties
  split
  · exact .refl r
  · rename_i l _
    exact ((lineWork_setLine ..).drift.trans (Drift.foldl (fun r x => drift_free r x.pos x.ch (.line id)) l.parties _)).trans
      (drift_handBack id _)

theorem drift_removeParty (p : Fin 48) (id : Nat) (r : Records) : Drift r (r.removeParty p id) := by
  unfold Records.removeParty
  split
  · exact .refl r
  · rename_i l _
    split
    · exact .refl r
    · rename_i ch _
      exact (((lineWork_setLine ..).drift.trans (drift_free _ p ch (.line id))).trans (drift_handBack id _)).trans
        (lineWork_markLine id _).drift

theorem drift_lineLosesPosition (p : Fin 48) (id : Nat) (r : Records) : Drift r (r.lineLosesPosition p id) := by
  unfold Records.lineLosesPosition
  split
  · exact .refl r
  · split
    · split
      · exact (drift_removeAllParties ..).trans (lineWork_moveLine ..).drift
      · split
        · exact (drift_removeAllParties ..).trans (lineWork_moveLine ..).drift
        · exact drift_removeParty ..
    · exact .refl r

/-- A bridge that a line gave up is owned by no line. -/
theorem handBack_owner {r : Records} {id b : Nat} {l : Line} (h : r.line? id = some l) (hb : l.bridge = some b) (hn : l.parties.length < 2) (j : Nat) :
    Table.find (r.handBack id).bridges b ≠ some (.line j) := by
  unfold Records.handBack
  rw [h]
  simp only [hb, if_pos hn]
  exact (drift_releaseBridge b _).2 j

theorem removeAllParties_owner {r : Records} {id b : Nat} {l : Line} (h : r.line? id = some l) (hb : l.bridge = some b) (j : Nat) :
    Table.find (r.removeAllParties id).bridges b ≠ some (.line j) := by
  unfold Records.removeAllParties
  rw [h]
  simp only
  refine handBack_owner (l := { l with parties := [] }) ?_ hb (by simp) j
  rw [line?_foldl_free, line?_setLine, if_pos rfl]

theorem removeParty_owner {r : Records} {p : Fin 48} {id b : Nat} {l : Line} (h : r.line? id = some l) (hp : l.hasParty p = true)
    (hb : l.bridge = some b) (hn : (l.parties.filter (fun x => !(x.pos == p))).length < 2) (j : Nat) :
    Table.find (r.removeParty p id).bridges b ≠ some (.line j) := by
  cases hc : l.partyChannel p with
  | none =>
    simp only [Line.partyChannel, Option.map_eq_none_iff, List.find?_eq_none] at hc
    simp only [Line.hasParty, List.any_eq_true] at hp
    obtain ⟨x, hx, hx2⟩ := hp
    exact absurd hx2 (hc x hx)
  | some ch =>
    simp only [Records.removeParty, h, hc, (lineWork_markLine ..).bridges]
    refine handBack_owner (l := { l with parties := l.parties.filter (fun x => !(x.pos == p)) }) ?_ hb hn j
    rw [line?_free, line?_setLine, if_pos rfl]

/-- R49: the line that its lost sole party leaves HELD, with no hold owner. -/
def Line.leftByLoss (l : Line) : Line :=
  { l with
    state := .held, parties := [], holdOwner := none, bridge := none, desired := Cond.call
    timer := if l.holdRecall = 0 then none else some ⟨.recallWait, l.holdRecall * 1000⟩ }

/-- R8: a change of state raises STATE at the line, and it stands there. -/
theorem standing_moveLine {r : Records} {id : Nat} {l : Line} {st : LineState} (h : r.line? id = some l) (hs : l.state ≠ st)
    (ho : ¬ (l.state.isOos = true ∧ st.isOos = true)) : Standing (.line id) .state (r.moveLine id st).raised := by
  simp only [Records.moveLine, h, hs, ho, or_self, if_false]
  exact (callWork_markLine ..).raised.standing (Standing.raised ..)

/-- R49: what the loss of p does to one line of which p is a party. -/
theorem lineLosesPosition_spec {r : Records} {p : Fin 48} {id : Nat} {l : Line} (h : r.line? id = some l) (hp : l.hasParty p = true) :
    (l.state = .ringingOut → (r.lineLosesPosition p id).line? id = some l.leftIdle ∧
      Standing (.line id) .state (r.lineLosesPosition p id).raised) ∧
    (l.state ≠ .ringingOut → l.parties.length ≤ 1 → (r.lineLosesPosition p id).line? id = some l.leftByLoss ∧
      (l.state = .connected → Standing (.line id) .state (r.lineLosesPosition p id).raised)) ∧
    (l.state ≠ .ringingOut → 1 < l.parties.length → (r.lineLosesPosition p id).line? id = some (l.leftBy p)) ∧
    (∀ b j, l.bridge = some b → (l.state = .ringingOut ∨ (l.parties.filter (fun x => !(x.pos == p))).length < 2) →
      Table.find (r.lineLosesPosition p id).bridges b ≠ some (.line j)) := by
  have e : r.lineLosesPosition p id = if l.state = .ringingOut then r.toIdle id
      else if l.parties.length ≤ 1 then (r.removeAllParties id).moveLine id .held else r.removeParty p id := by
    simp only [Records.lineLosesPosition, h, hp, if_true]
  refine ⟨fun hs => ?_, fun hs hn => ?_, fun hs hn => ?_, fun b j hb hc => ?_⟩
  · rw [e, if_pos hs]
    refine ⟨?_, standing_moveLine (l := { l with parties := [], bridge := none }) (by rw [line?_removeAllParties, if_pos rfl, h]; rfl)
      (by simp [hs]) (by simp [LineState.isOos])⟩
    rw [line?_toIdle, if_pos rfl, h]; rfl
  · rw [e, if_neg hs, if_pos hn]
    have hl : (r.removeAllParties id).line? id = some { l with parties := [], bridge := none } := by
      rw [line?_removeAllParties, if_pos rfl, h]; rfl
    refine ⟨?_, fun hc => standing_moveLine hl (by simp [hc]) (by simp [LineState.isOos])⟩
    rw [line?_moveLine, if_pos rfl, hl]
    by_cases h0 : l.holdRecall = 0 <;> simp [Line.enter, Line.leftByLoss, desiredFor, timerFor, secondsTimer, h0]
  · rw [e, if_neg hs, if_neg (by omega), line?_removeParty r p id id l h hp, if_pos rfl]; rfl
  · rw [e]
    split
    · unfold Records.toIdle; rw [(lineWork_moveLine ..).bridges]; exact removeAllParties_owner h hb j
    · rename_i hs
      split
      · rw [(lineWork_moveLine ..).bridges]; exact removeAllParties_owner h hb j
      · refine removeParty_owner h hp hb ?_ j
        rcases hc with hc | hc
        · exact absurd hc hs
        · exact hc

/-! ### Bindings through a loss -/

/-- Each channel stays bound as it was, but that those bound to line id may be freed. -/
structure Frees (id : Nat) (r r' : Records) : Prop where
  bound : ∀ q dh, r'.bound q dh = r.bound q dh ∨ (r.bound q dh = .line id ∧ r'.bound q dh = .none)

theorem Frees.of_eq {id : Nat} {r r' : Records} (h : ∀ q dh, r'.bound q dh = r.bound q dh) : Frees id r r' := ⟨fun q dh => .inl (h q dh)⟩

theorem Frees.trans {id : Nat} {a b c : Records} (h : Frees id a b) (k : Frees id b c) : Frees id a c := by
  refine ⟨fun q dh => ?_⟩
  rcases h.bound q dh with h1 | ⟨h1, h2⟩ <;> rcases k.bound q dh with k1 | ⟨k1, k2⟩
  · exact .inl (k1.trans h1)
  · exact .inr ⟨h1 ▸ k1, k2⟩
  · exact .inr ⟨h1, k1.trans h2⟩
  · exact .inr ⟨h1, k2⟩

theorem frees_free (r : Records) (p : Fin 48) (ch : Channel) (id : Nat) : Frees id r (r.free p ch (.line id)) := by
  refine ⟨fun q dh => ?_⟩
  by_cases h : (q, dh) = (p, ch)
  · cases h
    by_cases hb : r.bound p ch = .line id
    · exact .inr ⟨hb, bound_free r hb⟩
    · left; unfold Records.free; rw [if_neg (fun h => hb h.1)]
  · exact .inl (bound_free_other r _ h)

theorem frees_removeAllParties (id : Nat) (r : Records) : Frees id r (r.removeAllParties id) := by
  unfold Records.removeAllParties
  split
  · exact .of_eq (fun _ _ => rfl)
  · rename_i l _
    have h : ∀ (xs : List Party) (r : Records), Frees id r (xs.foldl (fun r x => r.free x.pos x.ch (.line id)) r) := by
      intro xs
      induction xs with
      | nil => intro r; exact .of_eq (fun _ _ => rfl)
      | cons x xs ih => intro r; exact (frees_free ..).trans (ih _)
    exact (Frees.trans (.of_eq (bound_setLine r id _)) (h _ _)).trans (.of_eq (bound_handBack _ id))

theorem frees_removeParty (p : Fin 48) (id : Nat) (r : Records) : Frees id r (r.removeParty p id) := by
  unfold Records.removeParty
  split
  · exact .of_eq (fun _ _ => rfl)
  · split
    · exact .of_eq (fun _ _ => rfl)
    · exact ((Frees.trans (.of_eq (bound_setLine r id _)) (frees_free ..)).trans (.of_eq (bound_handBack _ id))).trans
        (.of_eq (markLine_marksOnly ..).bound)

theorem mem_of_partyChannel {l : Line} {p : Fin 48} {ch : Channel} (h : l.partyChannel p = some ch) : ⟨p, ch⟩ ∈ l.parties := by
  simp only [Line.partyChannel, Option.map_eq_some_iff] at h
  obtain ⟨⟨q, dh⟩, hx, hc⟩ := h
  have hq := List.find?_some hx
  simp only [beq_iff_eq] at hq hc
  subst hq; subst hc
  exact List.mem_of_find?_eq_some hx

/-- R49: the loss of p at line id frees bindings to that line alone, and p's own when p was its party there. -/
theorem frees_lineLosesPosition (p : Fin 48) (id : Nat) (r : Records) :
    Frees id r (r.lineLosesPosition p id) ∧
    ∀ l ch, r.line? id = some l → l.partyChannel p = some ch →
      r.bound p ch = .line id → (r.lineLosesPosition p id).bound p ch = .none := by
  unfold Records.lineLosesPosition
  split
  · rename_i h
    exact ⟨.of_eq (fun _ _ => rfl), fun l ch hl => (by rw [h] at hl; cases hl)⟩
  · rename_i l h
    split
    · have ha : ∀ st, Frees id r ((r.removeAllParties id).moveLine id st) := fun st =>
        (frees_removeAllParties id r).trans (.of_eq (bound_moveLine _ id st))
      refine ⟨?_, fun x ch hx hc hb => ?_⟩
      · split
        · exact ha _
        · split
          · exact ha _
          · exact frees_removeParty ..
      · rw [h] at hx; cases hx
        split
        · rename_i hs
          rw [Records.toIdle, bound_moveLine]
          exact bound_removeAllParties_mem (x := ⟨p, ch⟩) h (mem_of_partyChannel hc) hb
        · split
          · rename_i hs hn
            rw [bound_moveLine]
            exact bound_removeAllParties_mem (x := ⟨p, ch⟩) h (mem_of_partyChannel hc) hb
          · exact bound_removeParty h hc hb
    · rename_i hp
      refine ⟨.of_eq (fun _ _ => rfl), fun x ch hx hc _ => ?_⟩
      rw [h] at hx; cases hx
      exact absurd (hasParty_of_partyChannel hc) hp

/-- R49: in a loss that treats the lines ids one after the other, line id, one of them, is treated when it and its bindings are still as they were, and is not touched again. -/
theorem lossFold (p : Fin 48) (id : Nat) (ids : List Nat) (r : Records) (h : id ∈ ids) : ∃ ra, Drift r ra ∧ CallWork r ra ∧
    ra.line? id = r.line? id ∧ (∀ q dh, r.bound q dh = .line id → ra.bound q dh = .line id) ∧
    Drift (ra.lineLosesPosition p id) (ids.foldl (fun r id => r.lineLosesPosition p id) r) ∧
    CallWork (ra.lineLosesPosition p id) (ids.foldl (fun r id => r.lineLosesPosition p id) r) ∧
    (ids.foldl (fun r id => r.lineLosesPosition p id) r).line? id = (ra.lineLosesPosition p id).line? id ∧
    ∀ q dh, (ra.lineLosesPosition p id).bound q dh = .none → (ids.foldl (fun r id => r.lineLosesPosition p id) r).bound q dh = .none := by
  induction ids generalizing r with
  | nil => cases h
  | cons x xs ih =>
    rw [List.foldl_cons]
    by_cases hx : x = id
    · subst hx
      refine ⟨r, .refl r, .refl r, rfl, fun _ _ hb => hb, Drift.foldl (fun r i => drift_lineLosesPosition p i r) xs _,
        CallWork.foldl (fun r i => callWork_lineLosesPosition p i r) xs _, ?_, ?_⟩
      · have key : ∀ (ys : List Nat) (a : Records), (∀ l, a.line? x = some l → l.hasParty p = false) →
            (ys.foldl (fun r id => r.lineLosesPosition p id) a).line? x = a.line? x := by
          intro ys
          induction ys with
          | nil => intro a _; rfl
          | cons y ys ihy =>
            intro a ha
            have hs : (a.lineLosesPosition p y).line? x = a.line? x := by
              by_cases hy : x = y
              · subst hy
                cases hl : a.line? x with
                | none =>
                  simp only [Records.lineLosesPosition, hl]
                | some l => rw [(line?_lineLosesPosition a p x x).2.1 l hl (ha l hl), hl]
              · exact (line?_lineLosesPosition a p y x).1 hy
            rw [List.foldl_cons, ihy _ (by rw [hs]; exact ha), hs]
        exact key xs _ (line?_lineLosesPosition r p x x).2.2
      · intro q dh
        have key : ∀ (ys : List Nat) (a : Records), a.bound q dh = .none → (ys.foldl (fun r id => r.lineLosesPosition p id) a).bound q dh = .none := by
          intro ys
          induction ys with
          | nil => intro a h; exact h
          | cons y ys ihy =>
            intro a h
            rw [List.foldl_cons]
            refine ihy _ ?_
            rcases (frees_lineLosesPosition p y a).1.bound q dh with h1 | ⟨_, h1⟩
            · rw [h1, h]
            · exact h1
        exact key xs _
    · obtain ⟨ra, h1, h2, h3, h4, h5, h6, h7, h8⟩ := ih (r.lineLosesPosition p x) (by
        rcases List.mem_cons.1 h with h | h
        · exact absurd h.symm hx
        · exact h)
      refine ⟨ra, (drift_lineLosesPosition ..).trans h1, (callWork_lineLosesPosition ..).trans h2, ?_, fun q dh hb => h4 q dh ?_, h5, h6, h7, h8⟩
      · rw [h3]; exact (line?_lineLosesPosition r p x id).1 (Ne.symm hx)
      · rcases (frees_lineLosesPosition p x r).1.bound q dh with h9 | ⟨h9, _⟩
        · rw [h9, hb]
        · rw [hb] at h9; cases h9; exact absurd rfl hx

/-! ### The position lost (R74, R96) -/

theorem drift_lossFold (p : Fin 48) (ids : List Nat) (r : Records) : Drift r (ids.foldl (fun r id => r.lineLosesPosition p id) r) :=
  Drift.foldl (fun r i => drift_lineLosesPosition p i r) ids r

theorem callWork_lossFold (p : Fin 48) (ids : List Nat) (r : Records) : CallWork r (ids.foldl (fun r id => r.lineLosesPosition p id) r) :=
  CallWork.foldl (fun r i => callWork_lineLosesPosition p i r) ids r

/-- R74: the position record changes in a loss name no line, group, membership, bridge or binding. -/
theorem modPos_lose (r : Records) (p : Fin 48) : Drift r (r.modPos p Position.lose) ∧ (r.modPos p Position.lose).raised = r.raised ∧
    (∀ id, (r.modPos p Position.lose).line? id = r.line? id) ∧ ∀ q dh, (r.modPos p Position.lose).bound q dh = r.bound q dh := by
  refine ⟨.of_eq rfl rfl rfl, rfl, fun _ => rfl, fun q dh => ?_⟩
  have hs : ((r.modPos p Position.lose).pos q).hand1 = (r.pos q).hand1 ∧ ((r.modPos p Position.lose).pos q).hand2 = (r.pos q).hand2 ∧
      ((r.modPos p Position.lose).pos q).speaker = (r.pos q).speaker := by
    rw [pos_modPos]
    split
    · rename_i h; subst h; exact ⟨rfl, rfl, rfl⟩
    · exact ⟨rfl, rfl, rfl⟩
  rcases dh with (_|_)|_ <;> simp [Records.bound, hs]

/-- A loss in its three parts: the floor that ends before the lines are treated, the lines, and what follows in the floor's group. -/
theorem losePosition_parts (r : Records) (p : Fin 48) : ∃ r2 r3, r3 = (Table.ids r2.lines).foldl (fun r id => r.lineLosesPosition p id) r2 ∧
    FloorWork (r.modPos p Position.lose) r2 ∧ FloorWork r3 (r.losePosition p) ∧ Drift r3 (r.losePosition p) ∧
    (∀ m x, r.talkingAt p = some m → r.member? m = some x →
      r2 = ((r.modPos p Position.lose).dropFloor m).leaveIfUnneeded x.group ∧ r.losePosition p = r3.afterLeave x.group x.floor) ∧
    ((∀ m x, r.talkingAt p = some m → r.member? m ≠ some x) → r2 = r.modPos p Position.lose ∧ r.losePosition p = r3) := by
  unfold Records.losePosition
  cases ht : r.talkingAt p with
  | none =>
    refine ⟨_, _, rfl, .refl _, .refl _, .refl _, fun m x h => (by cases h), fun _ => ⟨rfl, rfl⟩⟩
  | some m =>
    cases hm : r.member? m with
    | none =>
      simp only [Option.bind_some, hm, Option.map_none]
      exact ⟨_, _, rfl, .refl _, .refl _, .refl _, fun m' x h hx => (by cases h; rw [hm] at hx; cases hx), fun _ => ⟨rfl, rfl⟩⟩
    | some x =>
      simp only [Option.bind_some, hm, Option.map_some]
      refine ⟨_, _, rfl, (floorWork_dropFloor ..).trans (floorWork_leaveIfUnneeded ..), floorWork_afterLeave .., drift_afterLeave ..,
        fun m' y h hy => (by cases h; rw [hm] at hy; cases hy; exact ⟨rfl, rfl⟩), fun h => absurd hm (h m x rfl)⟩

/-- R49: what the loss of p does to a line of which p is a party, to p's channel there, and to the bridge that the line gives up. -/
theorem losePosition_line {r : Records} {p : Fin 48} {id : Nat} {l : Line} {ch : Channel} (h : r.line? id = some l) (hc : l.partyChannel p = some ch) :
    (l.state = .ringingOut → (r.losePosition p).line? id = some l.leftIdle ∧ Reason.state ∈ (r.losePosition p).reasons (.line id)) ∧
    (l.state ≠ .ringingOut → l.parties.length ≤ 1 → (r.losePosition p).line? id = some l.leftByLoss ∧
      (l.state = .connected → Reason.state ∈ (r.losePosition p).reasons (.line id))) ∧
    (l.state ≠ .ringingOut → 1 < l.parties.length → (r.losePosition p).line? id = some (l.leftBy p)) ∧
    (r.bound p ch = .line id → (r.losePosition p).bound p ch = .none) ∧
    (∀ b j, l.bridge = some b → (l.state = .ringingOut ∨ (l.parties.filter (fun x => !(x.pos == p))).length < 2) →
      Table.find (r.losePosition p).bridges b ≠ some (.line j)) := by
  obtain ⟨r2, r3, e3, f2, f3, d3, _⟩ := losePosition_parts r p
  obtain ⟨_, _, m3, m4⟩ := modPos_lose r p
  have h2 : r2.line? id = some l := by rw [f2.line?, m3, h]
  obtain ⟨ra, d1, _, l1, b1, d4, c4, l4, b4⟩ := lossFold p id (Table.ids r2.lines) r2 (Table.mem_ids h2)
  rw [← e3] at d4 c4 l4 b4
  have hl := l1.trans h2
  obtain ⟨s1, s2, s3, s4⟩ := lineLosesPosition_spec hl (hasParty_of_partyChannel hc)
  have hraised := c4.raised.trans f3.raised
  refine ⟨fun hs => ?_, fun hs hn => ?_, fun hs hn => ?_, fun hb => ?_, fun b j hb hn => ?_⟩
  · exact ⟨by rw [f3.line?, l4]; exact (s1 hs).1, (hraised.standing (s1 hs).2).mem⟩
  · exact ⟨by rw [f3.line?, l4]; exact (s2 hs hn).1, fun hcn => (hraised.standing ((s2 hs hn).2 hcn)).mem⟩
  · rw [f3.line?, l4]; exact s3 hs hn
  · rw [f3.bound]
    refine b4 p ch ((frees_lineLosesPosition p id ra).2 l ch hl hc (b1 p ch ?_))
    rw [f2.bound, m4, hb]
  · intro hx
    exact s4 b j hb hn ((d4.trans d3).owner b j hx)

/-- R96: a membership keeps its group, channel, role and priority through any loss, and its channel's binding. -/
theorem losePosition_kept (r : Records) (p : Fin 48) :
    (∀ m x, r.member? m = some x → ∃ y, (r.losePosition p).member? m = some y ∧ y = { x with floor := y.floor, talkTimer := y.talkTimer }) ∧
    ∀ q n m, r.bound q (.spk n) = .member m → (r.losePosition p).bound q (.spk n) = .member m := by
  obtain ⟨r2, r3, e3, f2, f3, d3, k1, k2⟩ := losePosition_parts r p
  obtain ⟨m1, _, _, m4⟩ := modPos_lose r p
  refine ⟨fun m x hx => ?_, fun q n m hb => ?_⟩
  · have step : ∃ y, r2.member? m = some y ∧ y = { x with floor := y.floor, talkTimer := y.talkTimer } := by
      by_cases ht : ∃ m' x', r.talkingAt p = some m' ∧ r.member? m' = some x'
      · obtain ⟨m', x', ht, hx'⟩ := ht
        rw [(k1 m' x' ht hx').1]
        obtain ⟨y, h1, h2⟩ := m1.kept m x hx
        have hx1 : (r.modPos p Position.lose).member? m' = some x' := hx'
        have hd : ∃ z, ((r.modPos p Position.lose).dropFloor m').member? m = some z ∧ z = { y with floor := z.floor, talkTimer := z.talkTimer } := by
          simp only [Records.dropFloor, hx1]
          cases x'.floor
          · exact ⟨y, h1, rfl⟩
          · simp only [reportFloor_member?, member?_setMember, modGroup_member?]
            split
            · rename_i hmm; subst hmm
              rw [hx1] at h1; cases h1
              exact ⟨_, rfl, rfl⟩
            · exact ⟨y, h1, rfl⟩
          · simp only [reportFloor_member?, member?_setMember, modGroup_member?]
            split
            · rename_i hmm; subst hmm
              rw [hx1] at h1; cases h1
              exact ⟨_, rfl, rfl⟩
            · exact ⟨y, h1, rfl⟩
        obtain ⟨z, h3, h4⟩ := hd
        obtain ⟨w, h5, h6⟩ := (drift_leaveIfUnneeded x'.group _).kept m z h3
        exact ⟨w, h5, by rw [h6, h4, h2]⟩
      · rw [(k2 (fun m' x' h1 h2 => ht ⟨m', x', h1, h2⟩)).1]
        exact m1.kept m x hx
    obtain ⟨y, h1, h2⟩ := step
    obtain ⟨z, h3, h4⟩ := ((e3 ▸ drift_lossFold p _ r2 : Drift r2 r3).trans d3).kept m y h1
    exact ⟨z, h3, by rw [h4, h2]⟩
  · rw [f3.bound, e3]
    have key : ∀ (ys : List Nat) (a : Records), a.bound q (.spk n) = .member m →
        (ys.foldl (fun r id => r.lineLosesPosition p id) a).bound q (.spk n) = .member m := by
      intro ys
      induction ys with
      | nil => intro a h; exact h
      | cons y ys ihy =>
        intro a h
        rw [List.foldl_cons]
        refine ihy _ ?_
        rcases (frees_lineLosesPosition p y a).1.bound q (.spk n) with h1 | ⟨h1, _⟩
        · rw [h1, h]
        · rw [h] at h1; cases h1
    exact key _ _ (by rw [f2.bound, m4, hb])

/-- R96, R92, R94: the floor of a talking membership ends: out of the talkers, its timer stopped, the places freed taken from the head of the waiting list, FLOOR raised. -/
theorem losePosition_talking {r : Records} {p : Fin 48} {m : Nat} {x : Member} {g : Group} (ht : r.talkingAt p = some m) (hm : r.member? m = some x)
    (hg : r.group? x.group = some g) (hf : x.floor = .talking) (hb : g.bridge ≠ none) (hw : ∀ k y, r.group? k = some y → m ∉ y.waiting) :
    (r.losePosition p).member? m = some { x with floor := .idle, talkTimer := none } ∧ Reason.floor ∈ (r.losePosition p).reasons (.group x.group) ∧
    ∃ y, (r.losePosition p).group? x.group = some y ∧
      y.talkers = g.talkers.filter (fun i => !(i == m)) ++ g.waiting.take (g.talkerLimit - (g.talkers.filter (fun i => !(i == m))).length) ∧
      y.waiting = g.waiting.drop (g.talkerLimit - (g.talkers.filter (fun i => !(i == m))).length) := by
  obtain ⟨r2, r3, e3, f2, f3, d3, k1, _⟩ := losePosition_parts r p
  obtain ⟨e2, er⟩ := k1 m x ht hm
  generalize hk : g.talkers.filter (fun i => !(i == m)) = kept
  generalize hr0 : r.modPos p Position.lose = r0 at e2
  have hm0 : r0.member? m = some x := by rw [← hr0]; exact hm
  have hg0 : ∀ k, r0.group? k = r.group? k := by intro k; rw [← hr0]; rfl
  generalize hr1 : r0.dropFloor m = r1 at e2
  have g1 : ∀ k, r1.group? k = if k = x.group then some { g with talkers := kept } else r.group? k := by
    intro k; subst hr1
    simp only [Records.dropFloor, hm0, hf, reportFloor_group?, group?_setMember, group?_modGroup, hg0, hg, Option.map_some, hk]
  have m1 : r1.member? m = some { x with floor := .idle, talkTimer := none } := by
    subst hr1
    simp only [Records.dropFloor, hm0, hf, reportFloor_member?, member?_setMember, if_true]
  have st1 : Standing (.group x.group) .floor r1.raised := by
    subst hr1
    simp only [Records.dropFloor, hm0, hf]
    exact (floorWork_markGroup ..).raised.standing (Standing.raised ..)
  have d2 : Drift r1 r2 := by rw [e2]; exact drift_leaveIfUnneeded ..
  have d23 : Drift r1 r3 := by rw [e3]; exact d2.trans (drift_lossFold ..)
  have hn1 : ∀ k y, r1.group? k = some y → m ∉ y.waiting := by
    intro k y hy
    rw [g1] at hy
    split at hy
    · cases hy; exact hw x.group g hg
    · exact hw k y hy
  have dall : Drift r1 (r.losePosition p) := d23.trans d3
  refine ⟨by rw [dall.member m hn1, m1], ?_, ?_⟩
  · have c12 : FloorWork r1 r2 := by rw [e2]; exact floorWork_leaveIfUnneeded ..
    have c23 : CallWork r2 r3 := by rw [e3]; exact callWork_lossFold ..
    exact (((c12.raised.trans c23.raised).trans f3.raised).standing st1).mem
  · obtain ⟨z, n, z1, z2, z3, z4, z5, z6, z7⟩ := d23.group x.group _ (by rw [g1, if_pos rfl])
    have hgp : (r3.grantPass x.group).group? x.group = some z.granted := by rw [(grantPass_spec z1).1, if_pos rfl]
    obtain ⟨y, k, y1, y2, y3, y4, y5, _⟩ := (drift_testNeed x.group (r3.grantPass x.group)).group x.group _ hgp
    have ey : (r.losePosition p).group? x.group = some y := by rw [er, hf]; exact y1
    have hz : z.granted.talkers = z.talkers ++ z.waiting.take (z.talkerLimit - z.talkers.length) ∧
        z.granted.waiting = z.waiting.drop (z.talkerLimit - z.talkers.length) := by
      rcases z7 hb with h | h
      · have hbs : z.bridge.isSome = true := by cases h' : z.bridge <;> simp_all
        have hwin : z.winners = z.waiting.take (z.talkerLimit - z.talkers.length) := by unfold Group.winners; rw [if_pos hbs]
        refine ⟨by simp only [Group.granted, hwin], ?_⟩
        simp only [Group.granted, hwin, List.length_take]
        by_cases hl : z.talkerLimit - z.talkers.length ≤ z.waiting.length
        · rw [Nat.min_eq_left hl]
        · rw [Nat.min_eq_right (by omega), List.drop_length, List.drop_eq_nil_of_le (by omega)]
      · rw [(granted_of_waiting_nil h).1, h]; simp
    have hk0 : k = 0 ∨ z.granted.waiting = [] := by
      have h3 : k ≤ z.talkerLimit - z.granted.talkers.length := y3
      rw [hz.1, List.length_append, List.length_take] at h3
      by_cases hl : z.talkerLimit - z.talkers.length ≤ z.waiting.length
      · left; omega
      · right; rw [hz.2]; exact List.drop_eq_nil_of_le (by omega)
    have hy : y.talkers = z.granted.talkers ∧ y.waiting = z.granted.waiting := by
      rcases hk0 with h | h
      · subst h; exact ⟨by rw [y4]; simp, by rw [y5]; simp⟩
      · exact ⟨by rw [y4, h]; simp, by rw [y5, h]; simp⟩
    simp only at z2 z3 z4 z5 z6
    have hlen : z.talkers.length = kept.length + n := by rw [z4, List.length_append, List.length_take]; omega
    refine ⟨y, ey, ?_, ?_⟩
    · rw [hy.1, hz.1, z6, hlen, z4, z5, List.append_assoc, ← List.take_add, show n + (g.talkerLimit - (kept.length + n)) = g.talkerLimit - kept.length by omega]
    · rw [hy.2, hz.2, z6, hlen, z5, List.drop_drop, show n + (g.talkerLimit - (kept.length + n)) = g.talkerLimit - kept.length by omega]

/-- R96, R92: the wait of a waiting membership ends: out of the waiting list, its floor IDLE; the talkers stay, but that places which a bridge handed back opens are taken from the head. -/
theorem losePosition_waiting {r : Records} {p : Fin 48} {m : Nat} {x : Member} {g : Group} (ht : r.talkingAt p = some m) (hm : r.member? m = some x)
    (hg : r.group? x.group = some g) (hf : x.floor = .waiting) (hw : ∀ k y, k ≠ x.group → r.group? k = some y → m ∉ y.waiting) :
    (r.losePosition p).member? m = some { x with floor := .idle, talkTimer := none } ∧
    ∃ y, (r.losePosition p).group? x.group = some y ∧ y.talkers ++ y.waiting = g.talkers ++ g.waiting.filter (fun i => !(i == m)) ∧
      (g.talkerLimit ≤ g.talkers.length → y.talkers = g.talkers) := by
  obtain ⟨r2, r3, e3, _, _, d3, k1, _⟩ := losePosition_parts r p
  obtain ⟨e2, _⟩ := k1 m x ht hm
  generalize hr0 : r.modPos p Position.lose = r0 at e2
  have hm0 : r0.member? m = some x := by rw [← hr0]; exact hm
  have hg0 : ∀ k, r0.group? k = r.group? k := by intro k; rw [← hr0]; rfl
  generalize hr1 : r0.dropFloor m = r1 at e2
  have g1 : ∀ k, r1.group? k = if k = x.group then some { g with waiting := g.waiting.filter (fun i => !(i == m)) } else r.group? k := by
    intro k; subst hr1
    simp only [Records.dropFloor, hm0, hf, reportFloor_group?, group?_setMember, group?_modGroup, hg0, hg, Option.map_some]
  have m1 : r1.member? m = some { x with floor := .idle, talkTimer := none } := by
    subst hr1
    simp only [Records.dropFloor, hm0, hf, reportFloor_member?, member?_setMember, if_true]
  have dall : Drift r1 (r.losePosition p) := by
    refine Drift.trans ?_ d3
    rw [e3]
    exact Drift.trans (by rw [e2]; exact drift_leaveIfUnneeded ..) (drift_lossFold ..)
  have hn1 : ∀ k y, r1.group? k = some y → m ∉ y.waiting := by
    intro k y hy
    rw [g1] at hy
    split at hy
    · cases hy; simp
    · rename_i hk; exact hw k y hk hy
  refine ⟨by rw [dall.member m hn1, m1], ?_⟩
  · obtain ⟨y, n, y1, y2, y3, y4, y5, _⟩ := dall.group x.group _ (by rw [g1, if_pos rfl])
    simp only at y3 y4 y5
    refine ⟨y, y1, by rw [y4, y5, List.append_assoc, List.take_append_drop], fun hl => ?_⟩
    have : n = 0 := by omega
    rw [y4, this]; simp

/-- R49: after the losses of p over some lines, p is a party of none of those, and the lines it was no party of are as they were. -/
theorem lossFold_parties (p : Fin 48) (ids : List Nat) (r : Records) :
    (∀ id l, (ids.foldl (fun r id => r.lineLosesPosition p id) r).line? id = some l → id ∈ ids ∨ (∀ l0, r.line? id = some l0 → l0.hasParty p = false) → l.hasParty p = false) ∧
    (∀ id l, r.line? id = some l → l.hasParty p = false → (ids.foldl (fun r id => r.lineLosesPosition p id) r).line? id = some l) := by
  induction ids generalizing r with
  | nil =>
    refine ⟨fun id l h h2 => ?_, fun id l h _ => h⟩
    rcases h2 with h2 | h2
    · cases h2
    · exact h2 l h
  | cons k ids ih =>
    obtain ⟨i1, i2⟩ := ih (r.lineLosesPosition p k)
    refine ⟨fun id l h h2 => ?_, fun id l h h2 => ?_⟩
    · rw [List.foldl_cons] at h
      refine i1 id l h ?_
      by_cases hm : id ∈ ids
      · exact .inl hm
      · right
        intro l0 hl0
        by_cases hk : id = k
        · subst hk; exact (line?_lineLosesPosition r p id id).2.2 l0 hl0
        · rw [(line?_lineLosesPosition r p k id).1 hk] at hl0
          rcases h2 with h2 | h2
          · rcases List.mem_cons.mp h2 with h2 | h2
            · exact absurd h2 hk
            · exact absurd h2 hm
          · exact h2 l0 hl0
    · rw [List.foldl_cons]
      refine i2 id l ?_ h2
      by_cases hk : id = k
      · subst hk; rw [(line?_lineLosesPosition r p id id).2.1 l h h2]; exact h
      · rw [(line?_lineLosesPosition r p k id).1 hk]; exact h

/-- R49, R74: p is a party of no line after its loss, the lines it was no party of are as they were, and the position is as R74 leaves it. -/
theorem losePosition_parties (r : Records) (p : Fin 48) :
    CallWork (r.modPos p Position.lose) (r.losePosition p) ∧
    (∀ id l, (r.losePosition p).line? id = some l → l.hasParty p = false) ∧
    (∀ id l, r.line? id = some l → l.hasParty p = false → (r.losePosition p).line? id = some l) := by
  unfold Records.losePosition
  simp only
  generalize htk : ((r.talkingAt p).bind (fun m => (r.member? m).map (fun x => (m, x)))) = tk
  cases tk with
  | none =>
    simp only
    refine ⟨callWork_lossFold .., ?_, ?_⟩
    · intro id l h
      refine (lossFold_parties p _ _).1 id l h ?_
      by_cases hm : id ∈ Table.ids (r.modPos p Position.lose).lines
      · exact .inl hm
      · right
        intro l0 hl0
        exact absurd (Table.mem_ids hl0) hm
    · intro id l h h2; exact (lossFold_parties p _ _).2 id l h h2
  | some mx =>
    obtain ⟨m, x⟩ := mx
    simp only
    have hf : FloorWork (r.modPos p Position.lose) (((r.modPos p Position.lose).dropFloor m).leaveIfUnneeded x.group) :=
      (floorWork_dropFloor ..).trans (floorWork_leaveIfUnneeded ..)
    generalize (((r.modPos p Position.lose).dropFloor m).leaveIfUnneeded x.group) = r1 at hf
    refine ⟨(hf.toCallWork.trans (callWork_lossFold ..)).trans (floorWork_afterLeave ..).toCallWork, ?_, ?_⟩
    · intro id l h
      rw [(floorWork_afterLeave ..).line?] at h
      refine (lossFold_parties p _ _).1 id l h ?_
      by_cases hm : id ∈ Table.ids r1.lines
      · exact .inl hm
      · right
        intro l0 hl0
        exact absurd (Table.mem_ids hl0) hm
    · intro id l h h2
      rw [(floorWork_afterLeave ..).line?]
      exact (lossFold_parties p _ _).2 id l (by rw [hf.line?]; exact h) h2

/-- R73: items handed back change no attachment. -/
theorem attached_returnItems (r : Records) (p q : Fin 48) (items : List OutItem) :
    ((r.returnItems p items).pos q).attached = (r.pos q).attached := by
  have key : ∀ (xs : List OutItem) (x : Position), (xs.foldl Position.returnItem x).attached = x.attached := by
    intro xs
    induction xs with
    | nil => intro x; rfl
    | cons a xs ih => intro x; rw [List.foldl_cons, ih]; cases a <;> rfl
  unfold Records.returnItems
  split
  · rw [pos_modPos]; split
    · rename_i h; subst h; exact key ..
    · rfl
  · rfl

/-- R73, R74: an OUTPUT's items handed back to a position that is lost in the same step leave nothing. -/
theorem losePosition_returnItems (r : Records) (p : Fin 48) (items : List OutItem) : (r.returnItems p items).losePosition p = r.losePosition p := by
  unfold Records.returnItems
  split
  · have key : ∀ (xs : List OutItem) (x : Position), Position.lose (xs.foldl Position.returnItem x) = Position.lose x ∧
        (xs.foldl Position.returnItem x).ptt = x.ptt ∧ (xs.foldl Position.returnItem x).speaker = x.speaker := by
      intro xs
      induction xs with
      | nil => intro x; exact ⟨rfl, rfl, rfl⟩
      | cons a xs ih =>
        intro x
        rw [List.foldl_cons]
        obtain ⟨i1, i2, i3⟩ := ih (x.returnItem a)
        rw [i1, i2, i3]
        cases a <;> exact ⟨rfl, rfl, rfl⟩
    obtain ⟨k1, k2, k3⟩ := key items (r.pos p)
    have ht : (r.modPos p (fun x => items.foldl Position.returnItem x)).talkingAt p = r.talkingAt p := by
      simp [Records.talkingAt, Records.memberOn, k2, k3]
    have hl : (r.modPos p (fun x => items.foldl Position.returnItem x)).modPos p Position.lose = r.modPos p Position.lose := by
      simp only [Records.modPos, Records.pos, vget_vset_same, vset_vset]
      exact congrArg (fun x => ({ r with positions := vset r.positions p x } : Records)) k1
    have hm : ∀ m, (r.modPos p (fun x => items.foldl Position.returnItem x)).member? m = r.member? m := fun _ => rfl
    unfold Records.losePosition
    simp only [ht, hl, hm]
  · rfl

end Sys2Proof.Machine
end

