-- ==== Sys2Proof/Laws/Holds.lean ====
section
/-!
SUPPORT. The auto-hold (R28): what a HOLD-LEAVE leaves for the press that follows it, and what such a press comes to.
-/
namespace Sys2Proof.Machine

/-! ### What is left after a HOLD-LEAVE -/

theorem Table.length_drop_lt {α : Type} {t : Table α} {i : Nat} (h : Table.find t i ≠ none) : (Table.drop i t).length < t.length := by
  obtain ⟨v, hv⟩ := Option.ne_none_iff_exists'.1 h
  unfold Table.drop
  exact List.length_filter_lt_length_iff_exists.2 ⟨(i, v), Table.mem_of_find hv, by simp⟩

/-- R28, R107: a bridge of the pool handed back leaves no fewer FREE, whether a waiting group takes it or not, and no other bridge changes hands. -/
theorem releaseBridge_pool {r : Records} {b : Nat} (h : Table.find r.bridges b ≠ none) :
    (r.releaseBridge b).bridges.length ≤ r.bridges.length ∧ ∀ c, c ≠ b → Table.find (r.releaseBridge b).bridges c = Table.find r.bridges c := by
  have hl := Table.length_drop_lt h
  have h0 : Table.find (Table.drop b r.bridges) b = none := Table.find_drop_same ..
  unfold Records.releaseBridge
  simp only
  split
  · exact ⟨Nat.le_of_lt hl, fun c hc => Table.find_drop_other hc _⟩
  · rename_i g rest _
    split
    · rw [(grantWaiting_spec _ g b).1]
      refine ⟨?_, fun c hc => ?_⟩
      · rw [Table.length_put _ h0]; exact hl
      · rw [Table.find_put_other hc]; exact Table.find_drop_other hc _
    · exact ⟨Nat.le_of_lt hl, fun c hc => Table.find_drop_other hc _⟩

/-- A line that hands its bridge back, or keeps it, touches no other bridge and leaves no fewer FREE. -/
structure PoolKept (b0 : Option Nat) (r r' : Records) : Prop where
  length : r'.bridges.length ≤ r.bridges.length
  others : ∀ c, b0 ≠ some c → Table.find r'.bridges c = Table.find r.bridges c
  same : b0 = none → r'.bridges = r.bridges

theorem PoolKept.of_eq {b0 : Option Nat} {r r' : Records} (h : r'.bridges = r.bridges) : PoolKept b0 r r' :=
  ⟨Nat.le_of_eq (congrArg _ h), fun _ _ => by rw [h], fun _ => h⟩

theorem PoolKept.trans_eq {b0 : Option Nat} {a b c : Records} (h : PoolKept b0 a b) (k : c.bridges = b.bridges) : PoolKept b0 a c :=
  ⟨k ▸ h.length, fun x hx => by rw [k]; exact h.others x hx, fun hn => k.trans (h.same hn)⟩

theorem PoolKept.eq_trans {b0 : Option Nat} {a b c : Records} (k : b.bridges = a.bridges) (h : PoolKept b0 b c) : PoolKept b0 a c :=
  ⟨k ▸ h.length, fun x hx => by rw [h.others x hx, k], fun hn => (h.same hn).trans k⟩

theorem poolKept_handBack {r : Records} {id : Nat} {l : Line} (h : r.line? id = some l) (hp : ∀ b, l.bridge = some b → Table.find r.bridges b ≠ none) :
    PoolKept l.bridge r (r.handBack id) := by
  unfold Records.handBack
  rw [h]
  simp only
  split
  · exact .of_eq rfl
  · rename_i b hb
    split
    · obtain ⟨h1, h2⟩ := releaseBridge_pool (r := r.setLine id { l with bridge := none }) (b := b) (hp b hb)
      exact ⟨h1, fun c hc => h2 c (fun e => hc (by rw [hb, e])), fun hn => by rw [hb] at hn; cases hn⟩
    · exact .of_eq rfl

theorem foldl_free_bridges (xs : List Party) (b : Binding) (r : Records) :
    (xs.foldl (fun r x => r.free x.pos x.ch b) r).bridges = r.bridges := by
  induction xs generalizing r with
  | nil => rfl
  | cons x xs ih => rw [List.foldl_cons, ih, (free_fields ..).2.2]

/-- R28, R39: what a HOLD-LEAVE by p, a party on ch, leaves: the line as the leave makes it, every other line, slot and bridge as it was, ch free and no fewer bridges FREE. -/
theorem holdLeave_spec {r : Records} {id : Nat} {l x : Line} {p : Fin 48} {ch : Channel} (hl : r.line? id = some l)
    (hx : (l.parties = [⟨p, ch⟩] ∧ x = l.leftHeld p) ∨ (l.partyChannel p = some ch ∧ 1 < l.parties.length ∧ x = l.leftBy p)) :
    (∀ j, (r.holdLeave p id).line? j = if j = id then some x else r.line? j) ∧
    (r.bound p ch = .line id → (r.holdLeave p id).bound p ch = .none) ∧
    Frees id r (r.holdLeave p id) ∧ (r.holdLeave p id).slots = r.slots ∧
    ((∀ b, l.bridge = some b → Table.find r.bridges b ≠ none) → PoolKept l.bridge r (r.holdLeave p id)) := by
  have main : (∀ j, (r.holdLeave p id).line? j = if j = id then some x else r.line? j) ∧
      (r.bound p ch = .line id → (r.holdLeave p id).bound p ch = .none) := by
    rcases hx with ⟨h1, rfl⟩ | ⟨h1, h2, rfl⟩
    · exact holdLeave_sole hl h1
    · exact holdLeave_several hl h1 h2
  refine ⟨main.1, main.2, ?_⟩
  unfold Records.holdLeave
  rw [hl]
  simp only
  have ha : Frees id r ((r.removeAllParties id).moveLine id .held) := (frees_removeAllParties id r).trans (.of_eq (bound_moveLine _ id .held))
  have hs : ((r.removeAllParties id).moveLine id .held).slots = r.slots := by rw [slots_moveLine, slots_removeAllParties]
  have hp : (∀ b, l.bridge = some b → Table.find r.bridges b ≠ none) → PoolKept l.bridge r ((r.removeAllParties id).moveLine id .held) := by
    intro h
    refine PoolKept.trans_eq ?_ (lineWork_moveLine ..).bridges
    unfold Records.removeAllParties
    rw [hl]
    simp only
    refine PoolKept.eq_trans (b := l.parties.foldl (fun r x => r.free x.pos x.ch (.line id)) (r.setLine id { l with parties := [] }))
      (foldl_free_bridges ..) ?_
    refine poolKept_handBack (l := { l with parties := [] }) (by rw [line?_foldl_free, line?_setLine, if_pos rfl]) ?_
    rw [foldl_free_bridges]; exact h
  split
  · split
    · exact ⟨ha.trans (.of_eq (bound_modLine _ id _)), by rw [slots_modLine, hs], fun h => (hp h).trans_eq (lineWork_modLine ..).bridges⟩
    · exact ⟨ha, hs, hp⟩
  · refine ⟨frees_removeParty p id r, ?_, fun h => ?_⟩
    · unfold Records.removeParty
      rw [hl]
      simp only
      split
      · rfl
      · rw [markLine_slots, slots_handBack, slots_free]; rfl
    · unfold Records.removeParty
      rw [hl]
      simp only
      split
      · exact .of_eq rfl
      · rename_i dh _
        refine PoolKept.trans_eq ?_ (lineWork_markLine ..).bridges
        refine PoolKept.eq_trans (b := (r.setLine id { l with parties := l.parties.filter (fun x => !(x.pos == p)) }).free p dh (.line id))
          (free_fields ..).2.2 ?_
        refine poolKept_handBack (l := { l with parties := l.parties.filter (fun x => !(x.pos == p)) })
          (by rw [line?_free, line?_setLine, if_pos rfl]) ?_
        rw [(free_fields ..).2.2]; exact h

/-- R28: while a bridge is FREE before a HOLD-LEAVE, one is FREE after it, and the lowest is one that was FREE or the line's own. -/
theorem PoolKept.lowest {b0 : Option Nat} {r r' : Records} (h : PoolKept b0 r r') (hf : r.freeBridges ≠ 0) :
    ∃ b, r'.lowestBridge = some b ∧ (Table.find r.bridges b = none ∨ b0 = some b) ∧ (b0 = none → r.lowestBridge = some b) := by
  cases hb : r'.lowestBridge with
  | none =>
    have h1 := Table.lowestFree_none hb
    have h2 := h.length
    simp only [Records.freeBridges] at hf
    omega
  | some b =>
    refine ⟨b, rfl, ?_, fun hn => ?_⟩
    · by_cases hc : b0 = some b
      · exact .inr hc
      · left
        rw [← h.others b hc]
        exact (Table.lowestFree_some hb).2.1
    · rw [← hb]; unfold Records.lowestBridge; rw [h.same hn]

/-! ### The join (R37) -/

theorem bridges_addParty (r : Records) (p : Fin 48) (ch : Channel) (id : Nat) : (r.addParty p ch id).bridges = r.bridges := by
  unfold Records.addParty Records.claim
  have h : (r.modLine id (fun l => { l with parties := l.parties ++ [⟨p, ch⟩] })).bridges = r.bridges := (lineWork_modLine ..).bridges
  split
  · rcases ch with (_|_)|n
    · exact h
    · exact h
    · exact ((markChannel_marksOnly p n _).fields.2.2.2.2.2.1).trans h
  · exact h

/-- R37: what a join does to the line and to the joining channel; the rise from one party to two takes the lowest-numbered FREE bridge. -/
theorem joinLine_spec {r : Records} {p : Fin 48} {ch : Channel} {id : Nat} {l : Line} (hl : r.line? id = some l) (hb : r.bound p ch = .none) :
    (1 < l.parties.length → (r.joinLine p ch id l).bound p ch = .line id ∧
      ∀ j, (r.joinLine p ch id l).line? j = if j = id then some { l with parties := l.parties ++ [⟨p, ch⟩] } else r.line? j) ∧
    (∀ b, l.parties.length = 1 → r.lowestBridge = some b → (r.joinLine p ch id l).bound p ch = .line id ∧
      Table.find (r.joinLine p ch id l).bridges b = some (.line id) ∧
      ∀ j, (r.joinLine p ch id l).line? j = if j = id then some { l with parties := l.parties ++ [⟨p, ch⟩], bridge := some b } else r.line? j) := by
  obtain ⟨k1, k2⟩ := addParty_spec hl hb
  refine ⟨fun hn => ?_, fun b hn hlb => ?_⟩
  · simp only [Records.joinLine, show ¬ l.parties.length = 1 by omega, if_false]
    exact ⟨by rw [(markLine_marksOnly ..).bound, k1], fun j => by rw [line?_markLine, k2]⟩
  · have hlb' : (r.addParty p ch id).lowestBridge = some b := by
      rw [← hlb]; unfold Records.lowestBridge; rw [bridges_addParty]
    obtain ⟨m1, m2⟩ := lineClaim_spec (by rw [k2, if_pos rfl]) hlb'
    have hbd : ((r.addParty p ch id).lineClaim id).bound p ch = .line id := by
      rw [← k1]; unfold Records.lineClaim; rw [hlb']; simp only [bound_modLine]; exact bound_of_positions rfl ..
    simp only [Records.joinLine, hn, if_true]
    refine ⟨by rw [(markLine_marksOnly ..).bound, hbd], by rw [markLine_bridges, m1], fun j => ?_⟩
    rw [line?_markLine, m2]
    split
    · rfl
    · rename_i hj; rw [k2, if_neg hj]

end Sys2Proof.Machine
end

