-- ==== Sys2Proof/Laws/Targets.lean ====
section
/-!
SUPPORT. Which position, card or client the link and the bus choose: the lowest, the first after a pointer, by the guards, the longest idle.
-/
namespace Sys2Proof.Machine

/-! ### The lowest -/

/-- The positions and cards stand in allFin in rising order. -/
theorem pairwise_allFin (n : Nat) : (allFin n).Pairwise (· < ·) := List.pairwise_lt_finRange n

/-- The first of a rising list that passes a test is the lowest that does. -/
theorem find?_rising {n : Nat} {f : Fin n → Bool} {xs : List (Fin n)} {p : Fin n} (hx : xs.Pairwise (· < ·)) (h : xs.find? f = some p) :
    f p = true ∧ ∀ q ∈ xs, q < p → f q = false := by
  induction xs with
  | nil => cases h
  | cons x xs ih =>
    rw [List.pairwise_cons] at hx
    rw [List.find?_cons] at h
    by_cases hf : f x = true
    · rw [hf] at h
      cases h
      refine ⟨hf, fun q hq hl => ?_⟩
      rcases List.mem_cons.1 hq with rfl | hq
      · exact absurd hl (lt_irrefl _)
      · exact absurd (hx.1 q hq) (lt_asymm hl)
    · rw [Bool.not_eq_true] at hf
      rw [hf] at h
      obtain ⟨h1, h2⟩ := ih hx.2 h
      refine ⟨h1, fun q hq hl => ?_⟩
      rcases List.mem_cons.1 hq with rfl | hq
      · exact hf
      · exact h2 q hq hl

theorem find?_allFin {n : Nat} {f : Fin n → Bool} {p : Fin n} (h : (allFin n).find? f = some p) : f p = true ∧ ∀ q < p, f q = false :=
  ⟨(find?_rising (pairwise_allFin n) h).1, fun q hq => (find?_rising (pairwise_allFin n) h).2 q (mem_allFin q) hq⟩

theorem find?_allFin_none {n : Nat} {f : Fin n → Bool} : (allFin n).find? f = none ↔ ∀ q, f q = false := by
  simp [List.find?_eq_none]

/-- R149: a PARK goes to the lowest position with park pending. -/
theorem parkTarget_spec (l : Link) :
    (∀ p, l.parkTarget = some p → (l.pres p).parkPending = true ∧ ∀ q < p, (l.pres q).parkPending = false) ∧
    (l.parkTarget = none ↔ ∀ q, (l.pres q).parkPending = false) :=
  ⟨fun _ h => find?_allFin h, find?_allFin_none⟩

/-- R180: a PROBE goes to the lowest card that is probe due. -/
theorem dueCard_spec (r : Records) :
    (∀ c, r.dueCard = some c → (r.card c).probeDue = true ∧ ∀ k < c, (r.card k).probeDue = false) ∧
    (r.dueCard = none ↔ ∀ k, (r.card k).probeDue = false) :=
  ⟨fun _ h => find?_allFin h, find?_allFin_none⟩

/-! ### The first after a pointer -/

/-- The steps from the place after a pointer up to a place, wrapping: 0 for the place after it, the last for its own. -/
def stepsPast {n : Nat} (ptr p : Fin n) : Nat := (p.val + (n - 1) - ptr.val) % n

theorem stepsPast_next {n : Nat} (ptr k : Fin (n + 1)) : stepsPast ptr (ptr + k + 1) = k.val := by
  unfold stepsPast
  have h1 := ptr.isLt
  have h2 := k.isLt
  have hv : (ptr + k + 1).val = (ptr.val + k.val + 1) % (n + 1) := by
    rw [Fin.val_add, Fin.val_add, Nat.add_mod, Nat.mod_mod, ← Nat.add_mod]
    rcases n with _ | n
    · simp [Nat.mod_one]
    · rfl
  rw [hv]
  by_cases hc : ptr.val + k.val + 1 < n + 1
  · rw [Nat.mod_eq_of_lt hc]
    have : ptr.val + k.val + 1 + (n + 1 - 1) - ptr.val = k.val + (n + 1) := by omega
    rw [this, Nat.add_mod_right, Nat.mod_eq_of_lt h2]
  · have : (ptr.val + k.val + 1) % (n + 1) = ptr.val + k.val + 1 - (n + 1) := by
      rw [Nat.mod_eq_sub_mod (by omega), Nat.mod_eq_of_lt (by omega)]
    rw [this]
    have : ptr.val + k.val + 1 - (n + 1) + (n + 1 - 1) - ptr.val = k.val := by omega
    rw [this, Nat.mod_eq_of_lt h2]

theorem stepsPast_inj {n : Nat} {ptr p q : Fin n} (h : stepsPast ptr p = stepsPast ptr q) : p = q := by
  unfold stepsPast at h
  have h1 := ptr.isLt
  have h2 := p.isLt
  have h3 := q.isLt
  have key : ∀ x : Fin n, (x.val + (n - 1) - ptr.val) % n = if x.val ≤ ptr.val then x.val + (n - 1) - ptr.val else x.val - 1 - ptr.val := by
    intro x
    have := x.isLt
    by_cases hx : x.val ≤ ptr.val
    · rw [if_pos hx, Nat.mod_eq_of_lt (by omega)]
    · rw [if_neg hx, show x.val + (n - 1) - ptr.val = x.val - 1 - ptr.val + n by omega, Nat.add_mod_right, Nat.mod_eq_of_lt (by omega)]
  rw [key p, key q] at h
  apply Fin.ext
  split at h <;> split at h <;> omega

/-- The place k + 1 after a pointer is every place, in the order of the steps. -/
theorem place_stepsPast {n : Nat} (ptr p : Fin (n + 1)) : ∃ k : Fin (n + 1), ptr + k + 1 = p ∧ k.val = stepsPast ptr p := by
  refine ⟨⟨stepsPast ptr p, Nat.mod_lt _ (by omega)⟩, ?_, rfl⟩
  exact stepsPast_inj (ptr := ptr) (stepsPast_next ptr _)

/-- A scan from the place after a pointer ends at the first that passes the test. -/
theorem scan_spec {n : Nat} (ptr : Fin (n + 1)) (f : Fin (n + 1) → Bool) :
    (∀ p, (allFin (n + 1)).findSome? (fun k => if f (ptr + k + 1) then some (ptr + k + 1) else none) = some p →
      f p = true ∧ ∀ q, f q = true → stepsPast ptr p ≤ stepsPast ptr q) ∧
    ((allFin (n + 1)).findSome? (fun k => if f (ptr + k + 1) then some (ptr + k + 1) else none) = none ↔ ∀ q, f q = false) := by
  have gen : ∀ xs : List (Fin (n + 1)), xs.findSome? (fun k => if f (ptr + k + 1) then some (ptr + k + 1) else none) =
      (xs.find? (fun k => f (ptr + k + 1))).map (fun k => ptr + k + 1) := by
    intro xs
    induction xs with
    | nil => rfl
    | cons x xs ih =>
      rw [List.findSome?_cons, List.find?_cons]
      by_cases hf : f (ptr + x + 1) = true
      · simp [hf]
      · rw [Bool.not_eq_true] at hf
        simp [hf, ih]
  rw [gen]
  refine ⟨fun p h => ?_, ?_⟩
  · rw [Option.map_eq_some_iff] at h
    obtain ⟨k, h1, rfl⟩ := h
    obtain ⟨h2, h3⟩ := find?_allFin h1
    refine ⟨h2, fun q hq => ?_⟩
    obtain ⟨j, rfl, h4⟩ := place_stepsPast ptr q
    rw [stepsPast_next, stepsPast_next]
    by_contra hc
    have := h3 j (Fin.lt_def.2 (by omega))
    rw [hq] at this
    cases this
  · rw [Option.map_eq_none_iff, find?_allFin_none]
    refine ⟨fun h q => ?_, fun h k => h _⟩
    obtain ⟨j, rfl, _⟩ := place_stepsPast ptr q
    exact h j

theorem outputTarget_spec (s : State) :
    (∀ p, s.outputTarget = some p → ((s.recs.pos p).attached && s.recs.outputPending p) = true ∧
      ∀ q, ((s.recs.pos q).attached && s.recs.outputPending q) = true → stepsPast s.link.outPtr p ≤ stepsPast s.link.outPtr q) ∧
    (s.outputTarget = none ↔ ∀ q, ((s.recs.pos q).attached && s.recs.outputPending q) = false) :=
  scan_spec s.link.outPtr (fun p => (s.recs.pos p).attached && s.recs.outputPending p)

/-- R178: a FETCH goes to the first PRESENT card after the fetch pointer. -/
theorem fetchTarget_spec (s : State) :
    (∀ c, s.fetchTarget = some c → (s.recs.card c).present = true ∧
      ∀ k, (s.recs.card k).present = true → stepsPast s.bus.fetchPtr c ≤ stepsPast s.bus.fetchPtr k) ∧
    (s.fetchTarget = none ↔ ∀ k, (s.recs.card k).present = false) :=
  scan_spec s.bus.fetchPtr (fun c => (s.recs.card c).present)

/-! ### Which client is granted -/

/-- R173: the guards first, then the first client in order that wants the bus. -/
theorem grantee_eq (s : State) (lbReq : Bool) :
    s.grantee lbReq =
      if s.bus.passSlot ≠ none ∧ 8 ≤ s.bus.passGuard then some .pass
      else if s.recs.workList ≠ [] ∧ 4 ≤ s.recs.lineGuard then some .line
      else if lbReq = true ∧ ∃ c, (s.recs.card c).present = true then some .report
      else if s.recs.workList ≠ [] then some .line
      else if s.bus.passSlot ≠ none then some .pass
      else if ∃ c, (s.recs.card c).probeDue = true then some .probe
      else none := by
  have hp : s.wants lbReq .pass = true ↔ s.bus.passSlot ≠ none := by
    simp [State.wants]; cases s.bus.passSlot <;> simp
  have hl : s.wants lbReq .line = true ↔ s.recs.workList ≠ [] := by
    simp [State.wants]
  have hr : s.wants lbReq .report = true ↔ (lbReq = true ∧ ∃ c, (s.recs.card c).present = true) := by
    simp only [State.wants, Records.anyPresent, Bool.and_eq_true, List.any_eq_true]
    refine and_congr_right fun _ => ⟨?_, ?_⟩
    · rintro ⟨c, hc, h⟩
      rw [Vector.mem_toList_iff, Vector.mem_iff_getElem] at hc
      obtain ⟨i, hi, rfl⟩ := hc
      exact ⟨⟨i, hi⟩, h⟩
    · rintro ⟨c, h⟩
      refine ⟨_, ?_, h⟩
      rw [Vector.mem_toList_iff, Vector.mem_iff_getElem]
      exact ⟨c.val, c.isLt, rfl⟩
  have hd : s.wants lbReq .probe = true ↔ ∃ c, (s.recs.card c).probeDue = true := by
    simp only [State.wants, Option.isSome_iff_ne_none, ne_eq, (dueCard_spec s.recs).2]
    simp

  simp only [State.grantee, hp, hl]
  split
  · rfl
  split
  · rfl
  simp only [List.find?_cons, List.find?_nil]
  simp only [← hd, ← hr, ← hp, ← hl]
  cases s.wants lbReq .report <;> cases s.wants lbReq .line <;> cases s.wants lbReq .pass <;> cases s.wants lbReq .probe <;> rfl

/-! ### The longest idle -/

/-- The best so far of a scan that takes the greatest of what passes a test, a tie to the earlier. -/
def longest {n : Nat} (f : Fin n → Bool) (v : Fin n → Nat) (best : Option (Fin n)) (p : Fin n) : Option (Fin n) :=
  if f p then (match best with
    | none => some p
    | some q => if v q < v p then some p else some q) else best

theorem longest_spec {n : Nat} (f : Fin n → Bool) (v : Fin n → Nat) (xs : List (Fin n)) (hx : xs.Pairwise (· < ·)) (b : Option (Fin n))
    (hb : ∀ q, b = some q → f q = true ∧ ∀ x ∈ xs, q < x) :
    (∀ p, xs.foldl (longest f v) b = some p → f p = true ∧
      (∀ q, (q ∈ xs ∨ b = some q) → f q = true → v q < v p ∨ (v q = v p ∧ p ≤ q))) ∧
    (xs.foldl (longest f v) b = none ↔ b = none ∧ ∀ q ∈ xs, f q = false) := by
  induction xs generalizing b with
  | nil =>
    refine ⟨fun p h => ?_, by simp⟩
    simp only [List.foldl_nil] at h
    refine ⟨(hb p h).1, fun q hq _ => ?_⟩
    rcases hq with hq | hq
    · cases hq
    · rw [h] at hq; cases hq; exact .inr ⟨rfl, le_refl _⟩
  | cons x xs ih =>
    rw [List.pairwise_cons] at hx
    rw [List.foldl_cons]
    by_cases hf : f x = true
    · have hl : longest f v b x = (match b with
        | none => some x
        | some q => if v q < v x then some x else some q) := by
        unfold longest; rw [if_pos hf]; cases b <;> rfl
      rcases b with _ | y
      · rw [hl]
        obtain ⟨i1, i2⟩ := ih hx.2 (some x) (fun q hq => by cases hq; exact ⟨hf, hx.1⟩)
        refine ⟨fun p h => ⟨(i1 p h).1, fun q hq hfq => ?_⟩, ?_⟩
        · rcases hq with hq | hq
          · rcases List.mem_cons.1 hq with rfl | hq
            · exact (i1 p h).2 _ (.inr rfl) hfq
            · exact (i1 p h).2 q (.inl hq) hfq
          · cases hq
        · rw [i2]; simp [hf]
      · obtain ⟨hy1, hy2⟩ := hb y rfl
        have hyx : y < x := hy2 x (List.mem_cons_self ..)
        by_cases hv : v y < v x
        · rw [hl]
          simp only [if_pos hv]
          obtain ⟨i1, i2⟩ := ih hx.2 (some x) (fun q hq => by cases hq; exact ⟨hf, hx.1⟩)
          refine ⟨fun p h => ⟨(i1 p h).1, fun q hq hfq => ?_⟩, ?_⟩
          · have hxp := (i1 p h).2 x (.inr rfl) hf
            rcases hq with hq | hq
            · rcases List.mem_cons.1 hq with rfl | hq
              · exact hxp
              · exact (i1 p h).2 q (.inl hq) hfq
            · cases hq
              left
              rcases hxp with h' | ⟨h', _⟩ <;> omega
          · rw [i2]; simp
        · rw [hl]
          simp only [if_neg hv]
          obtain ⟨i1, i2⟩ := ih hx.2 (some y) (fun q hq => by cases hq; exact ⟨hy1, fun z hz => lt_trans hyx (hx.1 z hz)⟩)
          refine ⟨fun p h => ⟨(i1 p h).1, fun q hq hfq => ?_⟩, ?_⟩
          · have hyp := (i1 p h).2 y (.inr rfl) hy1
            rcases hq with hq | hq
            · rcases List.mem_cons.1 hq with rfl | hq
              · rcases hyp with h' | ⟨h', h''⟩
                · left; omega
                · by_cases he : v q = v p
                  · exact .inr ⟨he, le_of_lt (lt_of_le_of_lt h'' hyx)⟩
                  · left; omega
              · exact (i1 p h).2 q (.inl hq) hfq
            · cases hq; exact hyp
          · rw [i2]; simp
    · have hl : longest f v b x = b := by unfold longest; rw [if_neg hf]
      rw [hl]
      obtain ⟨i1, i2⟩ := ih hx.2 b (fun q hq => ⟨(hb q hq).1, fun z hz => (hb q hq).2 z (List.mem_cons_of_mem _ hz)⟩)
      refine ⟨fun p h => ⟨(i1 p h).1, fun q hq hfq => ?_⟩, ?_⟩
      · rcases hq with hq | hq
        · rcases List.mem_cons.1 hq with rfl | hq
          · exact absurd hfq hf
          · exact (i1 p h).2 q (.inl hq) hfq
        · exact (i1 p h).2 q (.inr hq) hfq
      · rw [i2]; rw [Bool.not_eq_true] at hf; simp [hf]

/-- R149: a POLL goes to the attached position idle for 500 ms or more whose idle time is the longest, a tie to the lowest. -/
theorem pollTarget_spec (s : State) :
    (∀ p, s.pollTarget = some p → ((s.recs.pos p).attached && decide (500 ≤ (s.link.pres p).idle)) = true ∧
      ∀ q, ((s.recs.pos q).attached && decide (500 ≤ (s.link.pres q).idle)) = true →
        (s.link.pres q).idle < (s.link.pres p).idle ∨ ((s.link.pres q).idle = (s.link.pres p).idle ∧ p ≤ q)) ∧
    (s.pollTarget = none ↔ ∀ q, ((s.recs.pos q).attached && decide (500 ≤ (s.link.pres q).idle)) = false) := by
  have he : s.pollTarget = (allFin 48).foldl (longest (fun p => (s.recs.pos p).attached && decide (500 ≤ (s.link.pres p).idle))
      (fun p => (s.link.pres p).idle)) none := by
    unfold State.pollTarget
    congr 1
    funext best p
    cases best <;> rfl
  rw [he]
  obtain ⟨h1, h2⟩ := longest_spec (fun p => (s.recs.pos p).attached && decide (500 ≤ (s.link.pres p).idle)) (fun p => (s.link.pres p).idle)
    (allFin 48) (pairwise_allFin 48) none (fun _ h => by cases h)
  refine ⟨fun p h => ⟨(h1 p h).1, fun q hq => (h1 p h).2 q (.inl (mem_allFin q)) hq⟩, ?_⟩
  refine h2.trans ⟨fun h q => h.2 q (mem_allFin q), fun h => ⟨rfl, fun q _ => h q⟩⟩

end Sys2Proof.Machine
end

