-- ==== Sys2Proof/Tests/Slice0.lean ====
section
/-!
SUPPORT. Tests: the checks of WellFormed on ill-formed terms, the check byte on the spec's examples, single steps on a small floor, and for each statement a state and operands that meet its hypotheses, clause by clause.
-/
namespace Sys2Proof.Tests
open Sys2Proof.Machine

/-! ### WellFormed refuses ill-formed terms -/

theorem test_wf_line : (Instr.ringExpiry 384).wf = false ∧ (Instr.ringExpiry 383).wf = true := by decide
theorem test_wf_recall_line : (Instr.recallWaitExpiry 384).wf = false ∧ (Instr.ringBurstExpiry 384).wf = false := by decide
theorem test_wf_member : (Instr.talkTimerExpiry 512).wf = false ∧ (Instr.talkTimerExpiry 511).wf = true := by decide
theorem test_wf_position : (Instr.positionDetach 48).wf = false ∧ (Instr.positionDetach 47).wf = true := by decide
theorem test_wf_card : (Instr.cardLoss 32).wf = false ∧ (Instr.cardLoss 31).wf = true := by decide
theorem test_wf_operation : (Instr.spiUnknownOperation 0xA1 0).wf = false ∧ (Instr.spiUnknownOperation 0xA4 0).wf = true := by decide
theorem test_wf_header : (Instr.imageHeader [0, 0, 0, 0, 0] ⟨true, true⟩).wf = false ∧ (Instr.imageHeader [0, 0, 0, 0] ⟨true, true⟩).wf = true := by
  decide

/-! ### No word spells a command -/

theorem test_no_word : decodeTableWord 32 0 = none := rfl
theorem test_withFetchWord : State.reset.withFetchWord 32 0 = State.reset := rfl

/-! ### The check byte (R145), on the messages of the spec's examples -/

set_option maxRecDepth 20000 in
theorem test_crc_poll : checked [0x05, 0x05] = [0x05, 0x05, 0x5A] := by decide
set_option maxRecDepth 20000 in
theorem test_crc_ack : checked [0x07, 0x05] = [0x07, 0x05, 0x70] := by decide
set_option maxRecDepth 20000 in
theorem test_messages : msgPoll 5 = [0x05, 0x05, 0x5A] ∧ msgAck 5 = [0x07, 0x05, 0x70] := by decide

/-! ### A small floor -/

/-- Window 0: ports 0 to 3 on card 0, limit 4 ms. -/
def window0 : Window := ⟨true, 0, 4, 0, 0, 4⟩

/-- A line on this port in this state, SHARED, at most 3 parties, RING 10 s. -/
def lineOn (t : LineType) (port : Nat) (st : LineState) : Line :=
  ⟨.defined, t, port, .shared, 3, 10, 10, st, [], none, none, none, Cond.off, Cond.off, false, none⟩

/-- The floor: window 0, card 0 PRESENT, these lines, and at position 0 handset H1 selected. -/
def floor (lines : Table Line) : Records :=
  ({ Records.cold with windows := vset Records.cold.windows 0 window0, cards := vset Records.cold.cards 0 ⟨true, 0, false⟩, lines := lines }).modPos 0
    (fun x => { x with selected := some .h1, attached := true })

/-- Line 0, SIGNALLED, IDLE. -/
def quiet : Records := floor [(0, lineOn .signalled 0 .idle)]

/-- Line 0 on key 3 of position 0, route HANDSET. -/
def keyed (a : Appearance) (l : Line) : Records := { floor [(0, l)] with appearances := [(0, a)] }

/-- An appearance of line 0 on key 3 of position 0. -/
def key3 : Appearance := ⟨0, 0, 3, .audible, false, .handset⟩

/-- Group 0 with member 0, a talker on S0 of position 0. -/
def grouped (role : Role) (g : Group) : Records :=
  ({ quiet with groups := [(0, g)], members := [(0, ⟨0, .position 0 0, role, 1, .idle, none⟩)] }).modPos 0
    (fun x => { x with speaker := vset x.speaker 0 (.member 0) })

/-- A group without talkers. -/
def group0 : Group := ⟨1, 30, .arrival, false, [], [], none, false⟩

/-- The part RUNNING with these records. -/
def up (r : Records) : State := { State.reset with part := .running, recs := r }

/-- The request record of tag 0 with end-of-frame set. -/
def record (code : Byte) (body : List Byte) : Request := ⟨0, code, 1, byte1 body.length, body⟩

/-- s with one request in its queue. -/
def asking (s : State) (code : Byte) (body : List Byte) : State :=
  { s with part := .running, resetPin := .released, port := { Port.cold with requests := [record code body] } }

/-- The executor takes that request. -/
theorem asking_takes (s : State) (code : Byte) (body : List Byte) (h : body.length ≤ 200) :
    Takes (asking s code body) code.toNat (record code body) [] := by
  have hb : (byte1 body.length).toNat = body.length := by simp [byte1]; omega
  refine ⟨rfl, rfl, rfl, by simp [asking, Port.cold], rfl, by simp [asking, Port.cold], ?_, ?_, rfl⟩
  · show (byte1 body.length).toNat ≤ 200; omega
  · show (byte1 body.length).toNat ≤ body.length; omega

/-- The executor holding a job. -/
def holdingJob (j : Job) : Held := ⟨0, 0, 1, j, false⟩

/-- s with the executor holding a job. -/
def busy (s : State) (j : Job) : State := { s with port := { s.port with executor := some (holdingJob j) } }

/-- The console link RUNNING, at this step of its cycle. -/
def linkAt (c : CycleStep) : Link := { Link.cold with state := .running, cycle := c }

/-- The part RUNNING with that link, position 0 attached. -/
def linked (l : Link) : State := { up quiet with link := l }

/-- An identity. -/
def someone : Identity := 0x0102030405AB

/-! ### Single steps -/

/-- R30: a press on an IDLE SIGNALLED line connects it with slot 0 and desires the port seized with audio. -/
theorem test_press_seizes : ((keyed key3 (lineOn .signalled 0 .idle)).pressLine 0 3).2 = none ∧
    (((keyed key3 (lineOn .signalled 0 .idle)).pressLine 0 3).1.line? 0).map (fun l => (l.state, l.slot, l.desired)) = some (.connected, some 0, Cond.call) := by
  decide

/-- R174: the line then enters the port work list at the end of the step. -/
theorem test_press_enters_work_list : ((keyed key3 (lineOn .signalled 0 .idle)).pressLine 0 3).1.settle.workList = [0] := by decide

/-- R175: the order of the steps of a setup and of a teardown. -/
theorem test_choose_command : chooseCommand Cond.call Cond.off = some .seize ∧ chooseCommand Cond.call ⟨true, false, false⟩ = some .connect ∧
    chooseCommand Cond.off Cond.call = some .disconnect ∧ chooseCommand Cond.off ⟨true, false, false⟩ = some .release ∧
    chooseCommand Cond.call Cond.call = none := by decide

/-- R90: the victim is the lowest priority, and among several the one granted last. -/
theorem test_victim : victimOf (fun m => if m = 7 then 1 else 0) [7, 8, 9] = some 9 := by decide

/-- R91: the place under PRIORITY. -/
theorem test_waiting_place : waitingInsert .priority (fun m => m) 2 [3, 2, 1] = [3, 2, 2, 1] := by decide

/-- R114: saturation at both ends. -/
theorem test_saturate : saturate 40000 = 0x7FFF ∧ saturate (-40000) = 0x8000 ∧ saturate (-3) = 0xFFFD := by decide

/-- R21: the lamps of a HELD line. -/
theorem test_lamp_held : lampOf { lineOn .signalled 0 .held with holdOwner := some 0 } key3 = .heldMine ∧
    lampOf { lineOn .signalled 0 .held with holdOwner := some 1 } key3 = .heldOther ∧ lampOf (lineOn .signalled 0 .held) key3 = .heldOpen := by decide

/-! ### Hypotheses that are met: steps, resets, image -/

theorem test_witness_StepRunsFrontCommand : ({ State.reset with pending := [.resetRelease] } : State).pending = .resetRelease :: [] := rfl
theorem test_witness_EmptyQueuePassesOneMillisecond : State.reset.pending = [] ∧ State.reset.resetPin ≠ .coldHeld := by decide
theorem test_witness_ColdStartHolds : State.reset.resetPin = .released ∧ ({ State.reset with resetPin := .coldHeld } : State).resetPin = .coldHeld ∧
    (∀ cause, Instr.warmRestart ≠ .coldStart cause) ∧ Instr.warmRestart ≠ .resetRelease := ⟨rfl, rfl, by intro c; cases c <;> decide, by decide⟩
theorem test_witness_ResetReleaseLoadsColdValues : ({ State.reset with resetPin := .coldHeld } : State).resetPin = .coldHeld ∧
    ({ State.reset with resetPin := .warmHeld } : State).resetPin = .warmHeld := ⟨rfl, rfl⟩
theorem test_witness_WarmRestartResetsPort : State.reset.resetPin = .released ∧
    (∃ f, ({ quiet with inFlight := some ⟨.pass, 0, 0, 4, 4⟩ } : Records).inFlight = some f ∧ f.job = .pass) ∧
    (∀ f, quiet.inFlight = some f → f.job ≠ .pass) := ⟨rfl, ⟨_, rfl, rfl⟩, by intro f h; cases h⟩
theorem test_witness_WarmRestartResetsPort_held : ({ State.reset with port := { Port.cold with executor := some (holdingJob .linkReset) } } : State).port.executor =
    some (holdingJob .linkReset) ∧ (holdingJob .linkReset).job = .linkReset ∧ (holdingJob .pass).job = .pass ∧ (holdingJob .rollCall).job = .rollCall ∧
    (holdingJob (.load 0 [] 0)).job = .load 0 [] 0 ∧ State.reset.port.executor = none := by decide
theorem test_witness_ImageHeaderDecides : State.reset.resetPin ≠ .coldHeld ∧ State.reset.part = .startingImage ∧ State.reset.loader.headerRead = false ∧
    ([0x4C, 0x44, 1] : List Byte).length < 4 ∧ ¬ ((0x4C : Byte) = 0x4C ∧ (0x44 : Byte) = 0x44 ∧ (2 : Byte) = 1) ∧ (255 : Byte) ≠ 0 := by decide
theorem test_witness_ImageStageEnds : (∃ c, quiet.named c = true) ∧ (∀ c, Records.cold.named c = false) ∧ quiet.named 0 = true := by decide

/-- In the middle of an image of two sections. -/
def inImage : State := { State.reset with loader := ⟨.loaded, 0, 0, 2, true, 2, 4⟩ }

theorem test_witness_ImageSectionDealt : inImage.resetPin ≠ .coldHeld ∧ inImage.part = .startingImage ∧ inImage.loader.headerRead = true ∧
    1 < inImage.loader.sectionsLeft ∧ 0 < inImage.loader.sectionsLeft ∧ ([] : List Byte).length = num2 0 1 * itemLength (8 : Byte).toNat ∧
    ([0, 1, 0, 0, 0] : List Byte).length = num2 0 1 * itemLength (5 : Byte).toNat ∧ itemSum [0, 1, 0, 0, 0] ≠ num2 0 0 ∧ itemSum [0, 1, 0, 0, 0] = num2 0 1 ∧
    inImage.loader.address + 5 + 5 ≤ 65536 ∧ ([1, 0, 0, 0] : List Byte).length < 5 ∧ 7 < (8 : Byte).toNat ∧ (0 : Byte).toNat < 1 ∧ (7 : Byte).toNat ≤ 7 := by
  decide

/-- The last section of an image, at the end of the memory. -/
def lastSection : State := { State.reset with loader := ⟨.loaded, 0, 0, 2, true, 1, 65530⟩ }

theorem test_witness_ImageSectionDealt_last : lastSection.loader.sectionsLeft = 1 ∧ 0 < lastSection.loader.sectionsLeft ∧
    ([0, 1, 0, 0, 0] : List Byte).length = num2 0 1 * itemLength (5 : Byte).toNat ∧ 65536 < lastSection.loader.address + 5 + 5 ∧
    ([0, 1, 0, 0, 0, 0] : List Byte).length < num2 0 1 * itemLength (5 : Byte).toNat + 2 ∧
    ([] : List Byte).length = num2 0 0 * itemLength (5 : Byte).toNat ∧ lastSection.loader.address + 5 + ([] : List Byte).length ≤ 65536 ∧
    itemSum [] = num2 0 0 := by decide
theorem test_witness_ImageSectionDealt_item : (inImage.applyItem 5 [31, 4, 120, 1, 1]).1 = .done ∧ (inImage.applyItem 5 [32, 4, 120, 1, 1]).1 = .noSuch ∧
    Takes (asking inImage 16 [31, 4, 120, 1, 1]) 16 (record 16 [31, 4, 120, 1, 1]) [] ∧ (asking inImage 16 [31, 4, 120, 1, 1]).recs = inImage.recs ∧
    (asking inImage 16 [31, 4, 120, 1, 1]).link = inImage.link ∧ (record 16 [31, 4, 120, 1, 1]).body = [31, 4, 120, 1, 1] :=
  ⟨by decide, by decide, asking_takes _ _ _ (by decide), rfl, rfl, rfl⟩
theorem test_witness_ImageSectionDealt_settings : Disposition.ofNat? (0 : Byte).toNat = some .localAct ∧ Disposition.ofNat? (2 : Byte).toNat = some .both ∧
    Disposition.ofNat? (3 : Byte).toNat = none ∧ JoinPolicy.ofNat? (1 : Byte).toNat = some .ignore ∧ JoinPolicy.ofNat? (2 : Byte).toNat = none ∧
    (16 : Byte).toNat ≤ 16 ∧ 16 < (17 : Byte).toNat ∧ (inImage.applyItem 7 [0, 0, 0, 0, 0, 0, 0, 0, 17]).1 = .badValue ∧
    ((inImage.applyItem 7 [1, 0, 0, 0, 0, 0, 2, 1, 16]).2.recs.dispositions.volume, (inImage.applyItem 7 [1, 0, 0, 0, 0, 0, 2, 1, 16]).2.link.policy) =
      (.both, .ignore) := by decide

/-! ### Hypotheses that are met: SPI -/

theorem test_witness_WriteRequestJoinsQueue : State.reset.resetPin = .released ∧ (List.replicate 15 (record 4 [0, 0])).length < 16 ∧
    16 ≤ (List.replicate 16 (record 4 [0, 0])).length ∧ ([0, 0, 4, 1] : List Byte).length < 5 := by decide
theorem test_witness_ReadTransactionsReturnRecords : State.reset.resetPin = .released ∧ State.reset.port.results = [] ∧
    (∃ x rest, ({ Port.cold with results := [⟨0, 4, .done, []⟩] } : Port).results = x :: rest) ∧ (0xA0 : Byte) ≠ 0xA1 ∧ (0xA0 : Byte) ≠ 0xA2 ∧
    (0xA0 : Byte) ≠ 0xA3 := ⟨rfl, rfl, ⟨_, _, rfl⟩, by decide, by decide, by decide⟩

/-- A READ_STATUS of which these bytes have started. -/
def midStatus (bytes : List Byte) : State := { State.reset with port := { Port.cold with status := bytes, full := true } }

theorem test_witness_ReadTransactionsReturnRecords_status : (midStatus []).port.status.length = 0 ∧ (midStatus [0, 16, 0, 0]).port.status.length = 4 ∧
    5 ≤ (midStatus [0, 16, 0, 0, 1]).port.status.length ∧ (midStatus [0, 16, 0, 0, 1]).port.status[4]? = some 1 ∧
    (midStatus [0, 16, 0, 0]).port.status[4]? ≠ some 1 := by decide

/-- R186: a value is the one its own byte starts with: a request that arrives after the first byte is seen by the second, and FULL, reported, is cleared by the end. -/
theorem test_readStatus_byte_by_byte :
    ((midStatus [0]).port.startStatusByte ((asking State.reset 4 [0, 0]).statusByte 1)).status = [0, 15] ∧
    (midStatus [0, 16, 0, 0, 1]).port.endStatus.full = false ∧ (midStatus [0, 16, 0, 0]).port.endStatus.full = true := by decide

/-- R183: the operation bytes. -/
theorem test_spiCommands : spiCommands [0xA2, 0, 0] = [.readResult 2] ∧ spiCommands [0xA3, 0, 0] = [.readStatus .byteStarts, .readStatus .byteStarts, .readStatus .ends] ∧
    spiCommands [0xA1, 9] = [.writeRequest [9]] ∧ spiCommands [0xA4] = [.spiUnknownOperation 0xA4 0] := by decide
theorem test_witness_SkippedAndMalformedAnswered : (up quiet).part = .running ∧ (up quiet).port.executor = none ∧ (up quiet).port.results.length < 16 ∧
    ({ Port.cold with frame := .inFrame true } : Port).frame = .inFrame true ∧ (up quiet).port.frame ≠ .inFrame true ∧ 200 < (201 : Byte).toNat ∧
    (51 : Byte).toNat ∉ catalogue ∧ endOfFrame 1 = true ∧ endOfFrame 0 = false ∧ ResultCode.deferred ≠ .done := by decide

/-! ### Hypotheses that are met: lines -/

theorem test_witness_DefineLineMakesLine : Takes (asking (up quiet) 1 [1, 127, 1, 0, 1, 1, 5, 0, 0]) 1 (record 1 [1, 127, 1, 0, 1, 1, 5, 0, 0]) [] ∧
    num2 1 127 ≤ 383 ∧ quiet.line? (num2 1 127) = none ∧ LineType.ofNat? (1 : Byte).toNat = some .signalled ∧ Privacy.ofNat? (1 : Byte).toNat = some .shared ∧
    num2 3 255 ≤ 1023 ∧ (∀ e ∈ quiet.lines, e.2.port ≠ num2 0 1) ∧ quiet.serviceOf (num2 0 1) = none ∧ quiet.serviceOf (num2 3 255) = some .unmapped :=
  ⟨asking_takes _ _ _ (by decide), by decide⟩

/-- Line 0's fields under a CHANGE-LINE whose mask carries the port. -/
def moved : LineFields := LineFields.merge 2 ⟨0, 1, 0, 0, 0, 0⟩ (lineOn .signalled 0 .idle).fields

theorem test_witness_ChangeLineTakesFields : Takes (asking (up quiet) 2 [0, 0, 2, 0, 0, 1, 0, 0, 0, 0]) 2 (record 2 [0, 0, 2, 0, 0, 1, 0, 0, 0, 0]) [] ∧
    quiet.line? 0 = some (lineOn .signalled 0 .idle) ∧ moved.judge = some (.signalled, .shared) ∧ (lineOn .signalled 0 .idle).atRest = true ∧
    quiet.circuitOf 0 = none ∧ quiet.appearancesOf 0 = [] ∧ quiet.portHeld 0 moved.port = false ∧ moved.port = 1 :=
  ⟨asking_takes _ _ _ (by decide), by decide⟩
theorem test_witness_RetireLineFreesOrDefers : Takes (asking (up quiet) 3 [0, 0]) 3 (record 3 [0, 0]) [] ∧
    quiet.line? 0 = some (lineOn .signalled 0 .idle) ∧ quiet.circuitOf 0 = none ∧ (lineOn .signalled 0 .idle).atRest = true ∧
    (lineOn .signalled 0 .connected).atRest = false ∧
    ({ quiet with members := [(4, ⟨0, .circuit 0, .talk, 0, .idle, none⟩)] } : Records).circuitOf 0 = some 4 :=
  ⟨asking_takes _ _ _ (by decide), by decide⟩
theorem test_witness_ForceReleaseTakesLineToIdle : Takes (asking (up quiet) 5 [0, 0]) 5 (record 5 [0, 0]) [] ∧
    quiet.line? 0 = some (lineOn .signalled 0 .idle) ∧ (floor [(0, lineOn .openLine 0 .idle)]).line? 0 = some (lineOn .openLine 0 .idle) ∧
    (lineOn .signalled 0 (.outOfService .noCard)).state.isOos = true ∧ (lineOn .signalled 0 .held).state.isOos = false :=
  ⟨asking_takes _ _ _ (by decide), by decide⟩
theorem test_witness_ClearMissedSetsFlagFalse : Takes (asking (up quiet) 6 [1, 128]) 6 (record 6 [1, 128]) [] ∧ 383 < num2 1 128 ∧ num2 1 127 ≤ 383 ∧
    quiet.line? 1 = none ∧ quiet.line? 0 = some (lineOn .signalled 0 .idle) ∧ (lineOn .signalled 0 .idle).missed = false ∧
    (floor [(0, { lineOn .signalled 0 .idle with missed := true })]).line? 0 = some { lineOn .signalled 0 .idle with missed := true } :=
  ⟨asking_takes _ _ _ (by decide), by decide⟩
theorem test_witness_ReadRequestsChangeNothing : Takes (asking (up quiet) 4 [0, 0]) 4 (record 4 [0, 0]) [] ∧ Takes (asking (up quiet) 11 [0, 0]) 11 (record 11 [0, 0]) [] ∧
    Takes (asking (up quiet) 19 [0]) 19 (record 19 [0]) [] ∧ Takes (asking (up quiet) 22 [0, 0]) 22 (record 22 [0, 0]) [] ∧
    Takes (asking (up quiet) 35 [47]) 35 (record 35 [47]) [] ∧ Takes (asking (up quiet) 41 [15]) 41 (record 41 [15]) [] ∧
    Takes (asking (up quiet) 42 [31]) 42 (record 42 [31]) [] ∧ Takes (asking (up quiet) 45 []) 45 (record 45 []) [] ∧
    Takes (asking (up quiet) 50 []) 50 (record 50 []) [] ∧ quiet.line? 0 = some (lineOn .signalled 0 .idle) ∧
    Table.find (keyed key3 (lineOn .signalled 0 .idle)).appearances 0 = some key3 ∧ (grouped .talk group0).group? 0 = some group0 ∧
    (grouped .talk group0).member? 0 = some ⟨0, .position 0 0, .talk, 1, .idle, none⟩ ∧ (47 : Byte).toNat = (47 : Fin 48).val ∧
    (15 : Byte).toNat = (15 : Fin 16).val ∧ (31 : Byte).toNat = (31 : Fin 32).val :=
  ⟨asking_takes _ _ _ (by decide), asking_takes _ _ _ (by decide), asking_takes _ _ _ (by decide), asking_takes _ _ _ (by decide),
    asking_takes _ _ _ (by decide), asking_takes _ _ _ (by decide), asking_takes _ _ _ (by decide), asking_takes _ _ _ (by decide),
    asking_takes _ _ _ (by decide), by decide⟩

/-! ### Hypotheses that are met: appearances, groups, memberships -/

theorem test_witness_AppearanceRequestsAct :
    Takes (asking (up quiet) 8 [7, 255, 0, 0, 0, 3, 0, 0, 0]) 8 (record 8 [7, 255, 0, 0, 0, 3, 0, 0, 0]) [] ∧
    Takes (asking (up quiet) 9 [0, 0, 7, 1, 1, 0]) 9 (record 9 [0, 0, 7, 1, 1, 0]) [] ∧ Takes (asking (up quiet) 10 [0, 0]) 10 (record 10 [0, 0]) [] ∧
    num2 7 255 ≤ 2047 ∧ Table.find quiet.appearances 2047 = none ∧ AppearanceItem.judge ⟨0, 0, 3, 0, 0, 0⟩ = some key3 ∧
    quiet.line? 0 = some (lineOn .signalled 0 .idle) ∧ quiet.appearanceAt 0 3 = none ∧ quiet.appearanceOfLineAt 0 0 = none ∧
    quiet.routeBusy 0 .handset = false ∧ Table.find (keyed key3 (lineOn .signalled 0 .idle)).appearances 0 = some key3 ∧
    RingMode.ofNat? (carried 7 0 1 0) = some .visual ∧ boolOf? (carried 7 1 1 0) = some true ∧ Route.ofNat? (carried 7 2 0 0) = some .handset :=
  ⟨asking_takes _ _ _ (by decide), asking_takes _ _ _ (by decide), asking_takes _ _ _ (by decide), by decide⟩

/-- The item for key 3 of position 0. -/
def item3 : AppearanceItem := ⟨0, 0, 3, 0, 0, 0⟩

theorem test_witness_LoadAppearancesItemByItem :
    Takes (asking (up quiet) 12 [0, 0, 1, 0, 0, 0, 3, 0, 0, 0]) 12 (record 12 [0, 0, 1, 0, 0, 0, 3, 0, 0, 0]) [] ∧
    Takes (asking (up quiet) 12 [0, 0, 25]) 12 (record 12 [0, 0, 25]) [] ∧ appearanceItems [0, 0, 0, 3, 0, 0, 0] = some [item3] ∧ 24 < (25 : Byte).toNat ∧
    (busy (up quiet) (.load 0 [item3] 0)).port.executor = some (holdingJob (.load 0 [item3] 0)) ∧ (quiet.defineAppearance 0 item3).1 = .done ∧
    (quiet.defineAppearance 2048 item3).1 = .noSuch :=
  ⟨asking_takes _ _ _ (by decide), asking_takes _ _ _ (by decide), by decide⟩
theorem test_witness_GroupRequestsAct : Takes (asking (up quiet) 16 [31, 4, 120, 1, 1]) 16 (record 16 [31, 4, 120, 1, 1]) [] ∧
    Takes (asking (up quiet) 17 [0, 1, 2, 0, 0, 0]) 17 (record 17 [0, 1, 2, 0, 0, 0]) [] ∧ Takes (asking (up quiet) 18 [0]) 18 (record 18 [0]) [] ∧
    quiet.group? 31 = none ∧ Policy.ofNat? (1 : Byte).toNat = some .priority ∧ boolOf? (1 : Byte).toNat = some true ∧
    (grouped .talk group0).group? 0 = some group0 ∧ (GroupFields.merge 1 ⟨2, 0, 0, 0⟩ group0.fields).judge = some (.arrival, false) ∧
    group0.talkers.length ≤ (GroupFields.merge 1 ⟨2, 0, 0, 0⟩ group0.fields).talkerLimit :=
  ⟨asking_takes _ _ _ (by decide), asking_takes _ _ _ (by decide), asking_takes _ _ _ (by decide), by decide⟩
theorem test_witness_MemberRequestsAct :
    Takes (asking (up quiet) 20 [1, 255, 0, 0, 0, 47, 7, 1, 3]) 20 (record 20 [1, 255, 0, 0, 0, 47, 7, 1, 3]) [] ∧
    Takes (asking (up quiet) 20 [1, 255, 0, 1, 0, 1, 0, 0, 0]) 20 (record 20 [1, 255, 0, 1, 0, 1, 0, 0, 0]) [] ∧
    Takes (asking (up quiet) 21 [0, 0]) 21 (record 21 [0, 0]) [] ∧ num2 1 255 ≤ 511 ∧ (grouped .talk group0).member? 511 = none ∧
    num2 0 47 = (47 : Fin 48).val ∧ (7 : Byte).toNat = (7 : Fin 8).val ∧ Role.ofNat? (1 : Byte).toNat = some .listen ∧
    (∀ e ∈ (grouped .talk group0).membersOf 0, ∀ k, e.2.kind ≠ .position 47 k) ∧ vget ((grouped .talk group0).pos 47).speaker 7 = .none ∧
    (floor [(1, lineOn .openLine 1 .idle)]).line? 1 = some (lineOn .openLine 1 .idle) ∧ (floor [(1, lineOn .openLine 1 .idle)]).circuitOf 1 = none ∧
    ((floor [(1, lineOn .openLine 1 .idle)]).circuitsOf 0).length < 2 ∧ (floor [(1, lineOn .openLine 1 .idle)]).lowestSlot ≠ none ∧
    (MemberKind.position 0 0) = .position 0 0 ∧ (MemberKind.circuit 1) = .circuit 1 :=
  ⟨asking_takes _ _ _ (by decide), asking_takes _ _ _ (by decide), asking_takes _ _ _ (by decide), by decide⟩

/-! ### Hypotheses that are met: positions and keys -/

theorem test_witness_PositionRequestsAct : Takes (asking (up quiet) 24 [47]) 24 (record 24 [47]) [] ∧ Takes (asking (up quiet) 25 [47]) 25 (record 25 [47]) [] ∧
    Takes (asking (up quiet) 27 [47]) 27 (record 27 [47]) [] ∧ Takes (asking (up quiet) 28 [8, 2]) 28 (record 28 [8, 2]) [] ∧
    (47 : Byte).toNat = (47 : Fin 48).val ∧ Disposition.ofNat? (2 : Byte).toNat = some .both ∧
    quiet.dispositions.set (8 : Byte).toNat .both = some { quiet.dispositions with volume := .both } :=
  ⟨asking_takes _ _ _ (by decide), asking_takes _ _ _ (by decide), asking_takes _ _ _ (by decide), asking_takes _ _ _ (by decide), by decide⟩
theorem test_witness_InjectedEventActsLocally : Takes (asking (up quiet) 26 [0, 3, 0, 0]) 26 (record 26 [0, 3, 0, 0]) [] ∧
    KeyEvent.ofBytes 3 0 0 = some .release ∧ KeyEvent.ofBytes 8 0 5 = some (.volume 0 5) ∧ (quiet.pos 0).attached = true ∧
    (Records.cold.pos 0).attached = false ∧ ((quiet.trackEvent 0 .release true).localAction 0 .release).2 = some .notNow ∧
    ((quiet.trackEvent 0 (.volume 0 5) true).localAction 0 (.volume 0 5)).2 = none :=
  ⟨asking_takes _ _ _ (by decide), by decide⟩

/-- Position 0 a party of this line 0 on a channel, that channel bound to it. -/
def onCall (l : Line) (ch : Channel) (others : List Party) : Records :=
  (keyed key3 { l with parties := ⟨0, ch⟩ :: others }).setBound 0 ch (.line 0)

/-- CONNECTED, SIGNALLED. -/
def call : Line := lineOn .signalled 0 .connected

/-- Member 0 of a group that holds bridge 0 has pressed PTT on S0. -/
def pressedPtt (g : Group) (f : TalkFloor) : Records :=
  (({ grouped .talk { g with bridge := some 0 } with bridges := [(0, .group 0)] }).setMember 0 ⟨0, .position 0 0, .talk, 1, f, none⟩).modPos 0
    (fun x => { x with ptt := some 0 })

theorem test_witness_InjectedEventActsLocally_calls : ((onCall call (.hand .h1) []).pos 0).selected = some .h1 ∧
    (onCall call (.hand .h1) []).bound 0 (.hand .h1) = .line 0 ∧
    (onCall call (.hand .h1) []).line? 0 = some { call with parties := [⟨0, .hand .h1⟩] } ∧ call.type = .signalled ∧ call.state = .connected ∧
    ({ call with parties := [⟨0, .hand .h1⟩, ⟨1, .hand .h1⟩] } : Line).partyChannel 0 = some (.hand .h1) ∧
    ((onCall call (.hand .h1) [⟨1, .hand .h1⟩]).pos 0).selected = some .h1 ∧
    (onCall call (.hand .h1) [⟨1, .hand .h1⟩]).bound 0 (.hand .h1) = .line 0 ∧ (lineOn .ringdown 0 .ringingOut).state = .ringingOut ∧
    (lineOn .ringdown 0 .ringingOut).type ≠ .signalled ∧ (quiet.pos 0).selected = some .h1 ∧ quiet.bound 0 (.hand .h1) = .none := by decide
theorem test_witness_InjectedEventActsLocally_ptt :
    ((pressedPtt { group0 with talkers := [0] } .talking).pos 0).ptt = some 0 ∧ (quiet.pos 0).ptt ≠ some 0 ∧
    vget ((pressedPtt { group0 with talkers := [0] } .talking).pos 0).speaker 0 = .member 0 ∧
    (pressedPtt { group0 with talkers := [0] } .talking).member? 0 = some ⟨0, .position 0 0, .talk, 1, .talking, none⟩ ∧
    (pressedPtt { group0 with talkers := [0] } .talking).group? 0 = some { group0 with talkers := [0], bridge := some 0 } ∧
    (pressedPtt { group0 with talkers := [9], waiting := [0] } .waiting).member? 0 = some ⟨0, .position 0 0, .talk, 1, .waiting, none⟩ ∧
    (pressedPtt group0 .idle).member? 0 = some ⟨0, .position 0 0, .talk, 1, .idle, none⟩ := by decide
theorem test_witness_InjectedEventActsLocally_unlisted : (∀ k y, (pressedPtt { group0 with talkers := [0] } .talking).group? k = some y → 0 ∉ y.waiting) ∧
    ∀ k y, k ≠ 0 → (pressedPtt { group0 with talkers := [9], waiting := [0] } .waiting).group? k = some y → 0 ∉ y.waiting := by
  have at0 : ∀ g f k, k ≠ 0 → (pressedPtt g f).group? k = none := by
    intro g f k hk
    show Table.find [(0, _)] k = none
    simp [Table.find, hk]
  refine ⟨fun k y h => ?_, fun k y hk h => ?_⟩
  · by_cases hk : k = 0
    · subst hk; cases h; decide
    · rw [at0 _ _ k hk] at h; cases h
  · rw [at0 _ _ k hk] at h; cases h
theorem test_witness_InjectedEventActsLocally_dispositions : quiet.dispositions.of .release = .localAct ∧
    ({ quiet with dispositions := { quiet.dispositions with hold := .both } } : Records).dispositions.of .hold = .both ∧
    ({ quiet with dispositions := { quiet.dispositions with ring := .forward } } : Records).dispositions.of .ring = .forward ∧
    (quiet.pos 0).attached = true ∧ (quiet.pos 1).attached = false ∧ (quiet.pos 0).ptt = none := by decide
theorem test_witness_PressAnswersOrSeizesLine : (keyed key3 (lineOn .signalled 0 .ringingIn)).appearanceAt 0 3 = some key3 ∧
    (keyed key3 (lineOn .signalled 0 .ringingIn)).line? 0 = some (lineOn .signalled 0 .ringingIn) ∧
    (keyed key3 (lineOn .ringdown 0 .idle)).line? 0 = some (lineOn .ringdown 0 .idle) ∧
    ((keyed key3 (lineOn .ringdown 0 .idle)).pos 0).selected = some .h1 ∧ (keyed key3 (lineOn .ringdown 0 .idle)).bound 0 (.hand .h1) = .none ∧
    (keyed key3 (lineOn .ringdown 0 .idle)).lowestSlot = some 0 := by decide

/-- An appearance of line 0 on key 3 with route S0. -/
def keyS0 : Appearance := { key3 with route := .speaker 0 }

theorem test_witness_PressAnswersOrSeizesLine_speaker : (keyed keyS0 (lineOn .signalled 0 .recall)).appearanceAt 0 3 = some keyS0 ∧
    (keyed keyS0 (lineOn .signalled 0 .recall)).bound 0 (.spk 0) = .none ∧ keyS0.route = .speaker 0 ∧
    (keyed keyS0 { lineOn .signalled 0 .held with holdOwner := some 0 }).line? 0 = some { lineOn .signalled 0 .held with holdOwner := some 0 } ∧
    (lineOn .signalled 0 .held).holdOwner = none ∧ (lineOn .signalled 0 .idle).lifecycle = .defined ∧ (lineOn .signalled 0 .idle).slot = none := by decide
set_option maxRecDepth 20000 in
theorem test_witness_PressAnswersOrSeizesLine_noSlot :
    ({ keyed key3 (lineOn .signalled 0 .ringingIn) with slots := (List.range 128).map (fun i => (i, 200)) } : Records).lowestSlot = none ∧
    (lineOn .signalled 0 .ringingIn).slot = none := by decide
theorem test_witness_PressAnswersOrSeizesLine_refusals : quiet.appearanceAt 0 3 = none ∧
    (keyed key3 (lineOn .signalled 0 (.outOfService .noCard))).line? 0 = some (lineOn .signalled 0 (.outOfService .noCard)) ∧
    ({ lineOn .signalled 0 .idle with lifecycle := .retiring } : Line).hasParty 0 = false ∧ (lineOn .ringdown 0 .ringingOut).state = .ringingOut ∧
    ({ lineOn .signalled 0 .held with holdOwner := some 1 } : Line).holdOwner = some 1 ∧
    (((keyed key3 (lineOn .signalled 0 .idle)).modPos 0 (fun x => { x with selected := none })).pos 0).selected = none ∧
    ((keyed keyS0 (lineOn .signalled 0 .idle)).setBound 0 (.spk 0) (.line 5)).bound 0 (.spk 0) = .line 5 := by decide

/-- R42: a retrieve. -/
theorem test_press_retrieves : (((keyed key3 { lineOn .signalled 0 .held with desired := Cond.call }).pressLine 0 3).1.line? 0).map (fun l => (l.state, l.parties)) =
    some (.connected, [⟨0, .hand .h1⟩]) := by decide

/-- Line 0 CONNECTED with these parties. -/
def talking (l : Line) : Records := keyed key3 { l with state := .connected }

/-- A SHARED line with parties at positions 1 and 2. -/
def two : Line := { lineOn .signalled 0 .connected with parties := [⟨1, .hand .h1⟩, ⟨2, .hand .h1⟩], bridge := some 0 }

/-- A SHARED line with a party at position 1. -/
def one : Line := { lineOn .signalled 0 .connected with parties := [⟨1, .hand .h1⟩] }

theorem test_witness_PressJoinsLine : (talking one).appearanceAt 0 3 = some key3 ∧ (talking one).line? 0 = some one ∧ one.hasParty 0 = false ∧
    ({ one with privacy := .closed } : Line).privacy = .closed ∧ one.parties.length = 1 ∧ one.parties.length < one.maxParties ∧
    ({ one with maxParties := 1 } : Line).maxParties ≤ one.parties.length ∧ (talking one).freeBridges ≠ 0 ∧ (talking one).lowestBridge = some 0 ∧
    ({ talking one with bridges := (List.range 64).map (fun i => (i, .line 5)) } : Records).freeBridges = 0 ∧ 1 < two.parties.length ∧
    two.parties.length < two.maxParties ∧ two.hasParty 0 = false := by decide
theorem test_witness_PressJoinsLine_own : (onCall call (.spk 0) []).appearanceAt 0 3 = some key3 ∧
    (onCall call (.spk 0) []).line? 0 = some { call with parties := [⟨0, .spk 0⟩] } ∧ (onCall call (.spk 0) []).bound 0 (.spk 0) = .line 0 ∧
    ({ call with parties := [⟨0, .spk 0⟩, ⟨1, .hand .h1⟩] } : Line).partyChannel 0 = some (.spk 0) ∧ call.state.isOos = false ∧
    (onCall call (.hand .h2) []).line? 0 = some { call with parties := [⟨0, .hand .h2⟩] } ∧
    ({ call with parties := [⟨0, .hand .h2⟩] } : Line).partyChannel 0 = some (.hand .h2) ∧
    ((onCall call (.hand .h2) []).pos 0).selected = some .h1 ∧ (onCall call (.hand .h2) []).bound 0 (.hand .h1) = .none ∧
    (onCall call (.hand .h2) []).bound 0 (.hand .h2) = .line 0 ∧ ((onCall call (.hand .h1) []).pos 0).selected = some .h1 := by decide

/-- This line 0 is on key 3 while position 0 is on line 1 through H1, with these other parties. -/
def beside (l l0 : Line) (others : List Party) : Records :=
  ((keyed key3 l).setLine 1 { l0 with parties := ⟨0, .hand .h1⟩ :: others }).setBound 0 (.hand .h1) (.line 1)

/-- Line 0 rings on key 3 while position 0 speaks on line 1 through H1. -/
def ringingBeside (l0 : Line) : Records := beside (lineOn .signalled 0 .ringingIn) l0 []

/-- What a press of key 3 leaves of lines 0 and 1: state, parties and bridge. -/
def pressed (r : Records) : Option KeyRefusal × List (Option (LineState × List Party × Option Nat)) :=
  ((r.pressLine 0 3).2, [0, 1].map (fun id => ((r.pressLine 0 3).1.line? id).map (fun l => (l.state, l.parties, l.bridge))))

theorem test_witness_PressJoinsLine_autoHold : (ringingBeside call).appearanceAt 0 3 = some key3 ∧ key3.route = .handset ∧
    (ringingBeside call).line? 0 = some (lineOn .signalled 0 .ringingIn) ∧ ((ringingBeside call).pos 0).selected = some .h1 ∧
    (ringingBeside call).bound 0 (.hand .h1) = .line 1 ∧ (ringingBeside call).line? 1 = some { call with parties := [⟨0, .hand .h1⟩] } ∧
    (ringingBeside call).lowestSlot = some 0 ∧ (lineOn .ringdown 1 .ringingOut).state = .ringingOut ∧
    (ringingBeside (lineOn .ringdown 1 .ringingOut)).line? 1 = some { lineOn .ringdown 1 .ringingOut with parties := [⟨0, .hand .h1⟩] } := by decide

/-- R28: the press holds line 1 and answers line 0. -/
theorem test_press_auto_holds : ((((ringingBeside call).pressLine 0 3).1.line? 1).map (fun l => l.state), (((ringingBeside call).pressLine 0 3).1.line? 0).map
    (fun l => l.state)) = (some .held, some .connected) := by decide
theorem test_witness_PressJoinsLine_beside : (beside one call []).line? 0 = some one ∧ one.hasParty 0 = false ∧ one.parties.length = 1 ∧
    one.parties.length < one.maxParties ∧ one.state = .connected ∧ (beside one call []).freeBridges ≠ 0 ∧ call.bridge = none ∧
    (lineOn .ringdown 0 .idle).lifecycle = .defined ∧ (lineOn .signalled 0 .held).holdOwner = none ∧
    (beside one call [⟨1, .hand .h1⟩]).line? 1 = some { call with parties := [⟨0, .hand .h1⟩, ⟨1, .hand .h1⟩] } ∧
    ({ call with parties := [⟨0, .hand .h1⟩, ⟨1, .hand .h1⟩] } : Line).partyChannel 0 = some (.hand .h1) ∧
    Table.find ({ beside one { call with bridge := some 63 } [⟨1, .hand .h1⟩] with bridges := [(63, .line 1)] } : Records).bridges 63 = some (.line 1) ∧
    ({ beside one call [] with bridges := (List.range 64).map (fun i => (i, .line 5)) } : Records).freeBridges = 0 ∧
    ({ call with parties := [⟨0, .hand .h2⟩] } : Line).partyChannel 0 = some (.hand .h2) ∧
    ((beside { call with parties := [⟨0, .hand .h2⟩] } call []).setBound 0 (.hand .h2) (.line 0)).bound 0 (.hand .h2) = .line 0 := by decide

/-- R28, R39: a seize, a retrieve and a join hold line 1 first; one of several parties leaves it to the others. -/
theorem test_press_holds_first :
    pressed (beside (lineOn .ringdown 0 .idle) call []) = (none, [some (.ringingOut, [⟨0, .hand .h1⟩], none), some (.held, [], none)]) := by decide
theorem test_press_leaves_to_others : pressed (beside (lineOn .signalled 0 .held) call [⟨1, .hand .h1⟩]) =
    (none, [some (.connected, [⟨0, .hand .h1⟩], none), some (.connected, [⟨1, .hand .h1⟩], none)]) := by decide
theorem test_join_holds_first : pressed (beside one call []) =
    (none, [some (.connected, [⟨1, .hand .h1⟩, ⟨0, .hand .h1⟩], some 0), some (.held, [], none)]) := by decide

/-- R28, R29: a handset move holds line 1 first, and is NOT_NOW when line 1 is RINGING_OUT. -/
theorem test_move_holds_first :
    pressed ((beside { call with parties := [⟨0, .hand .h2⟩] } call []).setBound 0 (.hand .h2) (.line 0)) =
      (none, [some (.connected, [⟨0, .hand .h1⟩], none), some (.held, [], none)]) ∧
    (pressed ((beside { call with parties := [⟨0, .hand .h2⟩] } (lineOn .ringdown 1 .ringingOut) []).setBound 0 (.hand .h2) (.line 0))).1 =
      some .notNow := by decide
theorem test_witness_PttPressTalksOrWaits : ((grouped .talk group0).pos 0).ptt = none ∧ vget ((grouped .talk group0).pos 0).speaker 0 = .member 0 ∧
    (grouped .talk group0).member? 0 = some ⟨0, .position 0 0, .talk, 1, .idle, none⟩ ∧
    (grouped .listen group0).member? 0 = some ⟨0, .position 0 0, .listen, 1, .idle, none⟩ ∧
    (grouped .talk { group0 with bridge := some 0 }).group? 0 = some { group0 with bridge := some 0 } ∧ group0.talkers.length < group0.talkerLimit ∧
    8 ≤ [1, 2, 3, 4, 5, 6, 7, 8].length ∧ [1, 2, 3, 4, 5, 6, 7].length < 8 ∧
    (grouped .talk { group0 with inWaitList := true }).group? 0 = some { group0 with inWaitList := true } := by decide


/-- Group 0 holds bridge 0, its one place taken by member 7 of priority 0; member 0 of priority 1 presses. -/
def fullFloor (policy : Policy) (preempt : Bool) (waiting : List Nat) : Records :=
  ({ grouped .talk { group0 with policy := policy, preempt := preempt, talkers := [7], waiting := waiting, bridge := some 0 } with
    bridges := [(0, .group 0)] }).setMember 7 ⟨0, .position 1 0, .talk, 0, .talking, none⟩

theorem test_witness_PttPressTalksOrWaits_full : (fullFloor .priority true []).group? 0 =
      some { group0 with policy := .priority, preempt := true, talkers := [] ++ 7 :: [], bridge := some 0 } ∧
    ((fullFloor .priority true []).pos 0).ptt = none ∧ vget ((fullFloor .priority true []).pos 0).speaker 0 = .member 0 ∧
    (fullFloor .priority true []).member? 0 = some ⟨0, .position 0 0, .talk, 1, .idle, none⟩ ∧ (fullFloor .priority true []).priorityOf 7 < 1 ∧
    (fullFloor .priority true []).member? 7 = some ⟨0, .position 1 0, .talk, 0, .talking, none⟩ ∧ group0.talkerLimit ≤ [7].length ∧
    (fullFloor .arrival false [8, 9, 10, 11, 12, 13, 14, 15]).group? 0 =
      some { group0 with talkers := [7], waiting := [8, 9, 10, 11, 12, 13, 14, 15], bridge := some 0 } := by decide
theorem test_witness_PttPressTalksOrWaits_first : (grouped .talk group0).group? 0 = some group0 ∧ group0.bridge = none ∧ group0.inWaitList = false ∧
    group0.talkers = [] ∧ group0.waiting = [] ∧ 1 ≤ group0.talkerLimit ∧ (grouped .talk group0).reserve < (grouped .talk group0).freeBridges ∧
    (grouped .talk group0).lowestBridge = some 0 ∧
    ({ grouped .talk group0 with bridges := (List.range 60).map (fun i => (i, .line 5)) } : Records).freeBridges ≤ (grouped .talk group0).reserve ∧
    vget ((onCall call (.spk 0) []).pos 0).speaker 0 = .line 0 ∧ vget (quiet.pos 0).speaker 0 = .none ∧ ((onCall call (.spk 0) []).pos 0).ptt = none ∧
    ((pressedPtt group0 .idle).pos 0).ptt ≠ none := by decide

/-- R90: the preemption, the victim IDLE and the presser a talker. -/
theorem test_ptt_preempts : (((fullFloor .priority true []).pressPtt 0 0).1.group? 0).map (fun g => g.talkers) = some [0] ∧
    (((fullFloor .priority true []).pressPtt 0 0).1.member? 7).map (fun x => x.floor) = some .idle := by decide

/-! ### Hypotheses that are met: console link -/

/-- Position 0 admits someone. -/
def admitted : Link := { linkAt .window with admission := vset Link.cold.admission 0 (some someone) }

theorem test_witness_AdmitConsoleFillsEntry :
    Takes (asking (up quiet) 29 [0, 1, 2, 3, 4, 5, 0xAB]) 29 (record 29 [0, 1, 2, 3, 4, 5, 0xAB]) [] ∧ identityOf 1 2 3 4 5 0xAB = someone ∧
    Link.cold.entry 0 = none ∧ (∀ k, Link.cold.entry k ≠ some someone) ∧ (Link.cold.pres 0).parkPending = false ∧ admitted.entry 0 ≠ none ∧
    (∃ k, admitted.entry k = some someone) ∧ ((Link.cold.modPres 0 (fun x => { x with parkPending := true })).pres 0).parkPending = true :=
  ⟨asking_takes _ _ _ (by decide), by decide⟩
theorem test_witness_RevokeConsoleDetachesAndParks : Takes (asking (linked admitted) 30 [0]) 30 (record 30 [0]) [] ∧ admitted.entry 0 = some someone ∧
    ((linked admitted).recs.pos 0).attached = true ∧ (Records.cold.pos 0).attached = false :=
  ⟨asking_takes _ _ _ (by decide), by decide⟩
theorem test_witness_ParkedListAndJoinPolicy : Takes (asking (up quiet) 31 [0]) 31 (record 31 [0]) [] ∧ Takes (asking (up quiet) 31 [1]) 31 (record 31 [1]) [] ∧
    Takes (asking (up quiet) 32 [0]) 32 (record 32 [0]) [] ∧ Takes (asking (up quiet) 32 [1]) 32 (record 32 [1]) [] :=
  ⟨asking_takes _ _ _ (by decide), asking_takes _ _ _ (by decide), asking_takes _ _ _ (by decide), asking_takes _ _ _ (by decide)⟩

/-- A roll-call sequence of scope ALL that nobody owns. -/
def rolling : Sequence := ⟨.all, 0, false, 0, 0⟩

theorem test_witness_RollCallBeginsOrWaits : Takes (asking (linked (linkAt .window)) 33 [1]) 33 (record 33 [1]) [] ∧ Scope.ofNat? (1 : Byte).toNat = some .all ∧
    (linkAt .window).state ≠ .stuck ∧ (linkAt .window).sequence = none ∧ (linkAt .window).txn = none ∧ (linkAt .window).waits = [] ∧
    ({ linkAt .window with sequence := some rolling } : Link).sequence ≠ none ∧ ({ linkAt .window with state := .stuck } : Link).state = .stuck :=
  ⟨asking_takes _ _ _ (by decide), by decide⟩
theorem test_witness_LinkResetAndRecovery : Takes (asking (linked (linkAt .window)) 34 []) 34 (record 34 []) [] ∧
    (busy (linked (linkAt .window)) .linkReset).port.executor = some (holdingJob .linkReset) ∧ (linkAt .window).txn = none ∧
    (linkAt .window).state = .running ∧ ({ linkAt .window with state := .stuck } : Link).state = .stuck ∧ (⟨false, true⟩ : Wires).clk = false ∧
    (up quiet).port.holds .linkReset = false ∧ (linkAt .window).waits = [] :=
  ⟨asking_takes _ _ _ (by decide), by decide⟩
theorem test_witness_RollCallBeginsOrWaits_waits : ({ linkAt .window with txn := some (.event 1) } : Link).txn ≠ none ∧
    ({ linkAt .window with waits := [⟨.all, true⟩] } : Link).waits ≠ [] ∧ ({ linkAt .window with waits := [⟨.all, true⟩] } : Link).sequence = none ∧
    (linkAt .window).state ≠ .stuck := by decide

/-- A STUCK link, a ROLL-CALL or none waiting. -/
def stuckLink (waits : List RollCallWait) : Link := { linkAt .window with state := .stuck, wanted := true, waits := waits }

theorem test_witness_LinkResetAndRecovery_high : (linked (stuckLink [])).link.state = .stuck ∧ (⟨true, true⟩ : Wires).clk = true ∧ (⟨true, true⟩ : Wires).dat = true ∧
    (stuckLink []).waits = [] ∧ (stuckLink [⟨.all, true⟩]).waits = ⟨.all, true⟩ :: [] ∧
    (busy (linked (stuckLink [])) .linkReset).port.executor = some (holdingJob .linkReset) ∧
    ({ holdingJob .linkReset with dropped := true } : Held).job = .linkReset ∧ ({ holdingJob .linkReset with dropped := true } : Held).dropped = true := by decide
theorem test_witness_RequestWindowDispatches : (linked (linkAt .window)).resetPin ≠ .coldHeld ∧ (linked (linkAt .window)).cycleOpen = true ∧
    (linkAt .window).cycle = .window ∧ 1 ≤ (1 : BitVec 6).toNat ∧ (48 : BitVec 6).toNat ≤ 48 ∧ (0 : BitVec 6).toNat = 0 ∧ 49 ≤ (49 : BitVec 6).toNat ∧
    (62 : BitVec 6).toNat ≤ 62 ∧ (linkAt .window).policy = .accept ∧ ({ linkAt .window with policy := .ignore } : Link).policy = .ignore := by decide

/-- Waiting for the EVENT of position 0. -/
def hearing (r : Records) : State := { up r with link := { linkAt .window with txn := some (.event 1) } }

/-- An EVENT of position 0 with the RELEASE key and this flag. -/
def event (flag : Byte) : List Byte := checked [1, flag, 1, 3, 0, 0]

set_option maxRecDepth 20000 in
theorem test_witness_EventMessageJudged : (hearing quiet).link.txn = some (.event ((0 : Fin 48).val + 1)) ∧ (hearing quiet).link.cycle = .window ∧
    ((hearing Records.cold).recs.pos 0).attached = false ∧ ((hearing quiet).recs.pos 0).attached = true ∧ EventMsg.parse ((0 : Fin 48).val + 1) [1] = none ∧
    EventMsg.parse ((0 : Fin 48).val + 1) (event 1) = some ⟨1, [(3, 0, 0)]⟩ ∧ EventMsg.parse ((0 : Fin 48).val + 1) (event 0) = some ⟨0, [(3, 0, 0)]⟩ ∧
    ((quiet.modPos 0 (fun x => { x with lock := true })).pos 0).lock = true ∧ (quiet.pos 0).lock = false ∧ ((hearing quiet).link.pres 0).flag = true :=
  by decide
theorem test_witness_event_flags : flagOf 1 = true ∧ flagOf 0 = false := by simp [flagOf]

/-- Key 3 of position 0 awaits its lamp. -/
def lampDue : Records := quiet.markLamp 0 3

theorem test_witness_OutputSentAndAnswered : ({ up lampDue with link := linkAt .output } : State).cycleOpen = true ∧
    ({ up lampDue with link := linkAt .output } : State).outputTarget = some 0 ∧
    ({ linkAt .output with txn := some (.output 0 [.lamp 3 .off false]) } : Link).txn = some (.output 0 [.lamp 3 .off false]) ∧
    (lampDue.pos 0).attached = true ∧ (linkAt .output).cycle = .output ∧ ([] : List Byte) ≠ checked [7, byte1 ((0 : Fin 48).val + 1)] ∧
    ([] : List Byte) ≠ checked [8, byte1 ((0 : Fin 48).val + 1), 1] ∧ ((linkAt .output).pres 0).miss < 2 := by decide

/-- The link at its OUTPUT with this pointer, keys of positions 3 and 40 awaiting their lamps. -/
def outputAfter (ptr : Fin 48) : State :=
  { up (((quiet.modPos 3 (fun x => { x with attached := true, lampPending := [5] }))).modPos 40
      (fun x => { x with attached := true, channelPending := [0] })) with link := { linkAt .output with outPtr := ptr } }

/-- R152: the first after the pointer, wrapping, the pointer's own position last. -/
theorem test_output_target : (outputAfter 3).outputTarget = some 40 ∧ (outputAfter 40).outputTarget = some 3 ∧ (outputAfter 47).outputTarget = some 3 ∧
    ({ up quiet with link := linkAt .output } : State).outputTarget = none := by decide

/-- Position 0 idle for 500 ms. -/
def idling : Link := (linkAt .parkOrPoll).modPres 0 (fun x => { x with idle := 500 })

theorem test_witness_ParkAndPoll : ({ up quiet with link := (linkAt .parkOrPoll).modPres 47 (fun x => { x with parkPending := true }) } : State).cycleOpen = true ∧
    ((linkAt .parkOrPoll).modPres 47 (fun x => { x with parkPending := true })).parkTarget = some 47 ∧ idling.parkTarget = none ∧
    ({ up quiet with link := idling } : State).pollTarget = some 0 ∧ ({ up quiet with link := idling } : State).cycleOpen = true ∧
    ({ idling with txn := some (.park 47) } : Link).txn = some (.park 47) ∧ ({ idling with txn := some (.poll 0) } : Link).txn = some (.poll 0) ∧
    idling.cycle = .parkOrPoll ∧ (idling.pres 0).miss < 2 := by decide
/-- R149: the lowest with park pending; the longest idle, a tie to the lowest, from 500 ms on. -/
theorem test_park_and_poll_targets :
    ((idling.modPres 9 (fun x => { x with parkPending := true })).modPres 4 (fun x => { x with parkPending := true })).parkTarget = some 4 ∧
    ({ outputAfter 0 with link := (Link.cold.modPres 40 (fun x => { x with idle := 600 })).modPres 3 (fun x => { x with idle := 600 }) } : State).pollTarget = some 3 ∧
    ({ outputAfter 0 with link := (Link.cold.modPres 40 (fun x => { x with idle := 601 })).modPres 3 (fun x => { x with idle := 600 }) } : State).pollTarget = some 40 ∧
    ({ up quiet with link := idling.modPres 0 (fun x => { x with idle := 499 }) } : State).pollTarget = none := by decide
theorem test_witness_ThirdMissDetaches_output : ({ (linkAt .output).modPres 0 (fun x => { x with miss := 2 }) with txn := some (.output 0 []) } : Link).txn =
      some (.output 0 []) ∧ ((linkAt .output).modPres 0 (fun x => { x with miss := 2 })).cycle = .output ∧
    (((linkAt .output).modPres 0 (fun x => { x with miss := 2 })).pres 0).miss = 2 := by decide
theorem test_witness_ThirdMissDetaches_lines : (onCall call (.hand .h1) []).line? 0 = some { call with parties := [⟨0, .hand .h1⟩] } ∧
    ({ call with parties := [⟨0, .hand .h1⟩] } : Line).partyChannel 0 = some (.hand .h1) ∧ (onCall call (.hand .h1) []).bound 0 (.hand .h1) = .line 0 ∧
    (onCall (lineOn .ringdown 0 .ringingOut) (.hand .h1) []).line? 0 = some { lineOn .ringdown 0 .ringingOut with parties := [⟨0, .hand .h1⟩] } ∧
    (onCall call (.hand .h1) [⟨1, .hand .h1⟩]).line? 0 = some { call with parties := [⟨0, .hand .h1⟩, ⟨1, .hand .h1⟩] } := by decide
theorem test_witness_ThirdMissDetaches_floor : ((pressedPtt { group0 with talkers := [0] } .talking).pos 0).ptt = some 0 ∧
    vget ((pressedPtt { group0 with talkers := [0] } .talking).pos 0).speaker 0 = .member 0 ∧
    (pressedPtt { group0 with talkers := [0] } .talking).member? 0 = some ⟨0, .position 0 0, .talk, 1, .talking, none⟩ ∧
    (pressedPtt { group0 with talkers := [0] } .talking).group? 0 = some { group0 with talkers := [0], bridge := some 0 } ∧
    ((pressedPtt { group0 with talkers := [9], waiting := [0] } .waiting).pos 0).ptt = some 0 ∧
    vget ((pressedPtt { group0 with talkers := [9], waiting := [0] } .waiting).pos 0).speaker 0 = .member 0 ∧
    (pressedPtt { group0 with talkers := [9], waiting := [0] } .waiting).member? 0 = some ⟨0, .position 0 0, .talk, 1, .waiting, none⟩ := by decide

/-- R49: the three rows: the sole party's line held with no owner even when CLOSED, the caller's line to IDLE, the others keep the call. -/
theorem test_loss_of_lines : (((onCall { call with privacy := .closed } (.hand .h1) []).losePosition 0).line? 0).map
      (fun l => (l.state, l.parties, l.holdOwner, l.timer)) = some (.held, [], none, some ⟨.recallWait, 10000⟩) ∧
    (((onCall (lineOn .ringdown 0 .ringingOut) (.hand .h1) []).losePosition 0).line? 0).map (fun l => (l.state, l.parties, l.timer)) = some (.idle, [], none) ∧
    (((onCall { call with bridge := some 0 } (.hand .h1) [⟨1, .hand .h1⟩]).losePosition 0).line? 0).map (fun l => (l.state, l.parties, l.bridge)) =
      some (.connected, [⟨1, .hand .h1⟩], none) := by decide
theorem test_witness_ThirdMissDetaches : (quiet.pos 0).attached = true ∧ ((idling.modPres 0 (fun x => { x with miss := 2 })).pres 0).miss = 2 ∧
    idling.cycle = .parkOrPoll ∧ two.hasParty 0 = false := by decide
set_option maxRecDepth 20000 in
theorem test_witness_RollCallRoundAssignsOrParks : (linked { admitted with sequence := some rolling }).roundOpen rolling = true ∧
    (0 : Byte) ≠ crc8 (identityBytes someone) ∧ Link.cold.admittedTo someone = none ∧ admitted.admittedTo someone = some 0 ∧
    (Records.cold.pos 0).attached = false ∧ ([] : List Byte) ≠ msgAck ((0 : Fin 48).val + 1) := by decide
set_option maxRecDepth 20000 in
theorem test_witness_RollCallRoundAssignsOrParks_attached : ((linked admitted).recs.pos 0).attached = true ∧
    ({ admitted with sequence := some rolling } : Link).admittedTo someone = some 0 ∧ (crc8 (identityBytes someone)) = crc8 (identityBytes someone) := by decide

set_option maxRecDepth 20000 in
/-- R161: the old attachment is lost and made again in one round; without the ACK the position stays DETACHED. -/
theorem test_round_reattaches : ([msgAck 1, []].map (fun reply =>
    match exec (.rollCallRound someone (crc8 (identityBytes someone)) reply) (linked { admitted with sequence := some rolling }) with
    | .next t => ((t.recs.pos 0).attached, (t.recs.pos 0).selected, t.recs.reasons (.position 0), t.link.sequence.map (fun x => x.attached))
    | _ => (false, none, [], none))) = [(true, none, [.attached, .detached], some 1), (false, none, [.detached], some 0)] := by decide
theorem test_witness_SequenceBeginsAndEnds : (linkAt .window).state = .running ∧ (linkAt .window).sequence = none ∧ (linkAt .window).waits = [] ∧
    ({ linkAt .window with wanted := true } : Link).wanted = true ∧ ({ linkAt .window with waits := [⟨.all, true⟩] } : Link).waits = ⟨.all, true⟩ :: [] ∧
    (linkAt .window).wanted = false ∧ (linked (linkAt .window)).roundOpen rolling = true ∧ ({ rolling with rounds := 64 } : Sequence).rounds = 64 ∧
    ({ rolling with owned := true } : Sequence).owned = true ∧ (linked (linkAt .window)).roundOpen { rolling with rounds := 63, owned := true } = true ∧
    (busy (up quiet) .rollCall).port.executor = some (holdingJob .rollCall) ∧ (busy (up quiet) .rollCall).part = .running := by decide
theorem test_witness_LinkStuckAbandons : (linked (linkAt .output)).resetPin ≠ .coldHeld ∧ (linkAt .output).state = .running ∧
    (⟨true, false⟩ : Wires).dat = false ∧ ({ linkAt .output with txn := some (.output 0 []) } : Link).txn = some (.output 0 []) ∧
    (busy (up quiet) .rollCall).port.executor = some (holdingJob .rollCall) := by decide

theorem test_witness_LinkStuckAbandons_clauses : (linkAt .output).sequence = none ∧ ({ linkAt .output with sequence := some { rolling with owned := true } } : Link).sequence =
      some { rolling with owned := true } ∧ (⟨true, true⟩ : Wires).clk = true ∧ (⟨true, true⟩ : Wires).dat = true ∧
    ({ linkAt .output with waits := [⟨.all, true⟩] } : Link).waits.any (fun x => x.owned) = true ∧
    ({ linkAt .output with waits := [⟨.all, true⟩] } : Link).sequence.all (fun x => !x.owned) = true ∧
    (busy (up quiet) .rollCall).port.executor = some (holdingJob .rollCall) ∧ (holdingJob .rollCall).dropped = false := by decide
theorem test_witness_LinkStuckAbandons_noOutput : ∀ p items, (linkAt .output).txn ≠ some (.output p items) := by intro p items h; cases h

/-! ### Hypotheses that are met: windows, line bus, pools, attention -/

theorem test_witness_SetWindowTakesFields :
    Takes (asking (up quiet) 40 [0, 1, 0, 8, 0, 8, 31, 24, 15]) 40 (record 40 [0, 1, 0, 8, 0, 8, 31, 24, 15]) [] ∧
    WindowFields.judge ⟨1, 8, 8, 31, 24, 15⟩ = some ⟨true, 8, 8, 31, 24, 15⟩ ∧
    (∀ e ∈ quiet.lines, inRanges (vget quiet.windows 0) ⟨true, 8, 8, 31, 24, 15⟩ e.2.port = true → e.2.atRest = true) ∧
    (⟨true, 8, 8, 31, 24, 15⟩ : Window) ≠ vget quiet.windows 0 ∧ window0 = vget quiet.windows 0 ∧
    (∃ e ∈ (floor [(0, lineOn .signalled 0 .held)]).lines, inRanges window0 window0 e.2.port = true ∧ e.2.atRest = false) :=
  ⟨asking_takes _ _ _ (by decide), by decide⟩

theorem test_witness_SetWindowTakesFields_change : ⟨true, 0, 8, 0, 0, 4⟩ ≠ vget quiet.windows 0 ∧ WindowFields.judge ⟨1, 0, 8, 0, 0, 4⟩ = some ⟨true, 0, 8, 0, 0, 4⟩ ∧
    (∃ e ∈ (floor [(0, lineOn .signalled 0 .held)]).lines, inRanges window0 ⟨true, 0, 8, 0, 0, 4⟩ e.2.port = true ∧ e.2.atRest = false) ∧
    quiet.named 0 = true ∧ (quiet.applyWindow 0 ⟨true, 0, 4, 1, 0, 4⟩).named 0 = false ∧ quiet.named 1 = false ∧
    (quiet.applyWindow 0 ⟨true, 0, 4, 1, 0, 4⟩).named 1 = true := by decide

/-- R169: unchanged, on a window in use: DONE. -/
theorem test_set_window_unchanged : ((floor [(0, lineOn .signalled 0 .held)]).setWindow 0 ⟨1, 0, 4, 0, 0, 4⟩).1 = .done ∧
    ((floor [(0, lineOn .signalled 0 .held)]).setWindow 0 ⟨1, 0, 8, 0, 0, 4⟩).1 = .inUse := by decide

/-- Line 0 wants to be seized. -/
def working : Records := { floor [(0, { lineOn .signalled 0 .connected with desired := Cond.call })] with workList := [0] }

theorem test_witness_BusGrantIssuesCommand : (up working).grantee true = some .report ∧ (up working).fetchTarget = some 0 ∧
    (up working).grantee false = some .line ∧ working.workList = 0 :: [] ∧ working.place 0 = some (0, 0) ∧ chooseCommand Cond.call Cond.off = some .seize ∧
    ({ up quiet with bus := { Bus.cold with passSlot := some ⟨31, 31, 16, 0⟩ } } : State).grantee false = some .pass ∧
    (up (quiet.modCard 31 (fun x => { x with probeDue := true }))).grantee false = some .probe ∧
    (quiet.modCard 31 (fun x => { x with probeDue := true })).dueCard = some 31 ∧ working.anyPresent = true ∧ working.inFlight = none := by decide

/-- Both LINE and PASS wait, with these guards. -/
def guarded (pass line : Nat) : State :=
  { up { working with lineGuard := line } with bus := { Bus.cold with passSlot := some ⟨0, 0, 16, 0⟩, passGuard := pass } }

/-- R173: the pass guard rules from 8 on, then the line guard from 4 on; below both the order REPORT, LINE, PASS holds. -/
theorem test_guards : (guarded 7 3).grantee true = some .report ∧ (guarded 7 4).grantee true = some .line ∧ (guarded 8 4).grantee true = some .pass ∧
    (guarded 7 3).grantee false = some .line ∧ (guarded 8 3).grantee false = some .pass ∧ (up Records.cold).grantee true = none := by decide

/-- R178, R180: the first PRESENT card after the pointer, wrapping; the lowest card that is due. -/
theorem test_fetch_and_probe_targets :
    ({ up (quiet.modCard 7 (fun x => { x with present := true })) with bus := { Bus.cold with fetchPtr := 0 } } : State).fetchTarget = some 7 ∧
    ({ up (quiet.modCard 7 (fun x => { x with present := true })) with bus := { Bus.cold with fetchPtr := 7 } } : State).fetchTarget = some 0 ∧
    (up Records.cold).fetchTarget = none ∧ Records.cold.dueCard = none ∧
    ((Records.cold.modCard 9 (fun x => { x with probeDue := true })).modCard 4 (fun x => { x with probeDue := true })).dueCard = some 4 := by decide

/-- This job is in flight to card 0. -/
def flying (j : BusJob) (r : Records) : Records := { r with inFlight := some ⟨j, 0, 0, 4, 4⟩ }

theorem test_witness_LineCommandOutcomes : (flying (.line 0 .seize) working).lineOfChannel 0 0 0 = true ∧
    (flying (.line 0 .seize) working).lineOfChannel 1 0 0 = false ∧ (flying (.line 0 .release) working).inFlight = some ⟨.line 0 .release, 0, 0, 4, 4⟩ := by
  decide
theorem test_witness_FetchDelivers : (flying .fetch quiet).inFlight = some ⟨.fetch, 0, 0, 4, 4⟩ ∧ Report.ofNat? (1 : Byte).toNat = some .ringInStart ∧
    Report.ofNat? (6 : Byte).toNat = some .portRestored ∧ (31 : Byte).toNat ≤ 31 ∧ (quiet.responded 0).lineAt 0 0 = some 0 ∧ 31 < (32 : Byte).toNat ∧
    (quiet.responded 0).lineAt 0 31 = none ∧ (quiet.card 0).present = true := by decide
theorem test_witness_FetchDelivers_reports : (floor [(0, lineOn .signalled 0 .idle)]).line? 0 = some (lineOn .signalled 0 .idle) ∧
    (lineOn .signalled 0 .idle).type ≠ .openLine ∧ (lineOn .openLine 0 .idle).type = .openLine ∧
    (floor [(0, lineOn .ringdown 0 .ringingIn)]).line? 0 = some (lineOn .ringdown 0 .ringingIn) ∧ (lineOn .ringdown 0 .ringingIn).type = .ringdown ∧
    (lineOn .ringdown 0 .ringingOut).state = .ringingOut ∧ (lineOn .signalled 0 .held).type ≠ .ringdown ∧
    (lineOn .signalled 0 (.outOfService .portFault)).state = .outOfService .portFault ∧
    (floor [(0, lineOn .openLine 0 (.outOfService .portFault))]).circuitOf 0 = none ∧ (7 : Byte) = 7 ∧ (Records.cold.card 0).present = false ∧
    (0 : Byte).toNat = 0 ∧ 7 < (8 : Byte).toNat := by decide

/-- Line 0 OPEN and a CIRCUIT member of group 0. -/
def circuit (l : Line) : Records :=
  { floor [(0, l)] with groups := [(0, group0)], members := [(4, ⟨0, .circuit 0, .talk, 0, .idle, none⟩)] }

theorem test_witness_FetchDelivers_circuits : (circuit (lineOn .openLine 0 (.outOfService .portFault))).circuitOf 0 = some 4 ∧
    (circuit (lineOn .openLine 0 (.outOfService .portFault))).lowestSlot = some 0 ∧ (lineOn .openLine 0 (.outOfService .portFault)).slot = none ∧
    (circuit { lineOn .openLine 0 .connected with slot := some 3 }).line? 0 = some { lineOn .openLine 0 .connected with slot := some 3 } ∧
    ((circuit (lineOn .openLine 0 .connected)).place (lineOn .openLine 0 .connected).port).map (·.1) = some 0 ∧
    (circuit (lineOn .openLine 0 .connected)).inFlight = none ∧ 0 ∉ quiet.linesOfCard 1 ∧ quiet.slotDue 0 = false ∧ quiet.circuitOf 0 = none ∧
    (lineOn .signalled 0 .idle).desired = Cond.off := by decide
set_option maxRecDepth 20000 in
theorem test_witness_FetchDelivers_noSlot :
    ({ circuit (lineOn .openLine 0 (.outOfService .portFault)) with slots := (List.range 128).map (fun i => (i, 200)) } : Records).lowestSlot = none := by decide

/-- R44: a ring in starts the RING timer; R35: its stop on a RINGDOWN line is a missed call. -/
theorem test_reports : ((quiet.report .ringInStart 0).line? 0).map (fun l => (l.state, l.timer)) = some (.ringingIn, some ⟨.ring, 10000⟩) ∧
    (((floor [(0, lineOn .ringdown 0 .ringingIn)]).report .ringInStop 0).line? 0).map (fun l => (l.state, l.missed)) = some (.idle, true) := by decide

/-- The cards stage, card 0 the last to be served. -/
def lastCard (j : BusJob) : State := { up (flying j quiet) with part := .startingCards, bus := { Bus.cold with stageCards := [0] } }

theorem test_witness_ProbesBringCardsBack_stage : (lastCard .probe).part = .startingCards ∧ (lastCard .probe).recs.inFlight = some ⟨.probe, 0, 0, 4, 4⟩ ∧
    (lastCard .cardClear).recs.inFlight = some ⟨.cardClear, 0, 0, 4, 4⟩ ∧ (lastCard .probe).bus.stageCards.filter (fun i => !(i == (0 : Fin 32).val)) = [] ∧
    ([0, 1] : List Nat).filter (fun i => !(i == (0 : Fin 32).val)) ≠ [] ∧ (⟨true, true⟩ : Wires).clk = true ∧ (⟨true, true⟩ : Wires).dat = true ∧
    (⟨true, false⟩ : Wires).dat = false ∧ (flying .probe Records.cold).named 0 = false := by decide
theorem test_witness_ProbesBringCardsBack_return : (floor [(0, lineOn .signalled 0 (.outOfService .noCard))]).line? 0 = some (lineOn .signalled 0 (.outOfService .noCard)) ∧
    ((floor [(0, lineOn .signalled 0 (.outOfService .noCard))]).place 0).map (·.1) = some 0 ∧
    (floor [(0, lineOn .signalled 0 (.outOfService .noCard))]).circuitOf 0 = none ∧
    (circuit (lineOn .openLine 0 (.outOfService .noCard))).circuitOf 0 ≠ none ∧ (lineOn .signalled 0 .idle).state ≠ .outOfService .noCard := by decide

/-- R180: the card is back and its line in service. -/
theorem test_return_card : (((floor [(0, lineOn .signalled 0 (.outOfService .noCard))]).returnCard 0).line? 0).map (fun l => l.state) = some .idle := by decide
theorem test_witness_ProbesBringCardsBack : (up quiet).part ≠ .startingCards ∧ (up quiet).bus.stageCards = [] ∧ quiet.named 0 = true ∧
    (flying .probe quiet).inFlight = some ⟨.probe, 0, 0, 4, 4⟩ ∧ (flying .cardClear quiet).inFlight = some ⟨.cardClear, 0, 0, 4, 4⟩ ∧
    ({ Bus.cold with probeTimer := some 1 } : Bus).probeTimer = some 1 := by decide
theorem test_witness_PassHoldsAndCompletes : Takes (asking (up quiet) 43 [31, 31, 16, 0]) 43 (record 43 [31, 31, 16, 0]) [] ∧
    Takes (asking (up quiet) 43 [0, 0, 7, 0]) 43 (record 43 [0, 0, 7, 0]) [] ∧ (31 : Byte).toNat = (31 : Fin 32).val ∧ (31 : Byte).toNat ≤ 31 ∧
    16 ≤ (16 : Byte).toNat ∧ (7 : Byte).toNat = 7 ∧ (flying .pass quiet).inFlight = some ⟨.pass, 0, 0, 4, 4⟩ ∧
    (busy (up quiet) .pass).port.executor = some (holdingJob .pass) :=
  ⟨asking_takes _ _ _ (by decide), asking_takes _ _ _ (by decide), by decide⟩
theorem test_witness_NoResponseCountsMiss : (flying .fetch quiet).inFlight = some ⟨.fetch, 0, 0, 4, 4⟩ ∧ (quiet.card 0).present = true ∧
    (quiet.card 0).miss < 2 ∧ ((quiet.modCard 0 (fun x => { x with miss := 2 })).card 0).miss = 2 ∧ quiet.place 0 = some (0, 0) := by decide
theorem test_witness_NoResponseCountsMiss_others : (flying .pass quiet).inFlight = some ⟨.pass, 0, 0, 4, 4⟩ ∧ (flying (.line 0 .seize) quiet).inFlight =
      some ⟨.line 0 .seize, 0, 0, 4, 4⟩ ∧ (flying .cleanup quiet).inFlight = some ⟨.cleanup, 0, 0, 4, 4⟩ ∧ (flying .probe quiet).inFlight = some ⟨.probe, 0, 0, 4, 4⟩ ∧
    (up quiet).part ≠ .startingCards ∧ (up quiet).bus.stageCards = [] ∧ (Records.cold.card 0).present = false ∧
    (busy (up quiet) .pass).port.executor = some (holdingJob .pass) ∧ ({ holdingJob .pass with dropped := true } : Held).dropped = true := by decide
theorem test_witness_SetReserveServes : Takes (asking (up quiet) 44 [16]) 44 (record 44 [16]) [] ∧ Takes (asking (up quiet) 44 [0]) 44 (record 44 [0]) [] ∧
    quiet.reserve ≤ (16 : Byte).toNat ∧ (0 : Byte).toNat < quiet.reserve :=
  ⟨asking_takes _ _ _ (by decide), asking_takes _ _ _ (by decide), by decide⟩


/-- Group 0 waits for a bridge with member 0 waiting, 61 bridges held by lines, a reserve of 4. -/
def awaiting : Records :=
  { grouped .talk { group0 with waiting := [0], inWaitList := true } with
    bridges := (List.range 61).map (fun i => (i, .line 5)), waitList := [0] }

theorem test_witness_SetReserveServes_waiting : (2 : Byte).toNat < awaiting.reserve ∧ (2 : Byte).toNat ≤ 16 ∧ awaiting.waitList.Nodup ∧
    awaiting.group? 0 = some { group0 with waiting := [0], inWaitList := true } ∧ awaiting.waitList[0]? = some 0 := by decide

/-- R108: the lowered reserve serves the group with the lowest FREE bridge and its grant pass gives the floor. -/
theorem test_reserve_serves : (((awaiting.setReserve 2).2.group? 0).map (fun g => (g.bridge, g.talkers)), (awaiting.setReserve 2).2.waitList) =
    (some (some 61, [0]), []) := by decide

/-- 21 level bytes that change none. -/
def keep21 : List Byte := List.replicate 21 0xFF

theorem test_witness_AttentionRequestsAct : Takes (asking (up quiet) 48 (keep21 ++ [15, 1])) 48 (record 48 (keep21 ++ [15, 1])) [] ∧
    Takes (asking (up quiet) 49 []) 49 (record 49 []) [] ∧ newLevels keep21 levelsReset.toList = some levelsReset.toList ∧ nibbleOf? 15 0 = some 15 ∧
    enableOf? 1 false = some true ∧ chooseEntry Port.cold [(.part, [.image])] = some (.part, [.image], 9) ∧ chooseEntry Port.cold [] = none :=
  ⟨asking_takes _ _ _ (by decide), asking_takes _ _ _ (by decide), by decide⟩

/-- R195: of two entries of one level the first stands, of two levels the higher. -/
theorem test_choose_entry : chooseEntry { Port.cold with levels := Vector.replicate 21 3 } [(.part, [.image]), (.link, [.stuck])] = some (.part, [.image], 3) ∧
    chooseEntry { Port.cold with levels := vset (Vector.replicate 21 3) 1 5 } [(.part, [.image]), (.link, [.stuck])] = some (.link, [.stuck], 5) := by decide
theorem test_witness_AttentionRequestsAct_entries : Port.cold.entryLevel [.image] = some 9 ∧
    ([(.part, [.image]), (.link, [.stuck])] : List (Entry × List Reason)).Pairwise (fun a b => a.1.rank ≤ b.1.rank) ∧ (31 : Nat) < 32 ∧ (47 : Nat) < 48 ∧
    (255 : Nat) < 256 ∧ (0 : Nat) < 1 := by decide
theorem test_witness_AttnFollowsAttentionTable_status : (midStatus [0, 16, 0]).resetPin = .released ∧ (midStatus [0, 16, 0]).port.status.length = 3 ∧
    Port.cold.mask < 9 := by decide
theorem test_witness_AttnFollowsAttentionTable : State.reset.resetPin ≠ .coldHeld ∧ State.reset.resetPin = .released ∧
    attentionPending Port.cold [(.part, [.image])] = true ∧ attentionPending Port.cold [] = false := by decide

/-! ### Hypotheses that are met: timers, audio, derived values -/

theorem test_witness_TimerExpiriesAct :
    (floor [(0, { lineOn .ringdown 0 .ringingOut with timer := some ⟨.ring, 1⟩ })]).line? 0 = some { lineOn .ringdown 0 .ringingOut with timer := some ⟨.ring, 1⟩ } ∧
    (floor [(0, { lineOn .ringdown 0 .held with timer := some ⟨.recallWait, 1⟩ })]).line? 0 = some { lineOn .ringdown 0 .held with timer := some ⟨.recallWait, 1⟩ } ∧
    (floor [(0, { lineOn .signalled 0 .connected with timer := some ⟨.ringBurst, 1⟩ })]).line? 0 =
      some { lineOn .signalled 0 .connected with timer := some ⟨.ringBurst, 1⟩ } ∧
    ((grouped .talk group0).setMember 0 ⟨0, .position 0 0, .talk, 1, .talking, some 1⟩).member? 0 = some ⟨0, .position 0 0, .talk, 1, .talking, some 1⟩ := by
  decide

/-- Line 0 with this timer, position 0 its caller on H1. -/
def calling (keys : Bool) (st : LineState) (k : TimerKind) : Records :=
  let r := onCall { lineOn .ringdown 0 st with timer := some ⟨k, 1⟩ } (.hand .h1) []
  if keys then r else { r with appearances := [] }

theorem test_witness_TimerExpiriesAct_ring : (floor [(0, { lineOn .ringdown 0 .ringingIn with timer := some ⟨.ring, 1⟩ })]).line? 0 =
      some { lineOn .ringdown 0 .ringingIn with timer := some ⟨.ring, 1⟩ } ∧
    (calling true .ringingOut .ring).line? 0 = some { lineOn .ringdown 0 .ringingOut with timer := some ⟨.ring, 1⟩, parties := [⟨0, .hand .h1⟩] } ∧
    (calling true .ringingOut .ring).bound 0 (.hand .h1) = .line 0 ∧ ((calling true .ringingOut .ring).pos 0).attached = true ∧
    (calling true .ringingOut .ring).appearanceOfLineAt 0 0 = some key3 ∧ (calling false .ringingOut .ring).appearanceOfLineAt 0 0 = none ∧
    (((calling false .ringingOut .ring).modPos 0 (fun x => { x with attached := false })).pos 0).attached = false := by decide
theorem test_witness_TimerExpiriesAct_recall : (lineOn .ringdown 0 .held).lifecycle ≠ .retiring ∧
    (floor [(0, { lineOn .ringdown 0 .held with lifecycle := .retiring, timer := some ⟨.recallWait, 1⟩ })]).line? 0 =
      some { lineOn .ringdown 0 .held with lifecycle := .retiring, timer := some ⟨.recallWait, 1⟩ } := by decide
theorem test_witness_TimerExpiriesAct_talk :
    ((pressedPtt { group0 with talkers := [0] } .talking).setMember 0 ⟨0, .position 0 0, .talk, 1, .talking, some 1⟩).member? 0 =
      some ⟨0, .position 0 0, .talk, 1, .talking, some 1⟩ ∧
    (pressedPtt { group0 with talkers := [0] } .talking).group? 0 = some { group0 with talkers := [0], bridge := some 0 } := by decide

/-- Member 0 talks with member 9 waiting in its group, its talk timer about to run out. -/
def endingTalk : Records :=
  ((pressedPtt { group0 with talkers := [0], waiting := [9] } .talking).setMember 0 ⟨0, .position 0 0, .talk, 1, .talking, some 1⟩).setMember 9
    ⟨0, .position 1 0, .talk, 1, .waiting, none⟩

/-- R93, R89: the talk time over, the floor goes to the one who waits, and ptt_channel stays. -/
theorem test_talk_expiry : (match exec (.talkTimerExpiry 0) (up endingTalk) with
    | .next t => decide ((t.recs.group? 0).map (fun g => (g.talkers, g.waiting)) = some ([9], []) ∧ (t.recs.pos 0).ptt = some 0)
    | _ => false) = true := by decide
/-- R96: the talker's position lost, the floor goes to the one who waits; a waiting member's position lost, it leaves the waiting list. -/
theorem test_loss_of_floor : ((endingTalk.losePosition 0).group? 0).map (fun g => (g.talkers, g.waiting)) = some ([9], []) ∧
    (((pressedPtt { group0 with talkers := [9], waiting := [0, 8] } .waiting).losePosition 0).group? 0).map (fun g => (g.talkers, g.waiting)) =
      some ([9], [8]) := by decide
theorem test_witness_AudioFrameComputes : (up quiet).part ≠ .startingImage ∧ Table.find quiet.slots 127 = none ∧
    Table.find ({ talking two with slots := [(127, 0)] } : Records).slots 127 = some 0 ∧ (talking two).line? 0 = some two ∧ two.bridge ≠ none ∧
    two.state.isOos = false ∧ (((talking two).modPos 1 (fun x => { x with hand1 := some 0 })).pos 1).hand1 = some 0 ∧
    two.parties.find? (fun y => y.pos == 1) = some ⟨1, .hand .h1⟩ := by decide
theorem test_witness_AudioFrameComputes_paths : ({ call with slot := some 5, acknowledged := Cond.call } : Line).slot = some (5 : Fin 128).val ∧
    Cond.call.audio = true ∧ (lineOn .signalled 0 .idle).slot = none ∧ (quiet.pos 1).attached = false ∧ (quiet.pos 0).attached = true ∧
    ({ onCall call (.hand .h1) [] with slots := [(5, 0)] } : Records).line? 0 = some { call with parties := [⟨0, .hand .h1⟩] } ∧
    call.bridge = none ∧ call.type ≠ .openLine ∧ call.state = .connected ∧ (lineOn .signalled 0 .held).state = .held ∧
    (circuit (lineOn .openLine 0 .connected)).circuitOf 0 = some 4 ∧
    (circuit (lineOn .openLine 0 .connected)).member? 4 = some ⟨0, .circuit 0, .talk, 0, .idle, none⟩ ∧
    (circuit (lineOn .openLine 0 .connected)).group? 0 = some group0 ∧ group0.bridge = none ∧
    (floor [(0, lineOn .openLine 0 .connected)]).circuitOf 0 = none ∧ (pressedPtt { group0 with talkers := [0] } .talking).bound 0 (.spk 0) = .member 0 ∧
    (pressedPtt { group0 with talkers := [0] } .talking).group? 0 = some { group0 with talkers := [0], bridge := some 0 } ∧
    (onCall call (.hand .h1) []).bound 0 (.hand .h1) = .line 0 ∧
    ({ call with parties := [⟨0, .hand .h1⟩] } : Line).parties.find? (fun y => y.pos == 0) = some ⟨0, .hand .h1⟩ := by decide
theorem test_witness_LampFollowsLine : (talking one).appearanceAt 0 3 = some key3 ∧ (talking one).appearanceAt 0 4 = none ∧ (talking one).line? 0 = some one ∧
    one.hasParty 0 = false ∧ one.privacy = .shared ∧ key3.ringMode ≠ .silent := by decide
theorem test_witness_AudibleFlagExactly : (talking one).line? key3.line = some one ∧ OutItem.lamp 3 .off false ∈ lampDue.buildItems 0 := by decide
theorem test_witness_invariants : step State.reset = .next State.reset.tick ∧ QueuesFit State.reset ∧ NoSlotDue State.reset :=
  ⟨rfl, ⟨by decide, by decide, by decide⟩, fun _ => rfl⟩

end Sys2Proof.Tests
end

section
/-!
Settles O2, O52 and O53: the step on an empty queue, the lamp and the audible flag.
-/
namespace Sys2Proof.Machine

/-! ### One millisecond on an empty queue (log 2) -/

/-- The passing of idle link steps leaves everything but the link's cycle step alone. -/
theorem settleCycle_eq (s : State) : s.settleCycle = { s with link := s.settleCycle.link } := by
  unfold State.settleCycle
  split <;> rfl

/-- On an empty queue the step lets one millisecond pass, while no cold start holds the block. -/
theorem step_of_empty {s : State} (he : s.pending = []) (hup : s.resetPin ≠ .coldHeld) : step s = .next (s.advance 1).settleCycle := by
  have htick : s.tick = (s.advance 1).settleCycle := if_neg hup
  rw [← htick]
  unfold step
  rw [he]

@[simp] theorem line?_elapse (ms : Nat) (r : Records) (id : Nat) : (r.elapse ms).line? id = (r.line? id).map (Line.elapse ms) :=
  Table.find_map (Line.elapse ms) r.lines id

@[simp] theorem member?_elapse (ms : Nat) (r : Records) (m : Nat) : (r.elapse ms).member? m = (r.member? m).map (Member.elapse ms) :=
  Table.find_map (Member.elapse ms) r.members m

/-- Settles O2: the step is one millisecond's advance, whose records are those of `Records.elapse`. -/
theorem emptyQueuePassesOneMillisecond : Obligations.EmptyQueuePassesOneMillisecond := by
  intro s he hup
  refine ⟨_, step_of_empty he hup, ?_⟩
  rw [settleCycle_eq]
  exact ⟨rfl, rfl, rfl, rfl, rfl, he, line?_elapse 1 s.recs, member?_elapse 1 s.recs, rfl⟩

/-! ### Joinability (R18) -/

/-- R18: a line is joinable exactly when it is SHARED, or the appearance may barge in, and it has room. -/
theorem joinRefusal_eq_none {l : Line} {barge : Bool} :
    joinRefusal l barge = none ↔ (l.privacy = .shared ∨ barge = true) ∧ l.parties.length < l.maxParties := by
  unfold joinRefusal
  cases l.privacy <;> cases barge <;> simp

/-- R18: a line that is not SHARED refuses an appearance that may not barge in. -/
theorem joinRefusal_closed {l : Line} {barge : Bool} (hp : l.privacy = .closed) (hb : barge = false) :
    joinRefusal l barge = some .privateBusy := if_pos ⟨hp, hb⟩

/-- R18: a line open to the appearance refuses it when it has no room. -/
theorem joinRefusal_full {l : Line} {barge : Bool} (hopen : l.privacy = .shared ∨ barge = true) (hfull : l.maxParties ≤ l.parties.length) :
    joinRefusal l barge = some .full := by
  have hn : ¬ (l.privacy = .closed ∧ barge = false) := by
    rintro ⟨hp, hb⟩
    simp [hp, hb] at hopen
  unfold joinRefusal
  rw [if_neg hn, if_pos hfull]

/-! ### The lamp, state by state (R21) -/

section
variable {l : Line} {a : Appearance}

theorem lampOf_outOfService {why : OosReason} (hs : l.state = .outOfService why) : lampOf l a = .fault := by simp [lampOf, hs]

theorem lampOf_idle (hs : l.state = .idle) : lampOf l a = if l.missed then .missed else .off := by simp [lampOf, hs]

/-- R21, R20: a line that rings in shows as an IDLE one where the appearance is SILENT. -/
theorem lampOf_ringingIn (hs : l.state = .ringingIn) :
    lampOf l a = if a.ringMode = .silent then (if l.missed then .missed else .off) else .ring := by
  cases hm : a.ringMode <;> simp [lampOf, hs, hm]

theorem lampOf_ringingOut (hs : l.state = .ringingOut) : lampOf l a = if l.hasParty a.pos then .outgoing else .busy := by
  simp [lampOf, hs]

/-- R21, R18: to a position that is no party a CONNECTED line shows whether it could join. -/
theorem lampOf_connected (hs : l.state = .connected) :
    lampOf l a = if l.hasParty a.pos then .mine
      else if (l.privacy = .shared ∨ a.barge = true) ∧ l.parties.length < l.maxParties then .joinable else .busy := by
  simp only [lampOf, hs, Option.isNone_iff_eq_none, joinRefusal_eq_none]

theorem lampOf_held_owned {q : Fin 48} (hs : l.state = .held) (ho : l.holdOwner = some q) :
    lampOf l a = if q = a.pos then .heldMine else .heldOther := by simp [lampOf, hs, ho]

theorem lampOf_held_open (hs : l.state = .held) (ho : l.holdOwner = none) : lampOf l a = .heldOpen := by simp [lampOf, hs, ho]

/-- R21, R20: a recalled line shows as one held for anyone where the appearance is SILENT. -/
theorem lampOf_recall (hs : l.state = .recall) : lampOf l a = if a.ringMode = .silent then .heldOpen else .recall := by
  cases hm : a.ringMode <;> simp [lampOf, hs, hm]

end

/-- R19: an appearance shows the lamp of its line, and the flag of that lamp. -/
theorem lampAudible_of_line {r : Records} {a : Appearance} {l : Line} (hl : r.line? a.line = some l) :
    r.lampAudible a = (lampOf l a, audibleOf (lampOf l a) a.ringMode) := by simp [Records.lampAudible, hl]

theorem lampAt_of_appearance {r : Records} {p : Fin 48} {k : Nat} {a : Appearance} (ha : r.appearanceAt p k = some a) :
    r.lampAt p k = r.lampAudible a := by simp [Records.lampAt, ha]

theorem lampAt_of_none {r : Records} {p : Fin 48} {k : Nat} (ha : r.appearanceAt p k = none) : r.lampAt p k = (.off, false) := by
  simp [Records.lampAt, ha]

/-- Settles O52: the lamp of a key is that of its appearance's line, and that lamp is read off state by state. -/
theorem lampFollowsLine : Obligations.LampFollowsLine := by
  refine ⟨fun r p k ha => by rw [lampAt_of_none ha],
    fun r p k a l ha hl => by rw [lampAt_of_appearance ha, lampAudible_of_line hl], fun l a => ?_⟩
  refine ⟨fun _ => lampOf_outOfService, lampOf_idle, ?ring, ?silent, lampOf_ringingOut, ?mine, ?joinable, ?busy, ?heldMine, ?heldOther,
    lampOf_held_open, ?recalled, ?recalledSilent⟩
  case ring => intro hs hm; rw [lampOf_ringingIn hs, if_neg hm]
  case silent => intro hs hm; rw [lampOf_ringingIn hs, if_pos hm]
  case mine => intro hs hp; rw [lampOf_connected hs, if_pos hp]
  case joinable => intro hs hp hj; rw [lampOf_connected hs, if_neg (Bool.eq_false_iff.mp hp), if_pos hj]
  case busy => intro hs hp hj; rw [lampOf_connected hs, if_neg (Bool.eq_false_iff.mp hp), if_neg hj]
  case heldMine => intro hs ho; rw [lampOf_held_owned hs ho, if_pos rfl]
  case heldOther => intro q hs ho hq; rw [lampOf_held_owned hs ho, if_neg hq]
  case recalled => intro hs hm; rw [lampOf_recall hs, if_neg hm]
  case recalledSilent => intro hs hm; rw [lampOf_recall hs, if_pos hm]

/-! ### The audible flag (R22) -/

theorem audibleOf_eq_true {lamp : Lamp} {m : RingMode} : audibleOf lamp m = true ↔ (lamp = .ring ∨ lamp = .recall) ∧ m = .audible := by
  simp [audibleOf]

/-- R72: a lamp item is one of the position's pending lamps, with what that lamp shows as the OUTPUT is built. -/
theorem lamp_of_mem_buildItems {r : Records} {p : Fin 48} {k : Nat} {lamp : Lamp} {audible : Bool}
    (h : OutItem.lamp k lamp audible ∈ r.buildItems p) : k ∈ (r.pos p).lampPending ∧ (lamp, audible) = r.lampAt p k := by
  have hmem := List.mem_of_mem_take h
  simp only [List.mem_append, List.mem_filterMap, List.mem_map, Option.map_eq_some_iff] at hmem
  rcases hmem with (hrefusal | ⟨n, _, c, _, hchannel⟩) | ⟨j, hj, hlamp⟩
  · split at hrefusal <;> simp at hrefusal
  · cases hchannel
  · cases hlamp
    exact ⟨hj, rfl⟩

/-- Settles O53: the flag is a test of the lamp and the ring_mode, and a lamp item is built from the lamp as it stands. -/
theorem audibleFlagExactly : Obligations.AudibleFlagExactly := by
  refine ⟨fun r a l hl => ?_, fun r p k lamp audible h => (lamp_of_mem_buildItems h).2⟩
  rw [lampAudible_of_line hl]
  exact audibleOf_eq_true

end Sys2Proof.Machine
end

section
/-!
Settles O25: a press on a line key that joins a CONNECTED line, acts on the position's own line, or first auto-holds the line on the selected handset.
-/
namespace Sys2Proof.Machine

/-! ### How a press is judged (R26) -/

/-- The shortage reason belongs to NO_PATH and NO_BRIDGE alone. -/
theorem raiseShortage_other {q : KeyRefusal} (hb : q ≠ .noBridge) (hp : q ≠ .noPath) (r : Records) : r.raiseShortage q = r := by
  simp [Records.raiseShortage, hb, hp]

theorem pressLine_error {r : Records} {p : Fin 48} {k : Nat} {q : KeyRefusal} (h : r.judgePress p k = .error q) :
    r.pressLine p k = (r.raiseShortage q, some q) := by simp [Records.pressLine, h]

theorem pressLine_ok {r : Records} {p : Fin 48} {k : Nat} {plan : PressPlan} (h : r.judgePress p k = .ok plan) :
    r.pressLine p k = (r.applyPress p plan, none) := by simp [Records.pressLine, h]

/-- R26, checks 4 to 7: the states of a line that let in a position that is no party of it. -/
theorem stateRefusal_eq_none {l : Line} {a : Appearance} :
    stateRefusal l a = none ↔
      (l.state = .connected ∧ (l.privacy = .shared ∨ a.barge = true) ∧ l.parties.length < l.maxParties) ∨
      (l.state = .idle ∧ l.lifecycle = .defined) ∨ (l.state = .ringingIn ∨ l.state = .recall) ∨
      (l.state = .held ∧ (l.holdOwner = none ∨ l.holdOwner = some a.pos)) := by
  cases hs : l.state with
  | idle => cases hc : l.lifecycle <;> simp [stateRefusal, hs, hc]
  | connected => simp [stateRefusal, hs, joinRefusal_eq_none]
  | held => cases ho : l.holdOwner <;> simp [stateRefusal, hs, ho]
  | _ => simp [stateRefusal, hs]

theorem stateRefusal_connected {l : Line} (hs : l.state = .connected) (a : Appearance) : stateRefusal l a = joinRefusal l a.barge := by
  simp [stateRefusal, hs]

/-- R28: a line that would need a slot, with none FREE, is refused NO_PATH. -/
theorem resourceRefusal_noPath {r : Records} {l : Line} (hs : l.state = .idle ∨ l.state = .ringingIn) (hslot : l.slot = none)
    (hfree : r.lowestSlot = none) : r.resourceRefusal l = some .noPath := if_pos ⟨hs, by simp [hslot], by simp [hfree]⟩

/-- R28: a line whose join would need a bridge, with none FREE, is refused NO_BRIDGE. -/
theorem resourceRefusal_noBridge {r : Records} {l : Line} (hs : l.state = .connected) (hone : l.parties.length = 1)
    (hfree : r.freeBridges = 0) : r.resourceRefusal l = some .noBridge := by
  simp [Records.resourceRefusal, hs, hone, hfree]

/-- R28: the pools refuse a press exactly for want of a slot that it needs, or of a bridge that it needs. -/
theorem resourceRefusal_eq_none {r : Records} {l : Line} :
    r.resourceRefusal l = none ↔
      (l.state = .idle ∨ l.state = .ringingIn → l.slot = none → r.lowestSlot ≠ none) ∧
      (l.state = .connected → l.parties.length = 1 → r.freeBridges ≠ 0) := by
  unfold Records.resourceRefusal
  cases hs : l.state <;> cases l.slot <;> cases r.lowestSlot <;> simp

/-- R28: a line with a slot at hand is refused by the pools only for a bridge, which is a CONNECTED line's need. -/
theorem resourceRefusal_of_slot {r : Records} {l : Line} {slot : Nat} (hslot : l.slot = some slot ∨ (l.slot = none ∧ r.lowestSlot = some slot))
    (hs : l.state ≠ .connected) : r.resourceRefusal l = none := by
  refine resourceRefusal_eq_none.mpr ⟨fun _ hnone => ?_, fun hc => absurd hc hs⟩
  rcases hslot with hslot | ⟨_, hlow⟩
  · rw [hnone] at hslot
    cases hslot
  · simp [hlow]

/-- R28: no other line stands on the press's handset. -/
theorem autoHold_of_free {r : Records} {p : Fin 48} {ch : Channel} (hb : r.bound p ch = .none) (id : Nat) : r.autoHold p ch id = .ok none := by
  cases ch with
  | spk n => rfl
  | hand h => simp [Records.autoHold, handLine_of_bound_none hb]

/-- R28: another line on the press's handset is to be held first, unless it is RINGING_OUT. -/
theorem autoHold_of_bound {r : Records} {p : Fin 48} {h : Handset} {id id0 : Nat} {l0 : Line} (hb : r.bound p (.hand h) = .line id0)
    (hne : id0 ≠ id) (hl0 : r.line? id0 = some l0) :
    r.autoHold p (.hand h) id = if l0.state = .ringingOut then .error .notNow else .ok (some id0) := by
  simp [Records.autoHold, handLine_of_bound hb, hne, hl0]

/-- R27: the channel of the appearance's route, where it can take the press: the selected handset, or the speaker channel that is free. -/
theorem pressChannel_of_route {r : Records} {p : Fin 48} {route : Route} {ch : Channel}
    (hroute : (∃ h, route = .handset ∧ (r.pos p).selected = some h ∧ ch = .hand h) ∨ (∃ n, route = .speaker n ∧ ch = .spk n))
    (hb : r.bound p ch = .none) (id : Nat) : r.pressChannel p route id = .ok ch := by
  rcases hroute with ⟨h, rfl, hsel, rfl⟩ | ⟨n, rfl, rfl⟩
  · simp [Records.pressChannel, hsel]
  · have hb' : vget (r.pos p).speaker n = .none := hb
    simp [Records.pressChannel, hb']

/-! ### A press at a position that is no party -/

/-- R26, check 3: an OUT_OF_SERVICE line is among those that the state refuses. -/
theorem isOos_of_stateRefusal {l : Line} {a : Appearance} (h : stateRefusal l a = none) : l.state.isOos = false := by
  cases hs : l.state <;> simp_all [stateRefusal, LineState.isOos]

section
variable {r : Records} {p : Fin 48} {k id : Nat} {a : Appearance} {l : Line}
  (ha : r.appearanceAt p k = some a) (hid : a.line = id) (hl : r.line? id = some l)
include ha hid hl

/-- R26: the line's state refuses the press. -/
theorem judgePress_state {q : KeyRefusal} (hos : l.state.isOos = false) (hp : l.hasParty p = false) (hq : stateRefusal l a = some q) :
    r.judgePress p k = .error q := by
  subst hid
  simp [Records.judgePress, ha, hl, hos, partyChannel_none hp, hq]

/-- R28: the line to be held first refuses the press. -/
theorem judgePress_hold {ch : Channel} {q : KeyRefusal} (hp : l.hasParty p = false) (hst : stateRefusal l a = none)
    (hch : r.pressChannel p a.route id = .ok ch) (hh : r.autoHold p ch id = .error q) : r.judgePress p k = .error q := by
  subst hid
  simp [Records.judgePress, ha, hl, isOos_of_stateRefusal hst, partyChannel_none hp, hst, hch, hh]

/-- R28: the pools refuse the press, or it is taken, on its channel and after the hold. -/
theorem judgePress_resource {ch : Channel} {hold : Option Nat} (hp : l.hasParty p = false) (hst : stateRefusal l a = none)
    (hch : r.pressChannel p a.route id = .ok ch) (hh : r.autoHold p ch id = .ok hold) :
    (∀ q, r.resourceRefusal l = some q → r.judgePress p k = .error q) ∧
    (r.resourceRefusal l = none → r.judgePress p k = .ok (.act id ch hold)) := by
  subst hid
  constructor
  · intro q hq
    simp [Records.judgePress, ha, hl, isOos_of_stateRefusal hst, partyChannel_none hp, hst, hch, hh, hq]
  · intro hq
    simp [Records.judgePress, ha, hl, isOos_of_stateRefusal hst, partyChannel_none hp, hst, hch, hh, hq]

/-- R29: the press is judged as one on the position's own line. -/
theorem judgePress_own {ch : Channel} (hos : l.state.isOos = false) (hp : l.partyChannel p = some ch) :
    r.judgePress p k = r.judgeOwn p id ch := by
  subst hid
  simp [Records.judgePress, ha, hl, hos, hp]

end

/-! ### The action of a line's state (R26) -/

section
variable {r : Records} {id : Nat} {l : Line} (hl : r.line? id = some l) (p : Fin 48) (ch : Channel)
include hl

theorem actOnLine_idle (hs : l.state = .idle) : r.actOnLine p ch id = r.seizeLine p ch id l := by simp [Records.actOnLine, hl, hs]

theorem actOnLine_answer (hs : l.state = .ringingIn ∨ l.state = .recall) : r.actOnLine p ch id = r.answerLine p ch id := by
  rcases hs with hs | hs <;> simp [Records.actOnLine, hl, hs]

theorem actOnLine_connected (hs : l.state = .connected) : r.actOnLine p ch id = r.joinLine p ch id l := by simp [Records.actOnLine, hl, hs]

theorem actOnLine_held (hs : l.state = .held) : r.actOnLine p ch id = r.retrieveLine p ch id := by simp [Records.actOnLine, hl, hs]

end

/-! ### Joining (R18, R37, R104) -/

section
variable {r : Records} {p : Fin 48} {k id : Nat} {a : Appearance} {l : Line} {ch : Channel}
  (ha : r.appearanceAt p k = some a) (hid : a.line = id) (hl : r.line? id = some l) (hs : l.state = .connected)
  (hp : l.hasParty p = false)
include ha hid hl hs hp

/-- R18: a line that is not joinable refuses the press. -/
theorem pressLine_joinRefused {q : KeyRefusal} (hq : joinRefusal l a.barge = some q) : (r.pressLine p k).2 = some q := by
  rw [pressLine_error (judgePress_state ha hid hl (by rw [hs]; rfl) hp (by rw [stateRefusal_connected hs, hq]))]

variable (hch : r.pressChannel p a.route id = .ok ch) (hb : r.bound p ch = .none) (hj : joinRefusal l a.barge = none)
include hch hb hj

/-- R104: the second party needs a bridge, and none is FREE. -/
theorem pressLine_joinShort (hone : l.parties.length = 1) (hfree : r.freeBridges = 0) :
    r.pressLine p k = (r.raise .pool .noBridge, some .noBridge) := by
  have hst : stateRefusal l a = none := by rw [stateRefusal_connected hs, hj]
  rw [pressLine_error ((judgePress_resource ha hid hl hp hst hch (autoHold_of_free hb id)).1 _ (resourceRefusal_noBridge hs hone hfree))]
  rfl

/-- R37: the press joins the line. -/
theorem pressLine_joins (hroom : l.parties.length = 1 → r.freeBridges ≠ 0) : r.pressLine p k = (r.joinLine p ch id l, none) := by
  have hst : stateRefusal l a = none := by rw [stateRefusal_connected hs, hj]
  have hres : r.resourceRefusal l = none := resourceRefusal_eq_none.mpr ⟨by simp [hs], fun _ => hroom⟩
  rw [pressLine_ok ((judgePress_resource ha hid hl hp hst hch (autoHold_of_free hb id)).2 hres)]
  simp only [Records.applyPress, Records.autoHeld, actOnLine_connected hl p ch hs]

end

/-! ### The position's own line (R29) -/

/-- R10: the sole party's channel is that of its entry. -/
theorem partyChannel_of_sole {l : Line} {p : Fin 48} {ch : Channel} (h : l.parties = [⟨p, ch⟩]) : l.partyChannel p = some ch := by
  simp [Line.partyChannel, h]

section
variable {r : Records} {p : Fin 48} {k id : Nat} {a : Appearance} {l : Line}
  (ha : r.appearanceAt p k = some a) (hid : a.line = id) (hl : r.line? id = some l) (hos : l.state.isOos = false)
include ha hid hl hos

/-- R29, R41: a press of a line on a speaker channel leaves it. -/
theorem pressLine_leaves {n : Fin 8} (hp : l.partyChannel p = some (.spk n)) : r.pressLine p k = (r.releaseLeave p id, none) :=
  pressLine_ok (judgePress_own ha hid hl hos hp)

/-- R29: a press of the line on the selected handset, or on a handset while none is selected, does nothing. -/
theorem pressLine_already {h : Handset} (hp : l.partyChannel p = some (.hand h))
    (hsel : (r.pos p).selected = none ∨ (r.pos p).selected = some h) : r.pressLine p k = (r, some .already) := by
  have hown : r.judgeOwn p id (.hand h) = .error .already := by
    rcases hsel with hsel | hsel <;> simp [Records.judgeOwn, hsel]
  rw [pressLine_error (by rw [judgePress_own ha hid hl hos hp, hown]), raiseShortage_other (by decide) (by decide)]

variable {h dest : Handset} (hp : l.partyChannel p = some (.hand h)) (hsel : (r.pos p).selected = some dest) (hd : dest ≠ h)
include hp hsel hd

/-- R28, R29: the line on the handset that the call would move to refuses the move. -/
theorem pressLine_moveRefused {q : KeyRefusal} (hh : r.autoHold p (.hand dest) id = .error q) :
    r.pressLine p k = (r.raiseShortage q, some q) := by
  have hown : r.judgeOwn p id (.hand h) = .error q := by simp [Records.judgeOwn, hsel, hd, hh]
  exact pressLine_error (by rw [judgePress_own ha hid hl hos hp, hown])

/-- R29: the call moves to the selected handset, after the hold. -/
theorem pressLine_moves {hold : Option Nat} (hh : r.autoHold p (.hand dest) id = .ok hold) :
    r.pressLine p k = ((r.autoHeld p hold).moveHandset p id dest, none) := by
  have hown : r.judgeOwn p id (.hand h) = .ok (.move id dest hold) := by simp [Records.judgeOwn, hsel, hd, hh]
  exact pressLine_ok (by rw [judgePress_own ha hid hl hos hp, hown])

end

/-! ### The auto-hold (R28) -/

/-- R39: what line l0 becomes when p, a party on ch, takes its HOLD-LEAVE of it. -/
def Line.HoldLeft (l0 : Line) (p : Fin 48) (ch : Channel) (x : Line) : Prop :=
  (l0.parties = [⟨p, ch⟩] ∧ x = l0.leftHeld p) ∨ (l0.partyChannel p = some ch ∧ 1 < l0.parties.length ∧ x = l0.leftBy p)

/-- From r to r', line id0 became x and line id became y, ch of p was bound to line id, and no other line changed. -/
structure HeldThenTook (p : Fin 48) (ch : Channel) (id0 id : Nat) (x y : Line) (r r' : Records) : Prop where
  held : r'.line? id0 = some x
  took : r'.line? id = some y
  bound : r'.bound p ch = .line id
  others : ∀ j, j ≠ id → j ≠ id0 → r'.line? j = r.line? j

/-- The HOLD-LEAVE and the action after it act on different lines, so each stands in the end as it left its own. -/
theorem HeldThenTook.of_steps {p : Fin 48} {ch : Channel} {id0 id : Nat} {x y : Line} {r r1 r2 : Records} (hne : id0 ≠ id)
    (hheld : ∀ j, r1.line? j = if j = id0 then some x else r.line? j)
    (htook : r2.bound p ch = .line id ∧ ∀ j, r2.line? j = if j = id then some y else r1.line? j) : HeldThenTook p ch id0 id x y r r2 where
  held := by rw [htook.2, if_neg hne, hheld, if_pos rfl]
  took := by rw [htook.2, if_pos rfl]
  bound := htook.1
  others j hj hj0 := by rw [htook.2, if_neg hj, hheld, if_neg hj0]

/-- What a press taken after a hold comes to. -/
theorem pressLine_heldThenTook {p : Fin 48} {ch : Channel} {k id0 id : Nat} {x y : Line} {r r2 : Records}
    (hpress : r.pressLine p k = (r2, none)) (hh : HeldThenTook p ch id0 id x y r r2) :
    (r.pressLine p k).2 = none ∧ (r.pressLine p k).1.line? id0 = some x ∧ (r.pressLine p k).1.line? id = some y ∧
      (r.pressLine p k).1.bound p ch = .line id ∧ ∀ j, j ≠ id → j ≠ id0 → (r.pressLine p k).1.line? j = r.line? j := by
  rw [hpress]
  exact ⟨rfl, hh.held, hh.took, hh.bound, hh.others⟩

section
variable {r : Records} {p : Fin 48} {k id id0 : Nat} {a : Appearance} {l l0 : Line} {h : Handset}
  (ha : r.appearanceAt p k = some a) (hid : a.line = id) (hl : r.line? id = some l) (hsel : (r.pos p).selected = some h)
  (hb : r.bound p (.hand h) = .line id0) (hne : id0 ≠ id) (hl0 : r.line? id0 = some l0)

section
variable (hroute : a.route = .handset) (hp : l.hasParty p = false) (hst : stateRefusal l a = none)
include ha hid hl hsel hb hne hl0 hroute hp hst

/-- R28: a line RINGING_OUT on the selected handset cannot be held. -/
theorem pressLine_holdRefused (hs0 : l0.state = .ringingOut) : r.pressLine p k = (r, some .notNow) := by
  have hch : r.pressChannel p a.route id = .ok (.hand h) := by simp [Records.pressChannel, hroute, hsel]
  have hhold : r.autoHold p (.hand h) id = .error .notNow := by rw [autoHold_of_bound hb hne hl0, if_pos hs0]
  rw [pressLine_error (judgePress_hold ha hid hl hp hst hch hhold), raiseShortage_other (by decide) (by decide)]

/-- R28: the pools refuse the press, as they stand before the hold, or it is taken after the hold. -/
theorem pressLine_autoHeld (hs0 : l0.state ≠ .ringingOut) :
    (∀ q, r.resourceRefusal l = some q → r.pressLine p k = (r.raiseShortage q, some q)) ∧
    (r.resourceRefusal l = none → r.pressLine p k = ((r.holdLeave p id0).actOnLine p (.hand h) id, none)) := by
  have hch : r.pressChannel p a.route id = .ok (.hand h) := by simp [Records.pressChannel, hroute, hsel]
  have hhold : r.autoHold p (.hand h) id = .ok (some id0) := by rw [autoHold_of_bound hb hne hl0, if_neg hs0]
  have hj := judgePress_resource ha hid hl hp hst hch hhold
  exact ⟨fun q hq => pressLine_error (hj.1 q hq), fun hq => pressLine_ok (hj.2 hq)⟩

end

section
variable {x : Line} (hx : l0.HoldLeft p (.hand h) x)
include hl hb hne hl0 hx

/-- R28: the line of the press stands after the hold as before it, and the selected handset is free for it. -/
theorem ready_after_hold : (r.holdLeave p id0).line? id = some l ∧ (r.holdLeave p id0).bound p (.hand h) = .none ∧
    (r.holdLeave p id0).lowestSlot = r.lowestSlot := by
  obtain ⟨hline, hfree, _, hslots, _⟩ := holdLeave_spec hl0 hx
  exact ⟨by rw [hline, if_neg (Ne.symm hne), hl], hfree hb, by unfold Records.lowestSlot; rw [hslots]⟩

/-- R36: the held line and the answered one. -/
theorem answer_after_hold {slot : Nat} (hs : l.state = .ringingIn ∨ l.state = .recall)
    (hslot : l.slot = some slot ∨ (l.slot = none ∧ r.lowestSlot = some slot)) :
    HeldThenTook p (.hand h) id0 id x { l with
      state := .connected, parties := l.parties ++ [⟨p, .hand h⟩], holdOwner := none, slot := some slot, desired := Cond.call
      missed := false, timer := none } r ((r.holdLeave p id0).actOnLine p (.hand h) id) := by
  obtain ⟨hl1, hb1, hs1⟩ := ready_after_hold hl hb hne hl0 hx
  rw [actOnLine_answer hl1 p _ hs]
  exact .of_steps hne (holdLeave_spec hl0 hx).1 (answerLine_spec hl1 hb1 (by rw [hs1]; exact hslot))

/-- R30, R31: the held line and the seized one. -/
theorem seize_after_hold {slot : Nat} (hs : l.state = .idle) (hslot : l.slot = some slot ∨ (l.slot = none ∧ r.lowestSlot = some slot)) :
    HeldThenTook p (.hand h) id0 id x { l with
      state := if l.type = .ringdown then .ringingOut else .connected
      parties := l.parties ++ [⟨p, .hand h⟩], holdOwner := none, slot := some slot, desired := Cond.call, missed := false
      timer := if l.type = .ringdown then (if l.ringTimeout = 0 then none else some ⟨.ring, l.ringTimeout * 1000⟩) else none }
      r ((r.holdLeave p id0).actOnLine p (.hand h) id) := by
  obtain ⟨hl1, hb1, hs1⟩ := ready_after_hold hl hb hne hl0 hx
  rw [actOnLine_idle hl1 p _ hs]
  exact .of_steps hne (holdLeave_spec hl0 hx).1 (seizeLine_spec hl1 hb1 (by rw [hs1]; exact hslot))

/-- R42: the held line and the retrieved one. -/
theorem retrieve_after_hold (hs : l.state = .held) :
    HeldThenTook p (.hand h) id0 id x { l with
      state := .connected, parties := l.parties ++ [⟨p, .hand h⟩], holdOwner := none, desired := Cond.call, timer := none }
      r ((r.holdLeave p id0).actOnLine p (.hand h) id) := by
  obtain ⟨hl1, hb1, _⟩ := ready_after_hold hl hb hne hl0 hx
  rw [actOnLine_held hl1 p _ hs]
  exact .of_steps hne (holdLeave_spec hl0 hx).1 (retrieveLine_spec hl1 hb1)

/-- R37: the held line and the joined one, which had several parties. -/
theorem join_after_hold (hs : l.state = .connected) (hn : 1 < l.parties.length) :
    HeldThenTook p (.hand h) id0 id x { l with parties := l.parties ++ [⟨p, .hand h⟩] } r
      ((r.holdLeave p id0).actOnLine p (.hand h) id) := by
  obtain ⟨hl1, hb1, _⟩ := ready_after_hold hl hb hne hl0 hx
  rw [actOnLine_connected hl1 p _ hs]
  exact .of_steps hne (holdLeave_spec hl0 hx).1 ((joinLine_spec hl1 hb1).1 hn)

/-- R37, R104: the held line and the joined one, whose second party takes the lowest bridge FREE after the hold: one FREE before it, or the held line's own. -/
theorem claim_after_hold (hs : l.state = .connected) (hn : l.parties.length = 1) (hfree : r.freeBridges ≠ 0)
    (hown : ∀ b, l0.bridge = some b → Table.find r.bridges b = some (.line id0)) :
    ∃ b, (Table.find r.bridges b = none ∨ l0.bridge = some b) ∧ (l0.bridge = none → r.lowestBridge = some b) ∧
      HeldThenTook p (.hand h) id0 id x { l with parties := l.parties ++ [⟨p, .hand h⟩], bridge := some b } r
        ((r.holdLeave p id0).actOnLine p (.hand h) id) ∧
      Table.find ((r.holdLeave p id0).actOnLine p (.hand h) id).bridges b = some (.line id) := by
  obtain ⟨hl1, hb1, _⟩ := ready_after_hold hl hb hne hl0 hx
  obtain ⟨hline, _, _, _, hpool⟩ := holdLeave_spec hl0 hx
  obtain ⟨b, hlow, hfrom, hsame⟩ := (hpool (fun b hbr => by simp [hown b hbr])).lowest hfree
  obtain ⟨hbound, hbridge, hjoined⟩ := (joinLine_spec hl1 hb1).2 b hn hlow
  rw [actOnLine_connected hl1 p _ hs]
  exact ⟨b, hfrom, hsame, .of_steps hne hline ⟨hbound, hjoined⟩, hbridge⟩

/-- R29: the held line and the one whose call moved to the selected handset, leaving the other handset free. -/
theorem move_after_hold {other : Handset} (hp : l.partyChannel p = some (.hand other)) (hd : h ≠ other)
    (hbo : r.bound p (.hand other) = .line id) :
    HeldThenTook p (.hand h) id0 id x { l with parties := l.parties.map (fun y => if y.pos = p then ⟨p, .hand h⟩ else y) } r
      ((r.holdLeave p id0).moveHandset p id h) ∧
    ((r.holdLeave p id0).moveHandset p id h).bound p (.hand other) = .none := by
  obtain ⟨hl1, hb1, _⟩ := ready_after_hold hl hb hne hl0 hx
  obtain ⟨hline, _, hfrees, _, _⟩ := holdLeave_spec hl0 hx
  have hbo1 : (r.holdLeave p id0).bound p (.hand other) = .line id := by
    rcases hfrees.bound p (.hand other) with hkept | ⟨hid0, _⟩
    · rw [hkept, hbo]
    · rw [hbo] at hid0
      cases hid0
      exact absurd rfl hne
  obtain ⟨hleft, hbound, hmoved⟩ := moveHandset_spec hl1 hp hd hbo1 hb1
  exact ⟨.of_steps hne hline ⟨hbound, hmoved⟩, hleft⟩

end

end

/-- Settles O25: a join by the joinability test and the pools, an own-line press by the position's channel, and a press after the hold by what the hold leaves as it was. -/
theorem pressJoinsLine : Obligations.PressJoinsLine := by
  refine ⟨?joins, ?own, ?afterHold⟩
  case joins =>
    intro r p k id a l ch ha _ hid hl hs hp hroute hb
    have hch := pressChannel_of_route hroute hb id
    refine ⟨?barred, ?full, ?short, ?claims, ?several⟩
    case barred => exact fun hpriv hbarge => pressLine_joinRefused ha hid hl hs hp (joinRefusal_closed hpriv hbarge)
    case full => exact fun hopen hfull => pressLine_joinRefused ha hid hl hs hp (joinRefusal_full hopen hfull)
    case short =>
      exact fun hopen hroom => pressLine_joinShort ha hid hl hs hp hch hb (joinRefusal_eq_none.mpr ⟨hopen, hroom⟩)
    case claims =>
      intro b hopen hroom hone hfree hlow
      rw [pressLine_joins ha hid hl hs hp hch hb (joinRefusal_eq_none.mpr ⟨hopen, hroom⟩) (fun _ => hfree)]
      obtain ⟨hbound, hbridge, hline⟩ := (joinLine_spec hl hb).2 b hone hlow
      exact ⟨rfl, by rw [hline, if_pos rfl], hbridge, hbound⟩
    case several =>
      intro hopen hroom hn
      rw [pressLine_joins ha hid hl hs hp hch hb (joinRefusal_eq_none.mpr ⟨hopen, hroom⟩) (fun hone => by omega)]
      obtain ⟨hbound, hline⟩ := (joinLine_spec hl hb).1 hn
      exact ⟨rfl, by rw [hline, if_pos rfl], hbound⟩
  case own =>
    intro r p k id a l ha hid hl hos
    refine ⟨?sole, ?several, ?already, ?moves⟩
    case sole =>
      intro n hp
      rw [pressLine_leaves ha hid hl hos (partyChannel_of_sole hp)]
      obtain ⟨hline, hfree⟩ := releaseLeave_sole hl hp
      exact ⟨rfl, by rw [hline, if_pos rfl]; rfl, hfree, fun j hj => by rw [hline, if_neg hj]⟩
    case several =>
      intro n hp hn
      rw [pressLine_leaves ha hid hl hos hp]
      obtain ⟨hline, hfree⟩ := releaseLeave_several hl hp hn
      exact ⟨rfl, by rw [hline, if_pos rfl]; rfl, hfree, fun j hj => by rw [hline, if_neg hj]⟩
    case already => exact fun h hp hsel => pressLine_already ha hid hl hos hp hsel
    case moves =>
      intro h dest hp hsel hd hbd hbh
      rw [pressLine_moves ha hid hl hos hp hsel hd (autoHold_of_free hbd id)]
      obtain ⟨hleft, hbound, hline⟩ := moveHandset_spec hl hp hd hbh hbd
      exact ⟨rfl, by rw [Records.autoHeld, hline, if_pos rfl], hleft, hbound, fun j hj => by rw [Records.autoHeld, hline, if_neg hj]⟩
  case afterHold =>
    intro r p k id id0 a l l0 h ha hpos hid hl hsel hb hne hl0
    refine ⟨fun hroute hp => ⟨fun hs0 hable => ?notNow, fun hs0 => ⟨?noPath, ?noBridge, fun x hx => ?taken⟩⟩,
      fun other hos hp hd => ⟨fun hs0 => ?stays, fun x hs0 hx hbo => ?moves⟩⟩
    case notNow =>
      exact pressLine_holdRefused ha hid hl hsel hb hne hl0 hroute hp (stateRefusal_eq_none.mpr (by rw [hpos]; exact hable)) hs0
    case noPath =>
      intro hs hslot hlow
      have hst : stateRefusal l a = none := stateRefusal_eq_none.mpr (.inr (hs.imp_right (fun hring => .inl (.inl hring))))
      exact (pressLine_autoHeld ha hid hl hsel hb hne hl0 hroute hp hst hs0).1 _
        (resourceRefusal_noPath (hs.imp_left And.left) hslot hlow)
    case noBridge =>
      intro hj hone hfree
      have hst : stateRefusal l a = none := stateRefusal_eq_none.mpr (.inl hj)
      exact (pressLine_autoHeld ha hid hl hsel hb hne hl0 hroute hp hst hs0).1 _ (resourceRefusal_noBridge hj.1 hone hfree)
    case taken =>
      have hx' : l0.HoldLeft p (.hand h) x := hx
      have hpress (hst : stateRefusal l a = none) := (pressLine_autoHeld ha hid hl hsel hb hne hl0 hroute hp hst hs0).2
      refine ⟨fun slot hslot => ⟨fun hs => ?answers, fun hs => ?seizes⟩, fun hs => ?retrieves, fun hj hn => ?joins,
        fun hj hone hfree hown => ?claims⟩
      case answers =>
        refine pressLine_heldThenTook (hpress (stateRefusal_eq_none.mpr (.inr (.inr (.inl hs)))) (resourceRefusal_of_slot hslot ?_))
          (answer_after_hold hl hb hne hl0 hx' hs hslot)
        rcases hs with hs | hs <;> simp [hs]
      case seizes =>
        exact pressLine_heldThenTook (hpress (stateRefusal_eq_none.mpr (.inr (.inl hs))) (resourceRefusal_of_slot hslot (by simp [hs.1])))
          (seize_after_hold hl hb hne hl0 hx' hs.1 hslot)
      case retrieves =>
        exact pressLine_heldThenTook (hpress (stateRefusal_eq_none.mpr (.inr (.inr (.inr (by rw [hpos]; exact hs)))))
            (resourceRefusal_eq_none.mpr (by simp [hs.1])))
          (retrieve_after_hold hl hb hne hl0 hx' hs.1)
      case joins =>
        exact pressLine_heldThenTook (hpress (stateRefusal_eq_none.mpr (.inl hj))
            (resourceRefusal_eq_none.mpr ⟨by simp [hj.1], fun _ hone => by omega⟩))
          (join_after_hold hl hb hne hl0 hx' hj.1 hn)
      case claims =>
        obtain ⟨b, hfrom, hsame, htook, hbridge⟩ := claim_after_hold hl hb hne hl0 hx' hj.1 hone hfree hown
        have hp' := hpress (stateRefusal_eq_none.mpr (.inl hj)) (resourceRefusal_eq_none.mpr ⟨by simp [hj.1], fun _ _ => hfree⟩)
        exact ⟨b, hfrom, hsame, pressLine_heldThenTook hp' htook, by rw [hp']; exact hbridge⟩
    case stays =>
      have hhold : r.autoHold p (.hand h) id = .error .notNow := by rw [autoHold_of_bound hb hne hl0, if_pos hs0]
      rw [pressLine_moveRefused ha hid hl hos hp hsel hd hhold, raiseShortage_other (by decide) (by decide)]
    case moves =>
      have hhold : r.autoHold p (.hand h) id = .ok (some id0) := by rw [autoHold_of_bound hb hne hl0, if_neg hs0]
      have hpress := pressLine_moves ha hid hl hos hp hsel hd hhold
      obtain ⟨htook, hleft⟩ := move_after_hold hl hb hne hl0 hx hp hd hbo
      exact ⟨pressLine_heldThenTook hpress htook, by rw [hpress]; exact hleft⟩

end Sys2Proof.Machine
end

section
/-!
Settles O15 and O16: the two requests that clear a line's missed flag, FORCE-RELEASE and CLEAR-MISSED.
-/
namespace Sys2Proof.Machine

/-- R187: a request over the records whose body is one two-byte id. -/
theorem idRequest_taken {s : State} {code : Nat} {q : Request} {rest : List Request} {i1 i0 : Byte} (ht : Takes s code q rest)
    (hq : q.body = [i1, i0]) (f : Nat → Records → ResultCode × Records) :
    s.recordRequest code (idBody f) =
      .next ((s.answered q rest (f (num2 i1 i0) s.recs).1 []).withRecs (f (num2 i1 i0) s.recs).2).finish := by
  rw [recordRequest_taken ht, hq]
  rfl

theorem exec_forceRelease (s : State) : exec .forceRelease s = s.recordRequest 5 (idBody Records.forceRelease) := rfl

theorem exec_clearMissed (s : State) : exec .clearMissed s = s.recordRequest 6 (idBody Records.clearMissed) := rfl

/-- Answering with the records as they were. -/
theorem withRecs_answered_recs (s : State) (q : Request) (rest : List Request) (c : ResultCode) (body : List Byte) :
    (s.answered q rest c body).withRecs s.recs = s.answered q rest c body := rfl

theorem clearMissed_noSuch {id : Nat} (hid : 383 < id) (r : Records) : r.clearMissed id = (.noSuch, r) := if_pos hid

theorem clearMissed_notDefined {r : Records} {id : Nat} (hid : id ≤ 383) (hl : r.line? id = none) : r.clearMissed id = (.notDefined, r) := by
  simp [Records.clearMissed, Nat.not_lt.mpr hid, hl]

section
variable {r : Records} {id : Nat} {l : Line} (hid : id ≤ 383) (hl : r.line? id = some l)
include hid hl

/-- R51: the flag is cleared, and the keys marked when it was set. -/
theorem clearMissed_line :
    r.clearMissed id = (.done, if l.missed then (r.setLine id { l with missed := false }).markLine id else r) := by
  simp [Records.clearMissed, Nat.not_lt.mpr hid, hl]

/-- R50: an OPEN line is refused, one OUT_OF_SERVICE left alone, and any other has its missed flag cleared as by CLEAR-MISSED before it goes to IDLE. -/
theorem forceRelease_line : r.forceRelease id =
    if l.type = .openLine then (.badType, r)
    else if l.state.isOos then (.done, r)
    else (.done, if l.state = .idle then (r.clearMissed id).2 else (r.clearMissed id).2.toIdle id) := by
  simp only [Records.forceRelease, clearMissed_line hid hl, Nat.not_lt.mpr hid, hl, modLine_of_some _ hl, if_false]

end

/-- Settles O15: the request's answer is that of `forceRelease_line`, branch by branch. -/
theorem forceReleaseTakesLineToIdle : Obligations.ForceReleaseTakesLineToIdle := by
  intro s q rest i1 i0 l ht hq hid hl
  rw [exec_forceRelease, idRequest_taken ht hq, forceRelease_line hid hl, clearMissed_line hid hl]
  refine ⟨?openLine, ?outOfService, ?idle, ?call⟩
  case openLine => intro htype; rw [if_pos htype, withRecs_answered_recs]
  case outOfService => intro htype hos; rw [if_neg htype, if_pos hos, withRecs_answered_recs]
  case idle =>
    intro htype hs
    have hos : ¬ l.state.isOos = true := by simp [hs, LineState.isOos]
    rw [if_neg htype, if_neg hos, if_pos hs]
  case call => intro htype hos hs; rw [if_neg htype, if_neg (Bool.eq_false_iff.mp hos), if_neg hs]

/-- Settles O16: the two refusals, and the flag as it stood. -/
theorem clearMissedSetsFlagFalse : Obligations.ClearMissedSetsFlagFalse := by
  intro s q rest i1 i0 ht hq
  rw [exec_clearMissed, idRequest_taken ht hq]
  refine ⟨fun hid => ?noSuch, fun hid hl => ?notDefined, fun l hid hl => ⟨fun hm => ?missed, fun hm => ?clear⟩⟩
  case noSuch => rw [clearMissed_noSuch hid, withRecs_answered_recs]
  case notDefined => rw [clearMissed_notDefined hid hl, withRecs_answered_recs]
  case missed => rw [clearMissed_line hid hl, if_pos hm]
  case clear => rw [clearMissed_line hid hl, if_neg (Bool.eq_false_iff.mp hm), withRecs_answered_recs]

end Sys2Proof.Machine
end

section
/-!
Settles O24: a press on a line key that answers, seizes or retrieves a line without parties, and the refusals of such a press.
-/
namespace Sys2Proof.Machine

/-! ### A press on a free channel -/

/-- R10: a line without parties has no position as its party. -/
theorem hasParty_of_nil {l : Line} (h : l.parties = []) (p : Fin 48) : l.hasParty p = false := by simp [Line.hasParty, h]

/-- What a press comes to that is taken, gives line id the record y and binds ch to it. -/
theorem pressLine_took {p : Fin 48} {ch : Channel} {k id : Nat} {y : Line} {r r2 : Records} (hpress : r.pressLine p k = (r2, none))
    (htook : r2.bound p ch = .line id ∧ ∀ j, r2.line? j = if j = id then some y else r.line? j) :
    (r.pressLine p k).2 = none ∧ (r.pressLine p k).1.line? id = some y ∧ (r.pressLine p k).1.bound p ch = .line id ∧
      ∀ j, j ≠ id → (r.pressLine p k).1.line? j = r.line? j := by
  obtain ⟨hbound, hline⟩ := htook
  rw [hpress]
  exact ⟨rfl, by rw [hline, if_pos rfl], hbound, fun j hj => by rw [hline, if_neg hj]⟩

section
variable {r : Records} {p : Fin 48} {k id : Nat} {a : Appearance} {l : Line} {ch : Channel}
  (ha : r.appearanceAt p k = some a) (hid : a.line = id) (hl : r.line? id = some l) (hp : l.hasParty p = false)
  (hch : r.pressChannel p a.route id = .ok ch) (hb : r.bound p ch = .none) (hst : stateRefusal l a = none)
include ha hid hl hp hch hb hst

/-- R26: let in by the line's state and by the pools, the press takes the action of the line's state. -/
theorem pressLine_acts (hres : r.resourceRefusal l = none) : r.pressLine p k = (r.actOnLine p ch id, none) :=
  pressLine_ok ((judgePress_resource ha hid hl hp hst hch (autoHold_of_free hb id)).2 hres)

/-- R28, R111: the line needs a slot, and none is FREE. -/
theorem pressLine_noPath (hs : l.state = .idle ∨ l.state = .ringingIn) (hslot : l.slot = none) (hfree : r.lowestSlot = none) :
    r.pressLine p k = (r.raise .pool .noPath, some .noPath) := by
  rw [pressLine_error ((judgePress_resource ha hid hl hp hst hch (autoHold_of_free hb id)).1 _ (resourceRefusal_noPath hs hslot hfree))]
  rfl

end

/-! ### The refusals -/

theorem pressLine_noAppearance {r : Records} {p : Fin 48} {k : Nat} (ha : r.appearanceAt p k = none) :
    r.pressLine p k = (r, some .noAppearance) := by
  have hj : r.judgePress p k = .error .noAppearance := by simp [Records.judgePress, ha]
  rw [pressLine_error hj, raiseShortage_other (by decide) (by decide)]

section
variable {r : Records} {p : Fin 48} {k id : Nat} {a : Appearance} {l : Line}
  (ha : r.appearanceAt p k = some a) (hid : a.line = id) (hl : r.line? id = some l)
include ha hid hl

/-- R26, check 2: an OUT_OF_SERVICE line refuses every press. -/
theorem pressLine_outOfService (hos : l.state.isOos = true) : r.pressLine p k = (r, some .outOfService) := by
  have hj : r.judgePress p k = .error .outOfService := by
    subst hid
    simp [Records.judgePress, ha, hl, hos]
  rw [pressLine_error hj, raiseShortage_other (by decide) (by decide)]

variable (hp : l.hasParty p = false)
include hp

/-- R26, checks 4 to 7: a refusal by the line's state is no shortage, so the press changes nothing. -/
theorem pressLine_stateRefused {q : KeyRefusal} (hos : l.state.isOos = false) (hq : stateRefusal l a = some q) (hb : q ≠ .noBridge)
    (hn : q ≠ .noPath) : r.pressLine p k = (r, some q) := by
  rw [pressLine_error (judgePress_state ha hid hl hos hp hq), raiseShortage_other hb hn]

/-- R27: the channel of the route refuses the press. -/
theorem pressLine_channelRefused {q : KeyRefusal} (hst : stateRefusal l a = none) (hch : r.pressChannel p a.route id = .error q)
    (hb : q ≠ .noBridge) (hn : q ≠ .noPath) : r.pressLine p k = (r, some q) := by
  have hj : r.judgePress p k = .error q := by
    subst hid
    simp [Records.judgePress, ha, hl, isOos_of_stateRefusal hst, partyChannel_none hp, hst, hch]
  rw [pressLine_error hj, raiseShortage_other hb hn]

end

/-- R27: a speaker channel bound to anything but the line itself is busy. -/
theorem pressChannel_busy {r : Records} {p : Fin 48} {n : Fin 8} {id : Nat} (hb : r.bound p (.spk n) ≠ .none)
    (hne : r.bound p (.spk n) ≠ .line id) : r.pressChannel p (.speaker n) id = .error .channelBusy := by
  simp only [Records.bound] at hb hne
  simp only [Records.pressChannel]
  cases hv : vget (r.pos p).speaker n with
  | none => exact absurd hv hb
  | line j =>
    have hj : j ≠ id := fun hji => hne (by rw [hv, hji])
    simp [hj]
  | member m => rfl

/-- Settles O24: a press let in acts by the line's state on the free channel of its route, and a refused one is refused by the first check that decides it. -/
theorem pressAnswersOrSeizesLine : Obligations.PressAnswersOrSeizesLine := by
  refine ⟨?acts, fun r p k ha => pressLine_noAppearance ha, ?refused⟩
  case acts =>
    intro r p k id a l ch ha hpos hid hl hpar hroute hb
    have hp := hasParty_of_nil hpar p
    have hch := pressChannel_of_route hroute hb id
    refine ⟨fun slot hslot hs => ?answers, fun slot hslot hs hlife => ?seizes, fun hs hown => ?retrieves,
      fun hs hlife => ?seizeShort, fun hs => ?answerShort⟩
    case answers =>
      have hres : r.resourceRefusal l = none := resourceRefusal_of_slot hslot (by rcases hs with hs | hs <;> simp [hs])
      have hpress := pressLine_acts ha hid hl hp hch hb (stateRefusal_eq_none.mpr (.inr (.inr (.inl hs)))) hres
      rw [actOnLine_answer hl p ch hs] at hpress
      have htook := answerLine_spec hl hb hslot
      rw [hpar, List.nil_append] at htook
      exact pressLine_took hpress htook
    case seizes =>
      have hres : r.resourceRefusal l = none := resourceRefusal_of_slot hslot (by simp [hs])
      have hpress := pressLine_acts ha hid hl hp hch hb (stateRefusal_eq_none.mpr (.inr (.inl ⟨hs, hlife⟩))) hres
      rw [actOnLine_idle hl p ch hs] at hpress
      have htook := seizeLine_spec hl hb hslot
      rw [hpar, List.nil_append] at htook
      exact pressLine_took hpress htook
    case retrieves =>
      have hst : stateRefusal l a = none := stateRefusal_eq_none.mpr (.inr (.inr (.inr (by rw [hpos]; exact ⟨hs, hown⟩))))
      have hpress := pressLine_acts ha hid hl hp hch hb hst (resourceRefusal_eq_none.mpr (by simp [hs]))
      rw [actOnLine_held hl p ch hs] at hpress
      have htook := retrieveLine_spec hl hb
      rw [hpar, List.nil_append] at htook
      exact pressLine_took hpress htook
    case seizeShort => exact pressLine_noPath ha hid hl hp hch hb (stateRefusal_eq_none.mpr (.inr (.inl ⟨hs, hlife⟩))) (.inl hs)
    case answerShort =>
      exact pressLine_noPath ha hid hl hp hch hb (stateRefusal_eq_none.mpr (.inr (.inr (.inl (.inl hs))))) (.inr hs)
  case refused =>
    intro r p k a l ha hpos hl hp
    have hrefused {q : KeyRefusal} := pressLine_stateRefused (q := q) ha rfl hl hp
    refine ⟨pressLine_outOfService ha rfl hl, fun hs hlife => ?retiring, fun hs => ?ringingOut, fun owner hs hown hne => ?heldPrivate,
      fun hopen => ?channel⟩
    case retiring => exact hrefused (by simp [hs, LineState.isOos]) (by simp [stateRefusal, hs, hlife]) (by decide) (by decide)
    case ringingOut => exact hrefused (by simp [hs, LineState.isOos]) (by simp [stateRefusal, hs]) (by decide) (by decide)
    case heldPrivate =>
      exact hrefused (by simp [hs, LineState.isOos]) (by simp [stateRefusal, hs, hown, hpos, hne]) (by decide) (by decide)
    case channel =>
      have hst : stateRefusal l a = none := by
        refine stateRefusal_eq_none.mpr (.inr ?_)
        rcases hopen with hidle | hring | hrecall | ⟨hheld, hown⟩
        · exact .inl hidle
        · exact .inr (.inl (.inl hring))
        · exact .inr (.inl (.inr hrecall))
        · exact .inr (.inr ⟨hheld, .inl hown⟩)
      refine ⟨fun hroute hsel => ?noHandset, fun n b hroute hbn hnone hline => ?busy⟩
      case noHandset =>
        have hch : r.pressChannel p a.route a.line = .error .noHandset := by simp [Records.pressChannel, hroute, hsel]
        exact pressLine_channelRefused ha rfl hl hp hst hch (by decide) (by decide)
      case busy =>
        have hch : r.pressChannel p a.route a.line = .error .channelBusy := by
          subst hbn
          rw [hroute]
          exact pressChannel_busy hnone hline
        exact pressLine_channelRefused ha rfl hl hp hst hch (by decide) (by decide)

end Sys2Proof.Machine
end

section
/-!
Settles O50: the five timer expiries, each acting on the records once the time that remained has passed.
-/
namespace Sys2Proof.Machine

/-! ### The time that remained passes (log 3) -/

/-- The expiry of a line's running timer of this kind. -/
theorem lineExpiry_of_timer {s : State} {id ms : Nat} {k : TimerKind} {l : Line} (hup : s.resetPin ≠ .coldHeld)
    (hl : s.recs.line? id = some l) (ht : l.timer = some ⟨k, ms⟩) (f : Records → Records) :
    s.lineExpiry id k f = .next ((s.advance ms).withRecs (f (s.advance ms).recs)).finish := by
  have hleft : s.recs.timerLeft id k = some ms := by simp [Records.timerLeft, hl, ht]
  rw [State.lineExpiry, whenUp_of_up hup, hleft]
  rfl

theorem exec_talkTimerExpiry (m : Nat) (s : State) : exec (.talkTimerExpiry m) s = execTalkTimerExpiry m s := rfl

/-- The expiry of a member's running talk timer. -/
theorem talkTimerExpiry_of_timer {s : State} {m ms : Nat} {x : Member} (hup : s.resetPin ≠ .coldHeld) (hx : s.recs.member? m = some x)
    (ht : x.talkTimer = some ms) :
    exec (.talkTimerExpiry m) s = .next ((s.advance ms).withRecs ((s.advance ms).recs.releaseFloor m)).finish := by
  have hleft : s.recs.talkLeft m = some ms := by simp [Records.talkLeft, hx, ht]
  rw [exec_talkTimerExpiry, execTalkTimerExpiry, whenUp_of_up hup, hleft]
  rfl

@[simp] theorem advance_pos (ms : Nat) (s : State) (p : Fin 48) : (s.advance ms).recs.pos p = s.recs.pos p := by simp [Records.pos]

@[simp] theorem advance_group? (ms : Nat) (s : State) (g : Nat) : (s.advance ms).recs.group? g = s.recs.group? g := by
  simp [Records.group?]

@[simp] theorem advance_appearanceOfLineAt (ms : Nat) (s : State) (id : Nat) (p : Fin 48) :
    (s.advance ms).recs.appearanceOfLineAt id p = s.recs.appearanceOfLineAt id p := by simp [Records.appearanceOfLineAt]

theorem advance_bound (ms : Nat) (s : State) (p : Fin 48) (ch : Channel) : (s.advance ms).recs.bound p ch = s.recs.bound p ch :=
  bound_of_positions (advance_positions ms s) p ch

/-! ### A refusal recorded (R70) -/

@[simp] theorem line?_refuse (r : Records) (p : Fin 48) (q : KeyRefusal) (x : Subject) (j : Nat) : (r.refuse p q x).line? j = r.line? j := by
  unfold Records.refuse
  split <;> rfl

/-- R70: an attached position takes the refusal; a DETACHED one, and every other position, keeps its own. -/
theorem pos_refuse (r : Records) (p : Fin 48) (q : KeyRefusal) (x : Subject) (k : Fin 48) :
    (r.refuse p q x).pos k =
      { r.pos k with refusal := if k = p ∧ (r.pos p).attached = true then some ⟨q, x⟩ else (r.pos k).refusal } := by
  unfold Records.refuse
  by_cases hatt : (r.pos p).attached = true
  · by_cases hk : k = p <;> simp [hatt, hk, pos_modPos]
  · simp [hatt]

theorem bound_refuse (r : Records) (p : Fin 48) (q : KeyRefusal) (x : Subject) (k : Fin 48) (ch : Channel) :
    (r.refuse p q x).bound k ch = r.bound k ch := by
  unfold Records.bound
  rw [pos_refuse]

/-- Call work leaves the recorded refusals alone. -/
theorem CallWork.refusal {r r' : Records} (h : CallWork r r') (p : Fin 48) : (r'.pos p).refusal = (r.pos p).refusal := by rw [h.pos p]

/-! ### What an expiry does to its line -/

/-- R35: a call that ends unanswered leaves its line IDLE, with missed true and MISSED and STATE raised. -/
theorem missCall_spec {r : Records} {id : Nat} {l : Line} (hl : r.line? id = some l) (hs : l.state ≠ .idle) :
    (∀ j, (r.missCall id).line? j = if j = id then some { l.leftIdle with missed := true } else r.line? j) ∧
    Reason.missed ∈ (r.missCall id).reasons (.line id) ∧ Reason.state ∈ (r.missCall id).reasons (.line id) := by
  have hmissed : (r.modLine id (fun x => { x with missed := true })).line? id = some { l with missed := true } := by
    rw [line?_modLine, if_pos rfl, hl]
    rfl
  refine ⟨fun j => ?line, mem_reasons_of_grown (callWork_toIdle ..).raised, state_raised_toIdle hmissed hs⟩
  case line =>
    rw [Records.missCall, line?_toIdle, line?_raise, line?_raise, hmissed, line?_modLine]
    by_cases hj : j = id
    · rw [if_pos hj, if_pos hj]
      rfl
    · rw [if_neg hj, if_neg hj, if_neg hj]

theorem ringExpired_ringingIn {r : Records} {id : Nat} {l : Line} (hl : r.line? id = some l) (hs : l.state = .ringingIn) :
    r.ringExpired id = r.missCall id := by simp [Records.ringExpired, hl, hs]

theorem ringExpired_ringingOut {r : Records} {id : Nat} {l : Line} {p : Fin 48} {ch : Channel} (hl : r.line? id = some l)
    (hs : l.state = .ringingOut) (hp : l.parties = [⟨p, ch⟩]) :
    r.ringExpired id = (r.refuse p .noAnswer (r.noAnswerSubject id ⟨p, ch⟩)).toIdle id := by simp [Records.ringExpired, hl, hs, hp]

theorem recallExpired_held {r : Records} {id : Nat} {l : Line} (hl : r.line? id = some l) (hs : l.state = .held) :
    r.recallExpired id = if l.lifecycle = .retiring then r.toIdle id else r.moveLine id .recall := by simp [Records.recallExpired, hl, hs]

/-- R24: the record of a line that has gone to IDLE; every other line stands as it was. -/
theorem line?_toIdle_of_some {r : Records} {id : Nat} {l : Line} (hl : r.line? id = some l) (j : Nat) :
    (r.toIdle id).line? j = if j = id then some l.leftIdle else r.line? j := by
  rw [line?_toIdle, hl]
  rfl

/-- R24, R61: when a line goes to IDLE its sole party's channel is free. -/
theorem bound_toIdle {r : Records} {id : Nat} {l : Line} {p : Fin 48} {ch : Channel} (hl : r.line? id = some l)
    (hp : l.parties = [⟨p, ch⟩]) (hb : r.bound p ch = .line id) : (r.toIdle id).bound p ch = .none := by
  rw [Records.toIdle, bound_moveLine]
  exact bound_removeAllParties hl hp hb

/-- R32: after the RING timer of a line ringing out, the line is IDLE with STATE raised, the caller's channel free and its refusal recorded. -/
theorem ringExpired_ringingOut_spec {r : Records} {id : Nat} {l : Line} {p : Fin 48} {ch : Channel} (hl : r.line? id = some l)
    (hs : l.state = .ringingOut) (hp : l.parties = [⟨p, ch⟩]) :
    (∀ j, (r.ringExpired id).line? j = if j = id then some l.leftIdle else r.line? j) ∧
    (r.bound p ch = .line id → (r.ringExpired id).bound p ch = .none) ∧
    (∀ k, ((r.ringExpired id).pos k).refusal =
      if k = p ∧ (r.pos p).attached = true then some ⟨.noAnswer, r.noAnswerSubject id ⟨p, ch⟩⟩ else (r.pos k).refusal) ∧
    Reason.state ∈ (r.ringExpired id).reasons (.line id) := by
  rw [ringExpired_ringingOut hl hs hp]
  generalize hr : r.refuse p .noAnswer (r.noAnswerSubject id ⟨p, ch⟩) = r1
  have hl1 : r1.line? id = some l := by rw [← hr, line?_refuse, hl]
  refine ⟨fun j => ?line, fun hb => ?bound, fun k => ?refusal, state_raised_toIdle hl1 (by simp [hs])⟩
  case line => rw [line?_toIdle_of_some hl1, ← hr, line?_refuse]
  case bound => exact bound_toIdle hl1 hp (by rw [← hr, bound_refuse, hb])
  case refusal => rw [(callWork_toIdle ..).refusal, ← hr, pos_refuse]

/-- R43: after its RECALL_WAIT timer a held line is recalled, or IDLE when it is RETIRING, with STATE raised. -/
theorem recallExpired_spec {r : Records} {id : Nat} {l : Line} (hl : r.line? id = some l) (hs : l.state = .held) :
    (l.lifecycle ≠ .retiring →
      (r.recallExpired id).line? id = some { l with state := .recall, holdOwner := none, desired := Cond.call, timer := none }) ∧
    (l.lifecycle = .retiring → (r.recallExpired id).line? id = some l.leftIdle) ∧
    Reason.state ∈ (r.recallExpired id).reasons (.line id) ∧ ∀ j, j ≠ id → (r.recallExpired id).line? j = r.line? j := by
  rw [recallExpired_held hl hs]
  by_cases hr : l.lifecycle = .retiring
  · rw [if_pos hr]
    exact ⟨fun hn => absurd hr hn, fun _ => by rw [line?_toIdle_of_some hl, if_pos rfl], state_raised_toIdle hl (by simp [hs]),
      fun j hj => by rw [line?_toIdle_of_some hl, if_neg hj]⟩
  · rw [if_neg hr]
    exact ⟨fun _ => by rw [line?_moveLine, if_pos rfl, hl]; rfl, fun h => absurd h hr,
      state_raised_moveLine hl (by simp [hs]) (by simp [LineState.isOos]), fun j hj => by rw [line?_moveLine, if_neg hj]⟩

/-- R33: a ring burst's end writes its line and nothing else. -/
theorem burstExpired_of_line {r : Records} {id : Nat} {l : Line} (hl : r.line? id = some l) :
    r.burstExpired id = r.setLine id { l with desired := { l.desired with ringOut := false }, timer := none } :=
  modLine_of_some _ hl

/-- Settles O50: each expiry is its action on the records that the time passed leaves, where the line or member is as before but for its timer. -/
theorem timerExpiriesAct : Obligations.TimerExpiriesAct := by
  intro s id ms l hup
  refine ⟨fun hl ht hs => ?ringsIn, fun p ch hl ht hs hp => ?ringsOut, fun hl ht hs => ?recalls, fun hl ht => ?burst,
    fun x g hx ht hf hg hb hw => ?talk⟩
  case ringsIn =>
    obtain ⟨t, hl'⟩ := advance_line? ms hl
    obtain ⟨hline, hmissed, hstate⟩ := missCall_spec hl' (by simp [hs])
    refine ⟨_, lineExpiry_of_timer hup hl ht _, ?_⟩
    rw [ringExpired_ringingIn hl' hs]
    exact ⟨by rw [hline, if_pos rfl]; rfl, hmissed, hstate, fun j hj => by rw [hline, if_neg hj]⟩
  case ringsOut =>
    obtain ⟨t, hl'⟩ := advance_line? ms hl
    obtain ⟨hline, hbound, hrefusal, hstate⟩ := ringExpired_ringingOut_spec hl' hs hp
    simp only [advance_pos, advance_bound, Records.noAnswerSubject, advance_appearanceOfLineAt] at hbound hrefusal
    refine ⟨_, lineExpiry_of_timer hup hl ht _, by rw [hline, if_pos rfl]; rfl, hbound, ?key, ?channel, ?detached, ?others, hstate,
      fun j hj => by rw [hline, if_neg hj]⟩
    case key => intro hatt a ha; rw [hrefusal, if_pos ⟨rfl, hatt⟩, ha]
    case channel => intro hatt ha; rw [hrefusal, if_pos ⟨rfl, hatt⟩, ha]
    case detached => intro hatt; rw [hrefusal, if_neg (by simp [hatt])]
    case others => intro k hk; rw [hrefusal, if_neg (fun ⟨hkp, _⟩ => hk hkp)]
  case recalls =>
    obtain ⟨t, hl'⟩ := advance_line? ms hl
    have hspec := recallExpired_spec hl' hs
    exact ⟨_, lineExpiry_of_timer hup hl ht _, hspec⟩
  case burst =>
    obtain ⟨t, hl'⟩ := advance_line? ms hl
    refine ⟨_, lineExpiry_of_timer hup hl ht _, ?_⟩
    rw [burstExpired_of_line hl']
    exact ⟨line?_setLine_same .., fun j hj => by rw [line?_setLine, if_neg hj], rfl⟩
  case talk =>
    obtain ⟨t, hx'⟩ := advance_member? ms hx
    have hg' : (s.advance ms).recs.group? x.group = some g := by rw [advance_group?, hg]
    obtain ⟨hmember, hgroup⟩ := releaseFloor_talking hx' hg' hf hb (fun k y hy => hw k y (by rw [← advance_group? ms, hy]))
    have hwork := floorWork_releaseFloor id (s.advance ms).recs
    have hfloor := floor_raised_releaseFloor hx' hf
    exact ⟨_, talkTimerExpiry_of_timer hup hx ht, hmember, hgroup, hfloor,
      fun p => by rw [hwork.toCallWork.ptt, advance_pos], hwork.lines⟩

end Sys2Proof.Machine
end

section
/-!
Settles O22: LOCK-POSITION, UNLOCK-POSITION, TAKE-KEYS and SET-DISPOSITION on a position and a disposition in range.
-/
namespace Sys2Proof.Machine

/-! ### A request that may change any record -/

/-- R189: a request over the whole state that changes the records alone is answered with its body in the step in which it is taken. -/
theorem request_taken {s : State} {code : Nat} {q : Request} {rest : List Request} {f : List Byte → State → ResultCode × List Byte × State}
    {c : ResultCode} {body : List Byte} {r : Records} (h : Takes s code q rest)
    (hf : ∀ t : State, t.recs = s.recs → f q.body t = (c, body, t.withRecs r)) :
    s.request code f = .next ((s.answered q rest c body).withRecs r).finish := by
  have hx := hf { s with port := { s.port with requests := rest } } rfl
  simp only [State.request, takes_of_Takes h, hx, withRecs_port, answer_port (executor_of_Takes h)]
  rfl

/-! ### The four requests -/

theorem exec_lockPosition (s : State) : exec .lockPosition s = s.recordRequest 24 (numberBody Records.lockPosition) := rfl

theorem exec_unlockPosition (s : State) : exec .unlockPosition s = s.recordRequest 25 (numberBody Records.unlockPosition) := rfl

theorem exec_takeKeys (s : State) : exec .takeKeys s = execTakeKeys s := rfl

theorem exec_setDisposition (s : State) : exec .setDisposition s = execSetDisposition s := rfl

/-- R57: a position in range is locked, and a PTT held there ends with its floor. -/
theorem lockPosition_val (r : Records) (p : Fin 48) :
    r.lockPosition p.val = (.done, (r.modPos p (fun x => { x with lock := true })).dropPtt p) := by simp [Records.lockPosition]

/-- R57: a position in range is unlocked. -/
theorem unlockPosition_val (r : Records) (p : Fin 48) :
    r.unlockPosition p.val = (.done, r.modPos p (fun x => { x with lock := false })) := by simp [Records.unlockPosition]

/-- R68: the pressed codes of a position in range are counted, listed and cleared. -/
theorem takeKeys_val (r : Records) (p : Fin 48) :
    r.takeKeys p.val = (.done, byte1 (r.pos p).pressed.length :: (r.pos p).pressed.map byte1, r.modPos p (fun x => { x with pressed := [] })) := by
  simp [Records.takeKeys]

/-- R64: a disposition that the kind may have is written to the table. -/
theorem setDisposition_of_set {r : Records} {kind v : Nat} {x : Disposition} {d : Dispositions} (hv : Disposition.ofNat? v = some x)
    (hd : r.dispositions.set kind x = some d) : r.setDisposition kind v = (.done, { r with dispositions := d }) := by
  simp [Records.setDisposition, hv, hd]

/-- Settles O22: each request is taken with its body read, and acts on the records as its rule says. -/
theorem positionRequestsAct : Obligations.PositionRequestsAct := by
  intro s q rest p b hb
  refine ⟨fun ht hbody => ?lock, fun ht hbody => ?unlock, fun ht hbody => ?keys, fun k v d x ht hbody hv hd => ?disposition⟩
  case lock =>
    rw [exec_lockPosition, recordRequest_taken ht]
    simp only [numberBody, hbody, hb, lockPosition_val]
  case unlock =>
    rw [exec_unlockPosition, recordRequest_taken ht]
    simp only [numberBody, hbody, hb, unlockPosition_val]
  case keys =>
    refine (exec_takeKeys s).trans (request_taken ht (fun t hrecs => ?_))
    simp only [hbody, hrecs, hb, takeKeys_val]
    rfl
  case disposition =>
    rw [exec_setDisposition, execSetDisposition, recordRequest_taken ht]
    simp only [hbody, setDisposition_of_set hv hd]

end Sys2Proof.Machine
end

section
/-!
Settles O23: an injected event, the local actions of the keys, the hooks, the volumes and a PTT release, and the dispositions of an event from the link.
-/
namespace Sys2Proof.Machine

/-! ### A local action with its refusal recorded (R65, R70) -/

theorem actLocally_taken {r r' : Records} {p : Fin 48} {e : KeyEvent} (h : r.localAction p e = (r', none)) : r.actLocally p e = (r', none) := by
  simp [Records.actLocally, h]

theorem actLocally_refused {r r' : Records} {p : Fin 48} {e : KeyEvent} {why : KeyRefusal} (h : r.localAction p e = (r', some why)) :
    r.actLocally p e = (r'.refuse p why e.subject, some why) := by simp [Records.actLocally, h]

/-! ### INJECT-EVENT (R69) -/

theorem exec_injectEvent (s : State) : exec .injectEvent s = execInjectEvent s := rfl

/-- R69: the request's body names a position and spells an event. -/
theorem injectEvent_taken {s : State} {q : Request} {rest : List Request} {b k a1 a2 : Byte} {p : Fin 48} {c : ResultCode} {r : Records}
    (ht : Takes s 26 q rest) (hbody : q.body = [b, k, a1, a2]) (hb : b.toNat = p.val) (hr : s.recs.injectEvent p.val k a1 a2 = (c, r)) :
    exec .injectEvent s = .next ((s.answered q rest c []).withRecs r).finish := by
  rw [exec_injectEvent, execInjectEvent, recordRequest_taken ht]
  simp only [hbody, hb, hr]

section
variable {r : Records} {p : Fin 48} {k a b : Byte} {e : KeyEvent} (he : KeyEvent.ofBytes k a b = some e) (hf : ∀ f, e ≠ .funcKey f)
include he hf

/-- R69: at a DETACHED position an event that may be injected does nothing. -/
theorem injectEvent_detached (hd : (r.pos p).attached = false) : r.injectEvent p.val k a b = (.notAttached, r) := by
  unfold Records.injectEvent
  rw [asFin_val, he]
  cases e with
  | funcKey f => exact absurd rfl (hf f)
  | _ => simp [hd]

/-- R69: elsewhere it acts as under LOCAL, and its refusal is the result. -/
theorem injectEvent_attached {r' : Records} {refusal : Option KeyRefusal} (hatt : (r.pos p).attached = true)
    (hact : (r.trackEvent p e true).actLocally p e = (r', refusal)) : r.injectEvent p.val k a b = (refusal.elim .done .key, r') := by
  unfold Records.injectEvent
  rw [asFin_val, he]
  cases e with
  | funcKey f => exact absurd rfl (hf f)
  | _ => cases refusal <;> simp [hatt, hact]

end

/-! ### The line on the selected handset (R33, R38, R40) -/

theorem selectedLine_none {r : Records} {p : Fin 48}
    (h : (r.pos p).selected = none ∨ ∃ h, (r.pos p).selected = some h ∧ r.bound p (.hand h) = .none) : r.selectedLine p = none := by
  rcases h with hsel | ⟨h, hsel, hb⟩
  · simp [Records.selectedLine, hsel]
  · simp [Records.selectedLine, hsel, handLine_of_bound_none hb]

section
variable {r : Records} {p : Fin 48} (hs : r.selectedLine p = none)
include hs

theorem releaseKey_none : r.releaseKey p = (r, some .notNow) := by simp [Records.releaseKey, hs]

theorem holdKey_none : r.holdKey p = (r, some .notNow) := by simp [Records.holdKey, hs]

theorem ringKey_none : r.ringKey p = (r, some .notNow) := by simp [Records.ringKey, hs]

end

section
variable {r : Records} {p : Fin 48} {h : Handset} {id : Nat} (hsel : (r.pos p).selected = some h) (hb : r.bound p (.hand h) = .line id)
include hsel hb

theorem selectedLine_of_bound : r.selectedLine p = some id := by simp [Records.selectedLine, hsel, handLine_of_bound hb]

/-- R40: the RELEASE key leaves the line on the selected handset. -/
theorem releaseKey_of_bound : r.releaseKey p = (r.releaseLeave p id, none) := by
  simp [Records.releaseKey, selectedLine_of_bound hsel hb]

/-- R38: the HOLD key holds the line on the selected handset, unless it is RINGING_OUT. -/
theorem holdKey_of_bound {l : Line} (hl : r.line? id = some l) :
    r.holdKey p = if l.state = .ringingOut then (r, some .notNow) else (r.holdLeave p id, none) := by
  simp [Records.holdKey, selectedLine_of_bound hsel hb, hl]

/-- R33: the RING key starts a burst on a SIGNALLED line that is CONNECTED, and on no other. -/
theorem ringKey_of_bound {l : Line} (hl : r.line? id = some l) :
    r.ringKey p = if l.type = .signalled ∧ l.state = .connected then
      (r.setLine id { l with desired := { l.desired with ringOut := true }, timer := some ⟨.ringBurst, 2000⟩ }, none)
      else (r, some .notNow) := by
  simp [Records.ringKey, selectedLine_of_bound hsel hb, hl]

end

/-- What a local action that leaves line id comes to: the line as the leave makes it, the channel it stood on free, no other line changed. -/
theorem leaves_of_eq {r r' : Records} {x : Records × Option KeyRefusal} {p : Fin 48} {ch : Channel} {id : Nat} {l : Line} (hx : x = (r', none))
    (hleave : (∀ j, r'.line? j = if j = id then some l else r.line? j) ∧ (r.bound p ch = .line id → r'.bound p ch = .none))
    (hb : r.bound p ch = .line id) :
    x.2 = none ∧ x.1.line? id = some l ∧ x.1.bound p ch = .none ∧ ∀ j, j ≠ id → x.1.line? j = r.line? j := by
  subst hx
  exact ⟨rfl, by rw [hleave.1, if_pos rfl], hleave.2 hb, fun j hj => by rw [hleave.1, if_neg hj]⟩

/-! ### The hooks (R58, R40) -/

theorem hook_h1 (x : Position) (off : Bool) :
    x.hook .h1 off = { x with
      offHook1 := off
      selected := if off then some .h1 else if x.selected = some .h1 then (if x.offHook2 then some .h2 else none) else x.selected } := by
  cases off
  · by_cases hs : x.selected = some .h1
    · cases ho : x.offHook2 <;> simp [Position.hook, Position.setHook, Position.offHook, Handset.other, hs, ho]
    · simp [Position.hook, Position.setHook, hs]
  · simp [Position.hook, Position.setHook]

theorem hook_h2 (x : Position) (off : Bool) :
    x.hook .h2 off = { x with
      offHook2 := off
      selected := if off then some .h2 else if x.selected = some .h2 then (if x.offHook1 then some .h1 else none) else x.selected } := by
  cases off
  · by_cases hs : x.selected = some .h2
    · cases ho : x.offHook1 <;> simp [Position.hook, Position.setHook, Position.offHook, Handset.other, hs, ho]
    · simp [Position.hook, Position.setHook, hs]
  · simp [Position.hook, Position.setHook]

/-- A HOOK event changes no binding. -/
theorem bound_hook (r : Records) (p : Fin 48) (h : Handset) (off : Bool) (q : Fin 48) (ch : Channel) :
    (r.modPos p (fun x => x.hook h off)).bound q ch = r.bound q ch := by
  unfold Records.bound
  rw [pos_modPos]
  by_cases hq : q = p
  · subst hq
    cases h
    · simp only [if_pos, hook_h1]
    · simp only [if_pos, hook_h2]
  · simp only [if_neg hq]

theorem hangUp_of_none {r : Records} {p : Fin 48} {h : Handset} (hb : r.bound p (.hand h) = .none) : r.hangUp p h = r := by
  simp [Records.hangUp, handLine_of_bound_none hb]

theorem hangUp_of_bound {r : Records} {p : Fin 48} {h : Handset} {id : Nat} (hb : r.bound p (.hand h) = .line id) :
    r.hangUp p h = r.releaseLeave p id := by simp [Records.hangUp, handLine_of_bound hb]

theorem callWork_releaseLeave (p : Fin 48) (id : Nat) (r : Records) : CallWork r (r.releaseLeave p id) := by
  unfold Records.releaseLeave
  split
  · exact .refl r
  · split
    · exact callWork_toIdle ..
    · exact callWork_removeParty ..

/-- Call work leaves the selected handset alone. -/
theorem CallWork.selected {r r' : Records} (h : CallWork r r') (p : Fin 48) : (r'.pos p).selected = (r.pos p).selected := by rw [h.pos p]

/-- R40: a handset that goes on-hook with a line on it leaves that line, and the other handset is selected where it is off-hook. -/
theorem hookOn_leaves {r r1 : Records} {p : Fin 48} {h : Handset} {id : Nat} {l : Line} (hb : r.bound p (.hand h) = .line id)
    (hr1 : r1 = r.modPos p (fun x => x.hook h false))
    (hleave : (∀ j, (r1.releaseLeave p id).line? j = if j = id then some l else r1.line? j) ∧
      (r1.bound p (.hand h) = .line id → (r1.releaseLeave p id).bound p (.hand h) = .none)) :
    let x := (r.trackEvent p (.hook h false) true).localAction p (.hook h false)
    (x.2 = none ∧ x.1.line? id = some l ∧ x.1.bound p (.hand h) = .none ∧ ∀ j, j ≠ id → x.1.line? j = r.line? j) ∧
    (x.1.pos p).selected = ((r.pos p).hook h false).selected := by
  intro x
  have hb1 : r1.bound p (.hand h) = .line id := by rw [hr1, bound_hook, hb]
  have hx : x = (r1.releaseLeave p id, none) := by
    rw [← hangUp_of_bound hb1, hr1]
    rfl
  have hline (j : Nat) : r1.line? j = r.line? j := by rw [hr1, line?_modPos]
  simp only [hline] at hleave
  refine ⟨leaves_of_eq hx ⟨hleave.1, fun _ => hleave.2 hb1⟩ hb, ?_⟩
  rw [hx, (callWork_releaseLeave ..).selected, hr1, pos_modPos_same]

/-! ### The release of PTT (R59, R92, R94) -/

/-- R59: only the PTT that is held is released. -/
theorem pttRelease_other {r : Records} {p : Fin 48} {n : Fin 8} (h : (r.pos p).ptt ≠ some n) : r.trackEvent p (.ptt n false) true = r := by
  simp [Records.trackEvent, h]

section
variable {r : Records} {p : Fin 48} {n : Fin 8} (h : (r.pos p).ptt = some n)
include h

theorem pttRelease_held : r.trackEvent p (.ptt n false) true = r.dropPtt p := by simp [Records.trackEvent, h]

/-- R59: the floor of the membership on the channel ends with the PTT. -/
theorem dropPtt_of_member {m : Nat} (hm : vget (r.pos p).speaker n = .member m) : r.dropPtt p = (r.setPtt p none).releaseFloor m := by
  simp [Records.dropPtt, h, Records.memberOn, setPtt_speaker, hm]

/-- R59: the end of a PTT takes it from the channel; what follows is floor work. -/
theorem floorWork_dropPtt : FloorWork (r.setPtt p none) (r.dropPtt p) := by
  simp only [Records.dropPtt, h]
  split
  · exact floorWork_releaseFloor ..
  · exact .refl _

theorem dropPtt_ptt : ((r.dropPtt p).pos p).ptt = none := by
  rw [(floorWork_dropPtt h).toCallWork.ptt, setPtt_ptt, if_pos rfl]

theorem dropPtt_lines : (r.dropPtt p).lines = r.lines := by rw [(floorWork_dropPtt h).lines, setPtt_lines]

end

/-- R92: a member that neither talks nor waits has no floor to end. -/
theorem releaseFloor_idle {r : Records} {m : Nat} {x : Member} (hm : r.member? m = some x) (hf : x.floor = .idle) : r.releaseFloor m = r := by
  simp [Records.releaseFloor, hm, Records.dropFloor, hf, Records.afterLeave]

/-! ### Events from the link (R63, R64, R67) -/

theorem takeEvent_detached {r : Records} {p : Fin 48} (h : (r.pos p).attached = false) (e : KeyEvent) : r.takeEvent p e = r := by
  simp [Records.takeEvent, h]

section
variable {r : Records} {p : Fin 48} {e : KeyEvent} (hatt : (r.pos p).attached = true)
include hatt

theorem takeEvent_local (hd : r.dispositions.of e = .localAct) : r.takeEvent p e = ((r.trackEvent p e true).actLocally p e).1 := by
  simp [Records.takeEvent, hatt, hd]

theorem takeEvent_both (hd : r.dispositions.of e = .both) : r.takeEvent p e = ((r.trackEvent p e true).actLocally p e).1.forward p e := by
  simp [Records.takeEvent, hatt, hd]

theorem takeEvent_forward (hd : r.dispositions.of e = .forward) : r.takeEvent p e = (r.trackEvent p e false).forward p e := by
  simp [Records.takeEvent, hatt, hd]

end

/-- R63: under FORWARD a PTT press takes ptt_channel where no PTT is held. -/
theorem trackPress_forwarded (r : Records) (p : Fin 48) (n : Fin 8) :
    r.trackEvent p (.ptt n true) false = if (r.pos p).ptt = none then r.setPtt p (some n) else r := by
  cases h : (r.pos p).ptt <;> simp [Records.trackEvent, h]

/-- Settles O23: an injected event is the local action of its event; each local action is a leave, a burst, a console field or a floor's end. -/
theorem injectedEventActsLocally : Obligations.InjectedEventActsLocally := by
  refine ⟨?injected, ?actions⟩
  case injected =>
    intro s q rest b k a1 a2 p e r refusal ht hbody hb he hf hact
    refine ⟨fun hatt hnone => ?done, fun why hatt hwhy => ?refused, fun hdet => ?detached⟩
    case done =>
      subst hnone
      exact injectEvent_taken ht hbody hb (injectEvent_attached he hf hatt (actLocally_taken hact))
    case refused =>
      subst hwhy
      exact injectEvent_taken ht hbody hb (injectEvent_attached he hf hatt (actLocally_refused hact))
    case detached => exact injectEvent_taken ht hbody hb (injectEvent_detached he hf hdet)
  case actions =>
    intro r p act idle held fewer only hooked key
    have hhooked (h : Handset) (off : Bool) : (fun x : Position => x.hook h off) = hooked h off := by
      funext x
      cases h with
      | h1 => exact hook_h1 x off
      | h2 => exact hook_h2 x off
    refine ⟨fun hnone => ?unselected, fun h id l hb hl => ⟨fun hsel => ?selected, fun hp => ?hangsUpSole, fun hp hn => ?hangsUpSeveral⟩,
      fun h => ⟨?offHook, fun hb => ?onHook⟩, fun n v => rfl, fun n hn => ?otherPtt, fun n hn => ?heldPtt,
      fun e hdet => takeEvent_detached hdet e, fun e r' refusal hatt hact => ?acted, fun e hatt hd => takeEvent_forward hatt hd,
      fun n => ?press, fun k => ⟨rfl, rfl, rfl⟩, fun k => rfl, rfl, rfl, rfl, fun h off => rfl, fun n on => rfl, fun n v => rfl⟩
    case unselected =>
      have hs := selectedLine_none hnone
      exact ⟨releaseKey_none hs, holdKey_none hs, ringKey_none hs⟩
    case selected =>
      have hrelease : act .release = _ := releaseKey_of_bound hsel hb
      have hhold : act .hold = _ := holdKey_of_bound hsel hb hl
      have hring : act .ring = _ := ringKey_of_bound hsel hb hl
      refine ⟨fun hp => leaves_of_eq hrelease (releaseLeave_sole hl hp) hb,
        fun hp hn => leaves_of_eq hrelease (releaseLeave_several hl hp hn) hb, fun hs => ?ringingOut, fun hs hp => ?holdsSole,
        fun hs hp hn => ?holdsSeveral, fun htype hs => ?rings, fun hno => ?noRing⟩
      case ringingOut => rw [hhold, if_pos hs]
      case holdsSole =>
        rw [if_neg hs] at hhold
        exact leaves_of_eq hhold (holdLeave_sole hl hp) hb
      case holdsSeveral =>
        rw [if_neg hs] at hhold
        exact leaves_of_eq hhold (holdLeave_several hl hp hn) hb
      case rings => rw [hring, if_pos ⟨htype, hs⟩]
      case noRing => rw [hring, if_neg (not_and_or.mpr hno)]
    case hangsUpSole =>
      rw [← hhooked]
      exact hookOn_leaves hb rfl (releaseLeave_sole hl hp)
    case hangsUpSeveral =>
      rw [← hhooked]
      exact hookOn_leaves hb rfl (releaseLeave_several hl hp hn)
    case offHook =>
      rw [← hhooked]
      rfl
    case onHook =>
      rw [← hhooked]
      have hkept : (r.modPos p (fun x => x.hook h false)).hangUp p h = _ := hangUp_of_none (by rw [bound_hook, hb])
      exact Prod.ext hkept rfl
    case otherPtt => exact Prod.ext (pttRelease_other hn) rfl
    case heldPtt =>
      have hact : act (.ptt n false) = (r.dropPtt p, none) := Prod.ext (pttRelease_held hn) rfl
      rw [hact]
      refine ⟨rfl, dropPtt_ptt hn, dropPtt_lines hn, fun m x g hm hx hg => ?_⟩
      have hx' : (r.setPtt p none).member? m = some x := by rw [setPtt_member?, hx]
      have hg' : (r.setPtt p none).group? x.group = some g := by rw [setPtt_group?, hg]
      rw [dropPtt_of_member hn hm]
      refine ⟨fun hf => ?idleFloor, fun hf hbr hw => ?talking, fun hf hbr hw => ?waiting⟩
      case idleFloor =>
        rw [releaseFloor_idle hx' hf]
        exact ⟨setPtt_members .., setPtt_groups ..⟩
      case talking =>
        obtain ⟨hmember, g', hgroup⟩ := releaseFloor_talking hx' hg' hf hbr (fun k y hy => hw k y (by rw [← setPtt_group?, hy]))
        exact ⟨g', hmember, hgroup⟩
      case waiting =>
        obtain ⟨hmember, g', hgroup⟩ := releaseFloor_waiting hx' hg' hf hbr (fun k y hk hy => hw k y hk (by rw [← setPtt_group?, hy]))
        exact ⟨g', hmember, hgroup⟩
    case acted =>
      cases refusal with
      | none =>
        exact ⟨fun hd => by rw [takeEvent_local hatt hd, actLocally_taken hact], fun hd => by rw [takeEvent_both hatt hd, actLocally_taken hact]⟩
      | some why =>
        exact ⟨fun hd => by rw [takeEvent_local hatt hd, actLocally_refused hact],
          fun hd => by rw [takeEvent_both hatt hd, actLocally_refused hact]⟩
    case press =>
      exact ⟨fun hn => ⟨by rw [trackPress_forwarded, if_pos hn], by rw [setPtt_ptt, if_pos rfl]⟩,
        fun hn => by rw [trackPress_forwarded, if_neg hn]⟩

end Sys2Proof.Machine
end

section
/-!
Settles O26: a PTT press on a membership's channel, which talks, preempts, waits, claims a bridge or is refused, and a press on any other channel.
-/
namespace Sys2Proof.Machine

/-! ### The victim of a preemption (R90) -/

theorem victimOf_mem {prio : Nat → Nat} {ts : List Nat} {v : Nat} (h : victimOf prio ts = some v) : v ∈ ts := by
  induction ts generalizing v with
  | nil => cases h
  | cons t ts ih =>
    simp only [victimOf] at h
    cases hrest : victimOf prio ts with
    | none => simp_all
    | some w =>
      simp only [hrest] at h
      split at h <;> cases h
      · exact List.mem_cons_self
      · exact List.mem_cons_of_mem _ (ih hrest)

/-- R90: the victim has the lowest priority, and is the last granted of those that have it. -/
theorem victimOf_append {prio : Nat → Nat} {earlier later : List Nat} {v : Nat} (he : ∀ u ∈ earlier, prio v ≤ prio u)
    (hl : ∀ u ∈ later, prio v < prio u) : victimOf prio (earlier ++ v :: later) = some v := by
  induction earlier with
  | nil =>
    simp only [List.nil_append, victimOf]
    cases hrest : victimOf prio later with
    | none => rfl
    | some w => exact if_pos (hl w (victimOf_mem hrest))
  | cons t ts ih =>
    have ht : ¬ prio t < prio v := Nat.not_lt.mpr (he t List.mem_cons_self)
    simp only [List.cons_append, victimOf, ih (fun u hu => he u (List.mem_cons_of_mem _ hu)), if_neg ht]

theorem priorityOf_of_member {r : Records} {m : Nat} {y : Member} (hm : r.member? m = some y) : r.priorityOf m = y.priority := by
  simp [Records.priorityOf, hm]

/-- R90: under PRIORITY with PREEMPT, a group with a bridge gives up its victim to a press of higher priority. -/
theorem preemptible_some {r : Records} {m v : Nat} {x : Group} {earlier later : List Nat} (hp : x.policy = .priority) (hpre : x.preempt = true)
    (hb : x.bridge ≠ none) (ht : x.talkers = earlier ++ v :: later) (he : ∀ u ∈ earlier, r.priorityOf v ≤ r.priorityOf u)
    (hl : ∀ u ∈ later, r.priorityOf v < r.priorityOf u) (hlt : r.priorityOf v < r.priorityOf m) : r.preemptible m x = some v := by
  have hbs : x.bridge.isSome = true := Option.isSome_iff_ne_none.mpr hb
  simp [Records.preemptible, hp, hpre, hbs, ht, victimOf_append he hl, hlt]

/-- R90: nobody is preempted while the group has no bridge, under ARRIVAL, without PREEMPT, or where no talker's priority is lower. -/
theorem preemptible_none {r : Records} {m : Nat} {x : Group}
    (h : x.bridge = none ∨ x.policy = .arrival ∨ x.preempt = false ∨ ∀ u ∈ x.talkers, r.priorityOf m ≤ r.priorityOf u) :
    r.preemptible m x = none := by
  unfold Records.preemptible
  split
  · rename_i hcan
    obtain ⟨hp, hpre, hbs⟩ := hcan
    rcases h with hb | hp' | hpre' | hle
    · simp [hb] at hbs
    · simp [hp] at hp'
    · simp [hpre] at hpre'
    · cases hv : victimOf r.priorityOf x.talkers with
      | none => rfl
      | some v => exact if_neg (Nat.not_lt.mpr (hle v (victimOf_mem hv)))
  · rfl

/-! ### A press judged by its group (R88) -/

/-- R88: a group without a bridge, or with every place taken, has no room on its floor. -/
theorem not_room_of_full {x : Group} (h : x.bridge = none ∨ x.talkerLimit ≤ x.talkers.length) :
    ¬ (x.bridge.isSome = true ∧ x.talkers.length < x.talkerLimit) := by
  rintro ⟨hbs, hroom⟩
  rcases h with hb | hle
  · simp [hb] at hbs
  · omega

section
variable {r : Records} {m : Nat} {y : Member} {x : Group} (hm : r.member? m = some y) (hg : r.group? y.group = some x)
include hm hg

theorem pressFloor_listen (hrole : y.role = .listen) : r.pressFloor m = (r, some .listenOnly) := by
  simp [Records.pressFloor, hm, hg, hrole]

variable (hrole : y.role = .talk)
include hrole

theorem pressFloor_talks (hb : x.bridge ≠ none) (hroom : x.talkers.length < x.talkerLimit) : r.pressFloor m = (r.talk m y.group x, none) := by
  have hbs : x.bridge.isSome = true := Option.isSome_iff_ne_none.mpr hb
  simp [Records.pressFloor, hm, hg, hrole, hbs, hroom]

variable (hfull : x.bridge = none ∨ x.talkerLimit ≤ x.talkers.length)
include hfull

theorem pressFloor_preempts {v : Nat} (hv : r.preemptible m x = some v) : r.pressFloor m = (r.preempt m y.group v x, none) := by
  have hnot : y.role ≠ .listen := by simp [hrole]
  simp only [Records.pressFloor, hm, hg, if_neg hnot, if_neg (not_room_of_full hfull), hv]

theorem pressFloor_unpreempted (hv : r.preemptible m x = none) :
    r.pressFloor m = if x.waiting.length < 8 then (r.wait m y.group x, none) else (r, some .floorFull) := by
  have hnot : y.role ≠ .listen := by simp [hrole]
  simp only [Records.pressFloor, hm, hg, if_neg hnot, if_neg (not_room_of_full hfull), hv]

end

/-! ### The floor taken (R89, R90) -/

/-- R89: the presser joins the talkers. -/
theorem talk_spec {r : Records} {m : Nat} {y : Member} (hm : r.member? m = some y) (g : Nat) (x : Group) :
    FloorWork r (r.talk m g x) ∧ (r.talk m g x).group? g = some { x with talkers := x.talkers ++ [m] } ∧
    (r.talk m g x).member? m = some { y with floor := .talking, talkTimer := secondsTimer x.talkTime } := by
  refine ⟨((floorWork_setGroup ..).trans (floorWork_modMember ..)).trans (floorWork_reportFloor ..), ?_, ?_⟩
  · simp [Records.talk, Records.startTalk]
  · simp [Records.talk, Records.startTalk, member?_modMember, hm]

/-- R90: the presser takes the victim's place. -/
theorem preempt_spec {r : Records} {m v : Nat} {y z : Member} (hm : r.member? m = some y) (hv : r.member? v = some z) (hne : m ≠ v) (g : Nat)
    (x : Group) :
    FloorWork r (r.preempt m g v x) ∧ (r.preempt m g v x).group? g = some { x with talkers := x.talkers.filter (fun i => !(i == v)) ++ [m] } ∧
    (r.preempt m g v x).member? v = some { z with floor := .idle, talkTimer := none } ∧
    (r.preempt m g v x).member? m = some { y with floor := .talking, talkTimer := secondsTimer x.talkTime } := by
  refine ⟨(((floorWork_setGroup ..).trans (floorWork_modMember ..)).trans (floorWork_modMember ..)).trans (floorWork_reportFloor ..), ?_, ?_, ?_⟩
  · simp [Records.preempt, Records.startTalk]
  · simp [Records.preempt, Records.startTalk, member?_modMember, hv, Ne.symm hne]
  · simp [Records.preempt, Records.startTalk, member?_modMember, hm, hne]

/-! ### The place in the waiting list (R91) -/

theorem waitingInsert_eq (policy : Policy) (prio : Nat → Nat) (m : Nat) (waiting : List Nat) :
    waitingInsert policy prio m waiting = if policy = .arrival then waiting ++ [m] else
      waiting.filter (fun i => decide (prio m ≤ prio i)) ++ [m] ++ waiting.filter (fun i => decide (prio i < prio m)) := by
  cases policy <;> rfl

theorem waitingInsert_nil (policy : Policy) (prio : Nat → Nat) (m : Nat) : waitingInsert policy prio m [] = [m] := by
  cases policy <;> rfl

theorem waitingInsert_ne_nil (policy : Policy) (prio : Nat → Nat) (m : Nat) (waiting : List Nat) : waitingInsert policy prio m waiting ≠ [] := by
  cases policy <;> simp [waitingInsert]

/-- R91: m in the waiting list of group g, the bridge need not yet tested. -/
def Records.queued (m g : Nat) (x : Group) (r : Records) : Records :=
  ((r.setGroup g { x with waiting := waitingInsert x.policy r.priorityOf m x.waiting }).modMember m (fun y => { y with floor := .waiting })).reportFloor
    g false

theorem wait_eq (r : Records) (m g : Nat) (x : Group) : r.wait m g x = (r.queued m g x).testNeed g := rfl

theorem floorWork_queued (m g : Nat) (x : Group) (r : Records) : FloorWork r (r.queued m g x) :=
  ((floorWork_setGroup ..).trans (floorWork_modMember ..)).trans (floorWork_reportFloor ..)

theorem floorWork_wait (m g : Nat) (x : Group) (r : Records) : FloorWork r (r.wait m g x) :=
  (floorWork_queued m g x r).trans (floorWork_testNeed ..)

@[simp] theorem group?_queued (r : Records) (m g : Nat) (x : Group) :
    (r.queued m g x).group? g = some { x with waiting := waitingInsert x.policy r.priorityOf m x.waiting } := by simp [Records.queued]

theorem member?_queued {r : Records} {m : Nat} {y : Member} (hm : r.member? m = some y) (g : Nat) (x : Group) :
    (r.queued m g x).member? m = some { y with floor := .waiting } := by simp [Records.queued, member?_modMember, hm]

@[simp] theorem bridges_queued (r : Records) (m g : Nat) (x : Group) : (r.queued m g x).bridges = r.bridges := by simp [Records.queued]

@[simp] theorem waitList_queued (r : Records) (m g : Nat) (x : Group) : (r.queued m g x).waitList = r.waitList := by simp [Records.queued]

/-! ### The bridge need of a group in which a member waits (R86, R105) -/

/-- R86: a group in which a member waits needs a bridge. -/
theorem needsBridge_queued (r : Records) (m g : Nat) (x : Group) : (r.queued m g x).needsBridge g = true := by
  have hne : (waitingInsert x.policy r.priorityOf m x.waiting).isEmpty = false := by
    simpa using waitingInsert_ne_nil x.policy r.priorityOf m x.waiting
  simp [Records.needsBridge, hne]

/-- R86: a group that holds a bridge, or waits for one, claims none. -/
theorem wait_of_held {m g : Nat} {x : Group} (h : x.bridge ≠ none ∨ x.inWaitList = true) (r : Records) : r.wait m g x = r.queued m g x := by
  have hno : ¬ (x.bridge.isNone = true ∧ x.inWaitList = false) := by
    rintro ⟨hb, hw⟩
    rcases h with hb' | hw'
    · exact hb' (Option.isNone_iff_eq_none.mp hb)
    · simp [hw] at hw'
  simp only [wait_eq, Records.testNeed, group?_queued, needsBridge_queued, if_true, if_neg hno]

/-- R86: a group that neither holds a bridge nor waits for one claims one. -/
theorem wait_claims {m g : Nat} {x : Group} (hb : x.bridge = none) (hw : x.inWaitList = false) (r : Records) :
    r.wait m g x = (r.queued m g x).groupClaim g := by
  simp [wait_eq, Records.testNeed, needsBridge_queued, hb, hw]

/-- R105: while more bridges are FREE than the reserve, a claim is granted the lowest-numbered. -/
theorem groupClaim_granted {r : Records} {b : Nat} (hfree : r.reserve < r.freeBridges) (hlow : r.lowestBridge = some b) (g : Nat) :
    r.groupClaim g = r.allocateToGroup g b := by simp [Records.groupClaim, hfree, hlow]

/-- R105, R106: while no more are FREE than the reserve, the group joins the wait list at its tail. -/
theorem groupClaim_waits {r : Records} {g : Nat} {x : Group} (hfree : r.freeBridges ≤ r.reserve) (hg : r.group? g = some x) :
    (r.groupClaim g).waitList = r.waitList ++ [g] ∧ Reason.waiting ∈ (r.groupClaim g).reasons (.group g) ∧
    (r.groupClaim g).group? g = some { x with inWaitList := true } ∧ ∀ m, (r.groupClaim g).member? m = r.member? m := by
  simp only [Records.groupClaim, if_neg (Nat.not_lt.mpr hfree)]
  refine ⟨by simp, mem_reasons_raise .., ?_, fun m => by simp [Records.member?]⟩
  have hg' : ({ r with waitList := r.waitList ++ [g] } : Records).group? g = some x := hg
  simp [group?_modGroup, hg']

/-- R94: with nobody talking, the one that waits takes the floor. -/
theorem granted_of_sole {x : Group} {m : Nat} (hb : x.bridge ≠ none) (ht : x.talkers = []) (hw : x.waiting = [m]) (hl : 1 ≤ x.talkerLimit) :
    x.winners = [m] ∧ x.granted = { x with talkers := [m], waiting := [] } := by
  have hwin : x.winners = [m] := by
    simp only [Group.winners, Option.isSome_iff_ne_none.mpr hb, if_true, ht, hw, List.length_nil, Nat.sub_zero]
    exact List.take_of_length_le hl
  exact ⟨hwin, by simp [Group.granted, hwin, ht, hw]⟩

section
variable {r : Records} {m g : Nat} {y : Member} {x : Group} (hm : r.member? m = some y) (hb : x.bridge = none) (hw : x.inWaitList = false)
  (hq : x.waiting = [])
include hm hb hw hq

/-- R86, R105, R94: the first to wait has the group claim a bridge, and talks at once. -/
theorem wait_granted {b : Nat} (ht : x.talkers = []) (hl : 1 ≤ x.talkerLimit) (hfree : r.reserve < r.freeBridges)
    (hlow : r.lowestBridge = some b) :
    Table.find (r.wait m g x).bridges b = some (.group g) ∧ (r.wait m g x).group? g = some { x with bridge := some b, talkers := [m] } ∧
    (r.wait m g x).member? m = some { y with floor := .talking, talkTimer := secondsTimer x.talkTime } := by
  have hfree' : (r.queued m g x).reserve < (r.queued m g x).freeBridges := by
    simpa [Records.freeBridges, (floorWork_queued m g x r).reserve] using hfree
  have hlow' : (r.queued m g x).lowestBridge = some b := by simpa [Records.lowestBridge] using hlow
  rw [wait_claims hb hw, groupClaim_granted hfree' hlow']
  obtain ⟨hgroup, hmember, hbridges, _⟩ := allocateToGroup_spec (b := b) (group?_queued r m g x)
  have hins : waitingInsert x.policy r.priorityOf m x.waiting = [m] := by rw [hq, waitingInsert_nil]
  obtain ⟨hwin, hgranted⟩ := granted_of_sole (m := m)
    (x := { x with waiting := waitingInsert x.policy r.priorityOf m x.waiting, bridge := some b, inWaitList := false }) (by simp) ht hins hl
  refine ⟨by rw [hbridges, Table.find_put_same], ?_, ?_⟩
  · rw [hgroup, if_pos rfl]
    exact (congrArg some hgranted).trans (by rw [hw, hq])
  · rw [hmember, hwin, if_pos (List.mem_singleton_self m), member?_queued hm]
    rfl

/-- R86, R105, R106: the first to wait has the group claim a bridge, and waits with the group in the wait list. -/
theorem wait_listed (hfree : r.freeBridges ≤ r.reserve) :
    (r.wait m g x).waitList = r.waitList ++ [g] ∧ Reason.waiting ∈ (r.wait m g x).reasons (.group g) ∧
    (r.wait m g x).group? g = some { x with waiting := [m], inWaitList := true } ∧
    (r.wait m g x).member? m = some { y with floor := .waiting } := by
  have hfree' : (r.queued m g x).freeBridges ≤ (r.queued m g x).reserve := by
    simpa [Records.freeBridges, (floorWork_queued m g x r).reserve] using hfree
  rw [wait_claims hb hw]
  obtain ⟨hlist, hreason, hgroup, hmember⟩ := groupClaim_waits hfree' (group?_queued r m g x)
  exact ⟨by rw [hlist, waitList_queued], hreason, by rw [hgroup, hq, waitingInsert_nil], by rw [hmember, member?_queued hm]⟩

end

/-! ### A press (R66) -/

/-- R66: a press taken on a membership's channel is the group's act with ptt_channel taken. -/
theorem pressPtt_taken {r r' : Records} {p : Fin 48} {n : Fin 8} {m : Nat} (hptt : (r.pos p).ptt = none)
    (hspk : vget (r.pos p).speaker n = .member m) (h : (r.setPtt p (some n)).pressFloor m = (r', none)) : r.pressPtt p n = (r', none) := by
  simp [Records.pressPtt, hptt, hspk, h]

/-- R66: a press that the group refuses leaves ptt_channel alone. -/
theorem pressPtt_refused {r r' : Records} {p : Fin 48} {n : Fin 8} {m : Nat} {why : KeyRefusal} (hptt : (r.pos p).ptt = none)
    (hspk : vget (r.pos p).speaker n = .member m) (h : (r.setPtt p (some n)).pressFloor m = (r', some why)) : r.pressPtt p n = (r, some why) := by
  simp [Records.pressPtt, hptt, hspk, h]

/-- R66: the press takes ptt_channel of its position, and the floor work that follows leaves it. -/
theorem ptt_after_press {r r' : Records} {p : Fin 48} {n : Fin 8} (h : FloorWork (r.setPtt p (some n)) r') (k : Fin 48) :
    (r'.pos k).ptt = if k = p then some n else (r.pos k).ptt := by rw [h.toCallWork.ptt, setPtt_ptt]

@[simp] theorem priorityOf_setPtt (r : Records) (p : Fin 48) (v : Option (Fin 8)) (m : Nat) : (r.setPtt p v).priorityOf m = r.priorityOf m := by
  simp [Records.priorityOf]

/-- Settles O26: the press is judged by the group on the records with ptt_channel taken, where groups, members and pools are as before it. -/
theorem pttPressTalksOrWaits : Obligations.PttPressTalksOrWaits := by
  refine ⟨?member, fun r p n => ⟨fun hptt => ?busy, fun hptt hspk => ?unbound, fun id hptt hspk => ?line⟩⟩
  case busy => simp [Records.pressPtt, Option.isSome_iff_ne_none.mpr hptt]
  case unbound => simp [Records.pressPtt, hptt, hspk]
  case line =>
    have hpress : r.pressPtt p n = (r.setPtt p (some n), none) := by simp [Records.pressPtt, hptt, hspk]
    rw [hpress]
    exact ⟨rfl, by rw [setPtt_ptt, if_pos rfl], setPtt_lines .., setPtt_groups .., setPtt_members ..⟩
  case member =>
    intro r p n m x g hptt hspk hx hg timer waits place
    have hx0 : (r.setPtt p (some n)).member? m = some x := by rw [setPtt_member?, hx]
    have hg0 : (r.setPtt p (some n)).group? x.group = some g := by rw [setPtt_group?, hg]
    have hprio : r.priorityOf m = x.priority := priorityOf_of_member hx
    have hwaits (hheld : g.bridge ≠ none ∨ g.inWaitList = true)
        (hfloor : (r.setPtt p (some n)).pressFloor m = ((r.setPtt p (some n)).wait m x.group g, none)) : waits place := by
      have hpress := pressPtt_taken hptt hspk hfloor
      rw [wait_of_held hheld] at hpress
      show _ ∧ _ ∧ _ ∧ _
      rw [hpress]
      refine ⟨rfl, by rw [ptt_after_press (floorWork_queued ..), if_pos rfl], ?_, member?_queued hx0 ..⟩
      rw [group?_queued, waitingInsert_eq]
      simp only [priorityOf_setPtt, hprio]
      rfl
    refine ⟨fun hrole => ?listens, fun hrole hb hroom => ?talks, fun hrole hb hfull => ?floorFull, fun hrole hb hroom hw => ?waitsAgain,
      fun hrole hb hfull => ⟨fun hkeep => ?kept, fun earlier v later y hpol hpre ht he hl hlt hv => ?preempts⟩,
      fun hrole hb hw ht hq hlim => ⟨fun b hfree hlow => ?granted, fun hfree => ?listed⟩⟩
    case listens => exact pressPtt_refused hptt hspk (pressFloor_listen hx0 hg0 hrole)
    case talks =>
      obtain ⟨hwork, hgroup, hmember⟩ := talk_spec hx0 x.group g
      rw [pressPtt_taken hptt hspk (pressFloor_talks hx0 hg0 hrole hb hroom)]
      exact ⟨rfl, by rw [ptt_after_press hwork, if_pos rfl], hgroup, hmember⟩
    case floorFull =>
      have hfloor := pressFloor_unpreempted hx0 hg0 hrole (.inl hb) (preemptible_none (.inl hb))
      exact pressPtt_refused hptt hspk (hfloor.trans (if_neg (Nat.not_lt.mpr hfull)))
    case waitsAgain =>
      have hfloor := pressFloor_unpreempted hx0 hg0 hrole (.inl hb) (preemptible_none (.inl hb))
      exact hwaits (.inr hw) (hfloor.trans (if_pos hroom))
    case kept =>
      have hnone : (r.setPtt p (some n)).preemptible m g = none := preemptible_none (.inr (by simpa [hprio] using hkeep))
      have hfloor := pressFloor_unpreempted hx0 hg0 hrole (.inr hfull) hnone
      exact ⟨fun hroom => hwaits (.inl hb) (hfloor.trans (if_pos hroom)),
        fun hno => pressPtt_refused hptt hspk (hfloor.trans (if_neg (Nat.not_lt.mpr hno)))⟩
    case preempts =>
      have hne : m ≠ v := by
        rintro rfl
        omega
      have hvictim : (r.setPtt p (some n)).preemptible m g = some v :=
        preemptible_some hpol hpre hb ht (by simpa using he) (by simpa using hl) (by simpa [hprio] using hlt)
      obtain ⟨hwork, hgroup, hvic, hmember⟩ := preempt_spec hx0 (by rw [setPtt_member?, hv]) hne x.group g
      rw [pressPtt_taken hptt hspk (pressFloor_preempts hx0 hg0 hrole (.inr hfull) hvictim)]
      exact ⟨rfl, by rw [ptt_after_press hwork, if_pos rfl], fun k hk => by rw [ptt_after_press hwork, if_neg hk], hgroup, hvic, hmember⟩
    case granted =>
      have hfloor := pressFloor_unpreempted hx0 hg0 hrole (.inl hb) (preemptible_none (.inl hb))
      rw [pressPtt_taken hptt hspk (hfloor.trans (if_pos (by simp [hq])))]
      obtain ⟨hbridge, hgroup, hmember⟩ := wait_granted (r := r.setPtt p (some n)) (g := x.group) (b := b) hx0 hb hw hq ht hlim
        (by simpa [Records.freeBridges] using hfree) (by simpa [Records.lowestBridge] using hlow)
      exact ⟨rfl, by rw [ptt_after_press (floorWork_wait ..), if_pos rfl], hbridge, hgroup, hmember⟩
    case listed =>
      have hfloor := pressFloor_unpreempted hx0 hg0 hrole (.inl hb) (preemptible_none (.inl hb))
      rw [pressPtt_taken hptt hspk (hfloor.trans (if_pos (by simp [hq])))]
      obtain ⟨hlist, hreason, hgroup, hmember⟩ := wait_listed (r := r.setPtt p (some n)) (g := x.group) hx0 hb hw hq
        (by simpa [Records.freeBridges] using hfree)
      exact ⟨rfl, by rw [ptt_after_press (floorWork_wait ..), if_pos rfl], by rw [hlist, setPtt_waitList], hreason, hgroup, hmember⟩

end Sys2Proof.Machine
end

section
/-!
Settles O51: what an audio frame sends on the two highways, slot by slot and position by position.
-/
namespace Sys2Proof.Machine

/-! ### The frame (R114) -/

theorem exec_audioFrame (line : Vector Sample 128) (pos : Vector Mics 48) (s : State) :
    exec (.audioFrame line pos) s = execAudioFrame line pos s := rfl

/-- R114, R198: past the image stage, and while no cold start holds the block, AUDIO_FRAME computes a frame. -/
theorem execAudioFrame_computes {s : State} (hup : s.resetPin ≠ .coldHeld) (hpart : s.part ≠ .startingImage)
    (line : Vector Sample 128) (pos : Vector Mics 48) :
    execAudioFrame line pos s = .next { s with audio := s.audio.frame s.recs line pos } := by
  rw [execAudioFrame, whenUp_of_up hup, if_neg hpart]

@[simp] theorem lineOut_frame (r : Records) (line : Vector Sample 128) (pos : Vector Mics 48) (a : Audio) (k : Fin 128) :
    vget (a.frame r line pos).lineOut k = slotOutput r a k := vget_tabulate _ k

@[simp] theorem posOut_frame (r : Records) (line : Vector Sample 128) (pos : Vector Mics 48) (a : Audio) (p : Fin 48) :
    vget (a.frame r line pos).posOut p = earsOf r a p := vget_tabulate _ p

/-! ### Port inputs and talk sources (R115, R116) -/

theorem portInput_of_slot {l : Line} {k : Fin 128} (hk : l.slot = some k.val) (a : Audio) :
    a.portInput l = if l.acknowledged.audio = true ∧ l.state.isOos = false then vget a.lineIn k else 0 := by
  simp [Audio.portInput, hk]

theorem portInput_of_noSlot {l : Line} (hk : l.slot = none) (a : Audio) : a.portInput l = 0 := by
  simp [Audio.portInput, hk]

theorem micsOf_attached {r : Records} {p : Fin 48} (hp : (r.pos p).attached = true) (a : Audio) : micsOf r a p = vget a.posIn p := if_pos hp

theorem micsOf_detached {r : Records} {p : Fin 48} (hp : (r.pos p).attached = false) (a : Audio) : micsOf r a p = ⟨0, 0, 0⟩ :=
  if_neg (Bool.eq_false_iff.mp hp)

theorem talkSource_hand1 (r : Records) (a : Audio) (p : Fin 48) : talkSource r a ⟨p, .hand .h1⟩ = (micsOf r a p).h1 := rfl

theorem talkSource_hand2 (r : Records) (a : Audio) (p : Fin 48) : talkSource r a ⟨p, .hand .h2⟩ = (micsOf r a p).h2 := rfl

theorem talkSource_spk (r : Records) (a : Audio) (p : Fin 48) (n : Fin 8) :
    talkSource r a ⟨p, .spk n⟩ = if (r.pos p).ptt = some n then (micsOf r a p).spk else 0 := rfl

theorem talkSource_detached {r : Records} {p : Fin 48} (hp : (r.pos p).attached = false) (a : Audio) (ch : Channel) :
    talkSource r a ⟨p, ch⟩ = 0 := by
  rcases ch with ⟨_ | _⟩ | n
  · rw [talkSource_hand1, micsOf_detached hp]
  · rw [talkSource_hand2, micsOf_detached hp]
  · rw [talkSource_spk, micsOf_detached hp, ite_self]

/-! ### The group bridge (R118) -/

theorem memberInput_circuit {x : Member} {id : Nat} (hk : x.kind = .circuit id) (r : Records) (a : Audio) (g : Group) (m : Nat) :
    memberInput r a g m x = ((r.line? id).map (fun l => (a.portInput l).toInt)).getD 0 := by
  cases hl : r.line? id <;> simp [memberInput, hk, hl]

/-- R118, R116: a member that does not talk, or whose position is DETACHED, gives 0. -/
theorem memberInput_position {x : Member} {p : Fin 48} {n : Fin 8} (hk : x.kind = .position p n) (r : Records) (a : Audio) (g : Group) (m : Nat) :
    memberInput r a g m x = if g.talkers.contains m && (r.pos p).attached then (vget a.posIn p).spk.toInt else 0 := by
  cases hp : (r.pos p).attached
  · simp [memberInput, hk, micsOf_detached hp]
  · simp [memberInput, hk, micsOf_attached hp]

section
variable {r : Records} {m : Nat} {x : Member} {g : Group} (hm : r.member? m = some x) (hg : r.group? x.group = some g)
include hm hg

theorem memberSample_bridged (hb : g.bridge ≠ none) (a : Audio) :
    memberSample r a m = saturate (((r.membersOf x.group).map (fun e => memberInput r a g e.1 e.2)).sum - memberInput r a g m x) := by
  simp [memberSample, groupSum, hm, hg, Option.isSome_iff_ne_none.mpr hb]

theorem memberSample_unbridged (hb : g.bridge = none) (a : Audio) : memberSample r a m = 0 := by
  simp [memberSample, hm, hg, hb]

end

/-! ### The direct path (R117) -/

theorem direct_eq_some {l : Line} {x : Party} :
    l.direct = some x ↔ (l.type ≠ .openLine ∧ (l.state = .ringingOut ∨ l.state = .connected) ∧ l.bridge = none) ∧ l.parties = [x] := by
  unfold Line.direct
  split
  next hpath => rcases l.parties with _ | ⟨y, _ | ⟨z, ys⟩⟩ <;> simp [hpath]
  next hpath => simp [hpath]

/-- R117: no other line uses the direct path. -/
theorem direct_eq_none {l : Line} (h : l.type = .openLine ∨ ¬ (l.state = .ringingOut ∨ l.state = .connected)) : l.direct = none := by
  refine Option.eq_none_iff_forall_ne_some.mpr fun x hx => ?_
  obtain ⟨⟨htype, hstate, _⟩, _⟩ := direct_eq_some.mp hx
  exact h.elim htype (fun hn => hn hstate)

/-- R117: a line on the direct path is in service. -/
theorem isOos_of_direct {l : Line} {x : Party} (h : l.direct = some x) : l.state.isOos = false := by
  obtain ⟨⟨_, hs | hs, _⟩, _⟩ := direct_eq_some.mp h <;> rw [hs] <;> rfl

/-! ### What a line's port carries (R115, R117, R118) -/

section
variable {r : Records} {id : Nat} {l : Line} (hl : r.line? id = some l)
include hl

theorem portOutput_oos (hos : l.state.isOos = true) (a : Audio) : portOutput r a id = 0 := by
  simp [portOutput, hl, hos]

/-- R118: the port's own input leaves the sum, and the talk sources of the parties remain. -/
theorem portOutput_bridged (hos : l.state.isOos = false) (hb : l.bridge ≠ none) (a : Audio) :
    portOutput r a id = saturate ((l.parties.map (fun x => (talkSource r a x).toInt)).sum) := by
  simp [portOutput, hl, hos, Option.isSome_iff_ne_none.mpr hb, lineSum, add_sub_cancel_left]

theorem portOutput_direct {x : Party} (hd : l.direct = some x) (a : Audio) : portOutput r a id = talkSource r a x := by
  obtain ⟨⟨_, _, hb⟩, _⟩ := direct_eq_some.mp hd
  simp [portOutput, hl, isOos_of_direct hd, hb, hd]

theorem portOutput_noPath (hb : l.bridge = none) (hd : l.direct = none) (ht : l.type ≠ .openLine) (a : Audio) : portOutput r a id = 0 := by
  simp [portOutput, hl, hb, hd, ht]

section
variable (hos : l.state.isOos = false) (hb : l.bridge = none) (ht : l.type = .openLine)
include hos hb ht

theorem portOutput_circuit {m : Nat} (hc : r.circuitOf id = some m) (a : Audio) : portOutput r a id = memberSample r a m := by
  simp [portOutput, hl, hos, hb, ht, direct_eq_none (.inl ht), hc]

theorem portOutput_noCircuit (hc : r.circuitOf id = none) (a : Audio) : portOutput r a id = 0 := by
  simp [portOutput, hl, hos, hb, ht, direct_eq_none (.inl ht), hc]

end
end

theorem slotOutput_of_line {r : Records} {k : Fin 128} {id : Nat} (hk : Table.find r.slots k.val = some id) (a : Audio) :
    slotOutput r a k = portOutput r a id := by simp [slotOutput, hk]

theorem slotOutput_free {r : Records} {k : Fin 128} (hk : Table.find r.slots k.val = none) (a : Audio) : slotOutput r a k = 0 := by
  simp [slotOutput, hk]

/-! ### What a channel hears (R117, R118, R119) -/

theorem bound_hand1 {r : Records} {p : Fin 48} {id : Nat} (h : (r.pos p).hand1 = some id) : r.bound p (.hand .h1) = .line id := by
  simp [Records.bound, h]

theorem channelSample_unbound {r : Records} {p : Fin 48} {ch : Channel} (hb : r.bound p ch = .none) (a : Audio) :
    channelSample r a p ch = 0 := by simp [channelSample, hb]

theorem channelSample_member {r : Records} {p : Fin 48} {ch : Channel} {m : Nat} (hb : r.bound p ch = .member m) (a : Audio) :
    channelSample r a p ch = memberSample r a m := by simp [channelSample, hb]

section
variable {r : Records} {p : Fin 48} {ch : Channel} {id : Nat} {l : Line} {x : Party} (hbound : r.bound p ch = .line id)
  (hl : r.line? id = some l) (hx : l.parties.find? (fun y => y.pos == p) = some x)
include hbound hl hx

theorem channelSample_bridged (hb : l.bridge ≠ none) (a : Audio) :
    channelSample r a p ch = saturate ((a.portInput l).toInt + (l.parties.map (fun y => (talkSource r a y).toInt)).sum -
      (talkSource r a x).toInt) := by
  simp [channelSample, hbound, partySample, hl, hx, Option.isSome_iff_ne_none.mpr hb, lineSum]

theorem channelSample_direct {y : Party} (hd : l.direct = some y) (a : Audio) : channelSample r a p ch = a.portInput l := by
  obtain ⟨⟨_, _, hb⟩, _⟩ := direct_eq_some.mp hd
  simp [channelSample, hbound, partySample, hl, hx, hb, hd]

end

/-- Settles O51: the frame's samples are those of the slots and positions, and each is read off path by path. -/
theorem audioFrameComputes : Obligations.AudioFrameComputes := by
  intro s line pos hup hpart input heard
  have hinput (g : Group) (m : Nat) (x : Member) : input g m x = memberInput s.recs s.audio g m x := by
    cases hk : x.kind with
    | circuit id => simp only [input, hk, memberInput_circuit hk]
    | position p n => simp only [input, hk, memberInput_position hk]
  have hheard {m : Nat} {x : Member} {g : Group} (hm : s.recs.member? m = some x) (hg : s.recs.group? x.group = some g)
      (hb : g.bridge ≠ none) : memberSample s.recs s.audio m = heard m x g := by
    simp only [heard, hinput, memberSample_bridged hm hg hb]
  refine ⟨_, (exec_audioFrame line pos s).trans (execAudioFrame_computes hup hpart line pos), rfl, rfl, rfl, ?portInput,
    fun l hk => portInput_of_noSlot hk s.audio, fun p ch hp => talkSource_detached hp s.audio ch, ?attached, ?freeSlot, ?slots, ?hand1,
    fun p => by rw [posOut_frame]; exact ⟨rfl, rfl⟩, ?channels, fun p => by rw [posOut_frame]; rfl⟩
  case portInput =>
    intro l k hk
    rw [portInput_of_slot hk]
    refine ⟨fun hack hos => if_pos ⟨hack, hos⟩, fun h => if_neg ?_⟩
    rintro ⟨hack, hos⟩
    simp [hack, hos] at h
  case attached =>
    intro p hp
    rw [← micsOf_attached hp s.audio]
    exact ⟨talkSource_hand1 .., talkSource_hand2 .., talkSource_spk s.recs s.audio p⟩
  case freeSlot =>
    intro k hk
    rw [lineOut_frame, slotOutput_free hk]
  case slots =>
    intro k id l hk hl
    simp only [lineOut_frame, slotOutput_of_line hk]
    refine ⟨fun hos => portOutput_oos hl hos s.audio, fun hos hb => portOutput_bridged hl hos hb s.audio,
      fun x hb ht hs hx => portOutput_direct hl (direct_eq_some.mpr ⟨⟨ht, hs, hb⟩, hx⟩) s.audio, ?resting, ?groupMember,
      fun hos hb ht hc => portOutput_noCircuit hl hos hb ht hc s.audio⟩
    case resting =>
      intro hb ht hs
      have hn : ¬ (l.state = .ringingOut ∨ l.state = .connected) := by
        rcases hs with hs | hs | hs | hs <;> simp [hs]
      exact portOutput_noPath hl hb (direct_eq_none (.inr hn)) ht s.audio
    case groupMember =>
      intro m x g hos hb ht hc hm hg
      rw [portOutput_circuit hl hos hb ht hc]
      exact ⟨hheard hm hg, fun hgb => memberSample_unbridged hm hg hgb s.audio⟩
  case hand1 =>
    intro p id l x hh hl hb hx
    rw [posOut_frame]
    exact channelSample_bridged (bound_hand1 hh) hl hx hb s.audio
  case channels =>
    intro p ch
    refine ⟨fun hb => channelSample_unbound hb s.audio, fun id l x hbound hl hx => ⟨fun hb => channelSample_bridged hbound hl hx hb s.audio,
      fun hb ht hs hparty => channelSample_direct hbound hl hx (direct_eq_some.mpr ⟨⟨ht, hs, hb⟩, hparty⟩) s.audio⟩,
      fun m x g hbound hm hg => ?_⟩
    rw [channelSample_member hbound]
    exact ⟨hheard hm hg, fun hgb => memberSample_unbridged hm hg hgb s.audio⟩

end Sys2Proof.Machine
end

section
/-!
Settles O59, O54 and O47: no slot stays due after a step, what the end of a step leaves alone, and SET-RESERVE.
-/
namespace Sys2Proof.Machine

/-! ### A property of the records that every step keeps -/

/-- What the settled records, the cold start values, raised reasons and one millisecond's passing all have or keep holds after every step (R112, R126, R174 settle at each event's end; log 2 for the empty queue). -/
theorem step_keeps_recs {P : Records → Prop} (hsettle : ∀ r : Records, P r.settle) (hcold : P Records.cold)
    (hraised : ∀ r raised, P r → P { r with raised := raised }) (htime : ∀ r : Records, P r → P (r.elapse 1))
    {s t : State} (h : P s.recs) (hst : step s = .next t) : P t.recs := by
  unfold step at hst
  split at hst
  case h_1 =>
    cases hst
    rcases tick_recs s with hs | hs <;> rw [hs]
    · exact h
    · exact htime _ h
  case h_2 =>
    rcases exec_recsAfter hst with ⟨u, rfl⟩ | hs | hs
    · rw [finish_recs]; exact hsettle _
    · rw [hs]; exact hraised _ _ h
    · rw [hs]; exact hcold

/-! ### Slots that are due (R112) -/

/-- A CONNECT stays outstanding while its response limit runs down. -/
theorem connectOutstanding_elapse (ms : Nat) (r : Records) (id : Nat) :
    (r.elapse ms).connectOutstanding id = r.connectOutstanding id := by
  cases hf : r.inFlight with
  | none => simp [Records.connectOutstanding, Records.elapse, hf]
  | some f => simp [Records.connectOutstanding, Records.elapse, InFlight.elapse, hf]

/-- The three conditions do not look at timers. -/
theorem slotDue_elapse (ms : Nat) (r : Records) (id : Nat) : (r.elapse ms).slotDue id = r.slotDue id := by
  cases hl : r.line? id with
  | none => simp [Records.slotDue, hl]
  | some l => simp [Records.slotDue, connectOutstanding_elapse, Line.elapse, hl]

/-- The three conditions do not look at raised reasons. -/
theorem slotDue_raised (r : Records) (raised : List (Entry × List Reason)) (id : Nat) :
    ({ r with raised := raised } : Records).slotDue id = r.slotDue id := rfl

/-- Settles O59: a settled step leaves no slot due, and a step that settles nothing changes none of the three conditions. -/
theorem dueSlotsAreFreed : Obligations.DueSlotsAreFreed := by
  intro s t h hst
  exact step_keeps_recs (P := fun r => ∀ id, r.slotDue id = false) slotDue_settle (fun _ => rfl)
    (fun r raised hr id => (slotDue_raised r raised id).trans (hr id)) (fun r hr id => (slotDue_elapse 1 r id).trans (hr id)) h hst

/-! ### The end of a step -/

/-- Settles O54: the state's other parts stand as they were, and the records differ by line work. -/
theorem settlingTouchesOnlyLines : Obligations.SettlingTouchesOnlyLines := by
  intro s
  have work : LineWork s.recs s.finish.recs := finish_recs s ▸ lineWork_settle s.recs
  exact ⟨finish_port s, finish_part s, finish_loader s, finish_bus s, finish_audio s, finish_resetPin s, finish_pending s, finish_link s,
    work.groups, work.members, work.bridges, work.waitList, work.reserve, work.dispositions, work.windows, work.cards, work.inFlight, work.pos⟩

/-! ### SET-RESERVE (R103, R108) -/

theorem exec_setReserve (s : State) : exec .setReserve s = s.recordRequest 44 (numberBody Records.setReserve) := rfl

/-- A reserve that is not lowered is taken and serves nobody. -/
theorem setReserve_of_le {r : Records} {v : Nat} (hv : v ≤ 16) (h : r.reserve ≤ v) : r.setReserve v = (.done, { r with reserve := v }) := by
  simp only [Records.setReserve, if_neg (Nat.not_lt.mpr hv), if_neg (Nat.not_lt.mpr h)]

/-- A lowered reserve is taken and serves the wait list. -/
theorem setReserve_of_lt {r : Records} {v : Nat} (hv : v ≤ 16) (h : v < r.reserve) :
    r.setReserve v = (.done, serveWaitList r.waitList { r with reserve := v }) := by
  simp only [Records.setReserve, if_neg (Nat.not_lt.mpr hv), if_pos h]

/-- R94: the grant pass of a group that holds a bridge fills its free places from the head of the waiting list. -/
theorem granted_of_bridge (x : Group) (b : Nat) :
    Group.granted { x with bridge := some b, inWaitList := false } = { x with
      bridge := some b, inWaitList := false, talkers := x.talkers ++ x.waiting.take (x.talkerLimit - x.talkers.length)
      waiting := x.waiting.drop (x.talkerLimit - x.talkers.length) } := by
  have hdrop (n : Nat) : x.waiting.drop (x.waiting.take n).length = x.waiting.drop n := by
    rw [List.length_take, List.drop_eq_drop_iff]; omega
  simp only [Group.granted, Group.winners, Option.isSome_some, if_true, hdrop]

/-- R189: SET-RESERVE with a value in range, as the executor takes it. -/
theorem setReserve_taken {s : State} {q : Request} {rest : List Request} {v : Byte} {r : Records} (ht : Takes s 44 q rest) (hq : q.body = [v])
    (hr : s.recs.setReserve v.toNat = (.done, r)) : exec .setReserve s = .next ((s.answered q rest .done []).withRecs r).finish := by
  rw [exec_setReserve, recordRequest_taken ht]
  simp only [numberBody, hq, hr]

/-- Settles O47: the value is taken at once; when it lowers the reserve, `serveWaitList_spec` says what the wait list is given. -/
theorem setReserveServes : Obligations.SetReserveServes := by
  intro s q rest v ht hq hv
  refine ⟨fun hle => setReserve_taken ht hq (setReserve_of_le hv hle), fun hlt => ?lowered⟩
  case lowered =>
    obtain ⟨bs, served⟩ := serveWaitList_spec s.recs.waitList { s.recs with reserve := v.toNat } rfl
    have work := floorWork_serveWaitList s.recs.waitList { s.recs with reserve := v.toNat }
    have grants (hnd : s.recs.waitList.Nodup) (i b g : Nat) (x : Group) (hb : bs[i]? = some b) (hg : s.recs.waitList[i]? = some g)
        (hx : s.recs.group? g = some x) := by
      have h := served.granted hnd i b g hb hg
      rw [show ({ s.recs with reserve := v.toNat } : Records).group? g = some x from hx, Option.map_some, granted_of_bridge] at h
      exact h
    exact ⟨_, bs, setReserve_taken ht hq (setReserve_of_lt hv hlt), work.reserve, served.length, served.waitList, served.done,
      served.reserve_kept, served.rising, fun b hb => (served.free b hb).2, served.others, served.owner, grants,
      work.lines, work.appearances, work.slots, work.cards⟩

end Sys2Proof.Machine
end

section
/-!
Settles O58: no step leaves a RETIRING line at rest.
-/
namespace Sys2Proof.Machine

/-- R126: no RETIRING line of the records is at rest. -/
def Records.RetirementsSettled (r : Records) : Prop := ∀ id l, (id, l) ∈ r.lines → l.lifecycle = .retiring → l.atRest = false

theorem noRetirementDue_iff (s : State) : NoRetirementDue s ↔ s.recs.RetirementsSettled := Iff.rfl

theorem retirementsSettled_settle (r : Records) : r.settle.RetirementsSettled := fun _ _ hmem hret => atRest_of_mem_settle hmem hret

/-- After a cold start there is no line. -/
theorem retirementsSettled_cold : Records.cold.RetirementsSettled := fun _ _ hmem => absurd hmem List.not_mem_nil

theorem retirementsSettled_raised {r : Records} (h : r.RetirementsSettled) (raised : List (Entry × List Reason)) :
    ({ r with raised := raised } : Records).RetirementsSettled := h

theorem mem_lines_elapse {ms id : Nat} {r : Records} {l : Line} :
    (id, l) ∈ (r.elapse ms).lines ↔ ∃ before, (id, before) ∈ r.lines ∧ before.elapse ms = l := by
  simp [Records.elapse]

/-- Being at rest and the lifecycle do not depend on the line's timer. -/
theorem atRest_elapse (ms : Nat) (l : Line) : (l.elapse ms).atRest = l.atRest := rfl

theorem lifecycle_elapse (ms : Nat) (l : Line) : (l.elapse ms).lifecycle = l.lifecycle := rfl

theorem retirementsSettled_elapse {r : Records} (h : r.RetirementsSettled) (ms : Nat) : (r.elapse ms).RetirementsSettled := by
  intro id l hmem hret
  obtain ⟨before, hbefore, rfl⟩ := mem_lines_elapse.mp hmem
  rw [atRest_elapse]
  exact h id before hbefore ((lifecycle_elapse ms before).symm.trans hret)

/-- Settles O58: a settled step has completed every retirement that was due, and a step that settles nothing brings no line to rest. -/
theorem retirementsComplete : Obligations.RetirementsComplete := by
  intro s t h hst
  rw [noRetirementDue_iff] at h ⊢
  exact step_keeps_recs retirementsSettled_settle retirementsSettled_cold (fun _ raised hr => retirementsSettled_raised hr raised)
    (fun _ hr => retirementsSettled_elapse hr 1) h hst

end Sys2Proof.Machine
end

section
/-!
What a request comes to once its block's answer is known, by the shape of its body (R187, R189).
-/
namespace Sys2Proof.Machine

section
variable {s : State} {code : Nat} {q : Request} {rest : List Request} (ht : Takes s code q rest)
include ht

/-- A request over the records is answered with its block's result, and the records become the block's. -/
theorem recordRequest_answers {f : List Byte → Records → ResultCode × Records} {c : ResultCode} {r : Records}
    (h : f q.body s.recs = (c, r)) : s.recordRequest code f = .next ((s.answered q rest c []).withRecs r).finish := by
  rw [recordRequest_taken ht, h]

theorem idRequest_answers {i1 i0 : Byte} (hq : q.body = [i1, i0]) {f : Nat → Records → ResultCode × Records} {c : ResultCode} {r : Records}
    (h : f (num2 i1 i0) s.recs = (c, r)) : s.recordRequest code (idBody f) = .next ((s.answered q rest c []).withRecs r).finish := by
  rw [idRequest_taken ht hq, h]

theorem numberRequest_answers {n : Byte} (hq : q.body = [n]) {f : Nat → Records → ResultCode × Records} {c : ResultCode} {r : Records}
    (h : f n.toNat s.recs = (c, r)) : s.recordRequest code (numberBody f) = .next ((s.answered q rest c []).withRecs r).finish :=
  recordRequest_answers ht (by rw [hq]; exact h)

/-- A request that only reads is answered with its block's result and body, and nothing but the port changes. -/
theorem readRequest_answers {f : List Byte → ResultCode × List Byte} {c : ResultCode} {body : List Byte} (h : f q.body = (c, body)) :
    s.readRequest code f = .next (s.answered q rest c body) := by
  rw [readRequest_taken ht, h]

theorem idRead_answers {i1 i0 : Byte} (hq : q.body = [i1, i0]) {f : Nat → Records → ResultCode × List Byte} {c : ResultCode} {body : List Byte}
    (h : f (num2 i1 i0) s.recs = (c, body)) : s.readRequest code (idRead f s.recs) = .next (s.answered q rest c body) :=
  readRequest_answers ht (by rw [hq]; exact h)

theorem numberRead_answers {n : Byte} (hq : q.body = [n]) {f : Nat → Records → ResultCode × List Byte} {c : ResultCode} {body : List Byte}
    (h : f n.toNat s.recs = (c, body)) : s.readRequest code (numberRead f s.recs) = .next (s.answered q rest c body) :=
  readRequest_answers ht (by rw [hq]; exact h)

theorem bareRead_answers (hq : q.body = []) (body : List Byte) :
    s.readRequest code (bareRead body) = .next (s.answered q rest .done body) :=
  readRequest_answers ht (by rw [hq]; rfl)

end

end Sys2Proof.Machine
end

section
/-!
Settles O12, O13 and O14: DEFINE-LINE, CHANGE-LINE and RETIRE-LINE.
-/
namespace Sys2Proof.Machine

/-! ### DEFINE-LINE (R122) -/

theorem portHeld_eq_false {r : Records} {port : Nat} (h : ∀ e ∈ r.lines, e.2.port ≠ port) (id : Nat) : r.portHeld id port = false := by
  simp only [Records.portHeld, List.any_eq_false, Bool.and_eq_true, beq_iff_eq, not_and]
  exact fun e he _ => h e he

/-- R2: fields that lie within their values describe a line. -/
theorem LineFields.judge_of_values {f : LineFields} {type : LineType} {privacy : Privacy} (htype : LineType.ofNat? f.type = some type)
    (hprivacy : Privacy.ofNat? f.privacy = some privacy) (hport : f.port ≤ 1023) (hmin : 1 ≤ f.maxParties) (hmax : f.maxParties ≤ 5)
    (hring : f.ringTimeout ≤ 255) (hhold : f.holdRecall ≤ 255) : f.judge = some (type, privacy) := by
  simp only [LineFields.judge, htype, hprivacy]
  exact if_pos ⟨hport, hmin, hmax, hring, hhold⟩

section
variable {r : Records} {id : Nat} {f : LineFields} {type : LineType} {privacy : Privacy} (hid : id ≤ 383) (hfree : r.line? id = none)
  (hjudge : f.judge = some (type, privacy)) (hport : r.portHeld id f.port = false)
include hid hfree hjudge hport

/-- R122: a line whose port is in service is made as it is defined. -/
theorem defineLine_inService (hs : r.serviceOf f.port = none) :
    r.defineLine id f = (.done, r.setLine id (f.define type privacy none)) := by
  simp [Records.defineLine, Nat.not_lt.mpr hid, hfree, hjudge, hport, hs]

/-- R122, R8: a line whose port is not in service is made OUT_OF_SERVICE, which raises FAULT. -/
theorem defineLine_outOfService {why : OosReason} (hs : r.serviceOf f.port = some why) :
    r.defineLine id f = (.done, (r.setLine id (f.define type privacy (some why))).raise (.line id) .fault) := by
  simp [Records.defineLine, Nat.not_lt.mpr hid, hfree, hjudge, hport, hs]

end

theorem exec_defineLine (s : State) : exec .defineLine s = execDefineLine s := rfl

/-- R189: DEFINE-LINE as the executor takes it. -/
theorem defineLine_answers {s : State} {q : Request} {rest : List Request} {i1 i0 t p1 p0 v m g h : Byte} {c : ResultCode} {r : Records}
    (ht : Takes s 1 q rest) (hq : q.body = [i1, i0, t, p1, p0, v, m, g, h])
    (hr : s.recs.defineLine (num2 i1 i0) ⟨t.toNat, num2 p1 p0, v.toNat, m.toNat, g.toNat, h.toNat⟩ = (c, r)) :
    exec .defineLine s = .next ((s.answered q rest c []).withRecs r).finish := by
  rw [exec_defineLine]
  exact recordRequest_answers ht (by rw [hq]; exact hr)

/-- Settles O12: the fields are judged, the port is free, and the in-service test decides between the two first states. -/
theorem defineLineMakesLine : Obligations.DefineLineMakesLine := by
  intro s q rest i1 i0 t p1 p0 v m g h type privacy ht hq hid hfree htype hprivacy hport hmin hmax hother
  have hjudge : LineFields.judge ⟨t.toNat, num2 p1 p0, v.toNat, m.toNat, g.toNat, h.toNat⟩ = some (type, privacy) :=
    LineFields.judge_of_values htype hprivacy hport hmin hmax (Nat.le_of_lt_succ g.isLt) (Nat.le_of_lt_succ h.isLt)
  have hheld := portHeld_eq_false hother (num2 i1 i0)
  exact ⟨fun hs => defineLine_answers ht hq (defineLine_inService hid hfree hjudge hheld hs),
    fun why hs => defineLine_answers ht hq (defineLine_outOfService hid hfree hjudge hheld hs)⟩

/-! ### CHANGE-LINE (R123, R124) -/

/-- R123: a change that passes every check is applied. -/
theorem changeLine_passes {r : Records} {id : Nat} {l : Line} {f : Line → LineFields} {type : LineType} {privacy : Privacy} (hid : id ≤ 383)
    (hl : r.line? id = some l) (hdef : l.lifecycle = .defined) (hjudge : (f l).judge = some (type, privacy))
    (hparties : l.parties.length ≤ (f l).maxParties) (hrest : (f l).port ≠ l.port ∨ type ≠ l.type → l.atRest = true)
    (hcircuit : type ≠ l.type → r.circuitOf id = none) (hkeys : type ≠ l.type → type = .openLine → r.appearancesOf id = [])
    (hport : (f l).port ≠ l.port → r.portHeld id (f l).port = false) :
    r.changeLine id f = (.done, r.applyChangeLine id l (f l) type privacy) := by
  have known : ¬ 383 < id := Nat.not_lt.mpr hid
  have defined : ¬ l.lifecycle = .retiring := by simp [hdef]
  have room : ¬ (f l).maxParties < l.parties.length := Nat.not_lt.mpr hparties
  have atRest : ¬ (((f l).port ≠ l.port ∨ type ≠ l.type) ∧ l.atRest = false) := fun h => by simp [hrest h.1] at h
  have noCircuit : ¬ (type ≠ l.type ∧ (r.circuitOf id).isSome = true) := fun h => by simp [hcircuit h.1] at h
  have noKeys : ¬ (type ≠ l.type ∧ type = .openLine ∧ r.appearancesOf id ≠ []) := fun h => h.2.2 (hkeys h.1 h.2.1)
  have portFree : ¬ ((f l).port ≠ l.port ∧ r.portHeld id (f l).port = true) := fun h => by simp [hport h.1] at h
  simp only [Records.changeLine, if_neg known, hl, if_neg defined, hjudge, if_neg room, if_neg atRest, if_neg noCircuit, if_neg noKeys,
    if_neg portFree]

theorem exec_changeLine (s : State) : exec .changeLine s = execChangeLine s := rfl

/-- Settles O13: the request passes its checks, and `Records.applyChangeLine` makes the changes of the statement in its order. -/
theorem changeLineTakesFields : Obligations.ChangeLineTakesFields := by
  intro s q rest i1 i0 mask t p1 p0 v m g h l type privacy ht hq hid hl hdef id f hjudge hparties hrest hcircuit hkeys hport
  rw [exec_changeLine]
  refine recordRequest_answers ht ?_
  rw [hq]
  exact changeLine_passes hid hl hdef hjudge hparties hrest hcircuit hkeys hport

/-! ### RETIRE-LINE (R125) -/

/-- R125: the test for rest is made on the line as it stands in r', after its CIRCUIT membership, if any, is removed. -/
theorem retireLine_defined {r r' : Records} {id : Nat} {l l' : Line} (hid : id ≤ 383) (hl : r.line? id = some l) (hdef : l.lifecycle = .defined)
    (hnone : r.circuitOf id = none → r' = r) (hsome : ∀ m, r.circuitOf id = some m → r' = (r.removeMember m).settleSlots)
    (hl' : r'.line? id = some l') :
    r.retireLine id = if l'.atRest then (.done, r'.freeLine id) else (.deferred, r'.setLine id { l' with lifecycle := .retiring }) := by
  have known : ¬ 383 < id := Nat.not_lt.mpr hid
  have defined : ¬ l.lifecycle = .retiring := by simp [hdef]
  cases hc : r.circuitOf id with
  | none =>
    obtain rfl := hnone hc
    simp only [Records.retireLine, if_neg known, hl, if_neg defined, hc]
    obtain rfl : l = l' := Option.some.inj (hl.symm.trans hl')
    rfl
  | some m =>
    obtain rfl := hsome m hc
    simp only [Records.retireLine, if_neg known, hl, if_neg defined, hc, hl']

theorem exec_retireLine (s : State) : exec .retireLine s = s.recordRequest 3 (idBody Records.retireLine) := rfl

/-- Settles O14: the two outcomes of the test for rest. -/
theorem retireLineFreesOrDefers : Obligations.RetireLineFreesOrDefers := by
  intro s q rest i1 i0 l l' r ht hq hid hl hdef hnone hsome hl'
  have hretire := retireLine_defined hid hl hdef hnone hsome hl'
  rw [exec_retireLine]
  refine ⟨fun hrest => idRequest_answers ht hq ?atRest, fun hbusy => idRequest_answers ht hq ?busy⟩
  case atRest => rw [hretire, if_pos hrest]
  case busy => rw [hretire, if_neg (Bool.eq_false_iff.mp hbusy)]

end Sys2Proof.Machine
end

section
/-!
Settles O17: the nine read requests.
-/
namespace Sys2Proof.Machine

/-! ### What each read answers for a record that is there -/

theorem readLine_of_line {r : Records} {id : Nat} {l : Line} (hid : id ≤ 383) (hl : r.line? id = some l) :
    r.readLine id = (.done, r.lineBody id l) := by
  simp only [Records.readLine, if_neg (Nat.not_lt.mpr hid), hl]

theorem readAppearance_of_appearance {r : Records} {id : Nat} {a : Appearance} (hid : id ≤ 2047) (ha : Table.find r.appearances id = some a) :
    r.readAppearance id = (.done, byte2 a.line ++ [byte1 a.pos.val, byte1 a.key, a.ringMode.byte, boolByte a.barge, a.route.byte,
      (r.lampAudible a).1.byte, boolByte (r.lampAudible a).2]) := by
  simp only [Records.readAppearance, if_neg (Nat.not_lt.mpr hid), ha]

theorem readGroup_of_group {r : Records} {g : Nat} {x : Group} (hg : g ≤ 31) (hx : r.group? g = some x) :
    r.readGroup g = (.done, [byte1 x.talkerLimit, byte1 x.talkTime, x.policy.byte, boolByte x.preempt] ++ idList x.talkers ++ idList x.waiting ++
      opt1 x.bridge ++ [boolByte x.inWaitList, byte1 ((r.membersOf g).length - (r.circuitsOf g).length), byte1 (r.circuitsOf g).length]) := by
  simp only [Records.readGroup, if_neg (Nat.not_lt.mpr hg), hx]

theorem readMember_of_member {r : Records} {m : Nat} {x : Member} (hm : m ≤ 511) (hx : r.member? m = some x) :
    r.readMember m = (.done, [byte1 x.group] ++ x.kind.bytes ++ [x.role.byte, byte1 x.priority, x.floor.byte] ++
      opt1 (x.talkTimer.map secondsLeft)) := by
  simp only [Records.readMember, if_neg (Nat.not_lt.mpr hm), hx]

theorem readPosition_val (r : Records) (p : Fin 48) : r.readPosition p.val = (.done, r.positionBody p) := by
  simp only [Records.readPosition, asFin_val]

theorem readWindow_val (r : Records) (w : Fin 16) :
    r.readWindow w.val = (.done, [boolByte (vget r.windows w).enabled] ++ byte2 (vget r.windows w).base ++ byte2 (vget r.windows w).size ++
      [byte1 (vget r.windows w).card.val, byte1 (vget r.windows w).firstChannel, byte1 (vget r.windows w).limit] ++
      [byte1 (Table.idsWhere (fun _ l => r.windowIndex l.port == some w) r.lines).length]) := by
  simp only [Records.readWindow, asFin_val]

theorem readCard_val (r : Records) (c : Fin 32) :
    r.readCard c.val = (.done, [boolByte (r.card c).present, byte1 (r.card c).miss, boolByte (r.card c).probeDue,
        byte1 (r.windows.toList.filter (fun w => w.enabled && w.card == c)).length] ++
      byte2 (r.linesOfCard c).length ++ byte2 ((r.linesOfCard c).filter (fun i => r.workList.contains i)).length) := by
  simp only [Records.readCard, asFin_val]

/-! ### The requests -/

theorem exec_readLine (s : State) : exec .readLine s = s.readRequest 4 (idRead Records.readLine s.recs) := rfl

theorem exec_readAppearance (s : State) : exec .readAppearance s = s.readRequest 11 (idRead Records.readAppearance s.recs) := rfl

theorem exec_readGroup (s : State) : exec .readGroup s = s.readRequest 19 (numberRead Records.readGroup s.recs) := rfl

theorem exec_readMember (s : State) : exec .readMember s = s.readRequest 22 (idRead Records.readMember s.recs) := rfl

theorem exec_readPosition (s : State) : exec .readPosition s = s.readRequest 35 (numberRead Records.readPosition s.recs) := rfl

theorem exec_readWindow (s : State) : exec .readWindow s = s.readRequest 41 (numberRead Records.readWindow s.recs) := rfl

theorem exec_readCard (s : State) : exec .readCard s = s.readRequest 42 (numberRead Records.readCard s.recs) := rfl

theorem exec_readPool (s : State) : exec .readPool s = s.readRequest 45 (bareRead s.recs.readPool) := rfl

theorem exec_readIdentity (s : State) : exec .readIdentity s = s.readRequest 50 (bareRead s.loader.identity) := rfl

/-- Settles O17: each request is a read of the records or of the loader (`readRequest_answers`), answered with the body of the record it names. -/
theorem readRequestsChangeNothing : Obligations.ReadRequestsChangeNothing := by
  intro s q rest
  refine ⟨?line, ?appearance, ?group, ?member, ?position, ?window, ?card, ?pool, ?identity⟩
  case line =>
    intro i1 i0 l ht hq hid hl
    rw [exec_readLine, idRead_answers ht hq (readLine_of_line hid hl)]
  case appearance =>
    intro i1 i0 a ht hq hid ha
    rw [exec_readAppearance, idRead_answers ht hq (readAppearance_of_appearance hid ha)]
  case group =>
    intro g x ht hq hg hx
    rw [exec_readGroup, numberRead_answers ht hq (readGroup_of_group hg hx)]
  case member =>
    intro i1 i0 x ht hq hm hx
    rw [exec_readMember, idRead_answers ht hq (readMember_of_member hm hx)]
  case position =>
    intro p b ht hq hb
    rw [exec_readPosition, numberRead_answers ht hq (hb ▸ readPosition_val s.recs p)]
  case window =>
    intro w b ht hq hb
    rw [exec_readWindow, numberRead_answers ht hq (hb ▸ readWindow_val s.recs w)]
  case card =>
    intro c b ht hq hb
    rw [exec_readCard, numberRead_answers ht hq (hb ▸ readCard_val s.recs c)]
  case pool =>
    intro ht hq
    rw [exec_readPool, bareRead_answers ht hq]
    rfl
  case identity =>
    intro ht hq
    rw [exec_readIdentity, bareRead_answers ht hq]
    rfl

end Sys2Proof.Machine
end

section
/-!
Settles O18 and O19: the requests about appearances, one at a time and as a run.
-/
namespace Sys2Proof.Machine

/-! ### DEFINE-APPEARANCE (R128) -/

/-- R128: an appearance that passes every check is made, and its key marked. -/
theorem defineAppearance_passes {r : Records} {id : Nat} {x : AppearanceItem} {a : Appearance} {l : Line} (hid : id ≤ 2047)
    (hfree : Table.find r.appearances id = none) (hjudge : x.judge = some a) (hl : r.line? a.line = some l) (hdef : l.lifecycle = .defined)
    (htype : l.type ≠ .openLine) (hkey : r.appearanceAt a.pos a.key = none) (hline : r.appearanceOfLineAt a.line a.pos = none)
    (hroute : r.routeBusy a.pos a.route = false) :
    r.defineAppearance id x = (.done, ({ r with appearances := Table.put id a r.appearances }).markLamp a.pos a.key) := by
  have known : ¬ 2047 < id := Nat.not_lt.mpr hid
  have free : ¬ (Table.find r.appearances id).isSome = true := by simp [hfree]
  have defined : ¬ l.lifecycle = .retiring := by simp [hdef]
  have alone : ¬ ((r.appearanceAt a.pos a.key).isSome = true ∨ (r.appearanceOfLineAt a.line a.pos).isSome = true) := by simp [hkey, hline]
  simp only [Records.defineAppearance, if_neg known, if_neg free, hjudge, hl, if_neg defined, if_neg htype, if_neg alone,
    if_neg (Bool.eq_false_iff.mp hroute)]

theorem exec_defineAppearance (s : State) : exec .defineAppearance s = execDefineAppearance s := rfl

/-! ### CHANGE-APPEARANCE (R129) -/

/-- R129: a change that passes every check is made, and the key marked when its lamp or sound may change. -/
theorem changeAppearance_passes {r : Records} {id m b o : Nat} {mask : Byte} {a : Appearance} {mode : RingMode} {barge : Bool} {route : Route}
    (hid : id ≤ 2047) (ha : Table.find r.appearances id = some a)
    (hmode : RingMode.ofNat? (carried mask 0 m a.ringMode.byte.toNat) = some mode)
    (hbarge : boolOf? (carried mask 1 b (boolByte a.barge).toNat) = some barge)
    (hroute : Route.ofNat? (carried mask 2 o a.route.byte.toNat) = some route) (hbusy : route ≠ a.route → r.routeBusy a.pos route = false)
    {r1 : Records} (hr1 : r1 = { r with appearances := Table.put id { a with ringMode := mode, barge := barge, route := route } r.appearances }) :
    r.changeAppearance id mask m b o = (.done, if mode ≠ a.ringMode ∨ barge ≠ a.barge then r1.markLamp a.pos a.key else r1) := by
  have known : ¬ 2047 < id := Nat.not_lt.mpr hid
  have routeFree : ¬ (route ≠ a.route ∧ r.routeBusy a.pos route = true) := fun h => by simp [hbusy h.1] at h
  simp only [Records.changeAppearance, if_neg known, ha, hmode, hbarge, hroute, if_neg routeFree, hr1]

theorem exec_changeAppearance (s : State) : exec .changeAppearance s = execChangeAppearance s := rfl

/-! ### RETIRE-APPEARANCE (R130) -/

/-- R130: the appearance becomes FREE, and its key is marked. -/
theorem retireAppearance_defined {r : Records} {id : Nat} {a : Appearance} (hid : id ≤ 2047) (ha : Table.find r.appearances id = some a) :
    r.retireAppearance id = (.done, ({ r with appearances := Table.drop id r.appearances }).markLamp a.pos a.key) := by
  simp only [Records.retireAppearance, if_neg (Nat.not_lt.mpr hid), ha]

theorem exec_retireAppearance (s : State) : exec .retireAppearance s = s.recordRequest 10 (idBody Records.retireAppearance) := rfl

/-- Settles O18: each request passes its checks and acts on the appearance table. -/
theorem appearanceRequestsAct : Obligations.AppearanceRequestsAct := by
  refine ⟨?define, ?change, ?retire⟩
  case define =>
    intro s q rest i1 i0 l1 l0 p k m b o a l ht hq hid hfree hjudge hl hdef htype hkey hline hroute
    rw [exec_defineAppearance]
    refine recordRequest_answers ht ?_
    rw [hq]
    exact defineAppearance_passes hid hfree hjudge hl hdef htype hkey hline hroute
  case change =>
    intro s q rest i1 i0 mask m b o a mode barge route ht hq hid ha hmode hbarge hroute hbusy r
    rw [exec_changeAppearance]
    refine recordRequest_answers ht ?_
    rw [hq]
    exact changeAppearance_passes hid ha hmode hbarge hroute hbusy rfl
  case retire =>
    intro s q rest i1 i0 a ht hq hid ha
    rw [exec_retireAppearance]
    exact idRequest_answers ht hq (retireAppearance_defined hid ha)

/-! ### LOAD-APPEARANCES, the request (R132) -/

theorem loadBody_of_items {i1 i0 n : Byte} {t : List Byte} {items : List AppearanceItem} (hitems : appearanceItems t = some items)
    (hmin : 1 ≤ n.toNat) (hmax : n.toNat ≤ 24) (hlen : t.length = 7 * n.toNat) :
    loadBody (i1 :: i0 :: n :: t) = some (num2 i1 i0, items) := by
  have fits : 1 ≤ n.toNat ∧ n.toNat ≤ 24 ∧ t.length = 7 * n.toNat := ⟨hmin, hmax, hlen⟩
  simp only [loadBody, if_pos fits, hitems, Option.map_some]

theorem loadBody_of_misfit {i1 i0 n : Byte} {t : List Byte} (h : n.toNat = 0 ∨ 24 < n.toNat ∨ t.length ≠ 7 * n.toNat) :
    loadBody (i1 :: i0 :: n :: t) = none := by
  have misfit : ¬ (1 ≤ n.toNat ∧ n.toNat ≤ 24 ∧ t.length = 7 * n.toNat) := by omega
  simp only [loadBody, if_neg misfit]

theorem exec_loadAppearances (s : State) : exec .loadAppearances s = execLoadAppearances s := rfl

section
variable {s : State} {q : Request} {rest : List Request} (ht : Takes s 12 q rest)
include ht

theorem loadAppearances_holds {start : Nat} {items : List AppearanceItem} (hbody : loadBody q.body = some (start, items)) :
    exec .loadAppearances s = .next (s.holding q rest (.load start items 0)) := by
  simp only [exec_loadAppearances, execLoadAppearances, takes_of_Takes ht, hbody]
  rfl

theorem loadAppearances_refused (hbody : loadBody q.body = none) :
    exec .loadAppearances s = .next (s.answered q rest .badValue [0]) := by
  simp only [exec_loadAppearances, execLoadAppearances, takes_of_Takes ht, hbody, answer_port (executor_of_Takes ht)]
  rfl

end

/-! ### LOAD-APPEARANCES, item by item (R132, R133) -/

theorem exec_loadAppearancesItem (s : State) : exec .loadAppearancesItem s = execLoadAppearancesItem s := rfl

theorem loadAppearancesItem_held {s : State} {h : Held} {id applied : Nat} {x : AppearanceItem} {items : List AppearanceItem}
    (hup : s.resetPin ≠ .coldHeld) (hheld : s.port.executor = some h) (hjob : h.job = .load id (x :: items) applied) :
    exec .loadAppearancesItem s = .next (s.loadItem id x items applied h).finish := by
  simp only [exec_loadAppearancesItem, execLoadAppearancesItem, whenUp_of_up hup, hheld, hjob]

section
variable {s : State} {h : Held} {id applied : Nat} {x : AppearanceItem} {c : ResultCode} {r : Records}

/-- R132: after an item that passes, the next one is in hand. -/
theorem loadItem_next {items : List AppearanceItem} (hdef : s.recs.defineAppearance id x = (.done, r)) (hmore : items ≠ []) :
    s.loadItem id x items applied h = { s with
      recs := r, port := { s.port with executor := some { h with job := .load (id + 1) items (applied + 1) } } } := by
  obtain ⟨y, ys, rfl⟩ := List.exists_cons_of_ne_nil hmore
  simp only [State.loadItem, hdef, if_true]

variable (hheld : s.port.executor = some h) (hkept : h.dropped = false)
include hheld hkept

/-- R132: the last item that passes completes the request with the number of items applied. -/
theorem loadItem_last (hdef : s.recs.defineAppearance id x = (.done, r)) :
    s.loadItem id x [] applied h = (s.completed h .done [byte1 (applied + 1)]).withRecs r := by
  simp only [State.loadItem, hdef, if_true, complete_port hheld hkept]
  rfl

/-- R133: an item that fails completes the request with its code. -/
theorem loadItem_fails {items : List AppearanceItem} (hdef : s.recs.defineAppearance id x = (c, r)) (hfail : c ≠ .done) :
    s.loadItem id x items applied h = (s.completed h c [byte1 applied, byte1 applied]).withRecs r := by
  simp only [State.loadItem, hdef, if_neg hfail, complete_port hheld hkept]
  rfl

end

/-- Settles O19: what the request's body comes to, and the three ways an item ends. -/
theorem loadAppearancesItemByItem : Obligations.LoadAppearancesItemByItem := by
  refine ⟨?run, ?refused, ?item⟩
  case run =>
    intro s q rest i1 i0 n t items ht hq hitems hmin hmax hlen
    exact loadAppearances_holds ht (hq ▸ loadBody_of_items hitems hmin hmax hlen)
  case refused =>
    intro s q rest i1 i0 n t ht hq hmisfit
    exact loadAppearances_refused ht (hq ▸ loadBody_of_misfit hmisfit)
  case item =>
    intro s h id x items applied c r hup hheld hjob hkept hdef
    rw [loadAppearancesItem_held hup hheld hjob]
    refine ⟨?next, ?last, ?fails⟩
    case next =>
      rintro rfl hmore
      rw [loadItem_next hdef hmore]
    case last =>
      rintro rfl rfl
      rw [loadItem_last hheld hkept hdef]
    case fails =>
      intro hfail
      rw [loadItem_fails hheld hkept hdef hfail]

end Sys2Proof.Machine
end

section
/-!
Settles O20: DEFINE-, CHANGE- and RETIRE-GROUP.
-/
namespace Sys2Proof.Machine

/-! ### DEFINE-GROUP (R134) -/

/-- R134: settings that lie within their values describe a group. -/
theorem GroupFields.judge_of_values {f : GroupFields} {policy : Policy} {preempt : Bool} (hpolicy : Policy.ofNat? f.policy = some policy)
    (hpreempt : boolOf? f.preempt = some preempt) (hmin : 1 ≤ f.talkerLimit) (hmax : f.talkerLimit ≤ 4) (htime : f.talkTime ≤ 120) :
    f.judge = some (policy, preempt) := by
  simp only [GroupFields.judge, hpolicy, hpreempt]
  exact if_pos ⟨hmin, hmax, htime⟩

theorem defineGroup_free {r : Records} {g : Nat} {f : GroupFields} {policy : Policy} {preempt : Bool} (hg : g ≤ 31) (hfree : r.group? g = none)
    (hjudge : f.judge = some (policy, preempt)) :
    r.defineGroup g f = (.done, r.setGroup g ⟨f.talkerLimit, f.talkTime, policy, preempt, [], [], none, false⟩) := by
  simp only [Records.defineGroup, if_neg (Nat.not_lt.mpr hg), hfree, hjudge]

theorem exec_defineGroup (s : State) : exec .defineGroup s = execDefineGroup s := rfl

/-! ### CHANGE-GROUP (R135, R97) -/

/-- R135: a change that passes every check is made, and a raised talker limit runs the grant pass. -/
theorem changeGroup_passes {r : Records} {g : Nat} {f : Group → GroupFields} {x : Group} {policy : Policy} {preempt : Bool} (hg : g ≤ 31)
    (hx : r.group? g = some x) (hjudge : (f x).judge = some (policy, preempt)) (htalkers : x.talkers.length ≤ (f x).talkerLimit)
    (hwaiting : policy ≠ x.policy ∨ preempt ≠ x.preempt → x.waiting = []) {r1 : Records}
    (hr1 : r1 = r.setGroup g { x with
      talkerLimit := (f x).talkerLimit, talkTime := (f x).talkTime, policy := policy, preempt := preempt }) :
    r.changeGroup g f = (.done, if x.talkerLimit < (f x).talkerLimit then r1.grantPass g else r1) := by
  have known : ¬ 31 < g := Nat.not_lt.mpr hg
  have room : ¬ (f x).talkerLimit < x.talkers.length := Nat.not_lt.mpr htalkers
  have noneWaits : ¬ ((policy ≠ x.policy ∨ preempt ≠ x.preempt) ∧ x.waiting ≠ []) := fun h => h.2 (hwaiting h.1)
  simp only [Records.changeGroup, if_neg known, hx, hjudge, if_neg room, if_neg noneWaits, hr1]

theorem exec_changeGroup (s : State) : exec .changeGroup s = execChangeGroup s := rfl

/-! ### RETIRE-GROUP (R136) -/

theorem retireGroup_defined {r : Records} {g : Nat} {x : Group} (hg : g ≤ 31) (hx : r.group? g = some x) :
    r.retireGroup g = (.done, r.dissolveGroup g x) := by
  simp only [Records.retireGroup, if_neg (Nat.not_lt.mpr hg), hx]

theorem exec_retireGroup (s : State) : exec .retireGroup s = s.recordRequest 18 (numberBody Records.retireGroup) := rfl

/-- Settles O20: each request passes its checks; the steps of R136 are those of `Records.dissolveGroup`. -/
theorem groupRequestsAct : Obligations.GroupRequestsAct := by
  refine ⟨?define, ?change, ?retire⟩
  case define =>
    intro s q rest g l t p b policy preempt ht hq hg hfree hmin hmax htime hpolicy hpreempt
    rw [exec_defineGroup]
    refine recordRequest_answers ht ?_
    rw [hq]
    exact defineGroup_free (f := ⟨l.toNat, t.toNat, p.toNat, b.toNat⟩) hg hfree
      (GroupFields.judge_of_values hpolicy hpreempt hmin hmax htime)
  case change =>
    intro s q rest g mask l t p b x policy preempt ht hq hg hx f hjudge htalkers hwaiting r
    rw [exec_changeGroup]
    refine recordRequest_answers ht ?_
    rw [hq]
    exact changeGroup_passes hg hx hjudge htalkers hwaiting rfl
  case retire =>
    intro s q rest g x ht hq hg hx r1 r2 r3
    rw [exec_retireGroup]
    exact numberRequest_answers ht hq (retireGroup_defined hg hx)

end Sys2Proof.Machine
end

section
/-!
Settles O21: ADD-MEMBER and REMOVE-MEMBER.
-/
namespace Sys2Proof.Machine

/-! ### What ADD-MEMBER carries (R138, log 33) -/

section
variable {f : MemberFields} {role : Role} (hrole : Role.ofNat? f.role = some role) (hgroup : f.group ≤ 31) (hpriority : f.priority ≤ 3)
include hrole hgroup hpriority

theorem MemberFields.judge_position {p : Fin 48} {n : Fin 8} (hkind : f.kind = 0) (hwho : f.who = p.val) (hchannel : f.channel = n.val) :
    f.judge = some (.position p n, role) := by
  have inRange : ¬ (31 < f.group ∨ 3 < f.priority) := by omega
  simp only [MemberFields.judge, hrole, if_neg inRange, hkind, asFin_of_eq hwho, asFin_of_eq hchannel]

/-- Log 33: the channel of a CIRCUIT is not looked at. -/
theorem MemberFields.judge_circuit (hkind : f.kind = 1) (hwho : f.who ≤ 383) : f.judge = some (.circuit f.who, role) := by
  have inRange : ¬ (31 < f.group ∨ 3 < f.priority) := by omega
  simp only [MemberFields.judge, hrole, if_neg inRange, hkind, if_pos hwho]

end

/-! ### ADD-MEMBER (R138) -/

/-- R61: a claim of a channel bound to nothing binds it. -/
theorem claim_of_unbound {r : Records} {p : Fin 48} {ch : Channel} (h : r.bound p ch = .none) (b : Binding) :
    r.claim p ch b = r.setBound p ch b := if_pos h

theorem addTalker_of_unbound {r : Records} {p : Fin 48} {n : Fin 8} (h : vget (r.pos p).speaker n = .none) (m : Nat) (x : Member) :
    r.addTalker m x p n = (r.setMember m x).setBound p (.spk n) (.member m) :=
  claim_of_unbound (r := r.setMember m x) (ch := .spk n) h _

section
variable {r : Records} {m : Nat} {f : MemberFields} {role : Role} {g : Group} (hm : m ≤ 511) (hfree : r.member? m = none)
  (hgroup : r.group? f.group = some g)
include hm hfree hgroup

/-- R138, R80: a POSITION member that passes every check is made, and binds its channel. -/
theorem addMember_position {p : Fin 48} {n : Fin 8} (hjudge : f.judge = some (.position p n, role))
    (halone : ∀ e ∈ r.membersOf f.group, ∀ k, e.2.kind ≠ .position p k) (hunbound : vget (r.pos p).speaker n = .none) :
    r.addMember m f = (.done,
      (r.setMember m ⟨f.group, .position p n, role, f.priority, .idle, none⟩).setBound p (.spk n) (.member m)) := by
  have known : ¬ 511 < m := Nat.not_lt.mpr hm
  have unbound : ¬ vget (r.pos p).speaker n ≠ .none := not_not.mpr hunbound
  simp only [Records.addMember, if_neg known, hfree, hjudge, hgroup]
  rw [if_neg ?alone, if_neg unbound, addTalker_of_unbound hunbound]
  case alone =>
    rw [List.any_eq_true]
    rintro ⟨e, he, hsame⟩
    cases hk : e.2.kind with
    | position other k =>
      simp only [hk, beq_iff_eq] at hsame
      exact halone e he k (hsame ▸ hk)
    | circuit id => simp [hk] at hsame

/-- R138, R82: a CIRCUIT member that passes every check is made, connects its line, and raises the bridge need. -/
theorem addMember_circuit {line : Nat} {l : Line} (hjudge : f.judge = some (.circuit line, role)) (hl : r.line? line = some l)
    (hdef : l.lifecycle = .defined) (htype : l.type = .openLine) (hcircuit : r.circuitOf line = none)
    (hfew : (r.circuitsOf f.group).length < 2) (hslot : l.state = .idle → l.slot = none → r.lowestSlot ≠ none) :
    r.addMember m f = (.done, r.addCircuit m ⟨f.group, .circuit line, role, f.priority, .idle, none⟩ line l) := by
  have known : ¬ 511 < m := Nat.not_lt.mpr hm
  have defined : ¬ l.lifecycle = .retiring := by simp [hdef]
  have isOpen : ¬ l.type ≠ .openLine := not_not.mpr htype
  have noCircuit : ¬ (r.circuitOf line).isSome = true := by simp [hcircuit]
  have few : ¬ 2 ≤ (r.circuitsOf f.group).length := Nat.not_le.mpr hfew
  have path : ¬ (l.state = .idle ∧ l.slot.isNone = true ∧ r.lowestSlot.isNone = true) := fun ⟨hidle, hnone, hshort⟩ =>
    hslot hidle (Option.isNone_iff_eq_none.mp hnone) (Option.isNone_iff_eq_none.mp hshort)
  simp only [Records.addMember, if_neg known, hfree, hjudge, hgroup, hl, if_neg defined, if_neg isOpen, if_neg noCircuit, if_neg few,
    if_neg path]

end

theorem exec_addMember (s : State) : exec .addMember s = execAddMember s := rfl

/-- R189: ADD-MEMBER as the executor takes it. -/
theorem addMember_answers {s : State} {q : Request} {rest : List Request} {i1 i0 g k w1 w0 c o y : Byte} {code : ResultCode} {r : Records}
    (ht : Takes s 20 q rest) (hq : q.body = [i1, i0, g, k, w1, w0, c, o, y])
    (hr : s.recs.addMember (num2 i1 i0) ⟨g.toNat, k.toNat, num2 w1 w0, c.toNat, o.toNat, y.toNat⟩ = (code, r)) :
    exec .addMember s = .next ((s.answered q rest code []).withRecs r).finish := by
  rw [exec_addMember]
  exact recordRequest_answers ht (by rw [hq]; exact hr)

/-! ### REMOVE-MEMBER (R139) -/

section
variable {r : Records} {m : Nat} {x : Member} (hx : r.member? m = some x)
include hx

theorem dropMember_defined (hm : m ≤ 511) : r.dropMember m = (.done, r.removeMember m) := by
  simp only [Records.dropMember, if_neg (Nat.not_lt.mpr hm), hx]

theorem removeMember_position {p : Fin 48} {n : Fin 8} (hkind : x.kind = .position p n) :
    r.removeMember m = r.removeTalker m x.group p n x.floor := by
  simp only [Records.removeMember, hx, hkind]

theorem removeMember_circuit {line : Nat} (hkind : x.kind = .circuit line) : r.removeMember m = r.removeCircuit m x.group line := by
  simp only [Records.removeMember, hx, hkind]

end

theorem exec_removeMember (s : State) : exec .removeMember s = s.recordRequest 21 (idBody Records.dropMember) := rfl

/-- Settles O21: an ADD-MEMBER of either kind passes its checks, and a REMOVE-MEMBER removes the membership by its kind. -/
theorem memberRequestsAct : Obligations.MemberRequestsAct := by
  refine ⟨?position, ?circuit, ?remove⟩
  case position =>
    intro s q rest i1 i0 g w1 w0 c o y x p n role ht hq hm hfree hg hwho hchannel hrole hpriority hx halone hunbound
    exact addMember_answers ht hq (addMember_position hm hfree hx
      (MemberFields.judge_position hrole hg hpriority rfl hwho hchannel) halone hunbound)
  case circuit =>
    intro s q rest i1 i0 g w1 w0 c o y x l role ht hq hm hfree hg hwho hrole hpriority hx hl hdef htype hcircuit hfew hslot r1 r2
    exact addMember_answers ht hq (addMember_circuit hm hfree hx
      (MemberFields.judge_circuit hrole hg hpriority rfl hwho) hl hdef htype hcircuit hfew hslot)
  case remove =>
    intro s q rest i1 i0 x ht hq hm hx
    rw [exec_removeMember, idRequest_answers ht hq (dropMember_defined hx hm)]
    refine ⟨fun p n hkind => ?talker, fun line hkind => ?circuitMember⟩
    case talker => rw [removeMember_position hx hkind]
    case circuitMember => rw [removeMember_circuit hx hkind]

end Sys2Proof.Machine
end

section
/-!
Settles O27, O28, O29 and O30: the requests about admission, parking, the join policy and ROLL-CALL.
-/
namespace Sys2Proof.Machine

/-! ### Admission and parking (R155, R157) -/

/-- R155: an identity is admitted nowhere when no entry holds it. -/
theorem admittedTo_eq_none {l : Link} {i : Identity} : l.admittedTo i = none ↔ ∀ k, l.entry k ≠ some i :=
  find?_allFin_none.trans (forall_congr' fun _ => beq_eq_false_iff_ne)

theorem admittedTo_isSome {l : Link} {i : Identity} (h : ∃ k, l.entry k = some i) : (l.admittedTo i).isSome = true := by
  obtain ⟨k, hk⟩ := h
  rw [Option.isSome_iff_ne_none, Ne, admittedTo_eq_none]
  exact fun hnone => hnone k hk

/-- R157: an identity is parked unless it stands in the list or the list is full. -/
theorem addParked_eq (i : Identity) (l : Link) : l.addParked i =
    { l with parked := if i ∈ l.parked ∨ 8 ≤ l.parked.length then l.parked else l.parked ++ [i] } := by
  simp only [Link.addParked, Bool.or_eq_true, List.contains_iff_mem, decide_eq_true_eq, Config.parked]
  split <;> rfl

section
variable {l : Link} {p : Fin 48} {i : Identity}

theorem admitConsole_filled (h : l.entry p ≠ none) : l.admitConsole p.val i = (.conflict, l) := by
  simp [Link.admitConsole, Option.isSome_iff_ne_none, h]

theorem admitConsole_elsewhere (h : ∃ k, l.entry k = some i) : l.admitConsole p.val i = (.conflict, l) := by
  simp [Link.admitConsole, admittedTo_isSome h]

theorem admitConsole_parkPending (hfree : l.entry p = none) (hnew : ∀ k, l.entry k ≠ some i) (hpark : (l.pres p).parkPending = true) :
    l.admitConsole p.val i = (.inUse, l) := by
  simp [Link.admitConsole, hfree, admittedTo_eq_none.mpr hnew, hpark]

/-- R155: the entry is filled, and a sequence is wanted for an identity that is parked. -/
theorem admitConsole_fills (hfree : l.entry p = none) (hnew : ∀ k, l.entry k ≠ some i) (hpark : (l.pres p).parkPending = false) :
    l.admitConsole p.val i =
      (.done, { l with admission := vset l.admission p (some i), wanted := l.wanted || l.parked.contains i }) := by
  simp [Link.admitConsole, hfree, admittedTo_eq_none.mpr hnew, hpark, Link.setEntry]

end

/-! ### Requests that change the link (R189) -/

/-- R189: a request over the whole state is answered in the step in which it is taken, whatever else its block changes. -/
theorem linkRequest_taken {s : State} {code : Nat} {q : Request} {rest : List Request} {f : List Byte → State → ResultCode × List Byte × State}
    {c : ResultCode} {body : List Byte} {r : Records} {l : Link} (h : Takes s code q rest)
    (hf : ∀ t : State, t.recs = s.recs → t.link = s.link → f q.body t = (c, body, (t.withRecs r).withLink l)) :
    s.request code f = .next (((s.answered q rest c body).withRecs r).withLink l).finish := by
  have hx := hf { s with port := { s.port with requests := rest } } rfl rfl
  simp only [State.request, takes_of_Takes h, hx, withRecs_port, withLink_port, answer_port (executor_of_Takes h)]
  rfl

theorem exec_admitConsole (s : State) : exec .admitConsole s = execAdmitConsole s := rfl

theorem exec_revokeConsole (s : State) : exec .revokeConsole s = execRevokeConsole s := rfl

theorem exec_readParked (s : State) : exec .readParked s = execReadParked s := rfl

theorem exec_setJoinPolicy (s : State) : exec .setJoinPolicy s = execSetJoinPolicy s := rfl

/-- R155: ADMIT-CONSOLE is answered with the outcome of the admission, and the link becomes what it leaves. -/
theorem admitConsole_answers {s : State} {q : Request} {rest : List Request} {b a1 a2 a3 a4 a5 a6 : Byte} {p : Fin 48} {c : ResultCode} {l : Link}
    (ht : Takes s 29 q rest) (hq : q.body = [b, a1, a2, a3, a4, a5, a6]) (hb : b.toNat = p.val)
    (hl : s.link.admitConsole p.val (identityOf a1 a2 a3 a4 a5 a6) = (c, l)) :
    exec .admitConsole s = .next ((s.answered q rest c []).withLink l).finish := by
  rw [exec_admitConsole]
  refine linkRequest_taken (r := s.recs) ht (fun t hrecs hlink => ?_)
  simp only [hq, hlink, hb, hl, ← hrecs]
  rfl

/-- Settles O27: the checks of R155 in their order, and what the admission writes. -/
theorem admitConsoleFillsEntry : Obligations.AdmitConsoleFillsEntry := by
  intro s q rest b a1 a2 a3 a4 a5 a6 p ht hq hb i
  refine ⟨fun hfree hnew hpark => ?fills, fun hfilled => ?filled, fun hadmitted => ?elsewhere, fun hfree hnew hpark => ?pending⟩
  case fills => exact admitConsole_answers ht hq hb (admitConsole_fills hfree hnew hpark)
  case filled => exact admitConsole_answers ht hq hb (admitConsole_filled hfilled)
  case elsewhere => exact admitConsole_answers ht hq hb (admitConsole_elsewhere hadmitted)
  case pending => exact admitConsole_answers ht hq hb (admitConsole_parkPending hfree hnew hpark)

/-! ### REVOKE-CONSOLE (R156) -/

/-- R156: the link after the revocation of the identity i at position p, whose presence record stood as pr. -/
def Link.revoked (p : Fin 48) (i : Identity) (pr : Presence) (l : Link) : Link :=
  { l with
    admission := vset l.admission p none
    parked := if i ∈ l.parked ∨ 8 ≤ l.parked.length then l.parked else l.parked ++ [i]
    presence := vset l.presence p { pr with parkPending := true } }

section
variable {s : State} {p : Fin 48} {i : Identity} (hentry : s.link.entry p = some i)
include hentry

/-- R156, R154: a console revoked at an attached position is lost first, its miss count 0. -/
theorem revoke_attached (ha : (s.recs.pos p).attached = true) : s.revoke p.val =
    (.done, (s.withRecs ((s.recs.losePosition p).raise (.position p.val) .detached)).withLink (s.link.revoked p i { s.link.pres p with miss := 0 })) := by
  simp only [State.revoke, asFin_val, hentry, State.detachIfAttached, if_pos ha, State.detach, addParked_eq, Link.setEntry, Link.modPres,
    Link.pres, vget_vset_same, vset_vset]
  rfl

theorem revoke_detached (ha : (s.recs.pos p).attached = false) : s.revoke p.val = (.done, s.withLink (s.link.revoked p i (s.link.pres p))) := by
  simp only [State.revoke, asFin_val, hentry, State.detachIfAttached, ha, addParked_eq]
  rfl

end

/-- Settles O28: the revocation with and without a loss of the position. -/
theorem revokeConsoleDetachesAndParks : Obligations.RevokeConsoleDetachesAndParks := by
  intro s q rest b p i ht hq hb hentry revoked
  rw [exec_revokeConsole]
  refine ⟨fun ha => linkRequest_taken ht (fun t hrecs hlink => ?attached),
    fun ha => linkRequest_taken (r := s.recs) ht (fun t hrecs hlink => ?detached)⟩
  case attached =>
    simp only [hq, hb, revoke_attached (s := t) (hlink ▸ hentry) (hrecs ▸ ha), hrecs, hlink]
    rfl
  case detached =>
    simp only [hq, hb, revoke_detached (s := t) (hlink ▸ hentry) (hrecs ▸ ha), ← hrecs, hlink]
    rfl

/-! ### READ-PARKED and SET-JOIN-POLICY (R157, R158) -/

/-- Settles O29: each request with the two values of its byte. -/
theorem parkedListAndJoinPolicy : Obligations.ParkedListAndJoinPolicy := by
  intro s q rest
  rw [exec_readParked, exec_setJoinPolicy]
  refine ⟨fun ht hq => ?read, fun ht hq => ?readAndClear, fun ht hq => ?accept, fun ht hq => ?ignore⟩
  case read => exact linkRequest_taken (r := s.recs) (l := s.link) ht (fun t hrecs hlink => by rw [hq, ← hrecs, ← hlink]; rfl)
  case readAndClear => exact linkRequest_taken (r := s.recs) ht (fun t hrecs hlink => by rw [hq, ← hrecs, ← hlink]; rfl)
  case accept => exact linkRequest_taken (r := s.recs) ht (fun t hrecs hlink => by rw [hq, ← hrecs, ← hlink]; rfl)
  case ignore => exact linkRequest_taken (r := s.recs) ht (fun t hrecs hlink => by rw [hq, ← hrecs, ← hlink]; rfl)

/-! ### ROLL-CALL (R162) -/

theorem callRoll_begins {l : Link} (sc : Scope) (hseq : l.sequence = none) (htxn : l.txn = none) (hwaits : l.waits = []) :
    l.callRoll sc = { l with sequence := some ⟨sc, 0, true, 0, 0⟩, wanted := false, cycle := .window } :=
  if_pos ⟨hseq, htxn, hwaits⟩

theorem callRoll_waits {l : Link} (sc : Scope) (h : l.sequence ≠ none ∨ l.txn ≠ none ∨ l.waits ≠ []) :
    l.callRoll sc = { l with waits := l.waits ++ [⟨sc, true⟩] } :=
  if_neg fun ⟨hseq, htxn, hwaits⟩ => h.elim (· hseq) (Or.elim · (· htxn) (· hwaits))

theorem exec_rollCall (s : State) : exec .rollCall s = execRollCall s := rfl

section
variable {s : State} {q : Request} {rest : List Request} {b : Byte} {sc : Scope} (ht : Takes s 33 q rest) (hq : q.body = [b])
  (hsc : Scope.ofNat? b.toNat = some sc)
include ht hq hsc

/-- R162: on a link that is not STUCK the request holds the executor, and its sequence begins or waits. -/
theorem rollCall_held (hs : s.link.state ≠ .stuck) :
    exec .rollCall s = .next ((s.holding q rest .rollCall).withLink (s.link.callRoll sc)).finish := by
  simp only [exec_rollCall, execRollCall, takes_of_Takes ht, hq, hsc, if_neg hs, hold_port]
  rfl

theorem rollCall_stuck (hs : s.link.state = .stuck) : exec .rollCall s = .next (s.answered q rest .busFault [0, 0, 0]) := by
  simp only [exec_rollCall, execRollCall, takes_of_Takes ht, hq, hsc, if_pos hs, answer_port (executor_of_Takes ht)]
  rfl

end

/-- Settles O30: what a taken ROLL-CALL does to the link. -/
theorem rollCallBeginsOrWaits : Obligations.RollCallBeginsOrWaits := by
  intro s q rest b sc ht hq hsc
  refine ⟨fun hs hseq htxn hwaits => ?begins, fun hs hbusy => ?waits, rollCall_stuck ht hq hsc⟩
  case begins => rw [rollCall_held ht hq hsc hs, callRoll_begins sc hseq htxn hwaits]
  case waits => rw [rollCall_held ht hq hsc hs, callRoll_waits sc hbusy]

end Sys2Proof.Machine
end

section
/-!
Settles O32, O33, O34 and O35: the transactions of the link cycle, each from its sending to its end.
-/
namespace Sys2Proof.Machine

/-! ### Presence records (R141, R149) -/

@[simp] theorem modPres_modPres (l : Link) (p : Fin 48) (f g : Presence → Presence) : (l.modPres p f).modPres p g = l.modPres p (fun x => g (f x)) := by
  simp [Link.modPres, Link.pres]

/-- A presence record written as it stands changes nothing. -/
theorem modPres_self (l : Link) (p : Fin 48) : l.modPres p (fun x => x) = l := by simp [Link.modPres, Link.pres]

/-- R149: the link at the end of the cycle step in which position p had its transaction, p's presence record having become pr: the idle time restarts. -/
def Link.ended (p : Fin 48) (pr : Presence) (next : CycleStep) (l : Link) : Link :=
  { l with txn := none, cycle := next, presence := vset l.presence p { pr with idle := 0 } }

/-- R149: a transaction that changed p's presence record by f ends. -/
theorem endTxn_modPres {s : State} {next : CycleStep} (hc : s.link.cycle.succ = next) (p : Fin 48) (f : Presence → Presence) :
    (s.withLink (s.link.modPres p f)).endTxn p = s.withLink (s.link.ended p (f (s.link.pres p)) next) := by
  simp only [State.endTxn, Link.rest, withLink_link, modPres_modPres, Link.ended, ← hc]
  rfl

/-- R154: a valid reply from p ends its transaction. -/
theorem present_endTxn {s : State} {next : CycleStep} (hc : s.link.cycle.succ = next) (p : Fin 48) :
    (s.present p).endTxn p = s.withLink (s.link.ended p { s.link.pres p with miss := 0 } next) := endTxn_modPres hc p _

/-- R154: a reply of p that is not valid, neither the first miss nor the third, is counted. -/
theorem miss_endTxn {s : State} {next : CycleStep} (hc : s.link.cycle.succ = next) {p : Fin 48} (ha : (s.recs.pos p).attached = true)
    (hm : (s.link.pres p).miss < 2) :
    (s.miss p).endTxn p = s.withLink (s.link.ended p { s.link.pres p with miss := (s.link.pres p).miss + 1 } next) := by
  rw [State.miss, if_pos ha, if_pos hm]
  exact endTxn_modPres hc p _

/-! ### The request window (R150, R158) -/

theorem exec_requestWindow (answer : Option (BitVec 6)) (s : State) : exec (.requestWindow answer) s = execRequestWindow answer s := rfl

/-- R150: a window that no console, or an address of no position, wins is over. -/
theorem window_none (s : State) : s.window none = s.withLink { s.link with sent := [], txn := none, cycle := s.link.cycle.succ } := rfl

theorem window_unknown (s : State) {a : BitVec 6} (ha : a.toNat = 0 ∨ (49 ≤ a.toNat ∧ a.toNat ≤ 62)) :
    s.window (some a) = s.withLink { s.link with sent := [], txn := none, cycle := s.link.cycle.succ } := by
  have hposition : ¬ (1 ≤ a.toNat ∧ a.toNat ≤ 48) := by omega
  have hjoin : ¬ a.toNat = 63 := by omega
  simp only [State.window, if_neg hposition, if_neg hjoin]
  rfl

/-- R150: the EVENT of the position that won comes next. -/
theorem window_position (s : State) {a : BitVec 6} (h1 : 1 ≤ a.toNat) (h48 : a.toNat ≤ 48) :
    s.window (some a) = s.withLink { s.link with sent := [], txn := some (.event a.toNat) } := by
  simp only [State.window, if_pos (And.intro h1 h48)]
  rfl

/-- R158: a console without an address asks to join. -/
theorem window_join_accept {s : State} (hp : s.link.policy = .accept) :
    s.window (some 63#6) = s.withLink { s.link with sent := [], txn := none, cycle := s.link.cycle.succ, wanted := true } := by
  simp [State.window, hp, Link.endStep, State.withLink]

theorem window_join_ignore {s : State} (hp : s.link.policy = .ignore) : s.window (some 63#6) =
    (s.withLink { s.link with sent := [], txn := none, cycle := s.link.cycle.succ }).withRecs (s.recs.raise .link .join) := by
  simp [State.window, hp, Link.endStep, State.withLink, State.withRecs]

theorem requestWindow_open {s : State} (hup : s.resetPin ≠ .coldHeld) (hopen : s.cycleOpen = true) (hc : s.link.cycle = .window)
    (answer : Option (BitVec 6)) : exec (.requestWindow answer) s = .next (s.window answer).finish := by
  rw [exec_requestWindow, execRequestWindow, whenUp_of_up hup, if_pos ⟨hopen, hc⟩]

/-- Settles O32: the 64 addresses, by the range they lie in. -/
theorem requestWindowDispatches : Obligations.RequestWindowDispatches := by
  intro s hup hopen hc ended
  have hended : ({ s.link with sent := [], txn := none, cycle := s.link.cycle.succ } : Link) = ended := by rw [hc]; rfl
  simp only [requestWindow_open hup hopen hc]
  refine ⟨?silence, fun a h1 h48 => ?position, fun a ha => ?unknown, fun hp => ?accept, fun hp => ?ignore⟩
  case silence => rw [window_none, hended]
  case position => rw [window_position s h1 h48]
  case unknown => rw [window_unknown s ha, hended]
  case accept => rw [window_join_accept hp, ← hended]
  case ignore => rw [window_join_ignore hp, hended]

/-! ### The EVENT message (R150, R151) -/

theorem exec_eventMessage (bytes : List Byte) (s : State) : exec (.eventMessage bytes) s = execEventMessage bytes s := rfl

theorem eventMessage_taken {s : State} {p : Fin 48} (hup : s.resetPin ≠ .coldHeld) (ht : s.link.txn = some (.event (p.val + 1)))
    (bytes : List Byte) : exec (.eventMessage bytes) s = .next (s.takeMessage p bytes).finish := by
  simp [exec_eventMessage, execEventMessage, whenUp_of_up hup, ht]

section
variable {s : State} {p : Fin 48} {bytes : List Byte}

theorem judgeEvent_invalid (hm : EventMsg.parse (p.val + 1) bytes = none) : s.judgeEvent p bytes = (msgNak (addressOf p) 1, s) := by
  simp only [State.judgeEvent, addressOf, hm]

section
variable {m : EventMsg} (hm : EventMsg.parse (p.val + 1) bytes = some m)
include hm

/-- R151: a LOCKED position's sequence flag follows, and its events are refused. -/
theorem judgeEvent_locked (hlock : (s.recs.pos p).lock = true) : s.judgeEvent p bytes =
    (msgNak (addressOf p) 2, s.withLink (s.link.modPres p (fun x => { x with miss := 0, flag := flagOf m.flag }))) := by
  simp only [State.judgeEvent, addressOf, hm, State.present, modPres_modPres, if_pos hlock]
  rfl

/-- R151: a message with the flag of the one before repeats it. -/
theorem judgeEvent_repeated (hlock : (s.recs.pos p).lock = false) (hflag : flagOf m.flag = (s.link.pres p).flag) :
    s.judgeEvent p bytes = (msgAck (addressOf p), s.withLink (s.link.modPres p (fun x => { x with miss := 0 }))) := by
  simp only [State.judgeEvent, addressOf, hm, State.present, pres_modPres_same, hlock, if_pos hflag]
  rfl

theorem judgeEvent_taken (hlock : (s.recs.pos p).lock = false) (hflag : flagOf m.flag ≠ (s.link.pres p).flag) :
    s.judgeEvent p bytes = (msgAck (addressOf p),
      (s.withLink (s.link.modPres p (fun x => { x with miss := 0, flag := flagOf m.flag }))).withRecs (s.recs.takeEvents p m.events)) := by
  simp only [State.judgeEvent, addressOf, hm, State.present, pres_modPres_same, modPres_modPres, hlock, if_neg hflag]
  rfl

end

/-- R150: the message of a DETACHED position is answered with ASSIGN 0. -/
theorem takeMessage_detached (ha : (s.recs.pos p).attached = false) :
    s.takeMessage p bytes = (s.withLink { s.link with sent := [msgAssign (addressOf p) 0] }).endTxn p := by
  simp only [State.takeMessage, ha]
  rfl

end

/-- R150, R149: the answer is sent and the transaction ends, p's presence record having become that of f. -/
theorem answer_endTxn {s : State} (hc : s.link.cycle = .window) (p : Fin 48) (f : Presence → Presence) (answer : List Byte) :
    (s.withLink { s.link.modPres p f with sent := [answer] }).endTxn p =
      s.withLink { s.link.ended p (f (s.link.pres p)) .output with sent := [answer] } :=
  endTxn_modPres (s := s.withLink { s.link with sent := [answer] }) (next := .output) (by rw [withLink_link, hc]; rfl) p f

/-- R151: the message of an attached position is answered as it is judged, the records and p's presence record becoming those of the judgement. -/
theorem takeMessage_attached {s : State} {p : Fin 48} {bytes answer : List Byte} {f : Presence → Presence} {r : Records}
    (hc : s.link.cycle = .window) (ha : (s.recs.pos p).attached = true)
    (h : s.judgeEvent p bytes = (answer, (s.withLink (s.link.modPres p f)).withRecs r)) :
    s.takeMessage p bytes = (s.withLink { s.link.ended p (f (s.link.pres p)) .output with sent := [answer] }).withRecs r := by
  simp only [State.takeMessage, if_pos ha, h]
  exact congrArg (State.withRecs · r) (answer_endTxn hc p f answer)

/-- Settles O33: the judgement of R151, and the end of the transaction after each answer. -/
theorem eventMessageJudged : Obligations.EventMessageJudged := by
  intro s p bytes hup ht hc ended
  have unchanged := modPres_self s.link p
  rw [eventMessage_taken hup ht]
  refine ⟨fun ha => ?detached, fun ha hm => ?invalid, fun m ha hm => ⟨fun hlock => ?locked, fun hlock hflag => ?repeated, fun hlock hflag => ?taken⟩⟩
  case detached =>
    have hend := answer_endTxn hc p (fun x => x) (msgAssign (addressOf p) 0)
    rw [unchanged] at hend
    rw [takeMessage_detached ha, hend]
    rfl
  case invalid =>
    rw [takeMessage_attached (f := fun x => x) (r := s.recs) hc ha (by rw [unchanged]; exact judgeEvent_invalid hm)]
    rfl
  case locked =>
    rw [takeMessage_attached (f := fun x => { x with miss := 0, flag := flagOf m.flag }) (r := s.recs) hc ha (judgeEvent_locked hm hlock)]
    rfl
  case repeated =>
    rw [takeMessage_attached (f := fun x => { x with miss := 0 }) (r := s.recs) hc ha (judgeEvent_repeated hm hlock hflag)]
    rfl
  case taken =>
    rw [takeMessage_attached hc ha (judgeEvent_taken hm hlock hflag)]
    rfl

/-! ### OUTPUT (R152, R73) -/

theorem exec_output (phase : LinkPhase) (s : State) : exec (.output phase) s = execOutput phase s := rfl

theorem output_sent {s : State} {p : Fin 48} (hup : s.resetPin ≠ .coldHeld) (hopen : s.cycleOpen = true) (hc : s.link.cycle = .output)
    (hp : s.outputTarget = some p) : exec (.output .sent) s = .next (s.sendOutput p).finish := by
  simp only [exec_output, execOutput, whenUp_of_up hup, if_pos (And.intro hopen hc), hp]

theorem output_replied {s : State} {p : Fin 48} {items : List OutItem} (hup : s.resetPin ≠ .coldHeld) (ht : s.link.txn = some (.output p items))
    (bytes : List Byte) : exec (.output (.reply bytes)) s = .next (s.outputReply p items bytes).finish := by
  simp only [exec_output, execOutput, whenUp_of_up hup, ht]

/-- R147: the two messages differ in length. -/
theorem msgNak_ne_msgAck (a b reason : Nat) : msgNak a reason ≠ msgAck b := by simp [msgNak, msgAck, checked]

section
variable {s : State} {p : Fin 48} {items : List OutItem}

theorem outputReply_ack : s.outputReply p items (msgAck (addressOf p)) = (s.present p).endTxn p := if_pos rfl

/-- R73: a message that did not arrive whole is sent again, and counts no miss. -/
theorem outputReply_nak : s.outputReply p items (msgNak (addressOf p) 1) = ((s.withRecs (s.recs.returnItems p items)).present p).endTxn p := by
  simp only [State.outputReply, if_neg (msgNak_ne_msgAck _ _ _)]
  rfl

theorem outputReply_none {bytes : List Byte} (hack : bytes ≠ msgAck (addressOf p)) (hnak : bytes ≠ msgNak (addressOf p) 1) :
    s.outputReply p items bytes = ((s.withRecs (s.recs.returnItems p items)).miss p).endTxn p := by
  simp only [State.outputReply, if_neg hack, if_neg hnak]
  rfl

end

/-- R152: position p is attached and has something to be sent. -/
theorem outputPending_iff {r : Records} {p : Fin 48} : ((r.pos p).attached && r.outputPending p) = true ↔
    (r.pos p).attached = true ∧ ((r.pos p).refusal ≠ none ∨ (r.pos p).channelPending ≠ [] ∨ (r.pos p).lampPending ≠ []) := by
  simp [Records.outputPending, Option.isSome_iff_ne_none, or_assoc]

/-- Settles O34: the sending, the three replies, and the target by `outputTarget_spec`. -/
theorem outputSentAndAnswered : Obligations.OutputSentAndAnswered := by
  refine ⟨fun s p hup hopen hc hp => output_sent hup hopen hc hp, ?replies, ?target⟩
  case replies =>
    intro s p items bytes hup ht hc ha ended
    have hnext : s.link.cycle.succ = .parkOrPoll := by rw [hc]; rfl
    rw [output_replied hup ht]
    refine ⟨fun hb => ?ack, fun hb => ?nak, fun hack hnak hm => ?none⟩
    case ack =>
      rw [show bytes = msgAck (addressOf p) from hb, outputReply_ack, present_endTxn hnext]
      rfl
    case nak =>
      rw [show bytes = msgNak (addressOf p) 1 from hb, outputReply_nak, present_endTxn (s := s.withRecs (s.recs.returnItems p items)) hnext]
      rfl
    case none =>
      rw [outputReply_none hack hnak, miss_endTxn (s := s.withRecs (s.recs.returnItems p items)) hnext ((attached_returnItems ..).trans ha) hm]
      rfl
  case target =>
    intro s pending stepsFromPointer
    obtain ⟨hfirst, hnone⟩ := outputTarget_spec s
    refine ⟨fun p hp => ?_, hnone.trans (forall_congr' fun p => ?_)⟩
    · obtain ⟨hpending, hle⟩ := hfirst p hp
      exact ⟨outputPending_iff.mp hpending, fun q hq => hle q (outputPending_iff.mpr hq)⟩
    · rw [← Bool.not_eq_true, outputPending_iff]

/-! ### PARK and POLL (R149, R153, R156) -/

theorem exec_park (phase : LinkPhase) (s : State) : exec (.park phase) s = execPark phase s := rfl

theorem park_sent {s : State} {p : Fin 48} (hup : s.resetPin ≠ .coldHeld) (hopen : s.cycleOpen = true) (hc : s.link.cycle = .parkOrPoll)
    (hp : s.link.parkTarget = some p) : exec (.park .sent) s = .next (s.sendPark p).finish := by
  simp only [exec_park, execPark, whenUp_of_up hup, if_pos (And.intro hopen hc), hp]

theorem park_replied {s : State} {p : Fin 48} (hup : s.resetPin ≠ .coldHeld) (ht : s.link.txn = some (.park p)) (bytes : List Byte) :
    exec (.park (.reply bytes)) s = .next (s.withLink s.link.endStep).finish := by
  simp only [exec_park, execPark, whenUp_of_up hup, ht]
  rfl

theorem exec_poll (phase : LinkPhase) (s : State) : exec (.poll phase) s = execPoll phase s := rfl

theorem poll_sent {s : State} {p : Fin 48} (hup : s.resetPin ≠ .coldHeld) (hopen : s.cycleOpen = true) (hc : s.link.cycle = .parkOrPoll)
    (hpark : s.link.parkTarget = none) (hp : s.pollTarget = some p) : exec (.poll .sent) s = .next (s.sendPoll p).finish := by
  simp only [exec_poll, execPoll, whenUp_of_up hup, if_pos (And.intro hopen (And.intro hc hpark)), hp]

theorem poll_replied {s : State} {p : Fin 48} (hup : s.resetPin ≠ .coldHeld) (ht : s.link.txn = some (.poll p)) (bytes : List Byte) :
    exec (.poll (.reply bytes)) s = .next (s.pollReply p bytes).finish := by
  simp only [exec_poll, execPoll, whenUp_of_up hup, ht]

theorem pollReply_ack (s : State) (p : Fin 48) : s.pollReply p (msgAck (addressOf p)) = (s.present p).endTxn p := if_pos rfl

theorem pollReply_none (s : State) {p : Fin 48} {bytes : List Byte} (h : bytes ≠ msgAck (addressOf p)) :
    s.pollReply p bytes = (s.miss p).endTxn p := if_neg h

/-- R149: position p is attached and has been idle long enough for a POLL. -/
theorem pollDue_iff {s : State} {p : Fin 48} : ((s.recs.pos p).attached && decide (500 ≤ (s.link.pres p).idle)) = true ↔
    (s.recs.pos p).attached = true ∧ 500 ≤ (s.link.pres p).idle := by simp

/-- R149: the position polled has been idle the longest of all that are attached, a tie going to the lowest. -/
theorem pollTarget_longest {s : State} {p q : Fin 48} (hp : s.pollTarget = some p) (hq : (s.recs.pos q).attached = true) :
    (s.link.pres q).idle ≤ (s.link.pres p).idle ∧ ((s.link.pres q).idle = (s.link.pres p).idle → p ≤ q) := by
  obtain ⟨hdue, hbest⟩ := (pollTarget_spec s).1 p hp
  have h500 := (pollDue_iff.mp hdue).2
  by_cases hlong : 500 ≤ (s.link.pres q).idle
  · rcases hbest q (pollDue_iff.mpr ⟨hq, hlong⟩) with hlt | ⟨heq, hle⟩
    · exact ⟨hlt.le, fun heq => absurd heq hlt.ne⟩
    · exact ⟨heq.le, fun _ => hle⟩
  · omega

/-- Settles O35: the sending of each, the replies, and the targets by `parkTarget_spec` and `pollTarget_spec`. -/
theorem parkAndPoll : Obligations.ParkAndPoll := by
  refine ⟨fun s p hup hopen hc hp => park_sent hup hopen hc hp, fun s p bytes hup ht hc => ?parkReply,
    fun s p hup hopen hc hpark hp => poll_sent hup hopen hc hpark hp, ?pollReplies,
    fun l => parkTarget_spec l, fun s => ⟨fun p q hp => ?polled, (pollTarget_spec s).2.trans (forall_congr' fun p => ?nonePolled)⟩⟩
  case parkReply =>
    rw [park_replied hup ht, Link.endStep, hc]
    rfl
  case pollReplies =>
    intro s p bytes hup ht hc ha ended
    have hnext : s.link.cycle.succ = .window := by rw [hc]; rfl
    rw [poll_replied hup ht]
    refine ⟨fun hb => ?ack, fun hb hm => ?none⟩
    case ack =>
      rw [show bytes = msgAck (addressOf p) from hb, pollReply_ack, present_endTxn hnext]
      rfl
    case none =>
      rw [pollReply_none s hb, miss_endTxn hnext ha hm]
      rfl
  case polled =>
    obtain ⟨ha, h500⟩ := pollDue_iff.mp ((pollTarget_spec s).1 p hp).1
    exact ⟨ha, h500, pollTarget_longest hp⟩
  case nonePolled => simp

end Sys2Proof.Machine
end

section
/-!
Settles O36: the third miss, and what the loss of a position leaves.
-/
namespace Sys2Proof.Machine

/-! ### The third miss (R154) -/

/-- R154: s after position p is lost at the end of its transaction: DETACHED raised, its miss count 0. -/
def State.lostAt (p : Fin 48) (next : CycleStep) (s : State) : State :=
  (s.withRecs ((s.recs.losePosition p).raise (.position p.val) .detached)).withLink (s.link.ended p { s.link.pres p with miss := 0 } next)

theorem miss_third {s : State} {p : Fin 48} (ha : (s.recs.pos p).attached = true) (hm : (s.link.pres p).miss = 2) : s.miss p = s.detach p := by
  have hthird : ¬ (s.link.pres p).miss < 2 := by omega
  rw [State.miss, if_pos ha, if_neg hthird]

theorem detach_endTxn {s : State} {next : CycleStep} (hc : s.link.cycle.succ = next) (p : Fin 48) : (s.detach p).endTxn p = s.lostAt p next :=
  endTxn_modPres (s := s.withRecs ((s.recs.losePosition p).raise (.position p.val) .detached)) hc p _

/-- R73, R74: items handed back to a position lost in the same step leave nothing. -/
theorem lostAt_returnItems (s : State) (p : Fin 48) (items : List OutItem) (next : CycleStep) :
    (s.withRecs (s.recs.returnItems p items)).lostAt p next = s.lostAt p next := by
  simp only [State.lostAt, withRecs_recs, losePosition_returnItems]
  rfl

/-- R193: DETACHED stands at the position when the step has ended. -/
theorem detached_lostAt (s : State) (p : Fin 48) (next : CycleStep) : Reason.detached ∈ (s.lostAt p next).finish.recs.reasons (.position p.val) := by
  rw [finish_recs, (keepsReasons_settle _).same _ (by simp)]
  exact mem_reasons_raise ..

theorem exec_positionDetach (pos : Nat) (s : State) : exec (.positionDetach pos) s = execPositionDetach pos s := rfl

section
variable {s : State} {p : Fin 48} (hup : s.resetPin ≠ .coldHeld) (ha : (s.recs.pos p).attached = true) (hm : (s.link.pres p).miss = 2)

section
include hup ha hm

/-- Log 6: the loss is the end of the transaction in progress without a reply. -/
theorem positionDetach_poll (ht : s.link.txn = some (.poll p)) : exec (.positionDetach p.val) s = .next (s.pollReply p []).finish := by
  simp only [exec_positionDetach, execPositionDetach, whenUp_of_up hup, asFin_val, ha, hm, ht, le_refl, and_self, if_true]

theorem positionDetach_output {items : List OutItem} (ht : s.link.txn = some (.output p items)) :
    exec (.positionDetach p.val) s = .next (s.outputReply p items []).finish := by
  simp only [exec_positionDetach, execPositionDetach, whenUp_of_up hup, asFin_val, ha, hm, ht, le_refl, and_self, if_true]

end

section
include ha hm

theorem pollReply_third (hc : s.link.cycle = .parkOrPoll) {bytes : List Byte} (hb : bytes ≠ msgAck (addressOf p)) :
    s.pollReply p bytes = s.lostAt p .window := by
  rw [pollReply_none s hb, miss_third ha hm, detach_endTxn (next := .window) (by rw [hc]; rfl)]

theorem outputReply_third (hc : s.link.cycle = .output) {items : List OutItem} {bytes : List Byte} (hack : bytes ≠ msgAck (addressOf p))
    (hnak : bytes ≠ msgNak (addressOf p) 1) : s.outputReply p items bytes = s.lostAt p .parkOrPoll := by
  rw [outputReply_none hack hnak, miss_third (s := s.withRecs (s.recs.returnItems p items)) ((attached_returnItems ..).trans ha) hm,
    detach_endTxn (next := .parkOrPoll) (by rw [withRecs_link, hc]; rfl), lostAt_returnItems]

end

end

/-- R147: silence is neither ACK nor NAK. -/
theorem nil_ne_checked (bs : List Byte) : [] ≠ checked bs := by simp [checked]

/-! ### The position after its loss (R74) -/

/-- R74: the console state is gone, nothing is pending, and lock, volumes and pressed keys stay. -/
theorem losePosition_pos (r : Records) (p : Fin 48) :
    (r.losePosition p).pos p = { (r.pos p).lose with
      hand1 := ((r.losePosition p).pos p).hand1, hand2 := ((r.losePosition p).pos p).hand2, speaker := ((r.losePosition p).pos p).speaker } := by
  have hwork := (losePosition_parties r p).1
  have hlost : (r.modPos p Position.lose).pos p = (r.pos p).lose := pos_modPos_same ..
  obtain ⟨hlamps, hchannels⟩ := hwork.dark p (by rw [hlost]; rfl)
  have hpos := hwork.pos p
  rw [hlamps, hchannels, hlost] at hpos
  exact hpos

/-! ### The floor of a lost position (R96) -/

theorem talkingAt_of_ptt {r : Records} {p : Fin 48} {n : Fin 8} {m : Nat} (hptt : (r.pos p).ptt = some n)
    (hbound : vget (r.pos p).speaker n = .member m) : r.talkingAt p = some m := by
  simp only [Records.talkingAt, hptt, Records.memberOn, hbound]

/-- Settles O36: the end of the transaction by the third miss, then the loss part by part. -/
theorem thirdMissDetaches : Obligations.ThirdMissDetaches := by
  refine ⟨?miss, fun r p => ?loss⟩
  case miss =>
    intro s p hup ha hm lost
    refine ⟨fun hc ht => ⟨?pollEnds, fun bytes hb => ?poll⟩, fun items hc ht => ⟨?outputEnds, fun bytes hack hnak => ?output⟩,
      detached_lostAt s p⟩
    case pollEnds => rw [positionDetach_poll hup ha hm ht, pollReply_third ha hm hc (nil_ne_checked _)]; rfl
    case poll => rw [poll_replied hup ht, pollReply_third ha hm hc hb]; rfl
    case outputEnds => rw [positionDetach_output hup ha hm ht, outputReply_third ha hm hc (nil_ne_checked _) (nil_ne_checked _)]; rfl
    case output => rw [output_replied hup ht, outputReply_third ha hm hc hack hnak]; rfl
  case loss =>
    obtain ⟨_, hparty, hother⟩ := losePosition_parties r p
    obtain ⟨hmember, hbound⟩ := losePosition_kept r p
    have hpos := losePosition_pos r p
    refine ⟨?_, ?_, ?_, ?_, ?_, ?_, ?_, ?_, ?_, ?_, ?_, ?_, hparty, hother, fun id l ch hl hch => ?line, hmember, hbound,
      fun n m x g hptt hspk hx hg => ?floor⟩
    case line =>
      obtain ⟨hringing, hsole, hseveral, hfree, hbridge⟩ := losePosition_line hl hch
      exact ⟨hfree, fun hs => (hringing hs).symm, fun hs hn => (hsole hs hn).symm, hseveral, fun b j hb hcase => hbridge b j hb hcase⟩
    case floor =>
      have htalk := talkingAt_of_ptt hptt hspk
      exact ⟨fun hf hb hw => losePosition_talking htalk hx hg hf hb hw, fun hf hw => losePosition_waiting htalk hx hg hf hw⟩
    all_goals rw [hpos]; rfl

end Sys2Proof.Machine
end

section
/-!
Settles O37 and O38: the rounds of a roll-call sequence, and how a sequence begins and ends.
-/
namespace Sys2Proof.Machine

/-! ### A round (R160, R161) -/

theorem exec_rollCallRound (i : Identity) (check : Byte) (reply : List Byte) (s : State) :
    exec (.rollCallRound i check reply) s = execRollCallRound i check reply s := rfl

theorem rollCallRound_open {s : State} {x : Sequence} (hup : s.resetPin ≠ .coldHeld) (hseq : s.link.sequence = some x)
    (hopen : s.roundOpen x = true) (i : Identity) (check : Byte) (reply : List Byte) :
    exec (.rollCallRound i check reply) s = .next (s.round x i check reply).finish := by
  simp only [exec_rollCallRound, execRollCallRound, whenUp_of_up hup, hseq, if_pos hopen]

section
variable {s : State} {x : Sequence} {i : Identity} {check : Byte} {reply : List Byte}

theorem round_wrongCheck (h : check ≠ crc8 (identityBytes i)) : s.round x i check reply =
    s.withLink { s.link with sent := [msgRollCall x.roundScope], sequence := some { x with rounds := x.rounds + 1 } } := if_neg h

theorem round_parks (h : check = crc8 (identityBytes i)) (hi : s.link.admittedTo i = none) : s.round x i check reply = s.parkWinner x i := by
  simp only [State.round, if_pos h, hi]

theorem round_assigns {p : Fin 48} (h : check = crc8 (identityBytes i)) (hi : s.link.admittedTo i = some p) :
    s.round x i check reply = s.assignWinner x p i reply := by
  simp only [State.round, if_pos h, hi]

end

/-- R160: the link after a round in which the winner was sent ASSIGN to position p, its sequence having become x. -/
def Link.assigned (p : Fin 48) (scope : Scope) (x : Sequence) (l : Link) : Link :=
  { l with sent := [msgRollCall scope, msgAssign 63 (addressOf p)], sequence := some x }

/-- R161: the link after the console of identity i took position p. -/
def Link.attachedAt (p : Fin 48) (i : Identity) (l : Link) : Link :=
  { l with
    presence := vset l.presence p { l.pres p with miss := 0, idle := 0, flag := true }
    parked := l.parked.filter (fun k => !(k == i)) }

section
variable {s : State} {x : Sequence} {p : Fin 48} {i : Identity} {reply : List Byte}

theorem detachIfAttached_detached (ha : (s.recs.pos p).attached = false) : s.detachIfAttached p = s := by simp [State.detachIfAttached, ha]

theorem detachIfAttached_attached (ha : (s.recs.pos p).attached = true) : s.detachIfAttached p = s.detach p := if_pos ha

theorem assignWinner_silent (hr : reply ≠ msgAck (addressOf p)) : s.assignWinner x p i reply =
    (s.detachIfAttached p).withLink ((s.detachIfAttached p).link.assigned p x.roundScope { x with rounds := x.rounds + 1 }) := if_neg hr

theorem assignWinner_ack (hr : reply = msgAck (addressOf p)) : s.assignWinner x p i reply =
    ((s.detachIfAttached p).withLink
      (((s.detachIfAttached p).link.assigned p x.roundScope { x with rounds := x.rounds + 1, attached := x.attached + 1 }).attachedAt p i)).withRecs
        (((s.detachIfAttached p).recs.attachPosition p i).raise (.position p.val) .attached) := if_pos hr

/-- R161, R141: the presence record that an attachment writes does not depend on the loss of the old one in the same step. -/
theorem attachedAt_detach (scope : Scope) (y : Sequence) :
    ((s.detach p).link.assigned p scope y).attachedAt p i = (s.link.assigned p scope y).attachedAt p i := by
  simp only [Link.attachedAt, Link.assigned, State.detach, Link.pres, modPres_presence, vget_vset_same, vset_vset]
  rfl

end

/-- Settles O37: the outcomes of a round, the last two of them after a loss of the position. -/
theorem rollCallRoundAssignsOrParks : Obligations.RollCallRoundAssignsOrParks := by
  intro s x i check reply hup hseq hopen
  simp only [rollCallRound_open hup hseq hopen]
  refine ⟨fun hc => ?wrong, fun hc hi => ?parks, fun p hc hi ha hr => ?silent, fun p hc hi ha hr => ?attaches,
    fun p hc hi ha => ⟨fun hr => ?lost, fun hr => ?reattaches⟩⟩
  case wrong => rw [round_wrongCheck hc]
  case parks => rw [round_parks hc hi]; rfl
  case silent => rw [round_assigns hc hi, assignWinner_silent hr, detachIfAttached_detached ha]; rfl
  case attaches => rw [round_assigns hc hi, assignWinner_ack hr, detachIfAttached_detached ha]; rfl
  case lost => rw [round_assigns hc hi, assignWinner_silent hr, detachIfAttached_attached ha]; rfl
  case reattaches =>
    rw [round_assigns hc hi, assignWinner_ack hr, detachIfAttached_attached ha, attachedAt_detach]
    rfl

/-! ### How a sequence begins (R159) -/

theorem exec_sequenceBegin (s : State) : exec .sequenceBegin s = execSequenceBegin s := rfl

theorem sequenceBegin_due {s : State} (hup : s.resetPin ≠ .coldHeld) (hs : s.link.state = .running) (ht : s.link.txn = none)
    (hseq : s.link.sequence = none) (hdue : s.link.wanted = true ∨ s.link.waits ≠ []) :
    exec .sequenceBegin s = .next (s.withLink s.link.beginNext).finish := by
  rw [exec_sequenceBegin, execSequenceBegin, whenUp_of_up hup, if_pos ⟨hs, ht, hseq, hdue⟩]
  rfl

section
variable {l : Link}

theorem beginNext_wanted (hw : l.waits = []) (hd : l.wanted = true) :
    l.beginNext = { l with sequence := some ⟨.new, 0, false, 0, 0⟩, wanted := false, cycle := .window } := by
  simp only [Link.beginNext, hw, if_pos hd]
  rw [← hw]
  rfl

theorem beginNext_idle (hw : l.waits = []) (hd : l.wanted = false) : l.beginNext = { l with cycle := .window } := by
  simp [Link.beginNext, hw, hd]

theorem beginNext_waiting {w : RollCallWait} {rest : List RollCallWait} (hw : l.waits = w :: rest) : l.beginNext =
    { l with waits := rest, sequence := some ⟨w.scope, 0, w.owned, 0, 0⟩, wanted := false, cycle := .window } := by
  simp only [Link.beginNext, hw]
  rfl

end

/-! ### How a sequence ends (R160, R162, R202) -/

theorem exec_rollCallSilence (s : State) : exec .rollCallSilence s = execRollCallSilence s := rfl

theorem exec_roundCap (s : State) : exec .roundCap s = execRoundCap s := rfl

section
variable {s : State} {x : Sequence} (hup : s.resetPin ≠ .coldHeld) (hseq : s.link.sequence = some x)
include hup hseq

/-- R162: the silent round is the last of its sequence. -/
theorem rollCallSilence_open (hopen : s.roundOpen x = true) : exec .rollCallSilence s =
    .next ((s.withLink { s.link with sent := [msgRollCall x.roundScope] }).endSequence { x with rounds := x.rounds + 1 }).finish := by
  simp only [exec_rollCallSilence, execRollCallSilence, whenUp_of_up hup, hseq, if_pos hopen]
  rfl

theorem roundCap_reached (hs : s.link.state = .running) (hx : x.rounds = 64) : exec .roundCap s = .next (s.endSequence x).finish := by
  have hcap : s.link.state = .running ∧ x.rounds = Config.rounds := ⟨hs, hx⟩
  simp only [exec_roundCap, execRoundCap, whenUp_of_up hup, hseq, if_pos hcap]

end

theorem holds_of_executor {p : Port} {h : Held} (he : p.executor = some h) : p.holds h.job = true := by simp [Port.holds, he]

section
variable {s : State} {x : Sequence} (hw : s.link.waits = []) (hd : s.link.wanted = false)
include hw hd

/-- R162, R202: a sequence that no request owns ends with no other to follow. -/
theorem endSequence_unowned (hx : x.owned = false) : s.endSequence x =
    { s with
      part := if s.part = PartState.startingConsoles then .running else s.part
      link := { s.link with sequence := none, cycle := .window } } := by
  simp only [State.endSequence, State.closeSequence, hx, Bool.false_and]
  rw [beginNext_idle (by exact hw) (by exact hd)]
  rfl

/-- R162: the ROLL-CALL that owns the sequence completes with its counts. -/
theorem endSequence_owned {h : Held} (hx : x.owned = true) (he : s.port.executor = some h) (hj : h.job = .rollCall) (hdr : h.dropped = false)
    (hrun : s.part = .running) :
    s.endSequence x = (s.completed h .done x.body).withLink { s.link with sequence := none, cycle := .window } := by
  have hholds : s.port.holds .rollCall = true := hj ▸ holds_of_executor he
  simp only [State.endSequence, State.closeSequence, hx, hholds, complete_port he hdr, hrun]
  rw [beginNext_idle (by exact hw) (by exact hd)]
  simp [State.withLink, State.completed, hrun]

end

/-- Settles O38: the two ways a sequence begins, and its end by silence and by the cap. -/
theorem sequenceBeginsAndEnds : Obligations.SequenceBeginsAndEnds := by
  refine ⟨fun s hup hs ht hseq => ⟨fun hw hd => ?wanted, fun w rest hw => ?waiting⟩, fun s x hup hseq hw hd =>
    ⟨fun hx hopen => ?silence, fun hx hs hcap => ?cap, fun h hx hopen he hj hdr hrun => ?ownedSilence,
      fun h hx hs hcap he hj hdr hrun => ?ownedCap⟩⟩
  case wanted => rw [sequenceBegin_due hup hs ht hseq (.inl hd), beginNext_wanted hw hd]
  case waiting => rw [sequenceBegin_due hup hs ht hseq (.inr (by simp [hw])), beginNext_waiting hw]
  case silence => rw [rollCallSilence_open hup hseq hopen, endSequence_unowned (by exact hw) (by exact hd) (by exact hx)]; rfl
  case cap => rw [roundCap_reached hup hseq hs hcap, endSequence_unowned hw hd hx]
  case ownedSilence =>
    rw [rollCallSilence_open hup hseq hopen, endSequence_owned (by exact hw) (by exact hd) (by exact hx) (by exact he) hj hdr (by exact hrun)]
    rfl
  case ownedCap =>
    rw [roundCap_reached hup hseq hs hcap, endSequence_owned hw hd hx he hj hdr hrun, Sequence.body, hcap]
    rfl

end Sys2Proof.Machine
end

section
/-!
Settles O31 and O39: the link found stuck, the attempts at its recovery, and LINK-RESET.
-/
namespace Sys2Proof.Machine

/-! ### A recovery attempt (R164) -/

/-- R164, R159: an attempt that finds both wires high: the link runs, the idle times restart, and the next sequence begins, if there is one. -/
theorem attempt_recovers {w : Wires} (hclk : w.clk = true) (hdat : w.dat = true) (s : State) : ∃ presence sequence waits wanted,
    s.attempt w = { s with
      recs := s.recs.raise .link .recovered
      link := { s.link with
        state := .running, recoveryWait := 0, presence := presence, sequence := sequence, waits := waits, wanted := wanted, cycle := .window } } ∧
    (∀ p, vget presence p = { s.link.pres p with idle := 0 }) ∧
    (s.link.waits = [] → waits = [] ∧ wanted = false ∧ sequence = if s.link.wanted then some ⟨.new, 0, false, 0, 0⟩ else s.link.sequence) ∧
    (∀ x rest, s.link.waits = x :: rest → waits = rest ∧ wanted = false ∧ sequence = some ⟨x.scope, 0, x.owned, 0, 0⟩) := by
  obtain ⟨presence, hattempt, hpresence⟩ := attempt_high hclk hdat s
  obtain ⟨sequence, waits, wanted, hnext, hidle, hwaiting⟩ :=
    beginNext_spec { s.link with presence := presence, state := .running, recoveryWait := 0 }
  exact ⟨presence, sequence, waits, wanted, by rw [hattempt, hnext], hpresence, hidle, hwaiting⟩

/-- R193: an attempt takes no reason out of a set. -/
theorem attempt_grown (w : Wires) (s : State) : Grown s.recs.raised (s.attempt w).recs.raised := by
  unfold State.attempt
  split
  · exact .raise ..
  · exact .refl _

theorem recovered_attempt {w : Wires} (hclk : w.clk = true) (hdat : w.dat = true) (s : State) :
    Reason.recovered ∈ (s.attempt w).recs.reasons .link := by
  obtain ⟨_, _, _, _, hattempt, _⟩ := attempt_recovers hclk hdat s
  rw [hattempt]
  exact mem_reasons_raise ..

/-! ### LINK-RESET (R165) -/

theorem exec_linkReset (s : State) : exec .linkReset s = execLinkReset s := rfl

theorem linkReset_held {s : State} {q : Request} {rest : List Request} (ht : Takes s 34 q rest) (hq : q.body = []) :
    exec .linkReset s = .next (s.holding q rest .linkReset) := by
  simp only [exec_linkReset, execLinkReset, takes_of_Takes ht, hq, hold_port]
  rfl

theorem resetWaits_of_executor {s : State} {h : Held} (he : s.port.executor = some h) (hj : h.job = .linkReset) : s.resetWaits = true := by
  rw [State.resetWaits, ← hj]
  exact holds_of_executor he

/-- R165: a LINK-RESET completes with the link state after its attempt. -/
theorem completeReset_held {s : State} {h : Held} (he : s.port.executor = some h) (hj : h.job = .linkReset) (hd : h.dropped = false) :
    s.completeReset = s.completed h .done [s.link.state.byte] := by
  rw [State.completeReset, if_pos (resetWaits_of_executor he hj), complete_port he hd]
  rfl

/-- R192: one whose result a warm restart dropped only frees the executor. -/
theorem completeReset_dropped {s : State} {h : Held} (he : s.port.executor = some h) (hj : h.job = .linkReset) (hd : h.dropped = true) :
    s.completeReset.port = { s.port with executor := none } := by
  rw [State.completeReset, if_pos (resetWaits_of_executor he hj)]
  simp [Port.complete, he, hd]

theorem completeReset_none {s : State} (h : s.resetWaits = false) : s.completeReset = s := by simp [State.completeReset, h]

@[simp] theorem completeReset_link (s : State) : s.completeReset.link = s.link := by unfold State.completeReset; split <;> rfl

@[simp] theorem completeReset_recs (s : State) : s.completeReset.recs = s.recs := by unfold State.completeReset; split <;> rfl

/-! ### RECOVERY_ATTEMPT (R164, log 37) -/

/-- Log 37: the state in which the attempt on a STUCK link is made: at once for a LINK-RESET, else when the interval has passed. -/
def State.attempting (s : State) : State := if s.resetWaits then s else s.advance s.link.recoveryWait

@[simp] theorem attempting_port (s : State) : s.attempting.port = s.port := by
  unfold State.attempting
  split
  · rfl
  · exact advance_port ..

/-- The wait for the attempt touches of the link only the idle times and the recovery interval. -/
theorem attempting_link (s : State) : ∃ presence wait, s.attempting.link = { s.link with presence := presence, recoveryWait := wait } ∧
    ∀ p, vget presence p = { s.link.pres p with idle := (vget presence p).idle } := by
  unfold State.attempting
  split
  · exact ⟨s.link.presence, s.link.recoveryWait, rfl, fun _ => rfl⟩
  · exact advance_link ..

/-- R164, log 37: the link after an attempt that finds both wires high, against the link before the wait for it. -/
theorem attempting_recovers {w : Wires} (hclk : w.clk = true) (hdat : w.dat = true) (s : State) : ∃ presence sequence waits wanted,
    (s.attempting.attempt w).link = { s.link with
      state := .running, recoveryWait := 0, presence := presence, sequence := sequence, waits := waits, wanted := wanted, cycle := .window } ∧
    (∀ p, vget presence p = { s.link.pres p with idle := 0 }) ∧
    (s.link.waits = [] → waits = [] ∧ wanted = false ∧ sequence = if s.link.wanted then some ⟨.new, 0, false, 0, 0⟩ else s.link.sequence) ∧
    (∀ x rest, s.link.waits = x :: rest → waits = rest ∧ wanted = false ∧ sequence = some ⟨x.scope, 0, x.owned, 0, 0⟩) := by
  obtain ⟨waited, wait, hlink, hwaited⟩ := attempting_link s
  obtain ⟨presence, sequence, waits, wanted, hattempt, hpresence, hidle, hwaiting⟩ := attempt_recovers hclk hdat s.attempting
  rw [hlink] at hpresence hidle hwaiting
  refine ⟨presence, sequence, waits, wanted, by rw [hattempt, hlink], fun p => ?_, hidle, hwaiting⟩
  rw [hpresence p]
  exact congrArg (fun y : Presence => { y with idle := 0 }) (hwaited p)

theorem exec_recoveryAttempt (w : Wires) (s : State) : exec (.recoveryAttempt w) s = execRecoveryAttempt w s := rfl

theorem recoveryAttempt_stuck {s : State} (hup : s.resetPin ≠ .coldHeld) (hs : s.link.state = .stuck) (w : Wires) :
    exec (.recoveryAttempt w) s = .next (s.attempting.attempt w).completeReset.finish := by
  rw [exec_recoveryAttempt, execRecoveryAttempt, whenUp_of_up hup, if_pos hs]
  rfl

theorem recoveryAttempt_running {s : State} (hup : s.resetPin ≠ .coldHeld) (hs : s.link.state = .running) (hr : s.resetWaits = true)
    (ht : s.link.txn = none) (w : Wires) : exec (.recoveryAttempt w) s = .next s.completeReset.finish := by
  have hstuck : ¬ s.link.state = .stuck := by simp [hs]
  rw [exec_recoveryAttempt, execRecoveryAttempt, whenUp_of_up hup, if_neg hstuck, if_pos ⟨hs, hr, ht⟩]

/-- Settles O31: LINK-RESET, and the attempts by the link state, the wires and what the executor holds. -/
theorem linkResetAndRecovery : Obligations.LinkResetAndRecovery := by
  refine ⟨fun s q rest ht hq => linkReset_held ht hq, fun s h w hup he hj hd ht hs => ?running, fun s h w hup he hj hd hs hw => ?low,
    fun s w hup hholds hs hw => ?lowAgain, fun s w hup hs hclk hdat => ?high, fun s h w hup he hj hd hs => ?dropped⟩
  case running =>
    rw [recoveryAttempt_running hup hs (resetWaits_of_executor he hj) ht, completeReset_held he hj hd, hs]
    rfl
  case low =>
    have hnow : s.attempting = s := if_pos (resetWaits_of_executor he hj)
    rw [recoveryAttempt_stuck hup hs, hnow, attempt_low hw, completeReset_held (by exact he) hj hd]
    show _ = Host.Outcome.next ((s.completed h .done [LinkState.stuck.byte]).withLink _).finish
    rw [← hs]
    rfl
  case lowAgain =>
    obtain ⟨presence, wait, hlink, _⟩ := attempting_link s
    refine ⟨_, recoveryAttempt_stuck hup hs w, ?_⟩
    have hport : (s.attempting.attempt w).port = s.port := by simp
    rw [completeReset_none (by rw [State.resetWaits, hport]; exact hholds), attempt_low hw]
    exact ⟨by simp [hlink, hs], by simp, by simp⟩
  case high =>
    obtain ⟨presence, sequence, waits, wanted, hlink, hpresence, hidle, hwaiting⟩ := attempting_recovers hclk hdat s
    have hport : (s.attempting.attempt w).port = s.port := by simp
    refine ⟨_, recoveryAttempt_stuck hup hs w, by simp [hlink], ?raised, fun p => ?idle, fun hw => ?next, fun x rest hw => ?waiting,
      fun hfree => ?port, fun h he hj hd => ?reset⟩
    case raised =>
      rw [finish_recs, completeReset_recs, (keepsReasons_settle _).same _ (by simp)]
      exact recovered_attempt hclk hdat _
    case idle =>
      rw [Link.pres, finish_link_presence, completeReset_link, hlink, hpresence p]
      exact ⟨rfl, rfl⟩
    case next =>
      obtain ⟨hwaits, _, hsequence⟩ := hidle hw
      exact ⟨by simp [hlink, hwaits], by simp [hlink, hsequence]⟩
    case waiting =>
      obtain ⟨hwaits, hwanted, hsequence⟩ := hwaiting x rest hw
      exact ⟨by simp [hlink, hwaits], by simp [hlink, hsequence], by simp [hlink, hwanted]⟩
    case port => rw [finish_port, completeReset_none (by rw [State.resetWaits, hport]; exact hfree), hport]
    case reset =>
      rw [finish_port, completeReset_held (by rw [hport]; exact he) hj hd, hlink, completed_port, hport]
      rfl
  case dropped =>
    rcases hs with hs | ⟨hs, ht⟩
    · refine ⟨_, recoveryAttempt_stuck hup hs w, ?_⟩
      rw [finish_port, completeReset_dropped (by simpa using he) hj hd]
      simp
    · exact ⟨_, recoveryAttempt_running hup hs (resetWaits_of_executor he hj) ht w, by rw [finish_port, completeReset_dropped he hj hd]⟩

/-! ### What a stuck link gives up (R163) -/

theorem abandon_link (s : State) : s.abandon.link = { s.link with txn := none } := by
  cases ht : s.link.txn with
  | none => simp only [State.abandon, ht]; rw [← ht]
  | some x => cases x <;> simp only [State.abandon, ht]

/-- R163, R73: the items of an OUTPUT in progress are handed back. -/
theorem abandon_output {s : State} {p : Fin 48} {items : List OutItem} (ht : s.link.txn = some (.output p items)) :
    s.abandon.recs = s.recs.returnItems p items := by simp only [State.abandon, ht]

theorem abandon_other {s : State} (ht : ∀ p items, s.link.txn ≠ some (.output p items)) : s.abandon.recs = s.recs := by
  cases hx : s.link.txn with
  | none => simp only [State.abandon, hx]
  | some x => cases x with
    | output p items => exact absurd hx (ht p items)
    | event _ => simp only [State.abandon, hx]
    | poll _ => simp only [State.abandon, hx]
    | park _ => simp only [State.abandon, hx]

theorem breakSequence_link (s : State) : ∃ cycle, s.breakSequence.link =
    { s.link with sequence := none, wanted := s.link.wanted || s.link.sequence.isSome, cycle := cycle } := by
  cases hseq : s.link.sequence with
  | none => exact ⟨s.link.cycle, by simp only [State.breakSequence, hseq, Option.isSome_none, Bool.or_false]; rw [← hseq]⟩
  | some x => exact ⟨.window, by simp only [State.breakSequence, hseq, Option.isSome_some, Bool.or_true]; rfl⟩

@[simp] theorem breakSequence_recs (s : State) : s.breakSequence.recs = s.recs := by unfold State.breakSequence; split <;> rfl

/-- R162, R163: the ROLL-CALL that owns the sequence completes with its counts. -/
theorem breakSequence_owned {s : State} {x : Sequence} {h : Held} (hseq : s.link.sequence = some x) (hx : x.owned = true)
    (he : s.port.executor = some h) (hj : h.job = .rollCall) (hd : h.dropped = false) :
    s.breakSequence.port = (s.completed h .busFault x.body).port := by
  have hholds : s.port.holds .rollCall = true := hj ▸ holds_of_executor he
  simp only [State.breakSequence, hseq, State.closeSequence, hx, hholds, complete_port he hd]
  rfl

theorem breakSequence_unowned {s : State} (h : s.link.sequence.all (fun x => !x.owned) = true) : s.breakSequence.port = s.port := by
  cases hseq : s.link.sequence with
  | none => simp only [State.breakSequence, hseq]
  | some x =>
    have hx : x.owned = false := by simpa [hseq] using h
    simp [State.breakSequence, hseq, State.closeSequence, hx]

/-- R162: the ROLL-CALL whose own sequence never began completes with zeros. -/
theorem dropWaits_owned {s : State} {h : Held} (hw : s.link.waits.any (fun x => x.owned) = true) (he : s.port.executor = some h)
    (hj : h.job = .rollCall) (hd : h.dropped = false) : s.dropWaits.port = (s.completed h .busFault [0, 0, 0]).port := by
  have hholds : s.port.holds .rollCall = true := hj ▸ holds_of_executor he
  simp only [State.dropWaits, hw, hholds, complete_port he hd]
  rfl

theorem dropWaits_free {s : State} (he : s.port.executor = none) : s.dropWaits.port = s.port := by
  simp [State.dropWaits, Port.holds, he]

/-! ### LINK_STUCK (R163) -/

/-- R163: the link as the first attempt finds it. -/
def Link.foundStuck (l : Link) : Link :=
  { l with
    state := .stuck, txn := none, sequence := none, waits := [], wanted := l.wanted || l.sequence.isSome, cycle := .window, sent := [] }

/-- R163: the state in which the first attempt is made. -/
def State.foundStuck (s : State) : State :=
  { s.abandon.breakSequence.dropWaits with recs := s.abandon.recs.raise .link .stuck, link := s.link.foundStuck }

@[simp] theorem foundStuck_link (s : State) : s.foundStuck.link = s.link.foundStuck := rfl

/-- R163: going STUCK is giving up what is in progress or waits, and the first attempt. -/
theorem goStuck_eq (w : Wires) (s : State) : s.goStuck w = s.foundStuck.attempt w := by
  obtain ⟨cycle, hlink⟩ := breakSequence_link s.abandon
  rw [abandon_link] at hlink
  have hrecs : s.abandon.breakSequence.dropWaits.recs = s.abandon.recs := breakSequence_recs _
  have hwaits : s.abandon.breakSequence.dropWaits.link = { s.abandon.breakSequence.link with waits := [] } := rfl
  simp only [State.goStuck, hrecs, hwaits, hlink]
  rfl

theorem foundStuck_port_owned {s : State} {x : Sequence} {h : Held} (hseq : s.link.sequence = some x) (hx : x.owned = true)
    (he : s.port.executor = some h) (hj : h.job = .rollCall) (hd : h.dropped = false) :
    s.foundStuck.port = (s.completed h .busFault x.body).port := by
  have hbreak : s.abandon.breakSequence.port = (s.completed h .busFault x.body).port := by
    rw [breakSequence_owned (by rw [abandon_link]; exact hseq) hx (by rw [abandon_port]; exact he) hj hd]
    simp
  exact (dropWaits_free (by rw [hbreak]; rfl)).trans hbreak

theorem foundStuck_port_waiting {s : State} {h : Held} (hseq : s.link.sequence.all (fun x => !x.owned) = true)
    (hw : s.link.waits.any (fun x => x.owned) = true) (he : s.port.executor = some h) (hj : h.job = .rollCall) (hd : h.dropped = false) :
    s.foundStuck.port = (s.completed h .busFault [0, 0, 0]).port := by
  have hbreak : s.abandon.breakSequence.port = s.port := by
    rw [breakSequence_unowned (by rw [abandon_link]; exact hseq), abandon_port]
  obtain ⟨cycle, hlink⟩ := breakSequence_link s.abandon
  have hwaits : s.abandon.breakSequence.link.waits = s.link.waits := by rw [hlink, abandon_link]
  refine (dropWaits_owned (by rw [hwaits]; exact hw) (by rw [hbreak]; exact he) hj hd).trans ?_
  simp [hbreak]

theorem exec_linkStuck (w : Wires) (s : State) : exec (.linkStuck w) s = execLinkStuck w s := rfl

theorem linkStuck_running {s : State} (hup : s.resetPin ≠ .coldHeld) (hs : s.link.state = .running) (w : Wires) :
    exec (.linkStuck w) s = .next (s.foundStuck.attempt w).finish := by
  rw [exec_linkStuck, execLinkStuck, whenUp_of_up hup, if_pos hs, goStuck_eq]

/-- R193: STUCK is raised and stands, whatever the attempt raises after it. -/
theorem stuck_reported (s : State) (w : Wires) : Reason.stuck ∈ (s.foundStuck.attempt w).finish.recs.reasons .link := by
  rw [finish_recs, (keepsReasons_settle _).same _ (by simp)]
  exact mem_reasons_of_grown (attempt_grown w s.foundStuck)

theorem wires_low_or_high (w : Wires) : (w.clk = false ∨ w.dat = false) ∨ (w.clk = true ∧ w.dat = true) := by
  cases w.clk <;> cases w.dat <;> simp

/-- R164: an attempt leaves the transaction of the link alone. -/
theorem attempt_txn (w : Wires) (s : State) : (s.attempt w).link.txn = s.link.txn := by
  rcases wires_low_or_high w with hw | ⟨hclk, hdat⟩
  · rw [attempt_low hw]
  · obtain ⟨_, _, _, _, hattempt, _⟩ := attempt_recovers hclk hdat s
    rw [hattempt]

/-- R164, R159: where no sequence waits, none does after an attempt. -/
theorem attempt_waits {s : State} (h : s.link.waits = []) (w : Wires) : (s.attempt w).link.waits = [] := by
  rcases wires_low_or_high w with hw | ⟨hclk, hdat⟩
  · rw [attempt_low hw]
    exact h
  · obtain ⟨_, _, _, _, hattempt, _, hidle, _⟩ := attempt_recovers hclk hdat s
    rw [hattempt]
    exact (hidle h).1

/-- Settles O39: what is given up, then the first attempt with a wire low or with both high. -/
theorem linkStuckAbandons : Obligations.LinkStuckAbandons := by
  intro s w hup hs
  refine ⟨_, linkStuck_running hup hs w, stuck_reported s w, ?txn, ?waits, fun hw => ?low, fun hclk hdat => ?high,
    fun x h hseq hx he hj hd => ?owned, fun h hseq hw he hj hd => ?waiting⟩
  case txn => rw [finish_link_txn, attempt_txn]; rfl
  case waits => rw [finish_link_waits, attempt_waits rfl]
  case low =>
    have hrecs : (s.foundStuck.attempt w).finish.recs = (s.abandon.recs.raise .link .stuck).settle := by rw [finish_recs, attempt_low hw]; rfl
    rw [hrecs, attempt_low hw]
    refine ⟨by simp [Link.foundStuck], by simp [Link.foundStuck], by simp,
      by simp [Link.foundStuck], fun hseq => ?_, fun hseq => ?_, fun p items ht => by rw [abandon_output ht],
      fun ht => by rw [abandon_other ht]⟩
    · simp [Link.foundStuck, Option.isSome_iff_ne_none, hseq]
    · simp [Link.foundStuck, hseq]
  case high =>
    obtain ⟨presence, sequence, waits, wanted, hattempt, hpresence, hidle, _⟩ := attempt_recovers hclk hdat s.foundStuck
    obtain ⟨_, hwanted, hsequence⟩ := hidle rfl
    have hrecs : (s.foundStuck.attempt w).finish.recs = ((s.abandon.recs.raise .link .stuck).raise .link .recovered).settle := by
      rw [finish_recs, hattempt]; rfl
    rw [hrecs, hattempt]
    refine ⟨by simp, by simp [hwanted], ?_, fun p => ?_, fun p items ht => by rw [abandon_output ht], fun ht => by rw [abandon_other ht]⟩
    · simp [hsequence, Link.foundStuck, Option.isSome_iff_ne_none]
    · rw [Link.pres, finish_link_presence]
      exact hpresence p
  case owned => rw [finish_port, attempt_port, foundStuck_port_owned hseq hx he hj hd]; rfl
  case waiting => rw [finish_port, attempt_port, foundStuck_port_waiting hseq hw he hj hd]

end Sys2Proof.Machine
end

section
/-!
Settles O57: every step leaves the port work list exact.
-/
namespace Sys2Proof.Machine

/-- R174: the port work list holds exactly the lines that belong on it. -/
def Records.WorkExact (r : Records) : Prop := ∀ id, id ∈ r.workList ↔ ∃ l, (id, l) ∈ r.lines ∧ r.differs l = true

theorem workListExact_iff (s : State) : WorkListExact s ↔ s.recs.WorkExact := Iff.rfl

theorem workExact_settle (r : Records) : r.settle.WorkExact := mem_workList_settle r

/-- After a cold start there is no line, and the list is empty. -/
theorem workExact_cold : Records.cold.WorkExact := fun id => by simp [Records.cold]

/-- What belongs on the list does not depend on raised reasons. -/
theorem workExact_raised {r : Records} (h : r.WorkExact) (raised : List (Entry × List Reason)) :
    ({ r with raised := raised } : Records).WorkExact := h

/-- What belongs on the list does not depend on timers. -/
theorem workExact_elapse {r : Records} (h : r.WorkExact) (ms : Nat) : (r.elapse ms).WorkExact := by
  intro id
  calc id ∈ (r.elapse ms).workList
    _ ↔ ∃ l, (id, l) ∈ r.lines ∧ r.differs l = true := h id
    _ ↔ ∃ l, (id, l) ∈ (r.elapse ms).lines ∧ (r.elapse ms).differs l = true := by
      constructor
      · rintro ⟨l, hmem, hdiffers⟩
        exact ⟨l.elapse ms, mem_lines_elapse.mpr ⟨l, hmem, rfl⟩, (elapse_differs ms r l).trans hdiffers⟩
      · rintro ⟨l, hmem, hdiffers⟩
        obtain ⟨before, hbefore, rfl⟩ := mem_lines_elapse.mp hmem
        exact ⟨before, hbefore, (elapse_differs ms r before).symm.trans hdiffers⟩

/-- Settles O57: a settled step has brought the list up to date, and a step that settles nothing changes neither it nor what belongs on it. -/
theorem workListStaysExact : Obligations.WorkListStaysExact := by
  intro s t h hst
  rw [workListExact_iff] at h ⊢
  exact step_keeps_recs workExact_settle workExact_cold (fun _ raised hr => workExact_raised hr raised) (fun _ hr => workExact_elapse hr 1) h hst

end Sys2Proof.Machine
end

section
/-!
Settles O40: SET-WINDOW.
-/
namespace Sys2Proof.Machine

/-! ### The cards of a window change (R170 steps 1 and 2) -/

/-- A card is named by the windows, and by nothing else of the records. -/
theorem named_of_windows {r r' : Records} (h : r'.windows = r.windows) (c : Fin 32) : r'.named c = r.named c := by
  simp only [Records.named, Records.windowNaming, h]

/-- R170: the cards before the lines are tested again: each is renamed by what the windows before and after say of it. -/
theorem renameFold_spec (before : Fin 32 → Bool) (ks : List (Fin 32)) (t : Records) :
    ks.foldl (fun t c => t.modCard c (Card.renamed (before c) (t.named c))) t =
      { t with cards := ks.foldl (fun v c => vset v c (Card.renamed (before c) (t.named c) (vget v c))) t.cards } := by
  induction ks generalizing t with
  | nil => rfl
  | cons k ks ih => rw [List.foldl_cons, ih]; rfl

theorem callWork_rewindow (before : Records) (id : Nat) (r : Records) : CallWork r (Records.rewindow before id r) := by
  unfold Records.rewindow
  split
  · exact .refl r
  · split
    · split
      · exact .refl r
      · exact callWork_serviceTest ..
    · exact callWork_serviceTest ..

/-- R170: what a change of window w makes of the windows and of the cards; the lines' part of it touches neither. -/
theorem applyWindow_spec (w : Fin 16) (new : Window) (r : Records) :
    (r.applyWindow w new).windows = vset r.windows w new ∧
    ∀ k, (r.applyWindow w new).card k = Card.renamed (r.named k) ((r.applyWindow w new).named k) (r.card k) := by
  obtain ⟨t, hcards, work⟩ : ∃ t : Records, t = { r with
      windows := vset r.windows w new
      cards := (allFin 32).foldl (fun v c => vset v c (Card.renamed (r.named c)
        (({ r with windows := vset r.windows w new } : Records).named c) (vget v c))) r.cards } ∧ CallWork t (r.applyWindow w new) :=
    ⟨_, renameFold_spec r.named (allFin 32) { r with windows := vset r.windows w new },
      CallWork.foldl (fun t id => callWork_rewindow r id t) _ _⟩
  have hwindows : (r.applyWindow w new).windows = vset r.windows w new := by rw [work.windows, hcards]
  refine ⟨hwindows, fun k => ?_⟩
  have hnamed : (r.applyWindow w new).named k = ({ r with windows := vset r.windows w new } : Records).named k := named_of_windows hwindows k
  rw [hnamed, Records.card, work.cards, hcards,
    vget_foldl_vset (fun c => Card.renamed (r.named c) (({ r with windows := vset r.windows w new } : Records).named c))
      (allFin 32) (List.nodup_finRange 32), if_pos (mem_allFin k)]
  rfl

/-! ### The answer (R169) -/

section
variable {r : Records} {w : Fin 16} {n : Nat} {f : WindowFields} {new : Window} (hw : n = w.val) (hjudge : f.judge = some new)
include hw hjudge

theorem setWindow_unchanged (h : new = vget r.windows w) : r.setWindow n f = (.done, r) := by
  simp only [Records.setWindow, asFin_of_eq hw, hjudge, if_pos h]

theorem setWindow_inUse (h : new ≠ vget r.windows w)
    (hbusy : ∃ e ∈ r.lines, inRanges (vget r.windows w) new e.2.port = true ∧ e.2.atRest = false) : r.setWindow n f = (.inUse, r) := by
  have hany : r.lines.any (fun e => inRanges (vget r.windows w) new e.2.port && !e.2.atRest) = true := by simpa using hbusy
  simp only [Records.setWindow, asFin_of_eq hw, hjudge, if_neg h, if_pos hany]

theorem setWindow_changes (h : new ≠ vget r.windows w)
    (hrest : ∀ e ∈ r.lines, inRanges (vget r.windows w) new e.2.port = true → e.2.atRest = true) :
    r.setWindow n f = (.done, r.applyWindow w new) := by
  have hnone : ¬ r.lines.any (fun e => inRanges (vget r.windows w) new e.2.port && !e.2.atRest) = true := by
    simpa only [List.any_eq_true, Bool.and_eq_true, Bool.not_eq_true', not_exists, not_and, Bool.not_eq_false] using hrest
  simp only [Records.setWindow, asFin_of_eq hw, hjudge, if_neg h, if_neg hnone]

end

theorem exec_setWindow (s : State) : exec .setWindow s = execSetWindow s := rfl

/-- R189: SET-WINDOW as the executor takes it. -/
theorem setWindow_answers {s : State} {q : Request} {rest : List Request} {b en b1 b0 z1 z0 c f m : Byte} {code : ResultCode} {r : Records}
    (ht : Takes s 40 q rest) (hq : q.body = [b, en, b1, b0, z1, z0, c, f, m])
    (hr : s.recs.setWindow b.toNat ⟨en.toNat, num2 b1 b0, num2 z1 z0, c.toNat, f.toNat, m.toNat⟩ = (code, r)) :
    exec .setWindow s = .next ((s.answered q rest code []).withRecs r).finish := by
  rw [exec_setWindow]
  exact recordRequest_answers ht (by rw [hq]; exact hr)

/-- Settles O40: the fields as they stood, a line of the ranges in use, or the change with `applyWindow_spec`. -/
theorem setWindowTakesFields : Obligations.SetWindowTakesFields := by
  intro s q rest b en b1 b0 z1 z0 c f m w new ht hq hb hjudge
  refine ⟨fun h => setWindow_answers ht hq (setWindow_unchanged hb hjudge h), fun h => ⟨fun hbusy => ?inUse, fun hrest => ?changed⟩⟩
  case inUse => exact setWindow_answers ht hq (setWindow_inUse hb hjudge h hbusy)
  case changed =>
    obtain ⟨hwindows, hcard⟩ := applyWindow_spec w new s.recs
    refine ⟨setWindow_answers ht hq (setWindow_changes hb hjudge h hrest), by rw [hwindows, vget_vset_same], fun k hold hnew => ?_,
      fun k hold hnew => ?_⟩
    · rw [hcard, hold, hnew]; rfl
    · rw [hcard, hold, hnew]; rfl

end Sys2Proof.Machine
end

section
/-!
Settles O41: the bus grant.
-/
namespace Sys2Proof.Machine

/-! ### What a grant counts (R173) -/

theorem wants_pass_iff (s : State) (lbReq : Bool) : s.wants lbReq .pass = true ↔ s.bus.passSlot ≠ none := by
  simp [State.wants, Option.isSome_iff_ne_none]

theorem wants_line_iff (s : State) (lbReq : Bool) : s.wants lbReq .line = true ↔ s.recs.workList ≠ [] := by
  simp [State.wants]

/-- R173: the pass guard after a grant to another client. -/
def State.passGuardNext (s : State) : Nat := if s.bus.passSlot ≠ none then s.bus.passGuard + 1 else s.bus.passGuard

theorem countGrant_report (lbReq : Bool) (s : State) : s.countGrant lbReq .report = { s with
    bus := { s.bus with passGuard := s.passGuardNext }
    recs := { s.recs with lineGuard := if s.recs.workList ≠ [] then s.recs.lineGuard + 1 else s.recs.lineGuard } } := by
  simp [State.countGrant, State.passGuardNext, wants_pass_iff, wants_line_iff]

theorem countGrant_line (lbReq : Bool) (s : State) : s.countGrant lbReq .line = { s with
    bus := { s.bus with passGuard := s.passGuardNext }, recs := { s.recs with lineGuard := 0 } } := by
  simp [State.countGrant, State.passGuardNext, wants_pass_iff]

theorem countGrant_pass (lbReq : Bool) (s : State) : s.countGrant lbReq .pass = s := by simp [State.countGrant]

theorem countGrant_probe (lbReq : Bool) (s : State) : s.countGrant lbReq .probe = { s with
    bus := { s.bus with passGuard := s.passGuardNext } } := by
  simp [State.countGrant, State.passGuardNext, wants_pass_iff]

/-! ### The command of each client (R175, R178, R180, R181) -/

theorem grant_report {s : State} {c : Fin 32} (h : s.fetchTarget = some c) :
    s.grant .report = { s with bus := { s.bus with fetchPtr := c } }.issue .fetch c 0 9 0 (s.recs.cardLimit c) := by
  simp only [State.grant, h]

theorem grant_line {s : State} {id : Nat} {rest : List Nat} {l : Line} {c : Fin 32} {ch : Nat} {cmd : LineCmd}
    (hlist : s.recs.workList = id :: rest) (hl : s.recs.line? id = some l) (hplace : s.recs.place l.port = some (c, ch))
    (hcmd : chooseCommand l.desired l.acknowledged = some cmd) :
    s.grant .line = s.issue (.line id cmd) c ch cmd.code (cmd.arg l) (s.recs.portLimit l.port) := by
  simp only [State.grant, State.grantLine, hlist, hl, hplace, hcmd]

theorem grant_pass {s : State} {x : PassCmd} (h : s.bus.passSlot = some x) :
    s.grant .pass = s.issue .pass x.card x.channel x.code x.arg (s.recs.cardLimit x.card) := by
  simp only [State.grant, h]

theorem grant_probe {s : State} {c : Fin 32} (h : s.recs.dueCard = some c) :
    s.grant .probe = { s with recs := s.recs.modCard c (fun x => { x with probeDue := false }) }.issue .probe c 0 7 0 (s.recs.cardLimit c) := by
  simp only [State.grant, h]

theorem exec_busGrant (lbReq : Bool) (s : State) : exec (.busGrant lbReq) s = execBusGrant lbReq s := rfl

/-- R173: with the bus free, the granted client's command is issued. -/
theorem busGrant_granted {s : State} {lbReq : Bool} {c : Client} (hup : s.resetPin ≠ .coldHeld) (hpart : s.part ≠ .startingImage)
    (hfree : s.recs.inFlight = none) (h : s.grantee lbReq = some c) :
    exec (.busGrant lbReq) s = .next ((s.countGrant lbReq c).grant c).finish := by
  rw [exec_busGrant, execBusGrant, whenUp_of_up hup, if_pos ⟨hpart, hfree⟩, h]

/-! ### Which client is granted (R173) -/

section
variable {s : State} {lbReq : Bool}

theorem grantee_passFirst (h : s.bus.passSlot ≠ none ∧ 8 ≤ s.bus.passGuard) : s.grantee lbReq = some .pass := by
  rw [grantee_eq, if_pos h]

section
variable (hpass : ¬ (s.bus.passSlot ≠ none ∧ 8 ≤ s.bus.passGuard))
include hpass

theorem grantee_lineFirst (h : s.recs.workList ≠ [] ∧ 4 ≤ s.recs.lineGuard) : s.grantee lbReq = some .line := by
  rw [grantee_eq, if_neg hpass, if_pos h]

theorem grantee_report (hline : ¬ (s.recs.workList ≠ [] ∧ 4 ≤ s.recs.lineGuard))
    (h : lbReq = true ∧ ∃ c, (s.recs.card c).present = true) : s.grantee lbReq = some .report := by
  rw [grantee_eq, if_neg hpass, if_neg hline, if_pos h]

theorem grantee_line (hreport : ¬ (lbReq = true ∧ ∃ c, (s.recs.card c).present = true)) (h : s.recs.workList ≠ []) :
    s.grantee lbReq = some .line := by
  rw [grantee_eq, if_neg hpass, if_neg hreport, if_pos h, ite_self]

end

section
variable (hreport : ¬ (lbReq = true ∧ ∃ c, (s.recs.card c).present = true)) (hlist : s.recs.workList = [])
include hreport hlist

theorem grantee_pass (h : s.bus.passSlot ≠ none) : s.grantee lbReq = some .pass := by
  rw [grantee_eq, if_neg hreport, if_pos h]
  simp [hlist]

/-- With nobody else to serve the bus goes to a card that is probe due. -/
theorem grantee_idle (h : s.bus.passSlot = none) :
    s.grantee lbReq = if ∃ c, (s.recs.card c).probeDue = true then some .probe else none := by
  rw [grantee_eq, if_neg hreport]
  simp [hlist, h]

end

end

/-- Settles O41: each client's grant is what it counts and the command it issues; `grantee_eq` and the scans say which client and which card. -/
theorem busGrantIssuesCommand : Obligations.BusGrantIssuesCommand := by
  intro s lbReq hup hpart hfree
  refine ⟨fun c hc h => ?report, fun id l c ch cmd rest hc hlist hl hplace hcmd => ?line, fun x hc h => ?pass, fun c hc h => ?probe,
    grantee_passFirst, grantee_lineFirst, grantee_report, grantee_line, grantee_pass, fun hr hw hp hdue => ?due, fun hr hw hp hdue => ?idle,
    (fetchTarget_spec s).1, (fetchTarget_spec s).2, (dueCard_spec s.recs).1, (dueCard_spec s.recs).2⟩
  case report =>
    rw [busGrant_granted hup hpart hfree hc, grant_report (s := s.countGrant lbReq .report) h, countGrant_report]
    rfl
  case line =>
    rw [busGrant_granted hup hpart hfree hc, grant_line (s := s.countGrant lbReq .line) hlist hl hplace hcmd, countGrant_line]
    rfl
  case pass =>
    rw [busGrant_granted hup hpart hfree hc, countGrant_pass, grant_pass h]
    rfl
  case probe =>
    rw [busGrant_granted hup hpart hfree hc, grant_probe (s := s.countGrant lbReq .probe) h, countGrant_probe]
    rfl
  case due => rw [grantee_idle hr hw hp, if_pos hdue]
  case idle => rw [grantee_idle hr hw hp, if_neg (by simp [hdue])]

end Sys2Proof.Machine
end

section
/-!
Settles O42: the outcomes of the line commands, and the responses to every command (R172).
-/
namespace Sys2Proof.Machine

/-! ### A response to the command in flight (R172) -/

/-- R172: valid bytes from the card of the command in flight are its response. -/
theorem response_checked {s : State} {f : InFlight} {isJob : BusJob → Bool} {allowed : List Nat} {st : Byte} (hf : s.recs.inFlight = some f)
    (hjob : isJob f.job = true) (hst : allowed.contains st.toNat = true) (v1 v2 : Byte) :
    s.response isJob allowed (checked [byte1 f.card.val, st, v1, v2]) = some (f, ⟨st.toNat, v1, v2⟩) := by
  simp only [State.response, hf, if_pos hjob, parse_checked f.card allowed st v1 v2 hst, Option.map_some]

/-- R172, R176: a valid response to a line command is its outcome. -/
theorem lineResponse_line {s : State} {f : InFlight} {id : Nat} {cmd : LineCmd} {isJob : BusJob → Bool} {st : Byte}
    (hup : s.resetPin ≠ .coldHeld) (hf : s.recs.inFlight = some f) (hj : f.job = .line id cmd) (hjob : isJob (.line id cmd) = true)
    (hst : [1, 2].contains st.toNat = true) (v1 v2 : Byte) :
    s.lineResponse isJob (checked [byte1 f.card.val, st, v1, v2]) = .next (s.takeLineOutcome f id cmd (st.toNat == 1)).finish := by
  rw [State.lineResponse, whenUp_of_up hup, response_checked hf (by rw [hj]; exact hjob) hst]
  simp only [hj]

/-! ### What an outcome does (R176) -/

section
variable {s : State} {f : InFlight} {id : Nat} {cmd : LineCmd} {accepted : Bool}

/-- R176: the outcome of a command for a line still of the card channel. -/
theorem takeLineOutcome_there (h : s.recs.lineOfChannel id f.card f.channel = true) :
    s.takeLineOutcome f id cmd accepted = s.withRecs ((s.recs.responded f.card).lineOutcome id cmd accepted) := by
  simp only [State.takeLineOutcome, responded_lineOfChannel, if_pos h]
  rfl

/-- R176: an ACCEPTED SEIZE of a line that has left is followed by the cleanup RELEASE. -/
theorem takeLineOutcome_orphan (h : s.recs.lineOfChannel id f.card f.channel = false) :
    s.takeLineOutcome f id .seize true = (s.withRecs (s.recs.responded f.card)).issue .cleanup f.card f.channel 2 0 f.limit := by
  simp only [State.takeLineOutcome, responded_lineOfChannel, if_neg (Bool.eq_false_iff.mp h), and_self, if_true]
  rfl

/-- R176: any other outcome for a line that has left changes nothing more. -/
theorem takeLineOutcome_left (h : s.recs.lineOfChannel id f.card f.channel = false) (hcmd : ¬ (cmd = .seize ∧ accepted = true)) :
    s.takeLineOutcome f id cmd accepted = s.withRecs (s.recs.responded f.card) := by
  simp only [State.takeLineOutcome, responded_lineOfChannel, if_neg (Bool.eq_false_iff.mp h), if_neg hcmd]
  rfl

end

/-- R176: the acknowledged field takes its value on ACCEPTED, and on REJECTED for a teardown step. -/
theorem lineOutcome_acknowledged {cmd : LineCmd} {accepted : Bool} (h : (accepted || !cmd.isSetup) = true) (id : Nat) (r : Records) :
    r.lineOutcome id cmd accepted = (r.requeue id).modLine id (fun l => { l with acknowledged := l.acknowledged.acknowledge cmd }) := by
  simp only [Records.lineOutcome, if_pos h]

/-- R176: REJECTED for a setup step is a port fault. -/
theorem lineOutcome_fault {cmd : LineCmd} (h : cmd.isSetup = true) (id : Nat) (r : Records) :
    r.lineOutcome id cmd false = (r.requeue id).portFault id := by
  simp [Records.lineOutcome, h]

/-- Settles O42: each command's response is its outcome, by where its line stands and by the status. -/
theorem lineCommandOutcomes : Obligations.LineCommandOutcomes := by
  intro s f id cmd v1 v2 hup hf hj command
  have outcome (st : Byte) (hst : [1, 2].contains st.toNat = true) : exec (command (checked [byte1 f.card.val, st, v1, v2])) s =
      .next (s.takeLineOutcome f id cmd (st.toNat == 1)).finish := by
    cases cmd with
    | seize => exact lineResponse_line (isJob := BusJob.isLine .seize) hup hf hj rfl hst v1 v2
    | release => exact lineResponse_line (isJob := fun j => j == .cleanup || j.isLine .release) hup hf hj rfl hst v1 v2
    | ringOn => exact lineResponse_line (isJob := BusJob.isLine .ringOn) hup hf hj rfl hst v1 v2
    | ringOff => exact lineResponse_line (isJob := BusJob.isLine .ringOff) hup hf hj rfl hst v1 v2
    | connect => exact lineResponse_line (isJob := BusJob.isLine .connect) hup hf hj rfl hst v1 v2
    | disconnect => exact lineResponse_line (isJob := BusJob.isLine .disconnect) hup hf hj rfl hst v1 v2
  have accepted : exec (command (checked [byte1 f.card.val, 1, v1, v2])) s = .next (s.takeLineOutcome f id cmd true).finish := outcome 1 rfl
  have rejected : exec (command (checked [byte1 f.card.val, 2, v1, v2])) s = .next (s.takeLineOutcome f id cmd false).finish := outcome 2 rfl
  refine ⟨fun there => ⟨?_, fun hcmd => ?_, fun hcmd => ?_⟩, fun left => ⟨fun hcmd => ?_, fun hcmd => ?_, ?_⟩⟩
  · rw [accepted, takeLineOutcome_there there, lineOutcome_acknowledged rfl]
  · have teardown : cmd.isSetup = false := by rcases hcmd with rfl | rfl | rfl <;> rfl
    rw [rejected, takeLineOutcome_there there, lineOutcome_acknowledged (by rw [teardown]; rfl)]
  · have setup : cmd.isSetup = true := by rcases hcmd with rfl | rfl | rfl <;> rfl
    rw [rejected, takeLineOutcome_there there, lineOutcome_fault setup]
  · rw [accepted, hcmd, takeLineOutcome_orphan left]
    rfl
  · rw [accepted, takeLineOutcome_left left (fun h => hcmd h.1)]
  · rw [rejected, takeLineOutcome_left left (by simp)]

end Sys2Proof.Machine
end

section
/-!
Settles O45 and O46: PASS, and a command that draws no response.
-/
namespace Sys2Proof.Machine

/-! ### PASS (R181) -/

theorem passCommand_valid {b ch code arg : Byte} {c : Fin 32} (hc : b.toNat = c.val) (hch : ch.toNat ≤ 31)
    (hcode : code.toNat = 7 ∨ 16 ≤ code.toNat) : passCommand b ch code arg = some ⟨c, ch.toNat, code.toNat, arg.toNat⟩ := by
  simp only [passCommand, asFin_of_eq hc, if_pos (And.intro hch hcode)]

theorem exec_pass (s : State) : exec .pass s = execPass s := rfl

theorem exec_passCommand (bytes : List Byte) (s : State) : exec (.passCommand bytes) s = execPassCommand bytes s := rfl

/-- R181: the outcome of a PASS empties the slot and completes the request that holds the executor. -/
theorem completePass_held {s : State} {h : Held} (he : s.port.executor = some h) (hj : h.job = .pass) (hd : h.dropped = false)
    (c : ResultCode) (body : List Byte) :
    s.completePass c body = { s.completed h c body with bus := { s.bus with passSlot := none } } := by
  have hholds : s.port.holds .pass = true := hj ▸ holds_of_executor he
  simp only [State.completePass, if_pos hholds, complete_port he hd]
  rfl

/-- R181, R192: a PASS whose result a warm restart dropped only frees the executor. -/
theorem completePass_dropped {s : State} {h : Held} (he : s.port.executor = some h) (hj : h.job = .pass) (hd : h.dropped = true)
    (c : ResultCode) (body : List Byte) : (s.completePass c body).port = { s.port with executor := none } := by
  have hholds : s.port.holds .pass = true := hj ▸ holds_of_executor he
  simp [State.completePass, hholds, Port.complete, he, hd]

/-- R172, R181: a valid response to a PASS is its outcome. -/
theorem passCommand_response {s : State} {f : InFlight} {st : Byte} (hup : s.resetPin ≠ .coldHeld) (hf : s.recs.inFlight = some f)
    (hj : f.job = .pass) (hst : [1, 2].contains st.toNat = true) (v1 v2 : Byte) :
    exec (.passCommand (checked [byte1 f.card.val, st, v1, v2])) s = .next (if st.toNat = 1
      then (s.withRecs (s.recs.responded f.card)).completePass .done [v1, v2]
      else (s.withRecs (s.recs.responded f.card)).completePass .rejected []).finish := by
  rw [exec_passCommand, execPassCommand, whenUp_of_up hup, response_checked hf (by rw [hj]; rfl) hst]
  rfl

/-- Settles O45: PASS is held with its command in the slot, and each status completes it. -/
theorem passHoldsAndCompletes : Obligations.PassHoldsAndCompletes := by
  refine ⟨fun s q rest c b ch code arg ht hq hb hch hcode => ?held, fun s f h v1 v2 hup hf hj he hjob hd => ⟨?accepted, ?rejected⟩⟩
  case held =>
    simp only [exec_pass, execPass, takes_of_Takes ht, hq, passCommand_valid hb hch hcode, hold_port]
    rfl
  case accepted =>
    rw [passCommand_response hup hf hj (st := 1) rfl, if_pos (show (1 : Byte).toNat = 1 from rfl),
      completePass_held (s := s.withRecs (s.recs.responded f.card)) he hjob hd]
    rfl
  case rejected =>
    rw [passCommand_response hup hf hj (st := 2) rfl, if_neg (show ¬ (2 : Byte).toNat = 1 by decide),
      completePass_held (s := s.withRecs (s.recs.responded f.card)) he hjob hd]
    rfl

/-! ### No response (R171, R172, R177) -/

section
variable {r : Records} {c : Fin 32}

theorem cardMiss_counts (hp : (r.card c).present = true) (hm : (r.card c).miss < 2) :
    r.cardMiss c = r.modCard c (fun x => { x with miss := x.miss + 1 }) := by
  simp only [Records.cardMiss, if_pos hp, if_pos hm]

theorem cardMiss_third (hp : (r.card c).present = true) (hm : (r.card c).miss = 2) : r.cardMiss c = r.loseCard c := by
  have hthird : ¬ (r.card c).miss < 2 := by omega
  simp only [Records.cardMiss, if_pos hp, if_neg hthird]

theorem cardMiss_absent (hp : (r.card c).present = false) : r.cardMiss c = r := by
  simp only [Records.cardMiss, if_neg (Bool.eq_false_iff.mp hp)]

end

/-- R172: the records when the command in flight has ended, before its card's miss is counted. -/
def State.ended (s : State) (f : InFlight) : Records := { (s.advance f.left).recs with inFlight := none }

@[simp] theorem ended_card (s : State) (f : InFlight) (c : Fin 32) : (s.ended f).card c = s.recs.card c :=
  congrArg (fun cards => vget cards c) (advance_cards f.left s)

/-- R176, R177, R180: a line command, the cleanup RELEASE, a FETCH, and outside the cards stage a PROBE or a CARD_CLEAR, end with their card's miss. -/
theorem noResponse_quiet {s : State} {f : InFlight} (w : Wires) (h : f.job = .fetch ∨ f.job = .cleanup ∨ (∃ id cmd, f.job = .line id cmd) ∨
      ((f.job = .probe ∨ f.job = .cardClear) ∧ s.part ≠ .startingCards ∧ s.bus.stageCards = [])) :
    (s.advance f.left).noResponse f w = (s.advance f.left).withRecs ((s.ended f).cardMiss f.card) := by
  have elsewhere (hpart : s.part ≠ .startingCards) (hstage : s.bus.stageCards = []) :
      ((s.advance f.left).withRecs ((s.ended f).cardMiss f.card)).served f.card w =
        (s.advance f.left).withRecs ((s.ended f).cardMiss f.card) :=
    served_elsewhere (by rw [withRecs_part, advance_part]; exact hpart) (by rw [withRecs_bus, advance_stageCards]; exact hstage) _ _
  rcases h with hj | hj | ⟨id, cmd, hj⟩ | ⟨hj | hj, hpart, hstage⟩
  · simp only [State.noResponse, hj]; rfl
  · simp only [State.noResponse, hj]; rfl
  · simp only [State.noResponse, hj]; rfl
  · simp only [State.noResponse, hj]; exact elsewhere hpart hstage
  · simp only [State.noResponse, hj]; exact elsewhere hpart hstage

/-- R181: a PASS ends with its card's miss, its slot empty and its request completed. -/
theorem noResponse_pass {s : State} {f : InFlight} (hj : f.job = .pass) (w : Wires) : (s.advance f.left).noResponse f w =
    ((s.advance f.left).withRecs ((s.ended f).cardMiss f.card)).completePass .busFault [] := by
  simp only [State.noResponse, hj]
  rfl

theorem exec_responseTimeout (w : Wires) (s : State) : exec (.responseTimeout w) s = execResponseTimeout w s := rfl

theorem exec_cardLoss (card : Nat) (s : State) : exec (.cardLoss card) s = execCardLoss card s := rfl

section
variable {s : State} {f : InFlight} (hup : s.resetPin ≠ .coldHeld) (hf : s.recs.inFlight = some f)
include hup hf

theorem responseTimeout_ends (w : Wires) : exec (.responseTimeout w) s = .next ((s.advance f.left).noResponse f w).finish := by
  rw [exec_responseTimeout, execResponseTimeout, whenUp_of_up hup, hf]

/-- Log 6: the loss of a card is the end without a response of the command in flight to it. -/
theorem cardLoss_ends (hp : (s.recs.card f.card).present = true) (hm : (s.recs.card f.card).miss = 2) :
    exec (.cardLoss f.card.val) s = .next ((s.advance f.left).noResponse f ⟨true, true⟩).finish := by
  simp only [exec_cardLoss, execCardLoss, whenUp_of_up hup, asFin_val, hf, hp, hm, le_refl, and_self, if_true]

end

/-- Settles O46: the command ends by its kind, its card's miss by where the card stands, and `loseCard_spec` says what a lost card is. -/
theorem noResponseCountsMiss : Obligations.NoResponseCountsMiss := by
  intro s f w hup hf r
  have counts (hp : (s.recs.card f.card).present = true) (hm : (s.recs.card f.card).miss < 2) :
      r.cardMiss f.card = r.modCard f.card (fun x => { x with miss := x.miss + 1 }) :=
    cardMiss_counts (r := s.ended f) (by rw [ended_card]; exact hp) (by rw [ended_card]; exact hm)
  have third (hp : (s.recs.card f.card).present = true) (hm : (s.recs.card f.card).miss = 2) : r.cardMiss f.card = r.loseCard f.card :=
    cardMiss_third (r := s.ended f) (by rw [ended_card]; exact hp) (by rw [ended_card]; exact hm)
  have absent (hp : (s.recs.card f.card).present = false) : r.cardMiss f.card = r :=
    cardMiss_absent (r := s.ended f) (by rw [ended_card]; exact hp)
  obtain ⟨hcards, hfree, habsent, hlines⟩ := loseCard_spec f.card r
  refine ⟨fun hj => ?quiet, fun hj => ?pass, by rw [hcards, if_pos rfl], fun c hc => by rw [hcards, if_neg hc], hfree, habsent,
    fun id l0 ch hl hplace => hlines id l0 hl (by rw [hplace]; rfl)⟩
  case quiet =>
    have timeout : exec (.responseTimeout w) s = .next ((s.advance f.left).withRecs (r.cardMiss f.card)).finish := by
      rw [responseTimeout_ends hup hf, noResponse_quiet w hj]
      rfl
    refine ⟨fun hp hm => by rw [timeout, counts hp hm], fun hp hm => ⟨by rw [timeout, third hp hm], ?_⟩, fun hp => by rw [timeout, absent hp]⟩
    rw [cardLoss_ends hup hf hp hm, noResponse_quiet _ hj, ← third hp hm]
    rfl
  case pass =>
    have hrecs : ((s.advance f.left).noResponse f w).finish.recs = (r.cardMiss f.card).settle := by
      rw [finish_recs, noResponse_pass hj]
      rfl
    have hport : ((s.advance f.left).withRecs ((s.ended f).cardMiss f.card)).port = s.port := by rw [withRecs_port, advance_port]
    refine ⟨_, responseTimeout_ends hup hf w, ?slot, fun h he hjob hd => ?completed, fun h he hjob hd => ?dropped,
      fun hp hm => by rw [hrecs, counts hp hm], fun hp hm => by rw [hrecs, third hp hm], fun hp => by rw [hrecs, absent hp]⟩
    case slot => rw [finish_bus, noResponse_pass hj]; rfl
    case completed =>
      rw [finish_port, noResponse_pass hj, completePass_held (by rw [hport]; exact he) hjob hd]
      show (State.completed _ h .busFault []).port = _
      rw [completed_port, completed_port, hport]
    case dropped => rw [finish_port, noResponse_pass hj, completePass_dropped (by rw [hport]; exact he) hjob hd, hport]

end Sys2Proof.Machine
end

section
/-!
Settles O44: probes, the return of a card, and the end of the cards stage.
-/
namespace Sys2Proof.Machine

/-! ### A turn of the cards stage (R202) -/

/-- R202: t is what s becomes when the turn of card c in the cards stage is served: the card leaves the stage's list, and the last one ends the stage with the first recovery attempt. -/
def TurnServed (s : State) (c : Fin 32) (w : Wires) (t : State) : Prop :=
  let left := s.bus.stageCards.filter (fun i => !(i == c.val))
  t.bus.stageCards = left ∧
  (left ≠ [] → t.part = .startingCards ∧ t.link.state = s.link.state ∧ t.link.sequence = s.link.sequence) ∧
  (left = [] → w.clk = true → w.dat = true → t.part = .startingConsoles ∧ t.link.state = .running ∧
    t.link.sequence = some ⟨.all, 0, false, 0, 0⟩ ∧ t.link.wanted = false) ∧
  (left = [] → w.clk = false ∨ w.dat = false → t.part = .running ∧ t.link.state = .stuck ∧ t.link.wanted = true ∧
    t.link.recoveryWait = 100 ∧ Reason.stuck ∈ t.recs.reasons .link)

section
variable {s : State} {c : Fin 32} (w : Wires) (hpart : s.part = .startingCards)
include hpart

theorem served_more (h : s.bus.stageCards.filter (fun i => !(i == c.val)) ≠ []) :
    s.served c w = { s with bus := { s.bus with stageCards := s.bus.stageCards.filter (fun i => !(i == c.val)) } } := by
  simp only [State.served, hpart, h, and_false, if_false]

theorem served_last (h : s.bus.stageCards.filter (fun i => !(i == c.val)) = []) :
    s.served c w = { s with bus := { s.bus with stageCards := [] } }.startConsoles w := by
  simp only [State.served, hpart, h, and_self, if_true]

/-- R202: what serving card c does in the cards stage, settled at the step's end. -/
theorem turnServed_served : TurnServed s c w (s.served c w).finish := by
  refine ⟨?list, fun h => ?more, fun h hclk hdat => ?high, fun h hlow => ?low⟩
  case list =>
    by_cases h : s.bus.stageCards.filter (fun i => !(i == c.val)) = []
    · rw [finish_bus, served_last w hpart h, h]
      unfold State.startConsoles
      split <;> rfl
    · rw [finish_bus, served_more w hpart h]
  case more =>
    rw [served_more w hpart h]
    exact ⟨by rw [finish_part]; exact hpart, by rw [finish_link_state], by rw [finish_link_sequence]⟩
  case high =>
    rw [served_last w hpart h, startConsoles_high hclk hdat]
    exact ⟨by rw [finish_part], by rw [finish_link_state]; rfl, by rw [finish_link_sequence]; rfl, by rw [finish_link_wanted]; rfl⟩
  case low =>
    rw [served_last w hpart h, startConsoles_low hlow]
    refine ⟨by rw [finish_part], by rw [finish_link_state], by rw [finish_link_wanted], by rw [finish_link_recoveryWait], ?_⟩
    rw [finish_recs, (keepsReasons_settle _).same _ (by simp)]
    exact mem_reasons_raise ..

end

/-- A turn is judged by the stage's list and by the link's state and sequence of the state in which it is served. -/
theorem TurnServed.of_eq {s u t : State} {c : Fin 32} {w : Wires} (h : TurnServed u c w t) (hlist : u.bus.stageCards = s.bus.stageCards)
    (hstate : u.link.state = s.link.state) (hsequence : u.link.sequence = s.link.sequence) : TurnServed s c w t := by
  unfold TurnServed at h ⊢
  rw [hlist, hstate, hsequence] at h
  exact h

/-- R202: serving a probe changes no card. -/
theorem served_cards (c : Fin 32) (w : Wires) (s : State) : (s.served c w).recs.cards = s.recs.cards := by
  simp only [State.served]
  split
  · unfold State.startConsoles
    split <;> rfl
  · rfl

/-! ### The outcomes of PROBE and CARD_CLEAR (R180) -/

theorem exec_probe (bytes : List Byte) (w : Wires) (s : State) : exec (.probe bytes w) s = execProbe bytes w s := rfl

theorem exec_cardClear (bytes : List Byte) (w : Wires) (s : State) : exec (.cardClear bytes w) s = execCardClear bytes w s := rfl

/-- R171: a valid response leaves the windows, and so what they name, alone. -/
theorem named_responded (c k : Fin 32) (r : Records) : (r.responded c).named k = r.named k := named_of_windows rfl k

section
variable {s : State} {f : InFlight} {st : Byte} (hup : s.resetPin ≠ .coldHeld) (hf : s.recs.inFlight = some f)
  (hst : [1, 2].contains st.toNat = true) (v1 v2 : Byte) (w : Wires)
include hup hf hst

theorem probe_response (hj : f.job = .probe) : exec (.probe (checked [byte1 f.card.val, st, v1, v2]) w) s =
    .next (if st.toNat = 1 ∧ s.recs.named f.card = true
      then (s.withRecs (s.recs.responded f.card)).issue .cardClear f.card 0 8 0 (s.recs.cardLimit f.card)
      else (s.withRecs (s.recs.responded f.card)).served f.card w).finish := by
  rw [exec_probe, execProbe, whenUp_of_up hup, response_checked hf (by rw [hj]; rfl) hst, apply_ite State.finish, apply_ite Host.Outcome.next]
  rfl

/-- R180: a PROBE that was REJECTED, or whose card is no longer named, has had its turn. -/
theorem probe_ends (hj : f.job = .probe) (h : ¬ (st.toNat = 1 ∧ s.recs.named f.card = true)) :
    exec (.probe (checked [byte1 f.card.val, st, v1, v2]) w) s = .next ((s.withRecs (s.recs.responded f.card)).served f.card w).finish := by
  rw [probe_response hup hf hst v1 v2 w hj, if_neg h]

/-- R180: the records after a response to CARD_CLEAR, and the turn of its card. -/
theorem cardClear_response (hj : f.job = .cardClear) : exec (.cardClear (checked [byte1 f.card.val, st, v1, v2]) w) s =
    .next ((s.withRecs (if st.toNat = 1 ∧ s.recs.named f.card = true then (s.recs.responded f.card).returnCard f.card
      else s.recs.responded f.card)).served f.card w).finish := by
  simp only [exec_cardClear, execCardClear, whenUp_of_up hup,
    response_checked (isJob := fun j => j == .cardClear) hf (show (f.job == .cardClear) = true by rw [hj]; rfl) hst, named_responded]
  rfl

end

/-- R172, R180: a PROBE or a CARD_CLEAR that draws no response has had its turn. -/
theorem responseTimeout_serves {s : State} {f : InFlight} (hup : s.resetPin ≠ .coldHeld) (hf : s.recs.inFlight = some f)
    (hj : f.job = .probe ∨ f.job = .cardClear) (w : Wires) : exec (.responseTimeout w) s =
      .next (((s.advance f.left).withRecs ((s.ended f).cardMiss f.card)).served f.card w).finish := by
  rw [responseTimeout_ends hup hf]
  rcases hj with hj | hj <;> simp only [State.noResponse, hj] <;> rfl

/-- The time that a response limit took leaves the cards stage as it stood. -/
theorem TurnServed.of_advance {s t : State} {c : Fin 32} {w : Wires} {ms : Nat} {r : Records}
    (h : TurnServed ((s.advance ms).withRecs r) c w t) : TurnServed s c w t := by
  obtain ⟨presence, wait, hlink, _⟩ := advance_link ms s
  exact h.of_eq (by rw [withRecs_bus, advance_stageCards]) (by rw [withRecs_link, hlink]) (by rw [withRecs_link, hlink])

/-! ### The probe tick (R180) -/

theorem exec_probeTick (s : State) : exec .probeTick s = execProbeTick s := rfl

theorem probeTick_runs {s : State} {ms : Nat} (hup : s.resetPin ≠ .coldHeld) (ht : s.bus.probeTimer = some ms) : exec .probeTick s =
    .next { s.advance ms with
      recs := (s.advance ms).recs.makeDue, bus := { (s.advance ms).bus with probeTimer := some 1000 } }.finish := by
  rw [exec_probeTick, execProbeTick, whenUp_of_up hup, ht]

/-- R180: the cards after the probe tick. -/
theorem card_probeTick (s : State) (ms : Nat) (c : Fin 32) : (s.advance ms).recs.makeDue.settle.card c =
    { s.recs.card c with probeDue := (s.recs.card c).probeDue || (s.recs.named c && !(s.recs.card c).present) } := by
  have hcard : (s.advance ms).recs.card c = s.recs.card c := by simp only [Records.card, advance_cards]
  have hsettle : (s.advance ms).recs.makeDue.settle.card c = (s.advance ms).recs.makeDue.card c := by
    simp only [Records.card, (lineWork_settle _).cards]
  rw [hsettle, (makeDue_spec _).1, hcard, named_of_windows (advance_windows ms s)]

/-- Settles O44: PROBE and CARD_CLEAR by their status and by whether the card is named, outside the cards stage and in it; then the tick and the return. -/
theorem probesBringCardsBack : Obligations.ProbesBringCardsBack := by
  refine ⟨fun s f v1 v2 w hup hf => ⟨fun hj hn => ?probed, fun hpart hstage => ?elsewhere, fun hpart => ?stage, fun hj hn => ?present⟩,
    fun s ms hup ht => ⟨_, probeTick_runs hup ht, by rw [finish_bus], fun c => ?due⟩, fun c r => ?returned⟩
  case probed =>
    rw [probe_response hup hf (st := 1) rfl v1 v2 w hj, if_pos ⟨rfl, hn⟩]
    rfl
  case elsewhere =>
    have served (r : Records) : (s.withRecs r).served f.card w = s.withRecs r := served_elsewhere (s := s.withRecs r) hpart hstage f.card w
    refine ⟨fun hj => ?_, fun hj hn => ?_, fun hj hn => ?_, fun hj hn => ?_, fun hj => ?_⟩
    · rw [probe_ends hup hf (st := 2) rfl v1 v2 w hj (by simp), served]
    · rw [probe_ends hup hf (st := 1) rfl v1 v2 w hj (by simp [hn]), served]
    · rw [cardClear_response hup hf (st := 1) rfl v1 v2 w hj, if_pos ⟨rfl, hn⟩, served]
    · rw [cardClear_response hup hf (st := 1) rfl v1 v2 w hj, if_neg (by simp [hn]), served]
    · rw [cardClear_response hup hf (st := 2) rfl v1 v2 w hj, if_neg (by simp), served]
  case stage =>
    have turn (r : Records) : TurnServed s f.card w ((s.withRecs r).served f.card w).finish :=
      (turnServed_served (s := s.withRecs r) w hpart).of_eq rfl rfl rfl
    have timeout (hj : f.job = .probe ∨ f.job = .cardClear) : ∃ t, exec (.responseTimeout w) s = .next t ∧ TurnServed s f.card w t :=
      ⟨_, responseTimeout_serves hup hf hj w,
        (turnServed_served (s := (s.advance f.left).withRecs ((s.ended f).cardMiss f.card)) w
          (by rw [withRecs_part, advance_part]; exact hpart)).of_advance⟩
    refine ⟨fun hj => ⟨⟨_, probe_ends hup hf (st := 2) rfl v1 v2 w hj (by simp), turn _⟩, timeout (.inl hj), fun hn =>
        ⟨_, probe_ends hup hf (st := 1) rfl v1 v2 w hj (by simp [hn]), turn _⟩⟩,
      fun hj => ⟨⟨_, cardClear_response hup hf (st := 1) rfl v1 v2 w hj, turn _⟩,
        ⟨_, cardClear_response hup hf (st := 2) rfl v1 v2 w hj, turn _⟩, timeout (.inr hj)⟩⟩
  case present =>
    refine ⟨_, cardClear_response hup hf (st := 1) rfl v1 v2 w hj, ?_⟩
    rw [if_pos ⟨rfl, hn⟩, finish_recs, Records.card, (lineWork_settle _).cards, served_cards]
    show (((s.recs.responded f.card).returnCard f.card).card f.card).present = true
    rw [(returnCard_spec ..).1, if_pos rfl]
  case due =>
    rw [finish_recs, card_probeTick]
    exact ⟨rfl, rfl, rfl⟩
  case returned =>
    obtain ⟨hcards, hraised, hlines, hothers⟩ := returnCard_spec c r
    refine ⟨hcards, hraised, fun id l hl hplace hs => ⟨(hlines id l hl hplace hs).1, fun htype hmember => ?_⟩, hothers⟩
    obtain ⟨x, hx, hsame, hservice⟩ := (hlines id l hl hplace hs).2 htype hmember
    refine ⟨x, hx, hsame, ?_⟩
    rcases hservice with hcall | ⟨hidle, hoff, hslot, hstanding⟩
    · exact .inl hcall
    · exact .inr ⟨hidle, hoff, hslot, hstanding.mem⟩

end Sys2Proof.Machine
end

section
/-!
Settles O43: the outcome of a FETCH, what a delivered report does, and a CARD_RESET.
-/
namespace Sys2Proof.Machine

/-! ### The outcome of a FETCH (R178, R179) -/

theorem ne_seven_of_reportOfNat {n : Nat} {k : Report} (h : Report.ofNat? n = some k) : n ≠ 7 := by
  rintro rfl
  cases h

theorem reportOfNat_undefined {n : Nat} (h : n = 0 ∨ 7 < n) : Report.ofNat? n = none := by
  match n with
  | 0 => rfl
  | 1 | 2 | 3 | 4 | 5 | 6 | 7 => omega
  | _ + 8 => rfl

section
variable {r : Records} {c : Fin 32} {kind channel : Nat}

theorem takeReport_delivers {k : Report} {id : Nat} (hk : Report.ofNat? kind = some k) (hch : channel ≤ 31)
    (hid : r.lineAt c channel = some id) : r.takeReport c kind channel = r.report k id := by
  simp only [Records.takeReport, if_neg (ne_seven_of_reportOfNat hk), if_neg (Nat.not_lt.mpr hch), hk, hid]

/-- R178: a report for a channel that is out of range, or that no line has, is discarded. -/
theorem takeReport_nobody {k : Report} (hk : Report.ofNat? kind = some k) (h : 31 < channel ∨ r.lineAt c channel = none) :
    r.takeReport c kind channel = r := by
  rw [Records.takeReport, if_neg (ne_seven_of_reportOfNat hk)]
  rcases h with h | h
  · rw [if_pos h]
  · simp only [hk, h, ite_self]

theorem takeReport_undefined (h : kind = 0 ∨ 7 < kind) : r.takeReport c kind channel = r := by
  have hseven : ¬ kind = 7 := by omega
  simp only [Records.takeReport, if_neg hseven, reportOfNat_undefined h, ite_self]

theorem takeReport_reset : r.takeReport c 7 channel = if (r.card c).present then r.resetCard c else r := by
  rw [Records.takeReport, if_pos rfl]

end

theorem exec_fetch (bytes : List Byte) (s : State) : exec (.fetch bytes) s = execFetch bytes s := rfl

section
variable {s : State} {f : InFlight} (hup : s.resetPin ≠ .coldHeld) (hf : s.recs.inFlight = some f) (hj : f.job = .fetch) (v1 v2 : Byte)
include hup hf hj

theorem fetch_empty : exec (.fetch (checked [byte1 f.card.val, 4, v1, v2])) s = .next (s.withRecs (s.recs.responded f.card)).finish := by
  rw [exec_fetch, execFetch, whenUp_of_up hup, response_checked hf (by rw [hj]; rfl) rfl]
  rfl

theorem fetch_report : exec (.fetch (checked [byte1 f.card.val, 3, v1, v2])) s =
    .next (s.withRecs ((s.recs.responded f.card).takeReport f.card v1.toNat v2.toNat)).finish := by
  rw [exec_fetch, execFetch, whenUp_of_up hup, response_checked hf (by rw [hj]; rfl) rfl]
  rfl

end

/-! ### A delivered report (R32, R34, R35, R44, R45, R46) -/

/-- R32: a line that begins to ring in. -/
theorem Line.enter_ringingIn (l : Line) : l.enter .ringingIn = { l with
    state := .ringingIn, holdOwner := none, desired := Cond.off
    timer := if l.ringTimeout = 0 then none else some ⟨.ring, l.ringTimeout * 1000⟩ } := by
  by_cases h : l.ringTimeout = 0 <;> simp [Line.enter, timerFor, secondsTimer, desiredFor, h]

/-- R24, R61: the channel of every party of a line that goes to IDLE is free. -/
theorem bound_toIdle_mem {r : Records} {id : Nat} {l : Line} {x : Party} (hl : r.line? id = some l) (hx : x ∈ l.parties)
    (hb : r.bound x.pos x.ch = .line id) : (r.toIdle id).bound x.pos x.ch = .none := by
  rw [Records.toIdle, bound_moveLine]
  exact bound_removeAllParties_mem hl hx hb

theorem line?_missCall_other {id j : Nat} (r : Records) (hj : j ≠ id) : (r.missCall id).line? j = r.line? j := by
  rw [Records.missCall, line?_toIdle, if_neg hj, line?_raise, line?_modLine, if_neg hj]

section
variable {r : Records} {id : Nat} {l : Line} (hl : r.line? id = some l)
include hl

theorem report_ringInStart : r.report .ringInStart id =
    if l.type ≠ .openLine ∧ l.state = .idle ∧ l.lifecycle = .defined then r.moveLine id .ringingIn else r := by
  simp only [Records.report, hl]

theorem report_ringInStop : r.report .ringInStop id = if l.type = .ringdown ∧ l.state = .ringingIn then r.missCall id else r := by
  simp only [Records.report, hl]

theorem report_farAnswer : r.report .farAnswer id =
    if l.type = .ringdown ∧ l.state = .ringingOut then r.moveLine id .connected else r := by
  simp only [Records.report, hl]

theorem report_farClear : r.report .farClear id =
    if l.type = .ringdown ∧ (l.state = .ringingOut ∨ l.state = .connected ∨ l.state = .held ∨ l.state = .recall)
    then r.toIdle id else r := by
  simp only [Records.report, hl]

theorem report_portFault : r.report .portFault id = (r.toOos id .portFault).raise (.line id) .fault := by
  simp only [Records.report, Records.portFault, hl]

theorem report_portRestored : r.report .portRestored id = if l.state = .outOfService .portFault then r.returnToService id else r := by
  simp only [Records.report, hl]

theorem line?_moveLine_of_some (st : LineState) (j : Nat) :
    (r.moveLine id st).line? j = if j = id then some (l.enter st) else r.line? j := by
  rw [line?_moveLine, hl]
  rfl

/-- R178: a report changes no line but the one it is delivered to. -/
theorem line?_report_other (k : Report) {j : Nat} (hj : j ≠ id) : (r.report k id).line? j = r.line? j := by
  cases k with
  | ringInStart => rw [report_ringInStart hl]; split <;> simp [line?_moveLine, hj]
  | ringInStop => rw [report_ringInStop hl]; split <;> simp [line?_missCall_other r hj]
  | farAnswer => rw [report_farAnswer hl]; split <;> simp [line?_moveLine, hj]
  | farClear => rw [report_farClear hl]; split <;> simp [line?_toIdle, hj]
  | portFault => rw [report_portFault hl]; simp [line?_toOos, hj]
  | portRestored =>
    rw [report_portRestored hl]
    split
    · exact (returnToService_spec hl).1 j hj
    · rfl

/-- R45: the PORT_FAULT handling of a line, in any state. -/
theorem portFault_spec :
    (r.report .portFault id).line? id = some { l with
      state := .outOfService .portFault, parties := [], holdOwner := none, bridge := none, desired := Cond.off, timer := none } ∧
    Reason.fault ∈ (r.report .portFault id).reasons (.line id) ∧
    (l.state.isOos = false → Reason.state ∈ (r.report .portFault id).reasons (.line id)) ∧
    ∀ x ∈ l.parties, r.bound x.pos x.ch = .line id → (r.report .portFault id).bound x.pos x.ch = .none := by
  rw [report_portFault hl]
  refine ⟨?line, mem_reasons_raise .., fun hs => ?state, fun x hx hb => ?bound⟩
  case line => rw [line?_raise, line?_toOos, if_pos rfl, hl]; rfl
  case state =>
    have hleft : (r.removeAllParties id).line? id = some { l with parties := [], bridge := none } := by
      rw [line?_removeAllParties, if_pos rfl, hl]; rfl
    have hne : l.state ≠ .outOfService .portFault := by rintro h; simp [h, LineState.isOos] at hs
    exact ((standing_moveLine (st := .outOfService .portFault) hleft hne (by simp [hs])).raiseIn (.line id) .fault).mem
  case bound =>
    show (r.toOos id .portFault).bound x.pos x.ch = .none
    rw [Records.toOos, bound_moveLine]
    exact bound_removeAllParties_mem hl hx hb

end

/-- Settles O43: the outcome by what the FETCH gave up, the six reports by their conditions, and the CARD_RESET by `resetCard_spec`. -/
theorem fetchDelivers : Obligations.FetchDelivers := by
  refine ⟨fun s f v1 v2 hup hf hj => ?fetched, fun r id l hl => ?reported, fun c r hfree => ?reset⟩
  case fetched =>
    refine ⟨fetch_empty hup hf hj v1 v2, fun k id hk hch hid => ?_, fun k hk h => ?_, fun hv hp => ?_, fun hv hp => ?_, fun hv => ?_⟩
    · rw [fetch_report hup hf hj, takeReport_delivers hk hch hid]
    · rw [fetch_report hup hf hj, takeReport_nobody hk h]
    · rw [fetch_report hup hf hj, hv, show (7 : Byte).toNat = 7 from rfl, takeReport_reset, responded_present, if_pos hp]
    · rw [fetch_report hup hf hj, hv, show (7 : Byte).toNat = 7 from rfl, takeReport_reset, responded_present,
        if_neg (Bool.eq_false_iff.mp hp)]
    · rw [fetch_report hup hf hj, takeReport_undefined hv]
  case reported =>
    refine ⟨fun htype hs hdef => ?ringsIn, fun h => ?noRing, fun htype hs => ?stops, fun h => ?noStop, fun htype hs => ?answered,
      fun h => ?noAnswer, fun htype hs => ?cleared, fun h => ?noClear, portFault_spec hl, fun hs hplain => ?restored,
      fun hs htype hmember => ?member, fun hs => ?notFaulted, fun k j hj => line?_report_other hl k hj⟩
    case ringsIn =>
      rw [report_ringInStart hl, if_pos ⟨htype, hs, hdef⟩]
      exact ⟨by rw [line?_moveLine_of_some hl, if_pos rfl, Line.enter_ringingIn],
        state_raised_moveLine hl (by simp [hs]) (by simp [LineState.isOos])⟩
    case noRing => rw [report_ringInStart hl, if_neg (by tauto)]
    case stops =>
      obtain ⟨hline, hmissed, hstate⟩ := missCall_spec hl (by simp [hs])
      rw [report_ringInStop hl, if_pos ⟨htype, hs⟩]
      exact ⟨by rw [hline, if_pos rfl]; rfl, hmissed, hstate⟩
    case noStop => rw [report_ringInStop hl, if_neg (by tauto)]
    case answered =>
      rw [report_farAnswer hl, if_pos ⟨htype, hs⟩]
      exact ⟨by rw [line?_moveLine_of_some hl, if_pos rfl]; rfl, state_raised_moveLine hl (by simp [hs]) (by simp [LineState.isOos])⟩
    case noAnswer => rw [report_farAnswer hl, if_neg (by tauto)]
    case cleared =>
      have hbusy : l.state ≠ .idle := by rcases hs with hs | hs | hs | hs <;> simp [hs]
      rw [report_farClear hl, if_pos ⟨htype, hs⟩]
      exact ⟨by rw [line?_toIdle_of_some hl, if_pos rfl]; rfl, state_raised_toIdle hl hbusy, fun x hx hb => bound_toIdle_mem hl hx hb⟩
    case noClear => rw [report_farClear hl, if_neg (by tauto)]
    case restored =>
      rw [report_portRestored hl, if_pos hs]
      exact (returnToService_spec hl).2.1 (hplain.imp_right (fun h => by rw [h]; rfl))
    case member =>
      obtain ⟨_, _, hcircuit⟩ := returnToService_spec hl
      obtain ⟨hslot, hnone⟩ := hcircuit htype (Option.isSome_iff_ne_none.mpr hmember)
      rw [report_portRestored hl, if_pos hs]
      refine ⟨hslot, fun hl0 hlow => ?_⟩
      obtain ⟨hline, hraised, _⟩ := hnone hl0 hlow
      exact ⟨hline, hraised⟩
    case notFaulted => rw [report_portRestored hl, if_neg hs]
  case reset =>
    obtain ⟨hcards, hraised, hlines, hothers⟩ := resetCard_spec c r hfree
    refine ⟨hcards, hraised, fun id l hl hplace => ⟨(hlines id l hl hplace).1, fun htype hmember => ?_⟩, hothers⟩
    obtain ⟨hkept, hbound⟩ := (hlines id l hl hplace).2 htype hmember
    refine ⟨hkept, fun hslot => ?_⟩
    obtain ⟨x, hx, hack, hparties, hservice⟩ := hbound hslot
    refine ⟨x, hx, hack, hparties, ?_⟩
    rcases hservice with hcall | ⟨hidle, hoff, hfreed, hstanding⟩
    · exact .inl hcall
    · exact .inr ⟨hidle, hoff, hfreed, hstanding.mem⟩

end Sys2Proof.Machine
end

section
/-!
What a step keeps of the supervisory port: the bounds of its queues (settles O56) and of its levels and mask (R193).
-/
namespace Sys2Proof.Machine

/-! ### A request taken, and the held request completed -/

/-- R189: taking a request removes the head record from the request queue and changes nothing else of the port. -/
theorem ready_port {s : State} {q : Request} {p : Port} (h : s.ready = some (q, p)) :
    ∃ rest, s.port.requests = q :: rest ∧ p = { s.port with requests := rest } := by
  unfold State.ready at h
  split at h
  · split at h
    · rename_i x rest hq
      cases h
      exact ⟨rest, hq, rfl⟩
    · cases h
  · cases h

/-- R190, R192: a completion has no effect on a free executor, frees one whose result is dropped, and answers any other held request. -/
theorem complete_cases (c : ResultCode) (body : List Byte) (p : Port) : p.complete c body = p ∨
    ∃ h, p.executor = some h ∧ (p.complete c body = { p with executor := none } ∨ p.complete c body = p.reply h.tag h.code h.flags c body) := by
  cases hx : p.executor with
  | none => exact .inl (complete_of_free hx c body)
  | some h =>
    refine .inr ⟨h, rfl, ?_⟩
    cases hd : h.dropped with
    | true => exact .inl (by simp [Port.complete, hx, hd])
    | false => exact .inr (by simp [Port.complete, hx, hd])

/-- R194: SET-ATTENTION touches of the port the levels, the mask and enable. -/
theorem setAttention_port (body : List Byte) (p : Port) :
    ∃ levels mask enable, (p.setAttention body).2 = { p with levels := levels, mask := mask, enable := enable } := by
  unfold Port.setAttention
  split
  · split
    · exact ⟨_, _, _, rfl⟩
    · exact ⟨p.levels, p.mask, p.enable, rfl⟩
  · exact ⟨p.levels, p.mask, p.enable, rfl⟩

/-- R184: of the queues a WRITE_REQUEST touches the request queue alone, to which a record is added only where there is room. -/
theorem write_cases (bytes : List Byte) (p : Port) : ∃ requests full sent,
    p.write bytes = { p with requests := requests, full := full, status := [], spDo := sent } ∧
    (requests = p.requests ∨ (p.requests.length < Config.queue ∧ ∃ x, requests = p.requests ++ [x])) := by
  unfold Port.write
  simp only
  split
  · split
    · rename_i hroom
      exact ⟨_, p.full, _, rfl, .inr ⟨hroom, _, rfl⟩⟩
    · exact ⟨p.requests, true, _, rfl, .inl rfl⟩
  · exact ⟨p.requests, p.full, _, rfl, .inl rfl⟩

/-- R185: of the queues a READ_RESULT touches the result queue alone, which loses its head. -/
theorem readResult_tail (k : Nat) (p : Port) : ∃ sent, p.readResult k = { p with results := p.results.tail, status := [], spDo := sent } := by
  unfold Port.readResult
  split
  · rename_i hres
    exact ⟨_, by rw [hres, List.tail_nil]⟩
  · rename_i hres
    exact ⟨_, by rw [hres, List.tail_cons]⟩

/-- What every command keeps of the port, every step keeps: on an empty queue the port stays as it is. -/
theorem step_keeps_port {P : Port → Prop} (hkeep : ∀ s t : State, PortAfter s t → P s.port → P t.port) {s t : State}
    (h : P s.port) (hst : step s = .next t) : P t.port := by
  unfold step at hst
  split at hst
  · cases hst
    exact (tick_port s).symm ▸ h
  · exact hkeep _ _ (exec_portAfter hst) h

/-! ### The queues (R188, R190) -/

/-- R188, R190: each queue of the port holds at most 16 records, and there is room for the result of a held request. -/
def Port.QueuesFit (p : Port) : Prop :=
  p.requests.length ≤ Config.queue ∧ p.results.length ≤ Config.queue ∧ (p.executor ≠ none → p.results.length < Config.queue)

theorem queuesFit_iff (s : State) : Machine.QueuesFit s ↔ s.port.QueuesFit := Iff.rfl

/-- Bounds go over to a port whose queues and executor hold no more. -/
theorem Port.QueuesFit.mono {p p' : Port} (h : p.QueuesFit) (hreq : p'.requests.length ≤ p.requests.length)
    (hres : p'.results.length ≤ p.results.length) (hex : p'.executor ≠ none → p.executor ≠ none) : p'.QueuesFit :=
  ⟨hreq.trans h.1, hres.trans h.2.1, fun hx => lt_of_le_of_lt hres (h.2.2 (hex hx))⟩

/-- A result joins a queue with room for it, and the executor becomes free. -/
theorem Port.QueuesFit.reply {p : Port} (hreq : p.requests.length ≤ Config.queue) (hres : p.results.length < Config.queue)
    (tag : Tag) (code flags : Byte) (c : ResultCode) (body : List Byte) : (p.reply tag code flags c body).QueuesFit :=
  ⟨hreq, by simpa [Port.reply] using hres, fun hx => absurd rfl hx⟩

/-- R190: the held request's result finds its room. -/
theorem Port.QueuesFit.complete {p : Port} (h : p.QueuesFit) (c : ResultCode) (body : List Byte) : (p.complete c body).QueuesFit := by
  obtain heq | ⟨x, hx, heq | heq⟩ := complete_cases c body p
  all_goals rw [heq]
  · exact h
  · exact h.mono le_rfl le_rfl (fun hn => absurd rfl hn)
  · exact .reply h.1 (h.2.2 (by simp [hx])) ..

theorem Port.QueuesFit.write {p : Port} (h : p.QueuesFit) (bytes : List Byte) : (p.write bytes).QueuesFit := by
  obtain ⟨requests, full, sent, heq, rfl | ⟨hroom, x, rfl⟩⟩ := write_cases bytes p
  all_goals rw [heq]
  · exact h
  · exact ⟨by simpa using hroom, h.2⟩

theorem Port.QueuesFit.readResult {p : Port} (h : p.QueuesFit) (k : Nat) : (p.readResult k).QueuesFit := by
  obtain ⟨sent, heq⟩ := readResult_tail k p
  rw [heq]
  exact h.mono le_rfl (by simp) id

/-- Every command keeps the queues within their bounds. -/
theorem PortAfter.queuesFit {s t : State} (ha : PortAfter s t) (h : s.port.QueuesFit) : t.port.QueuesFit := by
  have taken {q : Request} {p : Port} (hr : s.ready = some (q, p)) : p.requests.length ≤ Config.queue ∧ p.results.length < Config.queue := by
    obtain ⟨hres, _, hroom, hreq⟩ := ready_bounds hr
    exact ⟨hreq.le.trans h.1, hres ▸ hroom⟩
  cases ha with
  | completed hp =>
    obtain hp | ⟨c, body, hp⟩ := hp
    · exact hp ▸ h
    · exact hp ▸ h.complete c body
  | answered q p c body hr hp => exact hp ▸ .reply (taken hr).1 (taken hr).2 ..
  | attention q p hr hp =>
    obtain ⟨levels, mask, enable, hset⟩ := setAttention_port q.body p
    rw [hp, hset]
    exact .reply (taken hr).1 (taken hr).2 q.tag q.code q.flags _ _
  | held q p j hr hp => exact hp ▸ ⟨(taken hr).1, (taken hr).2.le, fun _ => (taken hr).2⟩
  | item x y hx hp => exact hp ▸ h.mono le_rfl le_rfl (fun _ => by simp [hx])
  | write bytes hp => exact hp ▸ h.write bytes
  | readResult k hp => exact hp ▸ h.readResult k
  | latch bytes sent full hp => exact hp ▸ h
  | restart x hp => exact hp ▸ ⟨Nat.zero_le _, Nat.zero_le _, fun _ => Nat.zero_lt_succ _⟩
  | cold hp => exact hp ▸ ⟨Nat.zero_le _, Nat.zero_le _, fun hx => absurd rfl hx⟩

/-- Settles O56: every command keeps the bounds of the queues, by how it leaves the port. -/
theorem queuesStayFit : Obligations.QueuesStayFit := by
  intro s t h hst
  rw [queuesFit_iff] at h ⊢
  exact step_keeps_port (fun _ _ ha hp => ha.queuesFit hp) h hst

/-! ### The levels and the mask (R193) -/

/-- R193: every level of the port, and the mask, is at most 15. -/
def Port.LevelsFit (p : Port) : Prop := (∀ v ∈ p.levels.toList, v ≤ 15) ∧ p.mask ≤ 15

/-- Every place of the level table belongs to a reason kind. -/
theorem exists_code (i : Fin 21) : ∃ q : Reason, q.code = i := by
  have listed : ∀ i : Fin 21, ∃ q ∈ [Reason.image, .stuck, .recovered, .parked, .join, .noBridge, .noPath, .present, .absent, .reset, .attached,
      .detached, .keys, .console, .floor, .waiting, .groupRetired, .state, .missed, .fault, .lineRetired], q.code = i := by decide
  obtain ⟨q, _, hq⟩ := listed i
  exact ⟨q, hq⟩

/-- The levels of the reason kinds are the values of the level table. -/
theorem levelsFit_iff (s : State) : Machine.LevelsFit s ↔ s.port.LevelsFit := by
  refine and_congr_left fun _ => ⟨fun h v hv => ?_, fun h q => h _ ?_⟩
  · obtain ⟨i, hi, rfl⟩ := Vector.mem_iff_getElem.mp (Vector.mem_toList_iff.mp hv)
    obtain ⟨q, hq⟩ := exists_code ⟨i, hi⟩
    have hlevel := h q
    rw [Port.level, hq] at hlevel
    exact hlevel
  · exact Vector.mem_toList_iff.mpr (Vector.getElem_mem _)

/-- R194: a level or mask byte gives a value of at most 15 over a present one of at most 15. -/
theorem nibbleOf?_le {b : Byte} {old v : Nat} (h : nibbleOf? b old = some v) (hold : old ≤ 15) : v ≤ 15 := by
  unfold nibbleOf? at h
  split at h
  · cases h; exact hold
  · split at h
    · cases h; assumption
    · cases h

/-- R194: the level bytes give values of at most 15 over present ones of at most 15. -/
theorem newLevels_le {bs : List Byte} {vs xs : List Nat} (h : newLevels bs vs = some xs) (hvs : ∀ v ∈ vs, v ≤ 15) : ∀ x ∈ xs, x ≤ 15 := by
  induction bs, vs using newLevels.induct generalizing xs with
  | case1 => cases h; exact fun x hx => absurd hx List.not_mem_nil
  | case2 b bs v vs x xs' hxs hx ih =>
    simp only [newLevels, hx, hxs] at h
    cases h
    rw [List.forall_mem_cons] at hvs ⊢
    exact ⟨nibbleOf?_le hx hvs.1, ih hxs hvs.2⟩
  | case3 | case4 => simp_all [newLevels]

theorem toList_of_levelsOf? {xs : List Nat} {levels : Vector Nat 21} (h : levelsOf? xs = some levels) : levels.toList = xs := by
  unfold levelsOf? at h
  split at h
  · cases h; rfl
  · cases h

theorem Port.LevelsFit.setAttention {p : Port} (h : p.LevelsFit) (body : List Byte) : (p.setAttention body).2.LevelsFit := by
  unfold Port.setAttention
  split
  · rename_i levels m e hlevels hrest
    split
    · rename_i mask enable hmask henable
      obtain ⟨xs, hxs, hvec⟩ := Option.bind_eq_some_iff.mp hlevels
      exact ⟨(toList_of_levelsOf? hvec).symm ▸ newLevels_le hxs h.1, nibbleOf?_le hmask h.2⟩
    · exact h
  · exact h

theorem Port.LevelsFit.complete {p : Port} (h : p.LevelsFit) (c : ResultCode) (body : List Byte) : (p.complete c body).LevelsFit := by
  obtain heq | ⟨x, _, heq | heq⟩ := complete_cases c body p
  all_goals rw [heq]; exact h

/-- R193: the reset levels. -/
theorem levelsFit_cold : Port.cold.LevelsFit := by
  unfold Port.LevelsFit
  decide

theorem PortAfter.levelsFit {s t : State} (ha : PortAfter s t) (h : s.port.LevelsFit) : t.port.LevelsFit := by
  have taken {q : Request} {p : Port} (hr : s.ready = some (q, p)) : p.LevelsFit := by
    obtain ⟨rest, _, rfl⟩ := ready_port hr
    exact h
  cases ha with
  | completed hp =>
    obtain hp | ⟨c, body, hp⟩ := hp
    · exact hp ▸ h
    · exact hp ▸ h.complete c body
  | answered q p c body hr hp => exact hp ▸ (show p.LevelsFit from taken hr)
  | attention q p hr hp => exact hp ▸ (taken hr).setAttention q.body
  | held q p j hr hp => exact hp ▸ (show p.LevelsFit from taken hr)
  | item x y hx hp => exact hp ▸ h
  | write bytes hp =>
    obtain ⟨requests, full, sent, heq, _⟩ := write_cases bytes s.port
    rw [hp, heq]
    exact h
  | readResult k hp =>
    obtain ⟨sent, heq⟩ := readResult_tail k s.port
    rw [hp, heq]
    exact h
  | latch bytes sent full hp => exact hp ▸ h
  | restart x hp => exact hp ▸ levelsFit_cold
  | cold hp => exact hp ▸ levelsFit_cold

/-- R193: no step leaves a level or the mask above 15. -/
theorem step_keeps_levelsFit {s t : State} (h : Machine.LevelsFit s) (hst : step s = .next t) : Machine.LevelsFit t := by
  rw [levelsFit_iff] at h ⊢
  exact step_keeps_port (fun _ _ ha hp => ha.levelsFit hp) h hst

end Sys2Proof.Machine
end

section
/-!
Settles O60: no step breaks the bounds of the parked list (R157) and of a sequence's rounds (R160).
-/
namespace Sys2Proof.Machine

/-! ### Operations that leave the link alone -/

@[simp] theorem issue_link (j : BusJob) (c : Fin 32) (ch code arg limit : Nat) (s : State) : (s.issue j c ch code arg limit).link = s.link := rfl
@[simp] theorem countGrant_link (lbReq : Bool) (c : Client) (s : State) : (s.countGrant lbReq c).link = s.link := rfl
@[simp] theorem grantLine_link (id : Nat) (s : State) : (s.grantLine id).link = s.link := by
  unfold State.grantLine
  split
  · rfl
  · split <;> rfl
@[simp] theorem grant_link (c : Client) (s : State) : (s.grant c).link = s.link := by
  unfold State.grant
  split <;> split <;> simp
@[simp] theorem takeLineOutcome_link (f : InFlight) (id : Nat) (cmd : LineCmd) (accepted : Bool) (s : State) :
    (s.takeLineOutcome f id cmd accepted).link = s.link := by
  unfold State.takeLineOutcome
  simp only; split
  · rfl
  · split <;> rfl
@[simp] theorem completePass_link (c : ResultCode) (body : List Byte) (s : State) : (s.completePass c body).link = s.link := rfl
@[simp] theorem loadItem_link (id : Nat) (x : AppearanceItem) (rest : List AppearanceItem) (applied : Nat) (h : Held) (s : State) :
    (s.loadItem id x rest applied h).link = s.link := by
  unfold State.loadItem
  simp only; split
  · split <;> rfl
  · rfl

/-! ### The end of a step, and the passing of time -/

theorem listsFit_iff (s : State) : ListsFit s ↔ s.link.Bounded := Iff.rfl

theorem bounded_finish {s : State} (h : s.link.Bounded) : s.finish.link.Bounded :=
  bounded_of_eq h (finish_link_parked s) (finish_link_sequence s)

theorem bounded_advance {s : State} (h : s.link.Bounded) (ms : Nat) : (s.advance ms).link.Bounded := by
  obtain ⟨presence, wait, hlink, _⟩ := advance_link ms s
  rw [hlink]
  exact bounded_of_eq h rfl rfl

theorem bounded_tick {s : State} (h : s.link.Bounded) : s.tick.link.Bounded := by
  unfold State.tick State.settleCycle
  split
  · exact h
  · split
    · exact bounded_advance h 1
    · exact bounded_of_eq (bounded_advance h 1) rfl rfl

/-! ### Positions, transactions and admission -/

theorem bounded_detachIfAttached {s : State} (h : s.link.Bounded) (p : Fin 48) : (s.detachIfAttached p).link.Bounded := by
  unfold State.detachIfAttached
  split <;> exact h

theorem bounded_miss {s : State} (h : s.link.Bounded) (p : Fin 48) : (s.miss p).link.Bounded := by
  unfold State.miss
  split
  · split <;> exact h
  · exact h

theorem bounded_attach {s : State} (h : s.link.Bounded) (p : Fin 48) (i : Identity) : (s.attach p i).link.Bounded :=
  bounded_dropParked i (bounded_of_eq h rfl rfl)

theorem bounded_admitConsole {l : Link} (h : l.Bounded) (pos : Nat) (i : Identity) : (l.admitConsole pos i).2.Bounded := by
  unfold Link.admitConsole
  repeat' (first | exact h | split)

theorem bounded_revoke {s : State} (h : s.link.Bounded) (pos : Nat) : (s.revoke pos).2.link.Bounded := by
  unfold State.revoke
  split
  · exact h
  · split
    · exact h
    · exact bounded_of_eq (bounded_addParked _ (bounded_detachIfAttached h _)) rfl rfl

theorem bounded_window {s : State} (h : s.link.Bounded) (answer : Option (BitVec 6)) : (s.window answer).link.Bounded := by
  unfold State.window
  simp only
  repeat' (first | exact h | split)

theorem bounded_judgeEvent {s : State} (h : s.link.Bounded) (p : Fin 48) (bytes : List Byte) : (s.judgeEvent p bytes).2.link.Bounded := by
  unfold State.judgeEvent
  split
  · exact h
  · simp only
    split
    · exact h
    · split <;> exact h

theorem bounded_takeMessage {s : State} (h : s.link.Bounded) (p : Fin 48) (bytes : List Byte) : (s.takeMessage p bytes).link.Bounded := by
  have judged : (if (s.recs.pos p).attached then s.judgeEvent p bytes else (msgAssign (addressOf p) 0, s)).2.link.Bounded := by
    split
    · exact bounded_judgeEvent h p bytes
    · exact h
  exact judged

theorem bounded_outputReply {s : State} (h : s.link.Bounded) (p : Fin 48) (items : List OutItem) (bytes : List Byte) :
    (s.outputReply p items bytes).link.Bounded := by
  unfold State.outputReply
  split
  · exact h
  · simp only
    split
    · exact h
    · exact bounded_miss (s := { s with recs := s.recs.returnItems p items }) h p

theorem bounded_pollReply {s : State} (h : s.link.Bounded) (p : Fin 48) (bytes : List Byte) : (s.pollReply p bytes).link.Bounded := by
  unfold State.pollReply
  split
  · exact h
  · exact bounded_miss h p

/-! ### Sequences and their rounds -/

/-- R160: the sequence counts one round more, among at most 64. -/
theorem bounded_counted {l : Link} {q : Sequence} (h : l.Bounded) (hq : q.rounds ≤ Config.rounds) : ({ l with sequence := some q } : Link).Bounded :=
  ⟨h.1, h.2.1, fun x hx => by cases hx; exact hq⟩

theorem bounded_noParked {l : Link} (h : l.Bounded) : ({ l with parked := [] } : Link).Bounded :=
  ⟨Nat.zero_le _, List.nodup_nil, h.2.2⟩

/-- After a cold start the list is empty and no sequence is in progress. -/
theorem bounded_cold : Link.cold.Bounded := ⟨Nat.zero_le _, List.nodup_nil, fun x hx => by cases hx⟩

theorem bounded_noSequence {l : Link} (h : l.Bounded) : ({ l with sequence := none } : Link).Bounded :=
  ⟨h.1, h.2.1, fun x hx => by cases hx⟩

/-- R160: a round is made only while the sequence has had fewer than 64. -/
theorem rounds_lt_of_roundOpen {s : State} {q : Sequence} (h : s.roundOpen q = true) : q.rounds < Config.rounds := by
  simp only [State.roundOpen, Bool.and_eq_true, decide_eq_true_eq] at h
  exact h.1.2

theorem bounded_round {s : State} {q : Sequence} (h : s.link.Bounded) (hq : q.rounds < Config.rounds) (i : Identity) (check : Byte)
    (reply : List Byte) : (s.round q i check reply).link.Bounded := by
  unfold State.round
  split
  · split
    · rename_i p _
      unfold State.assignWinner
      have assigned : ({ (s.detachIfAttached p).link with sequence := some { q with rounds := q.rounds + 1 } } : Link).Bounded :=
        bounded_counted (bounded_detachIfAttached h p) hq
      simp only
      split
      · exact bounded_counted (bounded_dropParked i assigned) hq
      · exact assigned
    · exact bounded_counted (bounded_addParked i h) hq
  · exact bounded_counted h hq

theorem bounded_endSequence {s : State} (h : s.link.Bounded) (q : Sequence) : (s.endSequence q).link.Bounded :=
  bounded_beginNext (bounded_noSequence h)

theorem bounded_callRoll {l : Link} (h : l.Bounded) (sc : Scope) : (l.callRoll sc).Bounded := by
  unfold Link.callRoll
  split
  · exact bounded_begin sc true h
  · exact h

/-- R192: a sequence that runs on without its request keeps its rounds. -/
theorem bounded_disown {l : Link} (h : l.Bounded) : l.disown.Bounded := by
  refine ⟨h.1, h.2.1, fun x hx => ?_⟩
  obtain ⟨q, hq, rfl⟩ := Option.map_eq_some_iff.mp hx
  exact h.2.2 q hq

/-! ### The stuck link and the start of the consoles stage -/

theorem bounded_restAll {l : Link} (h : l.Bounded) : l.restAll.Bounded := by
  obtain ⟨presence, hlink, _⟩ := restAll_spec l
  rw [hlink]
  exact h

theorem bounded_attempt {s : State} (h : s.link.Bounded) (w : Wires) : (s.attempt w).link.Bounded := by
  unfold State.attempt
  split
  · exact bounded_beginNext (bounded_of_eq (bounded_restAll h) rfl rfl)
  · exact h

theorem bounded_goStuck {s : State} (h : s.link.Bounded) (w : Wires) : (s.goStuck w).link.Bounded := by
  rw [goStuck_eq]
  exact bounded_attempt (bounded_noSequence h) w

theorem bounded_startConsoles {s : State} (h : s.link.Bounded) (w : Wires) : (s.startConsoles w).link.Bounded := by
  unfold State.startConsoles
  split
  · exact bounded_begin .all false (bounded_of_eq h rfl rfl)
  · exact h

theorem bounded_served {s : State} (h : s.link.Bounded) (c : Fin 32) (w : Wires) : (s.served c w).link.Bounded := by
  unfold State.served
  simp only
  split
  · exact bounded_startConsoles (by exact h) w
  · exact h

theorem bounded_noResponse {s : State} (h : s.link.Bounded) (f : InFlight) (w : Wires) : (s.noResponse f w).link.Bounded := by
  unfold State.noResponse
  simp only
  split
  case h_4 | h_5 => exact bounded_served (by exact h) f.card w
  all_goals exact h

/-! ### The configuration image -/

theorem bounded_applyItem {s : State} (h : s.link.Bounded) (kind : Nat) (item : List Byte) : (s.applyItem kind item).2.link.Bounded := by
  unfold State.applyItem
  split
  case h_2 => exact bounded_admitConsole h _ _
  case h_7 =>
    unfold State.applySettings
    split
    · split <;> exact h
    · exact h
  all_goals exact h

theorem bounded_takeItem {s : State} (h : s.link.Bounded) (kind : Nat) (item : List Byte) : (s.takeItem kind item).link.Bounded := by
  unfold State.takeItem
  simp only
  split
  · exact bounded_applyItem h kind item
  · exact h

theorem bounded_takeItems (kind : Nat) (xs : List (List Byte)) {s : State} (h : s.link.Bounded) :
    (xs.foldl (State.takeItem kind) s).link.Bounded := by
  induction xs generalizing s with
  | nil => exact h
  | cons x xs ih => exact ih (bounded_takeItem h kind x)

theorem bounded_dealSection {s : State} (h : s.link.Bounded) (kind count : Nat) (items : List Byte) (sum : Nat) :
    (s.dealSection kind count items sum).link.Bounded := by
  unfold State.dealSection
  simp only
  split
  · exact h
  · unfold State.takeSection
    split
    · exact h
    · split
      · exact h
      · exact bounded_takeItems kind _ h

theorem bounded_endImage {s : State} (h : s.link.Bounded) (w : Wires) : (s.endImage w).link.Bounded := by
  unfold State.endImage
  simp only
  split
  · exact bounded_startConsoles (by exact h) w
  · exact h

/-! ### Every command -/

section
variable {s t u : State}

theorem bounded_of_next (hu : u.link.Bounded) (h : (Host.Outcome.next u : Host.Outcome State Fault Refusal) = .next t) : t.link.Bounded := by
  cases h; exact hu

theorem bounded_of_finish (hu : u.link.Bounded) (h : (Host.Outcome.next u.finish : Host.Outcome State Fault Refusal) = .next t) : t.link.Bounded :=
  bounded_of_next (bounded_finish hu) h

variable (hs : s.link.Bounded)
include hs

theorem bounded_recordRequest {code : Nat} {f : List Byte → Records → ResultCode × Records} (h : s.recordRequest code f = .next t) :
    t.link.Bounded := by
  unfold State.recordRequest at h
  split at h
  · exact bounded_of_next hs h
  · exact bounded_of_finish (by exact hs) h

theorem bounded_readRequest {code : Nat} {f : List Byte → ResultCode × List Byte} (h : s.readRequest code f = .next t) : t.link.Bounded := by
  unfold State.readRequest at h
  split at h
  · exact bounded_of_next hs h
  · exact bounded_of_next (by exact hs) h

/-- A request over the whole state keeps the bounds when its block does. -/
theorem bounded_request {code : Nat} {f : List Byte → State → ResultCode × List Byte × State}
    (hf : ∀ body u, u.link.Bounded → (f body u).2.2.link.Bounded) (h : s.request code f = .next t) : t.link.Bounded := by
  unfold State.request at h
  split at h
  · exact bounded_of_next hs h
  · rename_i q p _
    refine bounded_of_finish ?_ h
    exact hf q.body { s with port := p } hs

theorem bounded_spi {f : Port → Port} (h : s.spi f = .next t) : t.link.Bounded := by
  unfold State.spi at h
  split at h <;> exact bounded_of_next (by exact hs) h

theorem bounded_whenUp {o : Host.Outcome State Fault Refusal} (ho : o = .next t → t.link.Bounded) (h : s.whenUp o = .next t) : t.link.Bounded := by
  unfold State.whenUp at h
  split at h
  · exact bounded_of_next hs h
  · exact ho h

theorem bounded_lineResponse {isJob : BusJob → Bool} {bytes : List Byte} (h : s.lineResponse isJob bytes = .next t) : t.link.Bounded := by
  refine bounded_whenUp hs (fun h => ?_) h
  split at h
  · exact bounded_of_next hs h
  · split at h
    case h_1 => exact bounded_of_finish (by simpa using hs) h
    case h_2 => exact bounded_of_finish (by exact hs) h
    all_goals exact bounded_of_next hs h

theorem bounded_lineExpiry {id : Nat} {k : TimerKind} {f : Records → Records} (h : s.lineExpiry id k f = .next t) : t.link.Bounded := by
  refine bounded_whenUp hs (fun h => ?_) h
  split at h
  · exact bounded_of_next hs h
  · exact bounded_of_finish (by exact bounded_advance hs _) h

/-! ### The commands that change the link, one by one -/

theorem bounded_execColdStart {cause : ColdCause} (h : execColdStart cause s = .next t) : t.link.Bounded := by
  unfold execColdStart at h
  split at h
  · exact bounded_of_next (by exact hs) h
  · split at h <;> exact bounded_of_next (by exact hs) h

theorem bounded_execResetRelease (h : execResetRelease s = .next t) : t.link.Bounded := by
  unfold execResetRelease at h
  split at h
  · exact bounded_of_next hs h
  · exact bounded_of_next (by exact hs) h
  · exact bounded_of_next bounded_cold h

theorem bounded_execWarmRestart (h : execWarmRestart s = .next t) : t.link.Bounded := by
  unfold execWarmRestart at h
  split at h
  · exact bounded_of_next (bounded_disown hs) h
  · exact bounded_of_next hs h

theorem bounded_execImageHeader {bytes : List Byte} {w : Wires} (h : execImageHeader bytes w s = .next t) : t.link.Bounded := by
  refine bounded_whenUp hs (fun hx => ?_) h
  split at hx
  · split at hx
    · split at hx
      · refine bounded_of_finish ?_ hx
        split
        · exact bounded_endImage (by exact hs) w
        · exact hs
      · exact bounded_of_finish (bounded_endImage (by exact hs) w) hx
    · exact bounded_of_finish (bounded_endImage (by exact hs) w) hx
  · exact bounded_of_next hs hx

theorem bounded_execImageSection {bytes : List Byte} {w : Wires} (h : execImageSection bytes w s = .next t) : t.link.Bounded := by
  refine bounded_whenUp hs (fun hx => ?_) h
  split at hx
  · have ended {u : State} (hu : u.link.Bounded) : (if u.loader.sectionsLeft = 0 then u.endImage w else u).link.Bounded := by
      split
      · exact bounded_endImage hu w
      · exact hu
    refine bounded_of_finish (ended ?_) hx
    split
    · exact bounded_dealSection hs _ _ _ _
    · exact hs
  · exact bounded_of_next hs hx

theorem bounded_execAdmitConsole (h : execAdmitConsole s = .next t) : t.link.Bounded := by
  refine bounded_request hs (fun body u hu => ?_) h
  split
  · exact bounded_admitConsole hu _ _
  · exact hu

theorem bounded_execRevokeConsole (h : execRevokeConsole s = .next t) : t.link.Bounded := by
  refine bounded_request hs (fun body u hu => ?_) h
  split
  · exact bounded_revoke hu _
  · exact hu

theorem bounded_execReadParked (h : execReadParked s = .next t) : t.link.Bounded := by
  refine bounded_request hs (fun body u hu => ?_) h
  split
  · split
    · exact hu
    · split
      · exact bounded_noParked hu
      · exact hu
  · exact hu

theorem bounded_execRollCall (h : execRollCall s = .next t) : t.link.Bounded := by
  unfold execRollCall at h
  split at h
  · exact bounded_of_next hs h
  · split at h
    · split at h
      · exact bounded_of_next (by exact hs) h
      · split at h
        · exact bounded_of_next (by exact hs) h
        · exact bounded_of_finish (bounded_callRoll hs _) h
    · exact bounded_of_next (by exact hs) h

theorem bounded_execRequestWindow {answer : Option (BitVec 6)} (h : execRequestWindow answer s = .next t) : t.link.Bounded := by
  refine bounded_whenUp hs (fun hx => ?_) h
  split at hx
  · exact bounded_of_finish (bounded_window hs answer) hx
  · exact bounded_of_next hs hx

theorem bounded_execEventMessage {bytes : List Byte} (h : execEventMessage bytes s = .next t) : t.link.Bounded := by
  refine bounded_whenUp hs (fun hx => ?_) h
  split at hx
  case h_1 =>
    split at hx
    · exact bounded_of_finish (bounded_takeMessage hs _ bytes) hx
    · exact bounded_of_next hs hx
  all_goals exact bounded_of_next hs hx

theorem bounded_execOutput {phase : LinkPhase} (h : execOutput phase s = .next t) : t.link.Bounded := by
  refine bounded_whenUp hs (fun hx => ?_) h
  split at hx
  · split at hx
    · split at hx
      · exact bounded_of_finish (by exact hs) hx
      · exact bounded_of_next hs hx
    · exact bounded_of_next hs hx
  · split at hx
    case h_1 => exact bounded_of_finish (bounded_outputReply hs _ _ _) hx
    all_goals exact bounded_of_next hs hx

theorem bounded_execPoll {phase : LinkPhase} (h : execPoll phase s = .next t) : t.link.Bounded := by
  refine bounded_whenUp hs (fun hx => ?_) h
  split at hx
  · split at hx
    · split at hx
      · exact bounded_of_finish (by exact hs) hx
      · exact bounded_of_next hs hx
    · exact bounded_of_next hs hx
  · split at hx
    case h_1 => exact bounded_of_finish (bounded_pollReply hs _ _) hx
    all_goals exact bounded_of_next hs hx

theorem bounded_execPark {phase : LinkPhase} (h : execPark phase s = .next t) : t.link.Bounded := by
  refine bounded_whenUp hs (fun hx => ?_) h
  split at hx
  · split at hx
    · split at hx
      · exact bounded_of_finish (by exact hs) hx
      · exact bounded_of_next hs hx
    · exact bounded_of_next hs hx
  · split at hx
    case h_1 => exact bounded_of_finish (by exact hs) hx
    all_goals exact bounded_of_next hs hx

theorem bounded_execPositionDetach {pos : Nat} (h : execPositionDetach pos s = .next t) : t.link.Bounded := by
  refine bounded_whenUp hs (fun hx => ?_) h
  split at hx
  · exact bounded_of_next hs hx
  · split at hx
    · split at hx
      case h_1 =>
        split at hx
        · exact bounded_of_finish (bounded_outputReply hs _ _ _) hx
        · exact bounded_of_next hs hx
      case h_2 =>
        split at hx
        · exact bounded_of_finish (bounded_pollReply hs _ _) hx
        · exact bounded_of_next hs hx
      all_goals exact bounded_of_next hs hx
    · exact bounded_of_next hs hx

theorem bounded_execSequenceBegin (h : execSequenceBegin s = .next t) : t.link.Bounded := by
  refine bounded_whenUp hs (fun hx => ?_) h
  split at hx
  · exact bounded_of_finish (bounded_beginNext hs) hx
  · exact bounded_of_next hs hx

theorem bounded_execRollCallRound {i : Identity} {check : Byte} {reply : List Byte} (h : execRollCallRound i check reply s = .next t) :
    t.link.Bounded := by
  refine bounded_whenUp hs (fun hx => ?_) h
  split at hx
  · exact bounded_of_next hs hx
  · split at hx
    · rename_i hopen
      exact bounded_of_finish (bounded_round hs (rounds_lt_of_roundOpen hopen) i check reply) hx
    · exact bounded_of_next hs hx

theorem bounded_execRollCallSilence (h : execRollCallSilence s = .next t) : t.link.Bounded := by
  refine bounded_whenUp hs (fun hx => ?_) h
  split at hx
  · exact bounded_of_next hs hx
  · split at hx
    · exact bounded_of_finish (bounded_endSequence (by exact hs) _) hx
    · exact bounded_of_next hs hx

theorem bounded_execRoundCap (h : execRoundCap s = .next t) : t.link.Bounded := by
  refine bounded_whenUp hs (fun hx => ?_) h
  split at hx
  · exact bounded_of_next hs hx
  · split at hx
    · exact bounded_of_finish (bounded_endSequence hs _) hx
    · exact bounded_of_next hs hx

theorem bounded_execLinkStuck {w : Wires} (h : execLinkStuck w s = .next t) : t.link.Bounded := by
  refine bounded_whenUp hs (fun hx => ?_) h
  split at hx
  · exact bounded_of_finish (bounded_goStuck hs w) hx
  · exact bounded_of_next hs hx

theorem bounded_execRecoveryAttempt {w : Wires} (h : execRecoveryAttempt w s = .next t) : t.link.Bounded := by
  have completed {u : State} (hu : u.link.Bounded) : u.completeReset.link.Bounded := (completeReset_link u).symm ▸ hu
  refine bounded_whenUp hs (fun hx => ?_) h
  split at hx
  · refine bounded_of_finish (completed (bounded_attempt ?_ w)) hx
    split
    · exact hs
    · exact bounded_advance hs _
  · split at hx
    · exact bounded_of_finish (completed hs) hx
    · exact bounded_of_next hs hx

theorem bounded_execProbe {bytes : List Byte} {w : Wires} (h : execProbe bytes w s = .next t) : t.link.Bounded := by
  refine bounded_whenUp hs (fun hx => ?_) h
  split at hx
  · exact bounded_of_next hs hx
  · split at hx
    · exact bounded_of_finish (by exact hs) hx
    · exact bounded_of_finish (bounded_served (by exact hs) _ w) hx

theorem bounded_execCardClear {bytes : List Byte} {w : Wires} (h : execCardClear bytes w s = .next t) : t.link.Bounded := by
  refine bounded_whenUp hs (fun hx => ?_) h
  split at hx
  · exact bounded_of_next hs hx
  · exact bounded_of_finish (bounded_served (by exact hs) _ w) hx

theorem bounded_execResponseTimeout {w : Wires} (h : execResponseTimeout w s = .next t) : t.link.Bounded := by
  refine bounded_whenUp hs (fun hx => ?_) h
  split at hx
  · exact bounded_of_next hs hx
  · exact bounded_of_finish (bounded_noResponse (bounded_advance hs _) _ w) hx

theorem bounded_execCardLoss {card : Nat} (h : execCardLoss card s = .next t) : t.link.Bounded := by
  refine bounded_whenUp hs (fun hx => ?_) h
  split at hx
  · split at hx
    · exact bounded_of_finish (bounded_noResponse (bounded_advance hs _) _ _) hx
    · exact bounded_of_next hs hx
  · exact bounded_of_next hs hx

theorem bounded_execProbeTick (h : execProbeTick s = .next t) : t.link.Bounded := by
  refine bounded_whenUp hs (fun hx => ?_) h
  split at hx
  · exact bounded_of_next hs hx
  · rename_i ms _
    refine bounded_of_finish ?_ hx
    exact bounded_advance hs ms

theorem bounded_execTalkTimerExpiry {m : Nat} (h : execTalkTimerExpiry m s = .next t) : t.link.Bounded := by
  refine bounded_whenUp hs (fun hx => ?_) h
  split at hx
  · exact bounded_of_next hs hx
  · exact bounded_of_finish (by exact bounded_advance hs _) hx

/-! ### Every command -/

/-- R157, R160: every command keeps the bounds of the parked list and of a sequence's rounds. -/
theorem exec_bounded {c : Instr} (h : exec c s = .next t) : t.link.Bounded := by
  cases c
  all_goals simp only [exec] at h
  case coldStart => exact bounded_execColdStart hs h
  case resetRelease => exact bounded_execResetRelease hs h
  case warmRestart => exact bounded_execWarmRestart hs h
  case imageHeader => exact bounded_execImageHeader hs h
  case imageSection => exact bounded_execImageSection hs h
  case admitConsole => exact bounded_execAdmitConsole hs h
  case revokeConsole => exact bounded_execRevokeConsole hs h
  case readParked => exact bounded_execReadParked hs h
  case rollCall => exact bounded_execRollCall hs h
  case requestWindow => exact bounded_execRequestWindow hs h
  case eventMessage => exact bounded_execEventMessage hs h
  case output => exact bounded_execOutput hs h
  case poll => exact bounded_execPoll hs h
  case park => exact bounded_execPark hs h
  case positionDetach => exact bounded_execPositionDetach hs h
  case sequenceBegin => exact bounded_execSequenceBegin hs h
  case rollCallRound => exact bounded_execRollCallRound hs h
  case rollCallSilence => exact bounded_execRollCallSilence hs h
  case roundCap => exact bounded_execRoundCap hs h
  case linkStuck => exact bounded_execLinkStuck hs h
  case recoveryAttempt => exact bounded_execRecoveryAttempt hs h
  case probe => exact bounded_execProbe hs h
  case cardClear => exact bounded_execCardClear hs h
  case responseTimeout => exact bounded_execResponseTimeout hs h
  case cardLoss => exact bounded_execCardLoss hs h
  case probeTick => exact bounded_execProbeTick hs h
  case talkTimerExpiry => exact bounded_execTalkTimerExpiry hs h
  case ringExpiry | recallWaitExpiry | ringBurstExpiry => exact bounded_lineExpiry hs h
  case seize | release | ringOn | ringOff | connect | disconnect => exact bounded_lineResponse hs h
  case writeRequest | readResult => exact bounded_spi hs h
  case readStatus phase => cases phase <;> exact bounded_spi hs h
  case spiUnknownOperation op k =>
    simp only [execSpiUnknownOperation] at h
    split at h
    · exact bounded_of_next hs h
    · exact bounded_spi hs h
  case takeKeys | setJoinPolicy =>
    refine bounded_request hs (fun body u hu => ?_) h
    repeat' (first | exact hu | split)
  case busGrant | loadAppearancesItem | passCommand | fetch | audioFrame =>
    refine bounded_whenUp hs (fun hx => ?_) h
    repeat' (first
      | exact bounded_of_next (by exact hs) hx
      | exact bounded_of_finish (by simpa using hs) hx
      | exact bounded_of_finish (by split <;> exact hs) hx
      | split at hx)
  case requestSkipped | requestMalformed | loadAppearances | linkReset | pass | setAttention | takeAttention =>
    simp only [execRequestSkipped, execRequestMalformed, execLoadAppearances, execLinkReset, execPass, execSetAttention, execTakeAttention] at h
    repeat' (first | exact bounded_of_next (by exact hs) h | split at h)
  case readLine | readAppearance | readGroup | readMember | readPosition | readWindow | readCard | readPool | readIdentity =>
    exact bounded_readRequest hs h
  all_goals exact bounded_recordRequest hs h

end

/-- R157, R160: no step breaks the bounds of the lists. -/
theorem step_keeps_listsFit {s t : State} (h : ListsFit s) (hst : step s = .next t) : ListsFit t := by
  rw [listsFit_iff] at h ⊢
  unfold step at hst
  split at hst
  · exact bounded_of_next (bounded_tick h) hst
  · exact exec_bounded (by exact h) hst

/-- Settles O60: the levels by how a command leaves the port, the lists by what it does to the link. -/
theorem boundsStayKept : Obligations.BoundsStayKept :=
  ⟨fun _ _ h hst => step_keeps_levelsFit h hst, fun _ _ h hst => step_keeps_listsFit h hst⟩

end Sys2Proof.Machine
end

section
/-!
The supervisory port: its transactions (settles O9, O10), the answers the executor gives itself (settles O11), a warm restart (settles O5).
-/
namespace Sys2Proof.Machine

/-! ### WRITE_REQUEST (R184) -/

theorem exec_writeRequest (bytes : List Byte) (s : State) : exec (.writeRequest bytes) s = s.spi (Port.write bytes) := rfl

/-- R183: a transaction that returns no record carries zeros. -/
theorem clockedOut_nil (k : Nat) : clockedOut k [] = 0 :: List.replicate k 0 := by simp [clockedOut]

section
variable (t1 t0 code flags len : Byte) (body : List Byte) {p : Port}

theorem write_joins (h : p.requests.length < Config.queue) : p.write (t1 :: t0 :: code :: flags :: len :: body) = { p with
    requests := p.requests ++ [⟨t1 ++ t0, code, flags, len, body.take len.toNat⟩]
    status := [], spDo := 0 :: List.replicate (body.length + 5) 0 } := by
  simp only [Port.write, clockedOut_nil, if_pos h]
  rfl

theorem write_full (h : Config.queue ≤ p.requests.length) : p.write (t1 :: t0 :: code :: flags :: len :: body) = { p with
    full := true, status := [], spDo := 0 :: List.replicate (body.length + 5) 0 } := by
  simp only [Port.write, clockedOut_nil, if_neg (Nat.not_lt.mpr h)]
  rfl

end

/-- R184: a transaction of fewer than five bytes leaves the queue and FULL alone. -/
theorem write_short {bytes : List Byte} (h : bytes.length < 5) (p : Port) : p.write bytes = { p with
    status := [], spDo := 0 :: List.replicate bytes.length 0 } := by
  unfold Port.write
  simp only [clockedOut_nil]
  split
  · simp only [List.length_cons] at h
    omega
  · rfl

/-- Settles O9: the three cases of a WRITE_REQUEST on the released port. -/
theorem writeRequestJoinsQueue : Obligations.WriteRequestJoinsQueue := by
  intro s hs
  simp only [exec_writeRequest, spi_released hs]
  refine ⟨fun t1 t0 code flags len body hroom => ?joins, fun t1 t0 code flags len body hfull => ?full, fun bytes hshort => ?short⟩
  case joins => rw [write_joins t1 t0 code flags len body hroom]
  case full => rw [write_full t1 t0 code flags len body hfull]
  case short => rw [write_short hshort]

/-! ### READ_RESULT, READ_STATUS and undefined operations (R183, R185, R186) -/

theorem exec_readResult (k : Nat) (s : State) : exec (.readResult k) s = s.spi (Port.readResult k) := rfl

theorem exec_readStatus_byteStarts (s : State) :
    exec (.readStatus .byteStarts) s = s.spi (Port.startStatusByte (s.statusByte s.port.status.length)) := rfl

theorem exec_readStatus_ends (s : State) : exec (.readStatus .ends) s = s.spi Port.endStatus := rfl

theorem exec_spiUnknownOperation {op : Byte} (h : spiOperation op = none) (k : Nat) (s : State) :
    exec (.spiUnknownOperation op k) s = s.spi (fun p => { p with spDo := clockedOut k [], status := [] }) := by
  show execSpiUnknownOperation op k s = _
  simp only [execSpiUnknownOperation, h]

theorem readResult_head {p : Port} {x : Result} {rest : List Result} (h : p.results = x :: rest) (k : Nat) :
    p.readResult k = { p with results := rest, status := [], spDo := clockedOut k x.bytes } := by
  simp only [Port.readResult, h]

theorem readResult_empty {p : Port} (h : p.results = []) (k : Nat) :
    p.readResult k = { p with status := [], spDo := clockedOut k emptyRecord } := by
  simp only [Port.readResult, h]

/-- R186: the end of a READ_STATUS. -/
theorem endStatus_eq (p : Port) : p.endStatus = { p with
    full := if p.status[4]? = some 1 then false else p.full, status := [], spDo := 0 :: p.status } := by
  rw [← endStatus_full p]
  rfl

/-- R183: each operation byte with the commands of its transaction. -/
theorem spiCommands_spec (after : List Byte) : spiCommands (0xA1 :: after) = [.writeRequest after] ∧
    spiCommands (0xA2 :: after) = [.readResult after.length] ∧
    spiCommands (0xA3 :: after) = List.replicate after.length (.readStatus .byteStarts) ++ [.readStatus .ends] ∧
    ∀ op : Byte, op ≠ 0xA1 → op ≠ 0xA2 → op ≠ 0xA3 → spiCommands (op :: after) = [.spiUnknownOperation op after.length] := by
  refine ⟨rfl, rfl, ?status, fun op hwrite hresult hstatus => ?other⟩
  case status =>
    show after.map (fun _ => Instr.readStatus .byteStarts) ++ _ = _
    rw [List.map_const']
  case other => simp only [spiCommands, spiOperation_other hwrite hresult hstatus]

/-- Settles O10: the transactions that read, on the released port, and the commands each operation byte spells. -/
theorem readTransactionsReturnRecords : Obligations.ReadTransactionsReturnRecords := by
  refine ⟨fun s k hs => ?_, spiCommands_spec⟩
  simp only [exec_readResult, exec_readStatus_byteStarts, exec_readStatus_ends, spi_released hs]
  refine ⟨fun x rest hres => ?head, fun hres => ?empty, fun v hv => ?byte, fun hpast => ?past, ?ends, fun op hwrite hresult hstatus => ?other⟩
  case head =>
    rw [readResult_head hres]
    rfl
  case empty =>
    rw [readResult_empty hres]
    rfl
  case byte =>
    rw [statusByte_of_place hv]
    rfl
  case past =>
    rw [statusByte_past hpast]
    rfl
  case ends => rw [endStatus_eq]
  case other => rw [exec_spiUnknownOperation (spiOperation_other hwrite hresult hstatus), spi_released hs]

/-! ### SKIPPED and BAD_VALUE given by the executor (R189, R191) -/

theorem exec_requestSkipped (s : State) : exec .requestSkipped s = execRequestSkipped s := rfl

theorem exec_requestMalformed (s : State) : exec .requestMalformed s = execRequestMalformed s := rfl

/-- R189 case 2: a stated length above 200, or a body shorter than it. -/
theorem wellSized_eq_false {q : Request} : q.wellSized = false ↔ 200 < q.length.toNat ∨ q.body.length < q.length.toNat := by
  simp only [Request.wellSized, Bool.and_eq_false_iff, decide_eq_false_iff_not, Nat.not_le]

/-- R191: end-of-frame closes the frame, whatever the result. -/
theorem frameAfter_end {flags : Byte} (h : endOfFrame flags = true) (c : ResultCode) : frameAfter flags c = .notInFrame := by
  simp only [frameAfter, h, if_true]

/-- R191: without end-of-frame the frame goes on, failed unless the result is DONE. -/
theorem frameAfter_open {flags : Byte} (h : endOfFrame flags = false) (c : ResultCode) : frameAfter flags c = .inFrame (c != .done) := by
  simp only [frameAfter, h, Bool.false_eq_true, if_false]

/-- Settles O11: the head record is taken and answered by the executor itself, and the frame follows the answer. -/
theorem skippedAndMalformedAnswered : Obligations.SkippedAndMalformedAnswered := by
  refine ⟨fun s q rest hpart hpin hex hroom hq => ?answers, fun flags c hend => frameAfter_end hend c, fun flags hopen => frameAfter_open hopen .done,
    fun flags c hopen hc => ?failed⟩
  case answers =>
    have taken := ready_of_head hpart hpin hex hroom hq
    refine ⟨fun hframe => ?skipped, fun hframe hbad => ?malformed⟩
    case skipped =>
      simp only [exec_requestSkipped, execRequestSkipped, taken, if_pos hframe, answer_port hex]
      rfl
    case malformed =>
      have hcase : q.wellSized = false ∨ q.code.toNat ∉ catalogue := by
        rw [wellSized_eq_false, or_assoc]
        exact hbad
      simp only [exec_requestMalformed, execRequestMalformed, taken, if_pos (And.intro hframe hcase), answer_port hex]
      rfl
  case failed => rw [frameAfter_open hopen, bne_iff_ne.mpr hc]

/-! ### WARM_RESTART (R192, R203) -/

theorem exec_warmRestart {s : State} (hs : s.resetPin = .released) : exec .warmRestart s = .next { s with
    resetPin := .warmHeld
    port := s.port.restart s.heldAfterRestart
    recs := { s.recs with raised := [] }
    link := s.link.disown
    bus := if s.passWaits then { s.bus with passSlot := none } else s.bus } := by
  show execWarmRestart s = _
  simp only [execWarmRestart, if_pos hs]

/-- R181: a PASS waits in its slot unless the command on the bus is one. -/
theorem passWaits_eq_false {s : State} : s.passWaits = false ↔ ∃ f, s.recs.inFlight = some f ∧ f.job = .pass := by
  unfold State.passWaits
  cases s.recs.inFlight <;> simp

theorem passWaits_eq_true {s : State} : s.passWaits = true ↔ ∀ f, s.recs.inFlight = some f → f.job ≠ .pass := by
  rw [← Bool.not_eq_false, passWaits_eq_false]
  push Not
  rfl

section
variable {s : State} {h : Held}

theorem heldAfterRestart_free (he : s.port.executor = none) : s.heldAfterRestart = none := by
  simp only [State.heldAfterRestart, he]

/-- R192, R165, R181: a LINK-RESET and a PASS on the bus keep the executor, their result dropped. -/
theorem heldAfterRestart_kept (he : s.port.executor = some h) (hj : h.job = .linkReset ∨ (h.job = .pass ∧ s.passWaits = false)) :
    s.heldAfterRestart = some { h with dropped := true } := by
  obtain hj | ⟨hj, hbus⟩ := hj
  · simp only [State.heldAfterRestart, he, hj]
  · simp only [State.heldAfterRestart, he, hj, hbus, Bool.false_eq_true, if_false]

/-- R192, R133, R141, R181: a PASS that waits, a ROLL-CALL and the rest of a LOAD-APPEARANCES free the executor. -/
theorem heldAfterRestart_freed (he : s.port.executor = some h) (hj : (h.job = .pass ∧ s.passWaits = true) ∨ h.job = .rollCall ∨
    ∃ next items applied, h.job = .load next items applied) : s.heldAfterRestart = none := by
  obtain ⟨hj, hwaits⟩ | hj | ⟨next, items, applied, hj⟩ := hj
  · simp only [State.heldAfterRestart, he, hj, hwaits, if_true]
  · simp only [State.heldAfterRestart, he, hj]
  · simp only [State.heldAfterRestart, he, hj]

/-- Whatever the executor still holds after a warm restart is a PASS or a LINK-RESET whose result is dropped. -/
theorem dropped_of_heldAfterRestart (hx : s.heldAfterRestart = some h) : h.dropped = true ∧ (h.job = .pass ∨ h.job = .linkReset) := by
  cases he : s.port.executor with
  | none => rw [heldAfterRestart_free he] at hx; cases hx
  | some x =>
    cases hj : x.job with
    | pass =>
      cases hwaits : s.passWaits with
      | true => rw [heldAfterRestart_freed he (.inl ⟨hj, hwaits⟩)] at hx; cases hx
      | false =>
        rw [heldAfterRestart_kept he (.inr ⟨hj, hwaits⟩)] at hx
        cases hx
        exact ⟨rfl, .inl hj⟩
    | linkReset =>
      rw [heldAfterRestart_kept he (.inl hj)] at hx
      cases hx
      exact ⟨rfl, .inr hj⟩
    | load next items applied => rw [heldAfterRestart_freed he (.inr (.inr ⟨next, items, applied, hj⟩))] at hx; cases hx
    | rollCall => rw [heldAfterRestart_freed he (.inr (.inl hj))] at hx; cases hx

end

/-- R196, R198: ATTN is deasserted while enable is false. -/
theorem attn_eq_false_of_disabled {s : State} (h : s.port.enable = false) : s.attn = false := by
  simp only [State.attn, h, Bool.and_false, Bool.false_and]

/-- Settles O5: the port is reset but for what the executor keeps, and a PASS leaves its slot unless it is on the bus. -/
theorem warmRestartResetsPort : Obligations.WarmRestartResetsPort := by
  intro s hs
  refine ⟨_, exec_warmRestart hs, rfl, rfl, rfl, rfl, rfl, rfl, rfl, rfl, attn_eq_false_of_disabled rfl, fun h hx => dropped_of_heldAfterRestart hx,
    fun h he hj => heldAfterRestart_kept he ?kept, fun h he hj => heldAfterRestart_freed he ?freed, heldAfterRestart_free,
    rfl, rfl, rfl, rfl, rfl, ?bus, fun hflight => ?onBus, fun hflight => ?waiting⟩
  case kept => exact hj.imp_right (And.imp_right passWaits_eq_false.mpr)
  case freed => exact hj.imp_left (And.imp_right passWaits_eq_true.mpr)
  case bus => cases s.passWaits <;> rfl
  case onBus => simp only [passWaits_eq_false.mpr hflight, Bool.false_eq_true, if_false]
  case waiting => simp only [passWaits_eq_true.mpr hflight, if_true]

end Sys2Proof.Machine
end

section
/-!
The attention table: the requests over it and the entry that is chosen (settles O48), the ATTN pin and the pending byte (settles O49).
-/
namespace Sys2Proof.Machine

/-! ### The level of an entry, and what is pending (R193, R196) -/

/-- R193: the level of an entry is that of one of its reasons, and no reason of it has a higher one. -/
theorem entryLevel_spec {x : Port} {reasons : List Reason} {v : Nat} (h : x.entryLevel reasons = some v) :
    (∃ q ∈ reasons, x.level q = v) ∧ ∀ q ∈ reasons, x.level q ≤ v := by
  obtain ⟨hmem, hmax⟩ := List.max?_eq_some_iff.mp h
  exact ⟨List.mem_map.mp hmem, fun q hq => hmax _ (List.mem_map_of_mem hq)⟩

/-- R186, R196: attention is pending exactly when some entry's level exceeds the mask. -/
theorem attentionPending_iff (x : Port) (raised : List (Entry × List Reason)) :
    attentionPending x raised = true ↔ ∃ e ∈ raised, ∃ v, x.entryLevel e.2 = some v ∧ x.mask < v := by
  rw [attentionPending, List.any_eq_true]
  refine exists_congr fun e => and_congr_right fun _ => ?_
  cases x.entryLevel e.2 <;> simp

theorem attn_iff {s : State} (hup : s.resetPin ≠ .coldHeld) :
    s.attn = true ↔ s.port.enable = true ∧ attentionPending s.port s.recs.raised = true := by
  simp only [State.attn, Bool.and_eq_true, bne_iff_ne, ne_eq, hup, not_false_eq_true, true_and]

/-- R186: the fourth byte of a READ_STATUS is the test of the attention table as it stands when the byte starts. -/
theorem readStatus_pendingByte {s : State} (hs : s.resetPin = .released) (hplace : s.port.status.length = 3) :
    ∃ t, exec (.readStatus .byteStarts) s = .next t ∧ t.port.status[3]? = some (boolByte (attentionPending s.port s.recs.raised)) := by
  refine ⟨_, (exec_readStatus_byteStarts s).trans (spi_released hs _), ?_⟩
  rw [startStatusByte_status, ← hplace, List.getElem?_concat_length, hplace]
  rfl

/-- Settles O49: the pin and the byte are the one test of the attention table, the pin with enable. -/
theorem attnFollowsAttentionTable : Obligations.AttnFollowsAttentionTable := by
  intro s
  refine ⟨fun hup => by rw [attn_iff hup, attentionPending_iff], fun hs hplace => ?_⟩
  obtain ⟨t, ht, hbyte⟩ := readStatus_pendingByte hs hplace
  refine ⟨t, ht, fun hsome => ?_, fun hnone => ?_⟩
  · rw [hbyte, (attentionPending_iff s.port s.recs.raised).mpr hsome]
    rfl
  · rw [hbyte, Bool.eq_false_iff.mpr (mt (attentionPending_iff s.port s.recs.raised).mp hnone)]
    rfl

/-! ### The choice of an entry (R195) -/

section
variable {x : Port} {xs : List (Entry × List Reason)} {y : Entry × List Reason} {v : Nat}

/-- An entry without a level, one that the mask hides, and one not above the best so far leave the choice as it is. -/
theorem chooseEntry_concat_stays
    (h : ∀ v, x.entryLevel y.2 = some v → v ≤ x.mask ∨ ∃ e reasons u, chooseEntry x xs = some (e, reasons, u) ∧ v ≤ u) :
    chooseEntry x (xs ++ [y]) = chooseEntry x xs := by
  rw [chooseEntry, List.foldl_concat, ← chooseEntry]
  cases hv : x.entryLevel y.2 with
  | none => rfl
  | some v =>
    simp only
    by_cases hm : x.mask < v
    · obtain hle | ⟨e, reasons, u, hbest, hle⟩ := h v hv
      · omega
      · simp only [if_pos hm, hbest, if_neg (Nat.not_lt.mpr hle)]
    · rw [if_neg hm]

/-- An entry above the mask and above the best so far is the new choice. -/
theorem chooseEntry_concat_beats (hv : x.entryLevel y.2 = some v) (hm : x.mask < v)
    (h : ∀ e reasons u, chooseEntry x xs = some (e, reasons, u) → u < v) : chooseEntry x (xs ++ [y]) = some (y.1, y.2, v) := by
  rw [chooseEntry, List.foldl_concat, ← chooseEntry]
  simp only [hv, if_pos hm]
  cases hbest : chooseEntry x xs with
  | none => rfl
  | some best =>
    obtain ⟨e, reasons, u⟩ := best
    simp only [if_pos (h e reasons u hbest)]

end

/-- R195: e stands in the list with this reason set and level above the mask, before every other entry of that level, and none has a higher one. -/
def ChosenIn (x : Port) (raised : List (Entry × List Reason)) (e : Entry) (reasons : List Reason) (level : Nat) : Prop :=
  x.entryLevel reasons = some level ∧ x.mask < level ∧ ∃ before later, raised = before ++ (e, reasons) :: later ∧
    (∀ y ∈ before, ∀ v, x.entryLevel y.2 = some v → v < level) ∧ (∀ y ∈ later, ∀ v, x.entryLevel y.2 = some v → v ≤ level)

section
variable {x : Port} {raised : List (Entry × List Reason)} {e : Entry} {reasons : List Reason} {level : Nat}

theorem ChosenIn.level_le (h : ChosenIn x raised e reasons level) {y : Entry × List Reason} (hy : y ∈ raised) {v : Nat}
    (hv : x.entryLevel y.2 = some v) : v ≤ level := by
  obtain ⟨hlevel, _, before, later, rfl, hbefore, hlater⟩ := h
  obtain hy | hy := List.mem_append.mp hy
  · exact (hbefore y hy v hv).le
  · obtain rfl | hy := List.mem_cons.mp hy
    · exact (Option.some.inj (hv.symm.trans hlevel)).le
    · exact hlater y hy v hv

/-- An entry of no higher level may follow. -/
theorem ChosenIn.concat (h : ChosenIn x raised e reasons level) {y : Entry × List Reason}
    (hy : ∀ v, x.entryLevel y.2 = some v → v ≤ level) : ChosenIn x (raised ++ [y]) e reasons level := by
  obtain ⟨hlevel, hmask, before, later, rfl, hbefore, hlater⟩ := h
  refine ⟨hlevel, hmask, before, later ++ [y], by simp, hbefore, fun z hz v hv => ?_⟩
  obtain hz | hz := List.mem_append.mp hz
  · exact hlater z hz v hv
  · rw [List.mem_singleton] at hz
    subst hz
    exact hy v hv

/-- An entry above the mask and above all before it is chosen. -/
theorem ChosenIn.last (hlevel : x.entryLevel reasons = some level) (hmask : x.mask < level)
    (h : ∀ y ∈ raised, ∀ v, x.entryLevel y.2 = some v → v < level) : ChosenIn x (raised ++ [(e, reasons)]) e reasons level :=
  ⟨hlevel, hmask, raised, [], rfl, h, fun _ hy => absurd hy List.not_mem_nil⟩

end

/-- R195: the entry that TAKE-ATTENTION chooses, or none exceeds the mask. -/
theorem chooseEntry_spec (x : Port) (raised : List (Entry × List Reason)) :
    (∀ e reasons level, chooseEntry x raised = some (e, reasons, level) → ChosenIn x raised e reasons level) ∧
    (chooseEntry x raised = none → ∀ y ∈ raised, ∀ v, x.entryLevel y.2 = some v → v ≤ x.mask) := by
  induction raised using List.reverseRecOn with
  | nil => exact ⟨fun _ _ _ h => (nomatch h), fun _ _ hy => absurd hy List.not_mem_nil⟩
  | append_singleton xs y ih =>
    obtain ⟨hchosen, hnone⟩ := ih
    by_cases hbeats : ∃ v, x.entryLevel y.2 = some v ∧ x.mask < v ∧ ∀ e reasons u, chooseEntry x xs = some (e, reasons, u) → u < v
    case pos =>
      obtain ⟨v, hv, hm, hbest⟩ := hbeats
      have below : ∀ z ∈ xs, ∀ w, x.entryLevel z.2 = some w → w < v := fun z hz w hw => by
        cases hx : chooseEntry x xs with
        | none => exact lt_of_le_of_lt (hnone hx z hz w hw) hm
        | some best =>
          obtain ⟨e, reasons, u⟩ := best
          exact lt_of_le_of_lt ((hchosen e reasons u hx).level_le hz hw) (hbest e reasons u hx)
      rw [chooseEntry_concat_beats hv hm hbest]
      refine ⟨fun e reasons level h => ?_, fun h => nomatch h⟩
      cases h
      exact .last hv hm below
    case neg =>
      have stays : ∀ v, x.entryLevel y.2 = some v → v ≤ x.mask ∨ ∃ e reasons u, chooseEntry x xs = some (e, reasons, u) ∧ v ≤ u := by
        intro v hv
        by_contra hnot
        push Not at hnot
        exact hbeats ⟨v, hv, hnot.1, hnot.2⟩
      rw [chooseEntry_concat_stays stays]
      refine ⟨fun e reasons level h => (hchosen e reasons level h).concat fun v hv => ?_, fun h z hz v hv => ?_⟩
      · obtain hle | ⟨e', reasons', u, hbest, hle⟩ := stays v hv
        · exact hle.trans (hchosen e reasons level h).2.1.le
        · cases h.symm.trans hbest
          exact hle
      · obtain hz | hz := List.mem_append.mp hz
        · exact hnone h z hz v hv
        · rw [List.mem_singleton] at hz
          subst hz
          obtain hle | ⟨e', reasons', u, hbest, _⟩ := stays v hv
          · exact hle
          · cases h.symm.trans hbest

/-! ### SET-ATTENTION and TAKE-ATTENTION (R194, R195) -/

theorem exec_setAttention (s : State) : exec .setAttention s = execSetAttention s := rfl

theorem exec_takeAttention (s : State) : exec .takeAttention s = execTakeAttention s := rfl

theorem levelsOf?_toList (levels : Vector Nat 21) : levelsOf? levels.toList = some levels := by
  unfold levelsOf?
  rw [dif_pos (Vector.length_toList)]
  rfl

/-- R194: 23 bytes with every value in range. -/
theorem setAttention_done {p : Port} {bs : List Byte} {m e : Byte} {levels : Vector Nat 21} {mask : Nat} {enable : Bool} (hlen : bs.length = 21)
    (hlevels : newLevels bs p.levels.toList = some levels.toList) (hmask : nibbleOf? m p.mask = some mask)
    (henable : enableOf? e p.enable = some enable) :
    p.setAttention (bs ++ [m, e]) = (.done, { p with levels := levels, mask := mask, enable := enable }) := by
  have htake : (bs ++ [m, e]).take 21 = bs := List.take_left' hlen
  have hdrop : (bs ++ [m, e]).drop 21 = [m, e] := List.drop_left' hlen
  simp only [Port.setAttention, htake, hdrop, hlevels, Option.bind_some, levelsOf?_toList, hmask, henable]

section
variable {s : State} {q : Request} {rest : List Request}

theorem setAttention_answers {levels : Vector Nat 21} {mask : Nat} {enable : Bool} (ht : Takes s 48 q rest)
    (h : Port.setAttention q.body { s.port with requests := rest } =
      (.done, { s.port with requests := rest, levels := levels, mask := mask, enable := enable })) :
    exec .setAttention s =
      .next { s with port := { (s.answered q rest .done []).port with levels := levels, mask := mask, enable := enable } } := by
  simp only [exec_setAttention, execSetAttention, takes_of_Takes ht]
  rw [h]
  simp only [Port.answer, Port.reply, answered_port, executor_of_Takes ht]

variable (ht : Takes s 49 q rest) (hq : q.body = [])
include ht hq

theorem takeAttention_takes {e : Entry} {reasons : List Reason} {level : Nat} (h : chooseEntry s.port s.recs.raised = some (e, reasons, level)) :
    exec .takeAttention s = .next ((s.answered q rest .done (attentionBody e reasons level)).withRecs (s.recs.takeEntry e)) := by
  have hchoose : chooseEntry { s.port with requests := rest } s.recs.raised = some (e, reasons, level) := h
  simp only [exec_takeAttention, execTakeAttention, takes_of_Takes ht, hq, hchoose, answer_port (executor_of_Takes ht)]
  rfl

theorem takeAttention_none (h : chooseEntry s.port s.recs.raised = none) :
    exec .takeAttention s = .next (s.answered q rest .done noAttentionBody) := by
  have hchoose : chooseEntry { s.port with requests := rest } s.recs.raised = none := h
  simp only [exec_takeAttention, execTakeAttention, takes_of_Takes ht, hq, hchoose, answer_port (executor_of_Takes ht)]
  rfl

end

/-- R195: the order of the sources, and within a source the order of the numbers. -/
theorem rank_order : Entry.part.rank < Entry.link.rank ∧ Entry.link.rank < Entry.pool.rank ∧ (∀ i, Entry.pool.rank < (Entry.card i).rank) ∧
    (∀ i j, i < 32 → (Entry.card i).rank < (Entry.position j).rank) ∧ (∀ i j, i < 48 → (Entry.position i).rank < (Entry.group j).rank) ∧
    (∀ i j, i < 256 → (Entry.group i).rank < (Entry.line j).rank) ∧
    ∀ i j, i < j → (Entry.card i).rank < (Entry.card j).rank ∧ (Entry.position i).rank < (Entry.position j).rank ∧
      (Entry.group i).rank < (Entry.group j).rank ∧ (Entry.line i).rank < (Entry.line j).rank := by
  simp only [Entry.rank]
  refine ⟨?_, ?_, ?_, ?_, ?_, ?_, ?_⟩ <;> intros <;> omega

/-- Settles O48: the two requests as they are taken, the choice by `chooseEntry_spec`, and the order that every raise keeps. -/
theorem attentionRequestsAct : Obligations.AttentionRequestsAct := by
  refine ⟨fun s q rest bs m e xs levels mask enable ht hq hlen hlevels hxs hmask henable => ?set, fun s q rest ht hq => ?take,
    fun x reasons v hv => entryLevel_spec hv, fun x raised => chooseEntry_spec x raised,
    fun r e q hsorted => (pairwise_raiseIn hsorted e q).1, rank_order⟩
  case set =>
    subst hxs
    exact setAttention_answers ht (hq ▸ setAttention_done (p := { s.port with requests := rest }) hlen hlevels hmask henable)
  case take => exact ⟨fun e reasons level h => takeAttention_takes ht hq h, takeAttention_none ht hq⟩

end Sys2Proof.Machine
end

section
/-!
Resets and the state after one: the cold start (settles O3), reset release (settles O4), the invariants at reset (settles O55).
-/
namespace Sys2Proof.Machine

/-! ### A block held by a cold start (R198) -/

section
variable {s : State} (hheld : s.resetPin = .coldHeld)
include hheld

theorem request_of_held (code : Nat) (f : List Byte → State → ResultCode × List Byte × State) : s.request code f = .next s := by
  simp only [State.request, takes_none_of_held hheld]

theorem recordRequest_of_held (code : Nat) (f : List Byte → Records → ResultCode × Records) : s.recordRequest code f = .next s :=
  recordRequest_not_taken (takes_none_of_held hheld code) f

theorem readRequest_of_held (code : Nat) (f : List Byte → ResultCode × List Byte) : s.readRequest code f = .next s := by
  simp only [State.readRequest, takes_none_of_held hheld]

theorem spi_of_held (f : Port → Port) : s.spi f = .next s := spi_not_released (by rw [hheld]; decide) f

/-- R198, R183: no SPI transaction has an effect, of a defined operation or not. -/
theorem execSpiUnknownOperation_of_held (op : Byte) (clocked : Nat) : execSpiUnknownOperation op clocked s = .next s := by
  unfold execSpiUnknownOperation
  split
  · rfl
  · exact spi_of_held hheld _

/-- R198, R192: RESET_N is low, so it cannot go low. -/
theorem execWarmRestart_of_held : execWarmRestart s = .next s := if_neg (by rw [hheld]; decide)

/-- R198: while a cold start holds the block, the executor takes no request, the port no transaction, and no event has an effect; only a reset has one. -/
theorem exec_of_held {c : Instr} (hcold : ∀ cause, c ≠ .coldStart cause) (hrelease : c ≠ .resetRelease) : exec c s = .next s := by
  cases c
  case coldStart cause => exact absurd rfl (hcold cause)
  case resetRelease => exact absurd rfl hrelease
  case warmRestart => exact execWarmRestart_of_held hheld
  case writeRequest | readResult => exact spi_of_held hheld _
  case readStatus phase => cases phase <;> exact spi_of_held hheld _
  case spiUnknownOperation op clocked => exact execSpiUnknownOperation_of_held hheld op clocked
  case requestSkipped => simp only [exec_requestSkipped, execRequestSkipped, ready_none_of_held hheld]
  case requestMalformed => simp only [exec_requestMalformed, execRequestMalformed, ready_none_of_held hheld]
  case loadAppearances => simp only [exec_loadAppearances, execLoadAppearances, takes_none_of_held hheld]
  case rollCall => simp only [exec_rollCall, execRollCall, takes_none_of_held hheld]
  case linkReset => simp only [exec_linkReset, execLinkReset, takes_none_of_held hheld]
  case pass => simp only [exec_pass, execPass, takes_none_of_held hheld]
  case setAttention => simp only [exec_setAttention, execSetAttention, takes_none_of_held hheld]
  case takeAttention => simp only [exec_takeAttention, execTakeAttention, takes_none_of_held hheld]
  case takeKeys | admitConsole | revokeConsole | readParked | setJoinPolicy =>
    simp only [exec]
    exact request_of_held hheld _ _
  case readLine | readAppearance | readGroup | readMember | readPosition | readWindow | readCard | readPool | readIdentity =>
    exact readRequest_of_held hheld _ _
  case defineLine | changeLine | retireLine | forceRelease | clearMissed | defineAppearance | changeAppearance | retireAppearance | defineGroup |
      changeGroup | retireGroup | addMember | removeMember | lockPosition | unlockPosition | injectEvent | setDisposition | setWindow | setReserve =>
    simp only [exec]
    exact recordRequest_of_held hheld _ _
  all_goals exact whenUp_of_held hheld _

/-- R198, R196: ATTN is deasserted while a cold start holds the block. -/
theorem attn_of_held : s.attn = false := by
  simp only [State.attn, hheld, bne_self_eq_false, Bool.false_and]

end

theorem exec_coldStart_powerUp (s : State) : exec (.coldStart .powerUp) s = .next { s with resetPin := .coldHeld } := rfl

theorem exec_coldStart_resetLow {s : State} (hs : s.resetPin = .released) :
    exec (.coldStart .resetLow) s = .next { s with resetPin := .coldHeld } := if_pos hs

/-- Settles O3: both causes hold the block, and a held block is left by a reset only. -/
theorem coldStartHolds : Obligations.ColdStartHolds :=
  ⟨exec_coldStart_powerUp, fun _ => exec_coldStart_resetLow, fun _ => attn_of_held, fun _ _ hheld => exec_of_held hheld⟩

/-! ### RESET_RELEASE (R198, R203) -/

theorem exec_resetRelease (s : State) : exec .resetRelease s = execResetRelease s := rfl

theorem exec_resetRelease_cold {s : State} (hs : s.resetPin = .coldHeld) :
    exec .resetRelease s = .next { State.reset with pending := s.pending } := by
  simp only [exec_resetRelease, execResetRelease, hs]

theorem exec_resetRelease_warm {s : State} (hs : s.resetPin = .warmHeld) : exec .resetRelease s = .next { s with resetPin := .released } := by
  simp only [exec_resetRelease, execResetRelease, hs]

/-! ### What stands in each place of a cold table -/

theorem vget_replicate {α : Type} {n : Nat} (x : α) (i : Fin n) : vget (Vector.replicate n x) i = x := Vector.getElem_replicate i.isLt

theorem pos_reset (p : Fin 48) : State.reset.recs.pos p = Position.cold := vget_replicate ..

theorem card_reset (c : Fin 32) : State.reset.recs.card c = Card.cold := vget_replicate ..

theorem window_reset (w : Fin 16) : vget State.reset.recs.windows w = Window.cold := vget_replicate ..

theorem entry_reset (p : Fin 48) : State.reset.link.entry p = none := vget_replicate ..

theorem pres_reset (p : Fin 48) : State.reset.link.pres p = Presence.cold := vget_replicate ..

theorem volume_cold (n : Fin 8) : vget Position.cold.volume n = 8 := vget_replicate ..

theorem speaker_cold (n : Fin 8) : vget Position.cold.speaker n = .none := vget_replicate ..

/-- Settles O4: what each release does, then the cold start values, those of a table by what stands in each of its places. -/
theorem resetReleaseLoadsColdValues : Obligations.ResetReleaseLoadsColdValues := by
  refine ⟨fun s => exec_resetRelease_cold, fun s => exec_resetRelease_warm, rfl, rfl, rfl, ?records, fun p => ?position, fun c => ?card,
    window_reset, ?link, fun p => ⟨entry_reset p, pres_reset p⟩, ?bus, ?port⟩
  case records => exact ⟨rfl, rfl, rfl, rfl, rfl, rfl, rfl, rfl, rfl, rfl, rfl, rfl, rfl⟩
  case position =>
    rw [pos_reset]
    exact ⟨rfl, rfl, rfl, rfl, rfl, rfl, rfl, rfl, rfl, rfl, rfl, rfl, rfl, fun n => ⟨volume_cold n, speaker_cold n⟩⟩
  case card =>
    rw [card_reset]
    exact ⟨rfl, rfl, rfl⟩
  case link => exact ⟨rfl, rfl, rfl, rfl, rfl, rfl⟩
  case bus => exact ⟨rfl, rfl, rfl⟩
  case port => exact ⟨rfl, rfl, rfl, rfl, rfl, rfl, rfl, rfl⟩

/-! ### The invariants at reset -/

/-- R188: after a cold start both queues are empty and the executor is free. -/
theorem queuesFit_cold : Port.cold.QueuesFit := ⟨Nat.zero_le _, Nat.zero_le _, fun hx => absurd rfl hx⟩

/-- R112: after a cold start there is no line, so no slot is due. -/
theorem slotDue_cold (id : Nat) : Records.cold.slotDue id = false := rfl

/-- Settles O55: each invariant is one of the cold port, the cold records or the cold link. -/
theorem resetSatisfiesInvariants : Obligations.ResetSatisfiesInvariants :=
  ⟨(queuesFit_iff _).mpr queuesFit_cold, (workListExact_iff _).mpr workExact_cold, slotDue_cold, (noRetirementDue_iff _).mpr retirementsSettled_cold,
    (levelsFit_iff _).mpr levelsFit_cold, (listsFit_iff _).mpr bounded_cold⟩

end Sys2Proof.Machine
end

section
/-!
The image stage: its header (settles O6), its end (settles O7), its sections and their items (settles O8).
-/
namespace Sys2Proof.Machine

/-! ### The end of the image stage (R201, R202) -/

/-- R202: the named cards, whose probes the cards stage waits for. -/
def State.cardsDue (s : State) : List Nat := ((allFin 32).filter (fun c => s.recs.named c)).map (fun c => c.val)

/-- R201, R202: the state in which the image stage has ended and the cards stage has begun. -/
def State.beginCards (s : State) : State :=
  { s with
    part := .startingCards
    recs := (s.recs.raise .part .image).makeDue
    bus := { s.bus with probeTimer := some 1000, stageCards := s.cardsDue } }

/-- R202: with no card named, the cards stage ends in the step in which it begins. -/
theorem endImage_eq (w : Wires) (s : State) : s.endImage w = if s.cardsDue = [] then s.beginCards.startConsoles w else s.beginCards := rfl

theorem cardsDue_eq_nil {s : State} : s.cardsDue = [] ↔ ∀ c, s.recs.named c = false := by
  simp [State.cardsDue, List.filter_eq_nil_iff]

theorem endImage_of_named {s : State} (h : ∃ c, s.recs.named c = true) (w : Wires) : s.endImage w = s.beginCards := by
  obtain ⟨c, hc⟩ := h
  rw [endImage_eq, if_neg]
  intro hnil
  rw [cardsDue_eq_nil.mp hnil c] at hc
  exact absurd hc Bool.false_ne_true

theorem endImage_of_none {s : State} (h : ∀ c, s.recs.named c = false) (w : Wires) : s.endImage w = s.beginCards.startConsoles w := by
  rw [endImage_eq, if_pos (cardsDue_eq_nil.mpr h)]

/-- The consoles stage changes the records by at most LINK STUCK, and leaves the bus alone. -/
theorem startConsoles_recs (w : Wires) (s : State) :
    ((s.startConsoles w).recs = s.recs ∨ (s.startConsoles w).recs = s.recs.raise .link .stuck) ∧ (s.startConsoles w).bus = s.bus := by
  unfold State.startConsoles
  split
  · exact ⟨.inl rfl, rfl⟩
  · exact ⟨.inr rfl, rfl⟩

/-- What the end of the image stage brings to the records and the bus does not depend on whether the cards stage lasts. -/
theorem endImage_recs (w : Wires) (s : State) :
    ((s.endImage w).recs = s.beginCards.recs ∨ (s.endImage w).recs = s.beginCards.recs.raise .link .stuck) ∧ (s.endImage w).bus = s.beginCards.bus := by
  rw [endImage_eq]
  split
  · exact startConsoles_recs w s.beginCards
  · exact ⟨.inl rfl, rfl⟩

theorem beginCards_recs (s : State) : s.beginCards.recs = (s.recs.raise .part .image).makeDue := by
  simp only [State.beginCards]

theorem reasons_makeDue (r : Records) (e : Entry) : r.makeDue.reasons e = r.reasons e := by
  rw [(makeDue_spec r).2, Records.reasons, Records.reasons]

/-- R201: PART IMAGE stands in the attention table. -/
theorem image_mem_reasons_endImage (w : Wires) (s : State) : Reason.image ∈ (s.endImage w).recs.reasons .part := by
  have hbegin : Reason.image ∈ s.beginCards.recs.reasons .part := by
    rw [beginCards_recs, reasons_makeDue]
    exact mem_reasons_raise ..
  obtain ⟨hsame | hstuck, _⟩ := endImage_recs w s
  · rw [hsame]
    exact hbegin
  · rw [hstuck, reasons_raise_other _ _ (by decide)]
    exact hbegin

/-- R180, R202: a named ABSENT card is due. -/
theorem probeDue_endImage {s : State} {c : Fin 32} (hnamed : s.recs.named c = true) (habsent : (s.recs.card c).present = false) (w : Wires) :
    ((s.endImage w).recs.card c).probeDue = true := by
  have hbegin : (s.beginCards.recs.card c).probeDue = true := by
    have hnamed' : (s.recs.raise .part .image).named c = true := hnamed
    rw [beginCards_recs, (makeDue_spec _).1, card_raise, habsent, hnamed']
    exact Bool.or_true _
  obtain ⟨hsame | hstuck, _⟩ := endImage_recs w s
  · rw [hsame]
    exact hbegin
  · rw [hstuck, card_raise]
    exact hbegin

/-- Settles O7: the records and the bus of the stage's end, and the stage that follows by whether a card is named and by the wires. -/
theorem imageStageEnds : Obligations.ImageStageEnds := by
  intro s w
  refine ⟨image_mem_reasons_endImage w s, ?timer, fun c hnamed habsent => probeDue_endImage hnamed habsent w, fun h => ?cards,
    fun h hhigh => ?high, fun h hlow => ?low⟩
  case timer =>
    rw [(endImage_recs w s).2]
    rfl
  case cards =>
    rw [endImage_of_named h]
    exact ⟨rfl, rfl⟩
  case high =>
    rw [endImage_of_none h, startConsoles_high hhigh.1 hhigh.2]
    exact ⟨rfl, rfl, rfl, rfl⟩
  case low =>
    rw [endImage_of_none h, startConsoles_low hlow]
    exact ⟨rfl, rfl, rfl, mem_reasons_raise ..⟩

/-! ### The header (R199) -/

theorem exec_imageHeader (bytes : List Byte) (w : Wires) (s : State) : exec (.imageHeader bytes w) s = execImageHeader bytes w s := rfl

section
variable {s : State} (hup : s.resetPin ≠ .coldHeld) (hpart : s.part = .startingImage) (hread : s.loader.headerRead = false) (w : Wires)
include hup hpart hread

/-- R199: the memory stopped acknowledging before the fourth byte: there is no image. -/
theorem imageHeader_cut {bytes : List Byte} (h : bytes.length < 4) :
    exec (.imageHeader bytes w) s = .next ({ s with loader := ⟨.none, 0, 0, 0, true, 0, 0⟩ }.endImage w).finish := by
  rw [exec_imageHeader]
  unfold execImageHeader
  rw [whenUp_of_up hup, if_pos ⟨hpart, hread⟩]
  match bytes, h with
  | [], _ => rfl
  | [_], _ => rfl
  | [_, _], _ => rfl
  | [_, _, _], _ => rfl
  | _ :: _ :: _ :: _ :: _, h => exact absurd h (by simp)

theorem imageHeader_badSignature {s1 s0 v : Byte} (h : ¬(s1 = 0x4C ∧ s0 = 0x44 ∧ v = 1)) (n : Byte) :
    exec (.imageHeader [s1, s0, v, n] w) s = .next ({ s with loader := ⟨.badSignature, 0, 0, 0, true, 0, 4⟩ }.endImage w).finish := by
  rw [exec_imageHeader]
  unfold execImageHeader
  rw [whenUp_of_up hup, if_pos ⟨hpart, hread⟩]
  exact if_neg h

/-- R199: an image of n sections, with none of which the stage ends at once. -/
theorem imageHeader_loaded (n : Byte) :
    let t : State := { s with loader := ⟨.loaded, 0, 0, n.toNat, true, n.toNat, 4⟩ }
    exec (.imageHeader [0x4C, 0x44, 1, n] w) s = .next (if n = 0 then t.endImage w else t).finish := by
  rw [exec_imageHeader]
  unfold execImageHeader
  rw [whenUp_of_up hup, if_pos ⟨hpart, hread⟩]
  exact if_pos ⟨rfl, rfl, rfl⟩

end

/-- Settles O6: a header cut short, a wrong one, and a right one by its count of sections. -/
theorem imageHeaderDecides : Obligations.ImageHeaderDecides := by
  intro s w hup hpart hread
  refine ⟨fun bytes => imageHeader_cut hup hpart hread w, fun s1 s0 v n h => imageHeader_badSignature hup hpart hread w h n, fun n hn => ?sections, ?empty⟩
  case sections => rw [imageHeader_loaded hup hpart hread w n, if_neg hn]
  case empty => exact imageHeader_loaded hup hpart hread w 0

/-! ### Reading a section (R200) -/

section
variable {k c1 c0 : Byte}

/-- R200: the memory gave the whole section, whatever follows it. -/
theorem sectionOf_whole {items : List Byte} (hlen : items.length = num2 c1 c0 * itemLength k.toNat) (s1 s0 : Byte) (more : List Byte) :
    sectionOf (k :: c1 :: c0 :: (items ++ s1 :: s0 :: more)) = some (k.toNat, num2 c1 c0, items, num2 s1 s0) := by
  simp only [sectionOf, ← hlen, List.drop_left, List.take_left]

/-- R200: the memory stopped before the second byte of the sum. -/
theorem sectionOf_cut {rest : List Byte} (h : rest.length < num2 c1 c0 * itemLength k.toNat + 2) : sectionOf (k :: c1 :: c0 :: rest) = none := by
  have hshort : (rest.drop (num2 c1 c0 * itemLength k.toNat)).length < 2 := by rw [List.length_drop]; omega
  simp only [sectionOf]
  split
  · rename_i heq
    rw [heq] at hshort
    exact absurd hshort (by simp)
  · rfl

end

/-- R200: three bytes of head and two of sum are the least a section has. -/
theorem sectionOf_short {bytes : List Byte} (h : bytes.length < 5) : sectionOf bytes = none := by
  match bytes, h with
  | [], _ => rfl
  | [_], _ => rfl
  | [_, _], _ => rfl
  | _ :: _ :: _ :: rest, h =>
    refine sectionOf_cut ?_
    simp only [List.length_cons] at h
    omega

/-! ### Dealing with a section (R200) -/

section
variable {s : State} {kind count sum : Nat} {items : List Byte}

theorem takeSection_skips (h : (kind < 1 ∨ 7 < kind) ∨ itemSum items ≠ sum) : s.takeSection kind count items sum = s.skipSection := by
  unfold State.takeSection
  split
  · rfl
  · rename_i hkind
    exact if_pos (h.resolve_left hkind)

theorem takeSection_applies (hlow : 1 ≤ kind) (hhigh : kind ≤ 7) (hsum : itemSum items = sum) :
    s.takeSection kind count items sum = (itemsOf (itemLength kind) count items).foldl (State.takeItem kind) s := by
  have hkind : ¬(kind < 1 ∨ 7 < kind) := by omega
  rw [State.takeSection, if_neg hkind, if_neg (not_not.mpr hsum)]

theorem dealSection_within (h : s.loader.address + 5 + items.length ≤ 65536) :
    s.dealSection kind count items sum = { s.takeSection kind count items sum with loader := { (s.takeSection kind count items sum).loader with
      sectionsLeft := s.loader.sectionsLeft - 1, address := s.loader.address + 5 + items.length } } :=
  if_neg (Nat.not_lt.mpr h)

/-- R200: the bytes of the section would run past address 65535. -/
theorem dealSection_past (h : 65536 < s.loader.address + 5 + items.length) : s.dealSection kind count items sum = s.abandonImage := if_pos h

end

theorem exec_imageSection (bytes : List Byte) (w : Wires) (s : State) : exec (.imageSection bytes w) s = execImageSection bytes w s := rfl

section
variable {s : State} {bytes : List Byte} (hup : s.resetPin ≠ .coldHeld) (hpart : s.part = .startingImage) (hread : s.loader.headerRead = true)
  (hleft : 0 < s.loader.sectionsLeft) (w : Wires)
include hup hpart hread hleft

/-- R200: an abandoned image has no section left, so the stage ends. -/
theorem imageSection_abandons
    (h : sectionOf bytes = none ∨ ∃ kind count items sum, sectionOf bytes = some (kind, count, items, sum) ∧
      65536 < s.loader.address + 5 + items.length) : exec (.imageSection bytes w) s = .next (s.abandonImage.endImage w).finish := by
  rw [exec_imageSection, execImageSection, whenUp_of_up hup, if_pos ⟨hpart, hread, hleft⟩]
  obtain hnone | ⟨kind, count, items, sum, hsome, hpast⟩ := h
  · simp only [hnone]
    rfl
  · simp only [hsome, dealSection_past hpast]
    rfl

/-- R200: a section read whole counts as dealt with, and the last one ends the stage. -/
theorem imageSection_deals {kind count sum : Nat} {items : List Byte} (h : sectionOf bytes = some (kind, count, items, sum))
    (hfits : s.loader.address + 5 + items.length ≤ 65536) {t : State} (ht : s.takeSection kind count items sum = t) :
    let dealt : State := { t with loader := { t.loader with
      sectionsLeft := s.loader.sectionsLeft - 1, address := s.loader.address + 5 + items.length } }
    exec (.imageSection bytes w) s = .next (if s.loader.sectionsLeft = 1 then dealt.endImage w else dealt).finish := by
  have hlast : s.loader.sectionsLeft - 1 = 0 ↔ s.loader.sectionsLeft = 1 := by omega
  rw [exec_imageSection, execImageSection, whenUp_of_up hup, if_pos ⟨hpart, hread, hleft⟩]
  simp only [h, dealSection_within hfits, ht, hlast]

end

/-! ### Items (R200) -/

section
variable {s t : State} {kind : Nat} {item : List Byte} {c : ResultCode} (h : s.applyItem kind item = (c, t))
include h

theorem takeItem_done (hc : c = .done) : s.takeItem kind item = t := by
  simp only [State.takeItem, h, hc, if_true]

theorem takeItem_refused (hc : c ≠ .done) :
    s.takeItem kind item = { s with loader := { s.loader with refused := s.loader.refused + 1 } } := by
  simp only [State.takeItem, h, hc, if_false]

end

/-- R200: an item of this kind stands for the request i over the records with this code: the same function of the same bytes. -/
def ItemOf (kind code : Nat) (i : Instr) : Prop :=
  ∃ f : List Byte → Records → ResultCode × Records,
    (∀ x : State, exec i x = x.recordRequest code f) ∧ ∀ (s : State) (item : List Byte), s.applyItem kind item = s.onRecords (f item)

/-- R200: the items over the records; bytes of another length are refused by both. -/
theorem recordItems : ItemOf 1 40 .setWindow ∧ ItemOf 3 1 .defineLine ∧ ItemOf 4 8 .defineAppearance ∧ ItemOf 5 16 .defineGroup ∧
    ItemOf 6 20 .addMember := by
  refine ⟨⟨_, exec_setWindow, fun s item => ?_⟩, ⟨_, exec_defineLine, fun s item => ?_⟩, ⟨_, exec_defineAppearance, fun s item => ?_⟩,
    ⟨_, exec_defineGroup, fun s item => ?_⟩, ⟨_, exec_addMember, fun s item => ?_⟩⟩
  all_goals
    simp only [State.onRecords]
    split
    · rfl
    · rename_i hshape
      rw [State.applyItem]
      all_goals grind

section
variable {s t x : State} {c : ResultCode} {q : Request} {rest : List Request} (hrecs : x.recs = s.recs) (hlink : x.link = s.link)
include hrecs hlink

/-- R200: the request an item stands for has the item's result and the item's effect. -/
theorem recordItem_answers {kind code : Nat} {i : Instr} (hi : ItemOf kind code i) (h : s.applyItem kind q.body = (c, t)) (ht : Takes x code q rest) :
    exec i x = .next (((x.answered q rest c []).withRecs t.recs).withLink t.link).finish := by
  obtain ⟨f, hexec, happly⟩ := hi
  rw [happly] at h
  cases h
  rw [hexec, recordRequest_taken ht, hrecs]
  dsimp only
  rw [← hlink]
  rfl

theorem admitItem_answers (h : s.applyItem 2 q.body = (c, t)) (ht : Takes x 29 q rest) :
    exec .admitConsole x = .next (((x.answered q rest c []).withRecs t.recs).withLink t.link).finish := by
  rw [exec_admitConsole]
  refine linkRequest_taken ht (fun u hurecs hulink => ?_)
  rw [hrecs] at hurecs
  rw [hlink] at hulink
  split
  · rename_i heq
    rw [heq] at h
    cases h
    rw [← hurecs, ← hulink]
    rfl
  · rename_i hshape
    rw [State.applyItem] at h
    · cases h
      rw [← hurecs, ← hulink]
      rfl
    all_goals grind

end

/-! ### SETTINGS (R200) -/

/-- R103, R108: a reserve in range is taken, and a lowered one serves the wait list. -/
theorem setReserve_done {v : Nat} (hv : v ≤ 16) (r : Records) :
    r.setReserve v = (.done, if v < r.reserve then serveWaitList r.waitList { r with reserve := v } else { r with reserve := v }) := by
  split
  · rename_i h
    exact setReserve_of_lt hv h
  · rename_i h
    exact setReserve_of_le hv (Nat.not_lt.mp h)

section
variable (s : State) (d1 d3 d4 d5 d6 d7 d8 j v : Byte)

theorem applyItem_settings : s.applyItem 7 [d1, d3, d4, d5, d6, d7, d8, j, v] = s.applySettings d1 d3 d4 d5 d6 d7 d8 j v := rfl

/-- R200: one value out of range refuses the whole item. -/
theorem applySettings_refused
    (h : (∃ d ∈ [d1, d3, d4, d5, d6, d7, d8], Disposition.ofNat? d.toNat = none) ∨ JoinPolicy.ofNat? j.toNat = none ∨ 16 < v.toNat) :
    s.applySettings d1 d3 d4 d5 d6 d7 d8 j v = (.badValue, s) := by
  unfold State.applySettings
  split
  · obtain ⟨d, hd, hnone⟩ | hnone | hv := h
    · simp only [List.mem_cons, List.not_mem_nil, or_false] at hd
      obtain rfl | rfl | rfl | rfl | rfl | rfl | rfl := hd
      all_goals simp_all
    · simp_all
    · exact if_neg (Nat.not_le.mpr hv)
  · rfl

end

/-- Settles O8: what the bytes of a section come to, what becomes of the section, and its items by the request each stands for. -/
theorem imageSectionDealt : Obligations.ImageSectionDealt := by
  refine ⟨fun s w hup hpart hread hleft => ⟨fun k c1 c0 s1 s0 items more hlen hfits => ⟨fun hkind => ?kind, fun hsum => ?sum,
    fun hlow hhigh hsum => ?applied⟩, fun k c1 c0 s1 s0 items more hlen hpast => ?past, fun k c1 c0 rest hcut => ?cut, fun bytes hshort => ?short⟩,
    fun s t kind item c h => ⟨takeItem_done h, takeItem_refused h, fun x q rest hrecs hlink hq => ?request⟩,
    fun s d1 d3 d4 d5 d6 d7 d8 j v => ⟨fun a b c d e f g policy ha hb hc hd he hf hg hpolicy hv => ?settings,
      applySettings_refused s d1 d3 d4 d5 d6 d7 d8 j v⟩⟩
  case kind => exact imageSection_deals hup hpart hread hleft w (sectionOf_whole hlen s1 s0 more) hfits (takeSection_skips (.inl hkind))
  case sum => exact imageSection_deals hup hpart hread hleft w (sectionOf_whole hlen s1 s0 more) hfits (takeSection_skips (.inr hsum))
  case applied => exact imageSection_deals hup hpart hread hleft w (sectionOf_whole hlen s1 s0 more) hfits (takeSection_applies hlow hhigh hsum)
  case past => exact imageSection_abandons hup hpart hread hleft w (.inr ⟨_, _, _, _, sectionOf_whole hlen s1 s0 more, hpast⟩)
  case cut => exact imageSection_abandons hup hpart hread hleft w (.inl (sectionOf_cut hcut))
  case short => exact imageSection_abandons hup hpart hread hleft w (.inl (sectionOf_short hshort))
  case request =>
    obtain ⟨window, line, appearance, group, member⟩ := recordItems
    subst hq
    refine ⟨?_, ?_, ?_, ?_, ?_, ?_⟩ <;> rintro rfl
    · exact recordItem_answers hrecs hlink window h
    · exact admitItem_answers hrecs hlink h
    · exact recordItem_answers hrecs hlink line h
    · exact recordItem_answers hrecs hlink appearance h
    · exact recordItem_answers hrecs hlink group h
    · exact recordItem_answers hrecs hlink member h
  case settings =>
    simp only [applyItem_settings, State.applySettings, ha, hb, hc, hd, he, hf, hg, hpolicy, if_pos hv, setReserve_done hv]
    rfl

end Sys2Proof.Machine
end

section
/-!
The step on a queue that holds a command (settles O1); the empty queue is `step_of_empty`.
-/
namespace Sys2Proof.Machine

/-- Settles O1: of the two branches of `step`, a queue with a front command selects the one that runs it. -/
theorem stepRunsFrontCommand : Obligations.StepRunsFrontCommand := by
  intro c rest s hfront
  unfold step
  rw [hfront]

end Sys2Proof.Machine
end
